-- ==== Sys2Proof/Word.lean ====
section
/-! DEFINITION. The word types of the block: bytes, 16-, 32- and 64-bit fields (spec/00_scope.md R9, R11, R12). -/

namespace Sys2Proof

/-- One byte of a frame, a descriptor or a buffer. -/
abbrev Byte := BitVec 8

/-- A 16-bit field: a port, a length, a checksum (R9). -/
abbrev Half := BitVec 16

/-- A 32-bit value: a device register, a command word, an IPv4 address (R9). -/
abbrev Word := BitVec 32

/-- A 64-bit physical address (spec/20_memory.md R103). -/
abbrev Addr := BitVec 64

/-- A 48-bit hardware address, a string of six bytes in wire order and never a number
(spec/30_encoding.md R152). -/
structure Mac where
  b0 : Byte
  b1 : Byte
  b2 : Byte
  b3 : Byte
  b4 : Byte
  b5 : Byte
deriving DecidableEq, Repr

/-- The six bytes in wire order. -/
def Mac.bytes (m : Mac) : List Byte := [m.b0, m.b1, m.b2, m.b3, m.b4, m.b5]

/-- ff:ff:ff:ff:ff:ff. -/
def Mac.broadcast : Mac := ⟨0xFF, 0xFF, 0xFF, 0xFF, 0xFF, 0xFF⟩

end Sys2Proof
end

