-- ==== Sys2Proof/Config.lean ====
section
/-! DEFINITION. What an implementation fixes (spec/00_scope.md R8, the parameters) and the free values the
spec leaves open (`draw()`, R18): opaque constants, so that nothing can be proved of their values. -/

namespace Sys2Proof

/-- The device registers by name (spec/10_state.md R60). -/
inductive RegName where
  | ctrl | icr | ims | imc | rctl | tctl | tipg
  | rdbal | rdbah | rdlen | rdh | rdt | rdtr | radv
  | tdbal | tdbah | tdlen | tdh | tdt
  | mta (j : Fin 128)
  | ral0 | rah0
deriving DecidableEq, Repr

/-- The parameter `REG_OFF` (R8, R60): each register's byte offset from `register_base`; `mta` is the offset
of MTA[0], and MTA[j] stands 4*j bytes further. -/
structure RegOff where
  ctrl : Nat
  icr : Nat
  ims : Nat
  imc : Nat
  rctl : Nat
  tctl : Nat
  tipg : Nat
  rdbal : Nat
  rdbah : Nat
  rdlen : Nat
  rdh : Nat
  rdt : Nat
  rdtr : Nat
  radv : Nat
  tdbal : Nat
  tdbah : Nat
  tdlen : Nat
  tdh : Nat
  tdt : Nat
  mta : Nat
  ral0 : Nat
  rah0 : Nat
deriving DecidableEq, Repr

/-- `REG_OFF(name)`. -/
def RegOff.off (r : RegOff) : RegName → Nat
  | .ctrl => r.ctrl
  | .icr => r.icr
  | .ims => r.ims
  | .imc => r.imc
  | .rctl => r.rctl
  | .tctl => r.tctl
  | .tipg => r.tipg
  | .rdbal => r.rdbal
  | .rdbah => r.rdbah
  | .rdlen => r.rdlen
  | .rdh => r.rdh
  | .rdt => r.rdt
  | .rdtr => r.rdtr
  | .radv => r.radv
  | .tdbal => r.tdbal
  | .tdbah => r.tdbah
  | .tdlen => r.tdlen
  | .tdh => r.tdh
  | .tdt => r.tdt
  | .mta j => r.mta + 4 * j.val
  | .ral0 => r.ral0
  | .rah0 => r.rah0

/-- The offsets of the table of R60 (the reference value of `REG_OFF`). -/
def RegOff.reference : RegOff where
  ctrl := 0x0000
  icr := 0x00C0
  ims := 0x00D0
  imc := 0x00D8
  rctl := 0x0100
  tctl := 0x0400
  tipg := 0x0410
  rdbal := 0x2800
  rdbah := 0x2804
  rdlen := 0x2808
  rdh := 0x2810
  rdt := 0x2818
  rdtr := 0x2820
  radv := 0x282C
  tdbal := 0x3800
  tdbah := 0x3804
  tdlen := 0x3808
  tdh := 0x3810
  tdt := 0x3818
  mta := 0x5200
  ral0 := 0x5400
  rah0 := 0x5404

/-- The registers of R60 other than the multicast table. -/
def RegName.scalars : List RegName :=
  [.ctrl, .icr, .ims, .imc, .rctl, .tctl, .tipg, .rdbal, .rdbah, .rdlen, .rdh, .rdt, .rdtr, .radv,
   .tdbal, .tdbah, .tdlen, .tdh, .tdt, .ral0, .rah0]

/-- Every register of R60. -/
def RegName.all : List RegName :=
  RegName.scalars ++ (List.finRange 128).map RegName.mta

/-- The constraint of R8 on `REG_OFF`: offsets 4-aligned and distinct. That they also lie below 2^32 is no
constraint of R8 but the model's (DESIGN CHOICE, log 28): the port that carries an offset is 32 bits wide. -/
def RegOff.wf (r : RegOff) : Bool :=
  RegName.all.all (fun n => r.off n % 4 == 0 && decide (r.off n < 2 ^ 32)) &&
    decide ((RegName.all.map r.off).Nodup)

/-- `TX_WRAP_MODE` (R8; spec/41_transmit.md R256): what the device does with `N_TX` descriptors outstanding
and TDT = TDH. -/
inductive TxWrapMode where
  | idle
  | sendAll
deriving DecidableEq, Repr

/-- What the device sees of the receive descriptors that INIT writes at S10 (spec/40_ring_init.md R200), which no FENCE
separates from S12's write of RDT (spec/20_memory.md R119). The spec answers twice (R121 no, spec/70_reset_and_hazards.md
R506 yes) and no Cn of spec/90_conflicts.md names the point, so this is a parameter, as TX_WRAP_MODE is (C5). Its reference
value follows the order at the head of that file, by which the rule that follows the source's text wins: DESIGN CHOICE,
log 48. -/
inductive RxInitView where
  /-- Each write as it is made: "the first frame finds a valid ring" (spec/70_reset_and_hazards.md R506), and a frame that
  comes before INIT ends fills slot 0 (R200's corner case). -/
  | written
  /-- A write only from a later FENCE on: the device reads a slot as it stood at its tail write, with what a FENCE had
  separated from that write by then (spec/20_memory.md R121). -/
  | fenced
deriving DecidableEq, Repr

/-- The parameters of R8, fixed for a run (spec/10_state.md R68), and `rxInitView`, the model's own (log 48). -/
structure Params where
  nTx : Nat
  nRx : Nat
  ringAlign : Nat
  bufSize : Nat
  rxBufSize : Nat
  localMac : Mac
  localIp : Word
  peerMac : Mac
  ipTxTtl : Byte
  wrapMode : TxWrapMode
  maxQueueLen : Nat
  nPort : Nat
  regOff : RegOff
  ctrlRstMask : Word
  rxInitView : RxInitView
deriving DecidableEq, Repr

/-- `DESC_SIZE`: fixed at 16 by the layout (R8, decision D3). -/
def descSize : Nat := 16

/-- The reference values of R8. PRESUMED (log 1): the spec marks them general knowledge; it knows none for
`MAX_QUEUE_LEN` and `NPORT`, where 16 is a DESIGN CHOICE, and none for `rxInitView` (log 48). Claims quantify over
every value. -/
def Params.reference : Params where
  nTx := 16
  nRx := 16
  ringAlign := 128
  bufSize := 4096
  rxBufSize := 2048
  localMac := ⟨0x52, 0x54, 0x00, 0x12, 0x34, 0x56⟩
  localIp := 0x0A00020F
  peerMac := ⟨0x52, 0x55, 0x0A, 0x00, 0x02, 0x02⟩
  ipTxTtl := 100
  wrapMode := .idle
  maxQueueLen := 16
  nPort := 16
  regOff := RegOff.reference
  ctrlRstMask := 0x04000000
  rxInitView := .written

/-- A natural number is a power of two. -/
def isPow2 (n : Nat) : Bool := n != 0 && (n &&& (n - 1)) == 0

/-- The constraints of R8 on the parameters. Three are not R8's but the model's (DESIGN CHOICE, log 1): `N_TX` and
`N_RX` keep a ring's byte length inside the 32-bit TDLEN and RDLEN, and `RX_BUF_SIZE` is at least 1. -/
def Params.wf (p : Params) : Bool :=
  decide (1 ≤ p.nTx) && decide (1 ≤ p.nRx) &&
  decide (p.nTx * descSize < 2 ^ 32) && decide (p.nRx * descSize < 2 ^ 32) &&
  isPow2 p.ringAlign &&
  decide (128 ≤ p.bufSize) && decide (p.bufSize ≤ 65535) &&
  decide (1 ≤ p.rxBufSize) && decide (p.rxBufSize ≤ p.bufSize) &&
  decide (p.localMac ≠ Mac.broadcast) &&
  isPow2 p.maxQueueLen && decide (1 ≤ p.nPort) &&
  p.regOff.wf && isPow2 p.ctrlRstMask.toNat

namespace Config

/-- The `n`-th `draw()` of a hardware value (spec/00_scope.md R18). -/
opaque drawWord : Nat → BitVec 64

/-- The `n`-th answer of the allocator: FAIL or the address of a region (R21). -/
opaque allocAnswer : Nat → Option (BitVec 64)

/-- The `n`-th answer of CopyIn: did the copy succeed (spec/44_udp_framer.md R400). -/
opaque copyAnswer : Nat → Bool

/-- The byte at an address nothing has written: `epoch` numbers the allocation of the buffer it lies in
(0 outside every buffer), so that a fresh buffer has fresh contents (R21; spec/10_state.md R69). -/
opaque freshByte : (epoch addr : Nat) → BitVec 8

end Config

end Sys2Proof
end

