-- ==== Sys2Proof/Syntax.lean ====
section
/-! DEFINITION. The operations of the block, one constructor per row of spec/opcode_table.json, with the
operands their ports carry (spec/30_encoding.md R153, R154), and the commands and events a scheduler offers. -/

namespace Sys2Proof

/-- CKSUM's two operand forms (spec/45_checksum.md R430): `n` bytes of memory from `addr`, or a byte
sequence given directly (its length is then `n`). -/
inductive CksumSrc where
  | mem (addr : Addr) (n : Half)
  | data (bytes : List Byte)
deriving DecidableEq, Repr

/-- The operations and events of R154. -/
inductive Instr where
  | init (registerBase txRingBase rxRingBase : Addr)
  | txSubmit (buf : Addr) (len : Half)
  | irq
  | rxDrain
  | classify (buf : Addr) (len : Half)
  | arpRx (buf : Addr) (len : Half)
  | ipRx (buf : Addr) (len : Half)
  | udpPayload (buf : Addr) (len : Half) (maxLen : BitVec 64)
  | udpTx (sport : Half) (dstIp : Word) (dport : Half) (payload : List Byte)
  | cksum (src : CksumSrc)
  | regRead (name : RegName)
  | regWrite (name : RegName) (value : Word)
  | devReset
  | devTxStep
  | devRxFrame (frame : List Byte)
deriving DecidableEq, Repr

/-- The width of a register access on the MMIO interface (spec/20_memory.md R102). -/
inductive AccessWidth where
  | word32
  | byte8
  | half16
  | dword64
deriving DecidableEq, Repr

/-- The named operand ports beside the command word (R153, R154). The `name` port of REG_READ and REG_WRITE
names a register by the access that reaches it, an offset from `register_base` and a width (R102; log 28).
`dataBytes` is CKSUM's direct byte sequence, `none` where `addr` is used. -/
structure Ports where
  registerBase : Addr := 0
  txRingBase : Addr := 0
  rxRingBase : Addr := 0
  buf : Addr := 0
  len : Half := 0
  maxLen : BitVec 64 := 0
  sport : Half := 0
  dstIp : Word := 0
  dport : Half := 0
  payload : List Byte := []
  addr : Addr := 0
  n : Half := 0
  dataBytes : Option (List Byte) := none
  regOffset : Word := 0
  regWidth : AccessWidth := .word32
  value : Word := 0
  frame : List Byte := []
deriving DecidableEq, Repr

/-- A device event that may fall between two accesses of a software operation (spec/20_memory.md R111). -/
inductive DevEvent where
  | reset
  | txStep
  | rxFrame (frame : List Byte)
deriving DecidableEq, Repr

/-- One command or event as the scheduler offers it: the command word, its ports, and the device events that
fall at each access of the operation, in the order of its accesses (R110, R111; log 7). -/
structure Command where
  word : Word
  ports : Ports := {}
  during : List (List DevEvent) := []
deriving DecidableEq, Repr

/-- The pseudo-operations of R157. -/
def pseudoAck : Instr := .regWrite .icr 0xFFFFFFFF
/-- SEND (R157). -/
def pseudoSend (sp : Half) (ip : Word) (dp : Half) (bytes : List Byte) : Instr := .udpTx sp ip dp bytes
/-- INTERRUPT (R157). -/
def pseudoInterrupt : Instr := .irq
/-- RING_TX_TAIL (R157). -/
def pseudoRingTxTail : Instr := .regRead .tdt
/-- MASK_ALL (R157). -/
def pseudoMaskAll : Instr := .regWrite .imc 0xFFFFFFFF
/-- ENABLE_RXDW (R157). -/
def pseudoEnableRxdw : Instr := .regWrite .ims 0x00000080

/-- The mnemonic of an operation, letter for letter (R154, R157). -/
def Instr.mnemonic : Instr → String
  | .init _ _ _ => "INIT"
  | .txSubmit _ _ => "TX_SUBMIT"
  | .irq => "IRQ"
  | .rxDrain => "RX_DRAIN"
  | .classify _ _ => "CLASSIFY"
  | .arpRx _ _ => "ARP_RX"
  | .ipRx _ _ => "IP_RX"
  | .udpPayload _ _ _ => "UDP_PAYLOAD"
  | .udpTx _ _ _ _ => "UDP_TX"
  | .cksum _ => "CKSUM"
  | .regRead _ => "REG_READ"
  | .regWrite _ _ => "REG_WRITE"
  | .devReset => "DEV_RESET"
  | .devTxStep => "DEV_TX_STEP"
  | .devRxFrame _ => "DEV_RX_FRAME"

end Sys2Proof
end

