-- ==== Sys2Proof/WellFormed.lean ====
section
/-! DEFINITION. The checks the spec makes of an operation's operands before it runs (spec/60_exceptions.md
R466): an operation that fails one is refused by the name of the check. Checks against the machine's state
(ownership, cursor ranges, reserved bits, order of operations) stand with the operations. -/

namespace Sys2Proof

/-- Why an operation's operands are refused. -/
inductive Malformed where
  /-- INIT with a ring base that is not 16-byte aligned (spec/20_memory.md R105). -/
  | ringBaseUnaligned
  /-- TX_SUBMIT with a length outside 1..BUF_SIZE (spec/41_transmit.md R255). -/
  | txLength
  /-- CKSUM of more than 65535 bytes (spec/45_checksum.md R430). -/
  | cksumTooLong
  /-- REG_READ of IMC, which is write-only (spec/40_ring_init.md R210). -/
  | imcNotReadable
  /-- DEV_RX_FRAME of a frame shorter than 14 or longer than 65535 bytes (spec/42_receive.md R310). -/
  | frameLength
deriving DecidableEq, Repr

/-- The first check an operation's operands fail; `none` when they pass. -/
def malformed (p : Params) : Instr → Option Malformed
  | .init _ tx rx => if tx.toNat % 16 = 0 ∧ rx.toNat % 16 = 0 then none else some .ringBaseUnaligned
  | .txSubmit _ len => if 1 ≤ len.toNat ∧ len.toNat ≤ p.bufSize then none else some .txLength
  | .cksum (.data bytes) => if bytes.length ≤ 65535 then none else some .cksumTooLong
  | .cksum (.mem _ _) => none
  | .regRead name => if name = .imc then some .imcNotReadable else none
  | .devRxFrame f => if 14 ≤ f.length ∧ f.length ≤ 65535 then none else some .frameLength
  | .irq => none
  | .rxDrain => none
  | .classify _ _ => none
  | .arpRx _ _ => none
  | .ipRx _ _ => none
  | .udpPayload _ _ _ => none
  | .udpTx _ _ _ _ => none
  | .regWrite _ _ => none
  | .devReset => none
  | .devTxStep => none

/-- Every operand check passes. -/
abbrev Instr.WellFormed (p : Params) (i : Instr) : Prop := malformed p i = none

end Sys2Proof
end

