-- ==== Sys2Proof/Decode.lean ====
section
/-! DEFINITION. From a command word and its ports to an operation, and back (spec/30_encoding.md R153 to
R156): total, and refusing each illegal encoding by name. The command word comes on a 32-bit port; it is
not stored in memory. -/

namespace Sys2Proof

/-- Why a command word or a register access is refused. -/
inductive DecodeError where
  /-- A command word with a bit of 31:8 set (R156). -/
  | reservedWordBits
  /-- An opcode that is not in R154 (R156). -/
  | unknownOpcode
  /-- A register access that is not 32 bits wide (spec/20_memory.md R102). -/
  | wrongWidth
  /-- A register access at an offset that is not a multiple of 4 (R102). -/
  | misaligned
  /-- A register access at an offset that names no register of R60 (R102). -/
  | unknownRegister
deriving DecidableEq, Repr

/-- The operations of R154, without operands. -/
inductive Opcode where
  | init | txSubmit | irq | rxDrain | classify | arpRx | ipRx | udpPayload | udpTx | cksum
  | regRead | regWrite | devReset | devTxStep | devRxFrame
deriving DecidableEq, Repr

/-- The `op` column of R154. -/
def Opcode.code : Opcode → Nat
  | .init => 0x01
  | .txSubmit => 0x02
  | .irq => 0x03
  | .rxDrain => 0x04
  | .classify => 0x05
  | .arpRx => 0x06
  | .ipRx => 0x07
  | .udpPayload => 0x08
  | .udpTx => 0x09
  | .cksum => 0x0A
  | .regRead => 0x10
  | .regWrite => 0x11
  | .devReset => 0x80
  | .devTxStep => 0x81
  | .devRxFrame => 0x82

/-- Bits 7:0 of a command word to the operation they name; the reserved codes of R156 name none. -/
def opcodeOf (op : Nat) : Option Opcode :=
  match op with
  | 0x01 => some .init
  | 0x02 => some .txSubmit
  | 0x03 => some .irq
  | 0x04 => some .rxDrain
  | 0x05 => some .classify
  | 0x06 => some .arpRx
  | 0x07 => some .ipRx
  | 0x08 => some .udpPayload
  | 0x09 => some .udpTx
  | 0x0A => some .cksum
  | 0x10 => some .regRead
  | 0x11 => some .regWrite
  | 0x80 => some .devReset
  | 0x81 => some .devTxStep
  | 0x82 => some .devRxFrame
  | _ => none

/-- The register whose offset this is. -/
def regOfOffset (ro : RegOff) (off : Nat) : Option RegName :=
  RegName.all.find? (fun n => ro.off n == off)

/-- The register an access names (R102): 32 bits wide, 4-aligned, at a named offset. -/
def decodeAccess (ro : RegOff) (off : Word) (w : AccessWidth) : Except DecodeError RegName :=
  if w ≠ .word32 then .error .wrongWidth
  else if off.toNat % 4 ≠ 0 then .error .misaligned
  else
    match regOfOffset ro off.toNat with
    | some n => .ok n
    | none => .error .unknownRegister

/-- The operation of an opcode, its operands taken from the ports of R154. DESIGN CHOICE: where CKSUM is given a byte
sequence, its length is `n`, and whatever stands on the `n` port beside it is not looked at; R154 and
spec/45_checksum.md R430 give both operands and do not say what a mismatch does (log 28). -/
def decodeOperands (ro : RegOff) (p : Ports) : Opcode → Except DecodeError Instr
  | .init => .ok (.init p.registerBase p.txRingBase p.rxRingBase)
  | .txSubmit => .ok (.txSubmit p.buf p.len)
  | .irq => .ok .irq
  | .rxDrain => .ok .rxDrain
  | .classify => .ok (.classify p.buf p.len)
  | .arpRx => .ok (.arpRx p.buf p.len)
  | .ipRx => .ok (.ipRx p.buf p.len)
  | .udpPayload => .ok (.udpPayload p.buf p.len p.maxLen)
  | .udpTx => .ok (.udpTx p.sport p.dstIp p.dport p.payload)
  | .cksum =>
    match p.dataBytes with
    | some bytes => .ok (.cksum (.data bytes))
    | none => .ok (.cksum (.mem p.addr p.n))
  | .regRead =>
    match decodeAccess ro p.regOffset p.regWidth with
    | .ok name => .ok (.regRead name)
    | .error e => .error e
  | .regWrite =>
    match decodeAccess ro p.regOffset p.regWidth with
    | .ok name => .ok (.regWrite name p.value)
    | .error e => .error e
  | .devReset => .ok .devReset
  | .devTxStep => .ok .devTxStep
  | .devRxFrame => .ok (.devRxFrame p.frame)

/-- The decoder of R153 and R156. -/
def decode (ro : RegOff) (word : Word) (p : Ports) : Except DecodeError Instr :=
  if word.toNat / 256 ≠ 0 then .error .reservedWordBits
  else
    match opcodeOf (word.toNat % 256) with
    | some o => decodeOperands ro p o
    | none => .error .unknownOpcode

/-! ### The encoder -/

/-- The opcode of an operation. -/
def Instr.opcode : Instr → Opcode
  | .init _ _ _ => .init
  | .txSubmit _ _ => .txSubmit
  | .irq => .irq
  | .rxDrain => .rxDrain
  | .classify _ _ => .classify
  | .arpRx _ _ => .arpRx
  | .ipRx _ _ => .ipRx
  | .udpPayload _ _ _ => .udpPayload
  | .udpTx _ _ _ _ => .udpTx
  | .cksum _ => .cksum
  | .regRead _ => .regRead
  | .regWrite _ _ => .regWrite
  | .devReset => .devReset
  | .devTxStep => .devTxStep
  | .devRxFrame _ => .devRxFrame

/-- The command word of an operation: `op` in bits 7:0, zeros above (R153). -/
def encodeWord (i : Instr) : Word := BitVec.ofNat 32 i.opcode.code

/-- The ports of an operation: its operands on the ports of R154, every other port zero. -/
def encodePorts (ro : RegOff) : Instr → Ports
  | .init rb tb xb => { registerBase := rb, txRingBase := tb, rxRingBase := xb }
  | .txSubmit b l => { buf := b, len := l }
  | .irq => {}
  | .rxDrain => {}
  | .classify b l => { buf := b, len := l }
  | .arpRx b l => { buf := b, len := l }
  | .ipRx b l => { buf := b, len := l }
  | .udpPayload b l m => { buf := b, len := l, maxLen := m }
  | .udpTx sp ip dp pl => { sport := sp, dstIp := ip, dport := dp, payload := pl }
  | .cksum (.mem a n) => { addr := a, n := n }
  | .cksum (.data bs) => { n := BitVec.ofNat 16 bs.length, dataBytes := some bs }
  | .regRead name => { regOffset := BitVec.ofNat 32 (ro.off name) }
  | .regWrite name v => { regOffset := BitVec.ofNat 32 (ro.off name), value := v }
  | .devReset => {}
  | .devTxStep => {}
  | .devRxFrame f => { frame := f }

/-- The command of an operation: its word and its ports. -/
def encode (ro : RegOff) (i : Instr) : Word × Ports := (encodeWord i, encodePorts ro i)

/-- The operation the decoder reads from a table word whose `nbits` bits are `w`, every port zero. -/
def decodeTableWord (nbits w : Nat) : Option Instr :=
  match decode RegOff.reference (BitVec.ofNat 32 (w % 2 ^ nbits)) {} with
  | .ok i => some i
  | .error _ => none

end Sys2Proof
end

