-- ==== Sys2Proof/Machine/State.lean ====
section
/-! DEFINITION. The machine's state as plain data, holding all that spec/10_state.md gives the block, the
reasons a step can stop, and the state after reset (power-on, R69 and spec/70_reset_and_hazards.md R500). -/

namespace Sys2Proof.Machine

/-- The fatal causes of spec/60_exceptions.md R460. -/
inductive FatalCause where
  /-- A ring's byte size is not a multiple of RING_ALIGN (INIT S7, S11). -/
  | ringMisaligned
  /-- Alloc failed for a receive slot (INIT S10). -/
  | rxInitAlloc
  /-- A filled receive descriptor without EOP (RX_DRAIN RD2). -/
  | rxMultiDesc
  /-- Alloc failed while replenishing (RX_DRAIN RD4). -/
  | rxReplenishAlloc
  /-- Alloc failed for the ARP reply (ARP_RX A3). -/
  | arpReplyAlloc
  /-- Reserved for the collaborator's `bind`; this block never raises it. -/
  | bindExhausted
deriving DecidableEq, Repr

/-- The model faults of R468: a step the source forbids. -/
inductive ModelFault where
  | ownershipViolation
  | doubleRelease
  | aliasAfterHandoff
deriving DecidableEq, Repr

/-- The results of software operations (R464). `notBound`, `resourceExhausted` and `notImplemented` belong to
collaborators and are never returned by this block. -/
inductive ResultCode where
  | ok | full | tooLarge | allocationFailed | copyFailed | notBound | resourceExhausted | notImplemented
deriving DecidableEq, Repr

/-- Why a frame or packet is dropped (R465). -/
inductive DropReason where
  | unrecognized | arpSuppressed | arpReplyRingFull | noPort | queueFull | rxDisabled | filtered | rxOverrun
deriving DecidableEq, Repr

/-- Who owns a buffer (spec/00_scope.md R24, R25). `portq q` is queue `q` or its consumer; a region the
allocator has never given out has no record and is the allocator's too. -/
inductive Owner where
  | allocator | caller | framer | txPath | rxPath | demux | portq (q : Nat) | device
deriving DecidableEq, Repr

/-- One buffer in the ownership map of R25; `epoch` numbers its latest allocation. `owner` is the software
component the buffer was given to: a buffer of the receive ring is recorded as the receive path's, and the cursors
say while it is the device's (`ownerNow`; log 34). -/
structure Buf where
  base : Addr
  owner : Owner
  epoch : Nat
deriving DecidableEq, Repr

/-- The record enqueued to a port queue (spec/43_demux.md R360 P4, decision D28). -/
structure Packet where
  length : Half
  sport : Half
  buf : Addr
deriving DecidableEq, Repr

/-- One slot of the port-queue table as the demultiplexer sees it (R352); port 0 is unbound. -/
structure Queue where
  port : Half
  packets : List Packet
  drops : Nat
deriving DecidableEq, Repr

/-- The diagnostics of spec/42_receive.md R306 and spec/43_demux.md R360; no contract. -/
inductive DiagText where
  | rxProcessed (count : Nat)
  | ipRxNoPort (dport : Half)
deriving DecidableEq, Repr

/-- The observable events of spec/00_scope.md R19, and the `Wake(q)` signal of R7 and R360. -/
inductive Event where
  | wireTx (bytes : List Byte)
  | enqueue (port : Half) (pkt : Packet)
  | dropped (reason : DropReason)
  | released (buf : Addr)
  | allocated (buf : Addr)
  | halt (cause : FatalCause)
  | diag (text : DiagText)
  | wake (q : Nat)
deriving DecidableEq, Repr

/-- What a software operation answers its caller (R17; spec/30_encoding.md R154). -/
inductive OpResult where
  | code (r : ResultCode)
  | regValue (v : Word)
  | checksum (v : Half)
  | payload (srcIp : Word) (sport : Half) (count : BitVec 64) (bytes : List Byte)
deriving DecidableEq, Repr

/-- The ring locks (R20; spec/20_memory.md R120). -/
inductive Lock where
  | tx | rx
deriving DecidableEq, Repr

/-- Where the software sequencer stands (spec/10_state.md R41): idle, held at INIT S3, in IRQ, or at the
step of an operation from which an internal operation is issued. -/
inductive SwSeq where
  | idle
  | initHold
  | irqI1
  | irqI2
  | drainRD3 (i k : Nat)
  | classifyC1
  | classifyC2
deriving DecidableEq, Repr

/-- Whether INIT has been issued and has completed (spec/40_ring_init.md R201). -/
inductive InitPhase where
  | notIssued | running | done
deriving DecidableEq, Repr

/-- The device: its registers (spec/10_state.md R60 to R66) and its hidden state (R51). CTRL is held as its
RST bit and its other bits (log 20). -/
structure DevRegs where
  ctrlRst : Bool
  ctrlOther : Word
  icr : Word
  ims : Word
  rctl : Word
  tctl : Word
  tipg : Word
  rdbal : Word
  rdbah : Word
  rdlen : Word
  rdh : Word
  rdt : Word
  rdtr : Word
  radv : Word
  tdbal : Word
  tdbah : Word
  tdlen : Word
  tdh : Word
  tdt : Word
  mta : Vector Word 128
  ral0 : Word
  rah0 : Word
  /-- RAL1..RAL15. -/
  ralx : Vector Word 15
  /-- RAH1..RAH15. -/
  rahx : Vector Word 15
  /-- Between a CTRL write with RST = 1 and DEV_RESET. -/
  resetPending : Bool
  /-- Bytes of the frame in progress not yet written (R311). -/
  rxRemaining : Nat
  /-- `tx_count`, separate state only with TX_WRAP_MODE = SEND_ALL (R256). -/
  txCount : Nat
deriving DecidableEq, Repr

/-- The state of the block. -/
structure State where
  /-- The parameters of R8; no step writes them. -/
  cfg : Params
  /-- Physical memory, canonical: addresses strictly rising. An unlisted byte has no determined value. -/
  mem : List Host.Cell
  /-- Physical memory as the device is sure to see it: what software had written at its last FENCE, in a descriptor slot
  the device owns at the last FENCE before its tail write, and what the device itself has written; with
  `rxInitView = written` INIT's receive descriptors besides (spec/20_memory.md R106, R121; spec/70_reset_and_hazards.md
  R506; log 11, 48). Canonical as `mem` is. -/
  fenced : List Host.Cell
  dev : DevRegs
  registerBase : Addr
  txRingBase : Addr
  rxRingBase : Addr
  txOwner : List (Option Addr)
  rxOwner : List Addr
  arpSeen : Bool
  halted : Option FatalCause
  fatalInfo : Word
  modelFault : Option ModelFault
  /-- `irq_held`: a rising edge of `irq_line` waits for delivery (R51, R315). -/
  irqHeld : Bool
  initPhase : InitPhase
  sw : SwSeq
  /-- The ring locks held, the last taken first. -/
  locks : List Lock
  /-- The ownership map `own` of R25, over the buffers the allocator has ever given out. -/
  bufs : List Buf
  /-- PORTQ's table (R352). -/
  portq : List Queue
  /-- The event history, oldest first (R19). -/
  events : List Event
  /-- The results of software operations, oldest first (R17, R23). -/
  results : List OpResult
  /-- Coming answers of ALLOC that the environment has fixed; then `Config.allocAnswer`. -/
  allocAns : List (Option Addr)
  /-- Coming answers of CopyIn that the environment has fixed; then `Config.copyAnswer`. -/
  copyAns : List Bool
  /-- Coming values of `draw()` that the environment has fixed; then `Config.drawWord`. -/
  drawAns : List (BitVec 64)
  /-- How many free values have been used. -/
  draws : Nat
  /-- The commands and events the scheduler offers next. -/
  inbox : List Command
  /-- The device events that fall at the coming accesses of the running operation. -/
  sched : List (List DevEvent)
deriving DecidableEq, Repr

/-- Why the machine stops with a fault. -/
inductive Fault where
  /-- Raised by every operation once `halted` is set: no agent steps again (R462). A stuck state; safe. -/
  | blockHalted (cause : FatalCause)
  /-- Raised by every operation once `model_fault` is set: the run has stopped (R468). A stuck state; safe. -/
  | runStopped (f : ModelFault)
  /-- Raised by a memory access that leaves the 64-bit address space (spec/20_memory.md R103, R118). Safe. -/
  | noSuchAddress (addr : Nat)
  /-- Raised where software takes a ring lock that is held: it would wait forever
  (spec/70_reset_and_hazards.md R515). No run reaches it; safe. -/
  | lockNeverReleased (l : Lock)
deriving DecidableEq, Repr

/-- Why a step is refused: it is not in the transition relation (spec/60_exceptions.md R466). -/
inductive Refusal where
  /-- Raised by `exec`'s arm of an operation without a meaning. Safe. -/
  | notModelled (mnemonic : String)
  /-- Raised by `step` on an illegal command word or register access (R156, R102). Safe. -/
  | illegalCommand (e : DecodeError)
  /-- Raised by an operation whose operands fail a check (R466). Safe. -/
  | malformedOperands (m : Malformed)
  /-- Raised by an operation other than INIT and CKSUM before INIT has completed (R201). Safe. -/
  | beforeInit
  /-- Raised by a second INIT (R201). Safe. -/
  | secondInit
  /-- Raised by a software operation issued while another runs (spec/20_memory.md R110). Safe. -/
  | softwareBusy
  /-- Raised by RX_DRAIN, CLASSIFY, ARP_RX and IP_RX issued from outside (spec/30_encoding.md R155). Safe. -/
  | internalOperation
  /-- Raised by TX_SUBMIT of a buffer the caller does not own (R250). Safe. -/
  | bufferNotOwned
  /-- Raised by REG_WRITE of a 1 to a reserved bit (spec/10_state.md R63). Safe. -/
  | reservedBit
  /-- Raised by REG_WRITE of a cursor value not below the ring length (R52). Safe. -/
  | cursorRange
  /-- Raised by REG_WRITE of TDH or RDH after INIT (spec/40_ring_init.md R211). Safe. -/
  | headOwnedByDevice
  /-- Raised by DEV_TX_STEP on a descriptor with EOP = 0 or DEXT = 1 (spec/41_transmit.md R260). Safe. -/
  | txDescriptorForm
  /-- Raised by a device event whose 'Enabled when' does not hold (R212, R260, R310). Safe. -/
  | eventNotEnabled
  /-- Raised by `step` when no command is offered and no agent has a step: the run is over (R23). Safe. -/
  | noAgentCanStep
deriving DecidableEq, Repr

/-- The device at power-on: EN = 0 and no reset pending by R500, the other values 0 by log 2. -/
def DevRegs.powerOn : DevRegs where
  ctrlRst := false
  ctrlOther := 0
  icr := 0
  ims := 0
  rctl := 0
  tctl := 0
  tipg := 0
  rdbal := 0
  rdbah := 0
  rdlen := 0
  rdh := 0
  rdt := 0
  rdtr := 0
  radv := 0
  tdbal := 0
  tdbah := 0
  tdlen := 0
  tdh := 0
  tdt := 0
  mta := Vector.replicate 128 0
  ral0 := 0
  rah0 := 0
  ralx := Vector.replicate 15 0
  rahx := Vector.replicate 15 0
  resetPending := false
  rxRemaining := 0
  txCount := 0

/-- The machine right after reset: the power-on column of R69 and R500, with the values of log 1 to 5 where
the spec says `draw()`. -/
def State.reset : State where
  cfg := Params.reference
  mem := []
  fenced := []
  dev := DevRegs.powerOn
  registerBase := 0
  txRingBase := 0
  rxRingBase := 0
  txOwner := List.replicate Params.reference.nTx none
  rxOwner := List.replicate Params.reference.nRx 0
  arpSeen := false
  halted := none
  fatalInfo := 0
  modelFault := none
  irqHeld := false
  initPhase := .notIssued
  sw := .idle
  locks := []
  bufs := []
  portq := List.replicate Params.reference.nPort ⟨0, [], 0⟩
  events := []
  results := []
  allocAns := []
  copyAns := []
  drawAns := []
  draws := 0
  inbox := []
  sched := []

end Sys2Proof.Machine
end

