-- ==== Sys2Proof/Machine/Operands.lean ====
section
/-! DEFINITION. How bytes make fields and fields make bytes: big-endian frame fields (spec/20_memory.md R100,
spec/30_encoding.md R152), little-endian descriptor fields (R101), the descriptor layouts (R140, R141), and
the frame constants (R144 to R150). -/

namespace Sys2Proof.Machine

/-- `LE(bytes)` (spec/00_scope.md R14). -/
def leNat : List Byte → Nat
  | [] => 0
  | b :: bs => b.toNat + 256 * leNat bs

/-- `BE(bytes)` (R14). -/
def beNat : List Byte → Nat
  | [] => 0
  | b :: bs => b.toNat * 256 ^ bs.length + beNat bs

/-- The `n` bytes of `v`, least significant first. -/
def leBytes : (n v : Nat) → List Byte
  | 0, _ => []
  | n + 1, v => BitVec.ofNat 8 v :: leBytes n (v / 256)

/-- The 16-bit big-endian reading `be16` (R14). -/
def be16 (bs : List Byte) : Half := BitVec.ofNat 16 (beNat bs)

/-- The 32-bit big-endian reading `be32` (R14). -/
def be32 (bs : List Byte) : Word := BitVec.ofNat 32 (beNat bs)

/-- The bytes `put_be16` writes (R14). -/
def be16Bytes (v : Half) : List Byte := [v.extractLsb' 8 8, v.extractLsb' 0 8]

/-- The bytes `put_be32` writes (R14). -/
def be32Bytes (v : Word) : List Byte :=
  [v.extractLsb' 24 8, v.extractLsb' 16 8, v.extractLsb' 8 8, v.extractLsb' 0 8]

/-- A byte sequence of one byte, as the byte. -/
def byteOf (bs : List Byte) : Byte := bs.headD 0

/-! ### Descriptors -/

/-- A transmit descriptor (R140). -/
structure TxDesc where
  addr : Addr
  length : Half
  cso : Byte
  cmd : Byte
  status : Byte
  css : Byte
  special : Half
deriving DecidableEq, Repr

/-- A receive descriptor (R141). -/
structure RxDesc where
  addr : Addr
  length : Half
  csum : Half
  status : Byte
  errors : Byte
  special : Half
deriving DecidableEq, Repr

/-- Field offsets of both descriptors (R140, R141); `cso`, `cmd` and `css` are the transmit descriptor's,
`csum` and `errors` the receive descriptor's. -/
def offAddr : Nat := 0
def offLength : Nat := 8
def offCso : Nat := 10
def offCsum : Nat := 10
def offCmd : Nat := 11
def offStatus : Nat := 12
def offCss : Nat := 13
def offErrors : Nat := 13
def offSpecial : Nat := 14

/-- The 16 bytes of a transmit descriptor (R140, R101). -/
def txDescBytes (d : TxDesc) : List Byte :=
  leBytes 8 d.addr.toNat ++ leBytes 2 d.length.toNat ++ [d.cso, d.cmd, d.status, d.css] ++
    leBytes 2 d.special.toNat

/-- The transmit descriptor of 16 bytes. -/
def txDescOf (bs : List Byte) : TxDesc where
  addr := BitVec.ofNat 64 (leNat (bs.take 8))
  length := BitVec.ofNat 16 (leNat ((bs.drop 8).take 2))
  cso := bs.getD 10 0
  cmd := bs.getD 11 0
  status := bs.getD 12 0
  css := bs.getD 13 0
  special := BitVec.ofNat 16 (leNat ((bs.drop 14).take 2))

/-- The 16 bytes of a receive descriptor (R141, R101). -/
def rxDescBytes (d : RxDesc) : List Byte :=
  leBytes 8 d.addr.toNat ++ leBytes 2 d.length.toNat ++ leBytes 2 d.csum.toNat ++
    [d.status, d.errors] ++ leBytes 2 d.special.toNat

/-- The receive descriptor of 16 bytes. -/
def rxDescOf (bs : List Byte) : RxDesc where
  addr := BitVec.ofNat 64 (leNat (bs.take 8))
  length := BitVec.ofNat 16 (leNat ((bs.drop 8).take 2))
  csum := BitVec.ofNat 16 (leNat ((bs.drop 10).take 2))
  status := bs.getD 12 0
  errors := bs.getD 13 0
  special := BitVec.ofNat 16 (leNat ((bs.drop 14).take 2))

/-- The field writes that set a whole transmit descriptor, at the fields' own widths (spec/20_memory.md R113). -/
def txDescFields (d : TxDesc) : List (Nat × List Byte) :=
  [(offAddr, leBytes 8 d.addr.toNat), (offLength, leBytes 2 d.length.toNat), (offCso, [d.cso]), (offCmd, [d.cmd]),
   (offStatus, [d.status]), (offCss, [d.css]), (offSpecial, leBytes 2 d.special.toNat)]

/-- The field writes that set a whole receive descriptor. -/
def rxDescFields (d : RxDesc) : List (Nat × List Byte) :=
  [(offAddr, leBytes 8 d.addr.toNat), (offLength, leBytes 2 d.length.toNat), (offCsum, leBytes 2 d.csum.toNat),
   (offStatus, [d.status]), (offErrors, [d.errors]), (offSpecial, leBytes 2 d.special.toNat)]

/-! ### Cyclic intervals (spec/20_memory.md R104) -/

/-- How many slots the cyclic interval `[a, b)` of a ring of `n` slots has: `(b - a) mod N`. R104 defines it for cursors
below N alone. DESIGN CHOICE for a tail `b` of N or more, which R52 admits once REG_WRITE has enlarged a length register:
all N, since a head that counts modulo N never reaches that tail (spec/41_transmit.md R260, spec/42_receive.md R310; log
46). -/
def cyclicLen (n a b : Nat) : Nat := if b < n then (b + (n - a % n)) % n else n

/-- `i` lies in the half-open cyclic interval `[a, b)` of a ring of `n` slots. -/
def cyclicMem (n a b i : Nat) : Bool := decide (i < n) && decide (cyclicLen n a i < cyclicLen n a b)

/-! ### Frames -/

/-- `ETH_HDR` (R144). -/
def ethHdr : Nat := 14
/-- `ETHTYPE_IP` (R145). -/
def ethTypeIp : Half := 0x0800
/-- `ETHTYPE_ARP` (R145). -/
def ethTypeArp : Half := 0x0806
/-- `IPPROTO_UDP` (R148). -/
def ipProtoUdp : Byte := 17
/-- `ARP_FRAME_MIN` (R150). -/
def arpFrameMin : Nat := 42
/-- `IP_FRAME_MIN` (R150). -/
def ipFrameMin : Nat := 34
/-- `UDP_TX_HDRS` (R150). -/
def udpTxHdrs : Nat := 42

/-- The UDP header's frame offset `u = 14 + 4*IHL`, from the version/length byte (R149, R151). -/
def udpOffset (verIhl : Byte) : Nat := ethHdr + 4 * (verIhl &&& 0x0F).toNat

/-- The field writes of the ARP reply between the two that copy the querier's hardware address (spec/43_demux.md
R355 A4), in its order. -/
def arpReplyFields (p : Params) : List (Nat × List Byte) :=
  [(6, p.localMac.bytes), (12, be16Bytes ethTypeArp), (14, be16Bytes 1),
   (16, be16Bytes ethTypeIp), (18, [6]), (19, [4]), (20, be16Bytes 2), (22, p.localMac.bytes),
   (28, be32Bytes p.localIp)]

/-- The field writes of UDP_TX F3 (spec/44_udp_framer.md R400), in its order. -/
def udpTxFields (p : Params) (dstIp : Word) (plen : Nat) : List (Nat × List Byte) :=
  [(0, p.peerMac.bytes), (6, p.localMac.bytes), (12, be16Bytes ethTypeIp), (14, [0x45]), (15, [0x00]),
   (16, be16Bytes (BitVec.ofNat 16 (20 + 8 + plen))), (18, be16Bytes 0), (20, be16Bytes 0),
   (22, [p.ipTxTtl]), (23, [ipProtoUdp]), (24, be16Bytes 0), (26, be32Bytes p.localIp),
   (30, be32Bytes dstIp)]

/-- The field writes of UDP_TX F5 (R400), in its order. -/
def udpHeaderFields (sport dport : Half) (plen : Nat) : List (Nat × List Byte) :=
  [(34, be16Bytes sport), (36, be16Bytes dport), (38, be16Bytes (BitVec.ofNat 16 (8 + plen))),
   (40, be16Bytes 0)]

end Sys2Proof.Machine
end

