-- ==== Sys2Proof/Machine/Flags.lean ====
section
/-! DEFINITION. The flags of spec/10_state.md R48: descriptor status and command bits, engine enables, the
interrupt line, reserved register bits, and the numeric codes of spec/60_exceptions.md. -/

namespace Sys2Proof.Machine

/-! ### Descriptor bits (spec/30_encoding.md R142, R143) -/

/-- DD: status bit 0 of both descriptors. -/
def bitDD : Byte := 0x01
/-- EOP of a receive descriptor: status bit 1. -/
def bitRxEop : Byte := 0x02
/-- EOP of a transmit descriptor: cmd bit 0. -/
def bitTxEop : Byte := 0x01
/-- RS: cmd bit 3. -/
def bitRs : Byte := 0x08
/-- DEXT: cmd bit 5. -/
def bitDext : Byte := 0x20

/-- A flag is set in a status or command byte. -/
def hasBit (v m : Byte) : Bool := v &&& m != 0

/-! ### Register bits (R62, R64, R65) -/

/-- ICR and IMS bit 7: receive descriptor written back. -/
def icrRxdw : Word := 0x00000080
/-- ICR bit 6: receiver overrun. -/
def icrRxo : Word := 0x00000040
/-- RCTL.EN and TCTL.EN: bit 1. -/
def ctlEn : Word := 0x00000002

/-- The RCTL value of INIT S15: EN, BAM, BSIZE = 00b, SECRC (R64). -/
def rctlInit : Word := 0x04008002
/-- The TCTL value of INIT S14: EN, PSP, CT = 0x10, COLD = 0x40 (R65). -/
def tctlInit : Word := 0x0004010A
/-- The TIPG value of INIT S14: 10, 8, 6 (R65). -/
def tipgInit : Word := 0x0060200A
/-- RAL0 for a hardware address (R66). -/
def ral0Of (m : Mac) : Word := m.b3 ++ m.b2 ++ m.b1 ++ m.b0
/-- RAH0 for a hardware address: AV in bit 31 (R66). -/
def rah0Of (m : Mac) : Word := (0x8000 : Half) ++ m.b5 ++ m.b4

/-- `tx_enabled` (R51). -/
def txEnabled (d : DevRegs) : Bool := d.tctl &&& ctlEn != 0
/-- `rx_enabled` (R51). -/
def rxEnabled (d : DevRegs) : Bool := d.rctl &&& ctlEn != 0

/-- `irq_line` (spec/42_receive.md R314). -/
def irqLine (d : DevRegs) : Bool := d.icr &&& d.ims != 0

/-- The device takes new register values; a rising edge of `irq_line` is held for PLATFORM (spec/42_receive.md R315).
DEDUCED: every rise is held, also the one that INIT's write of IMS at S17 brings about for a frame that came between S15
and S17, as R315 and the corner case of spec/40_ring_init.md R200 have it; the row of spec/10_state.md R69 for `irq_held`
names only frames that come after that write (log 42). -/
def setDev (d : DevRegs) (s : State) : State :=
  { s with dev := d, irqHeld := s.irqHeld || (!irqLine s.dev && irqLine d) }

/-- CTRL as a 32-bit value (R61). -/
def ctrlValue (p : Params) (d : DevRegs) : Word :=
  if d.ctrlRst then d.ctrlOther ||| p.ctrlRstMask else d.ctrlOther &&& ~~~p.ctrlRstMask

/-- The bits of each register that the register map does not name (R63 to R66). CTRL names RST alone; the
delay timers RDTR and RADV name none (log 19); the cursors and lengths are whole (log 21). -/
def reservedMask (p : Params) : RegName → Word
  | .ctrl => ~~~p.ctrlRstMask
  | .rctl => 0xF9204C01
  | .tctl => 0xFE800005
  | .tipg => 0xC0000000
  | .rah0 => 0x7FFF0000
  | .rdtr => 0xFFFFFFFF
  | .radv => 0xFFFFFFFF
  | .icr | .ims | .imc => 0
  | .rdbal | .rdbah | .rdlen | .rdh | .rdt => 0
  | .tdbal | .tdbah | .tdlen | .tdh | .tdt => 0
  | .mta _ | .ral0 => 0

/-- The stored value of a register; IMC has none and reads as the mask (it is never read, R210). -/
def regValue (p : Params) (d : DevRegs) : RegName → Word
  | .ctrl => ctrlValue p d
  | .icr => d.icr
  | .ims => d.ims
  | .imc => d.ims
  | .rctl => d.rctl
  | .tctl => d.tctl
  | .tipg => d.tipg
  | .rdbal => d.rdbal
  | .rdbah => d.rdbah
  | .rdlen => d.rdlen
  | .rdh => d.rdh
  | .rdt => d.rdt
  | .rdtr => d.rdtr
  | .radv => d.radv
  | .tdbal => d.tdbal
  | .tdbah => d.tdbah
  | .tdlen => d.tdlen
  | .tdh => d.tdh
  | .tdt => d.tdt
  | .mta j => d.mta[j]
  | .ral0 => d.ral0
  | .rah0 => d.rah0

/-! ### Numeric codes -/

/-- The code of a fatal cause; NONE is 0 (spec/60_exceptions.md R460). -/
def fatalCode : Option FatalCause → Nat
  | none => 0
  | some .ringMisaligned => 1
  | some .rxInitAlloc => 2
  | some .rxMultiDesc => 3
  | some .rxReplenishAlloc => 4
  | some .arpReplyAlloc => 5
  | some .bindExhausted => 6

/-- The code of a result (R464). -/
def resultCode : ResultCode → Nat
  | .ok => 0
  | .full => 1
  | .tooLarge => 2
  | .allocationFailed => 3
  | .copyFailed => 4
  | .notBound => 5
  | .resourceExhausted => 6
  | .notImplemented => 7

/-- The code of a drop reason (R465). -/
def dropCode : DropReason → Nat
  | .unrecognized => 1
  | .arpSuppressed => 2
  | .arpReplyRingFull => 3
  | .noPort => 4
  | .queueFull => 5
  | .rxDisabled => 6
  | .filtered => 7
  | .rxOverrun => 8

end Sys2Proof.Machine
end

