-- ==== Sys2Proof/Machine/Memory.lean ====
section
/-! DEFINITION. Physical memory (spec/20_memory.md R103): one byte per address, held as a list of cells with
strictly rising addresses. A byte no cell lists has no determined value: it reads as a free value (log 4). -/

namespace Sys2Proof.Machine

/-- One past the last physical address (R103: 64-bit addresses). -/
def addrSpace : Nat := 2 ^ 64

/-- The listed byte at an address. -/
def memGet : List Host.Cell → Nat → Option Byte
  | [], _ => none
  | (x, v) :: m, a => if x = a then some v else memGet m a

/-- Write one byte, keeping the addresses rising. -/
def memPut : List Host.Cell → Nat → Byte → List Host.Cell
  | [], a, b => [(a, b)]
  | (x, v) :: m, a, b =>
    if a < x then (a, b) :: (x, v) :: m
    else if a = x then (a, b) :: m
    else (x, v) :: memPut m a b

/-- Write a byte sequence from an address on (`MemWrite`, spec/00_scope.md R14). -/
def memPutBytes (m : List Host.Cell) (a : Nat) : List Byte → List Host.Cell
  | [] => m
  | b :: bs => memPutBytes (memPut m a b) (a + 1) bs

/-- Forget `n` bytes from an address on: their values become undetermined. -/
def memClear (m : List Host.Cell) (a n : Nat) : List Host.Cell :=
  m.filter (fun c => decide (c.1 < a) || decide (a + n ≤ c.1))

/-- The canonical form: addresses strictly rising, all inside the address space. (An entry never equals what
an unlisted address reads as, since that is no determined value.) -/
def Memory.wf (m : List Host.Cell) : Bool :=
  decide ((m.map Prod.fst).Pairwise (· < ·)) && m.all (fun c => decide (c.1 < addrSpace))

/-- The buffer record whose region holds an address. -/
def bufAt (s : State) (a : Nat) : Option Buf :=
  s.bufs.find? (fun b => decide (b.base.toNat ≤ a) && decide (a < b.base.toNat + s.cfg.bufSize))

/-- The allocation an undetermined byte belongs to: 0 outside every buffer. -/
def epochAt (s : State) (a : Nat) : Nat :=
  match bufAt s a with
  | some b => b.epoch
  | none => 0

/-- The byte at an address: its cell's value, or a free value (R21, spec/10_state.md R69). -/
def byteAt (s : State) (a : Nat) : Byte :=
  match memGet s.mem a with
  | some b => b
  | none => Config.freshByte (epochAt s a) a

/-- `MemRead(a, n)` as a value (spec/00_scope.md R14). -/
def bytesAt (s : State) (a n : Nat) : List Byte := (List.range n).map (fun j => byteAt s (a + j))

/-- The device sees the `n` bytes from `a` as software does: every earlier write of software to them is before the last
FENCE (spec/20_memory.md R106, R121). -/
def seenByDevice (s : State) (a n : Nat) : Bool :=
  (List.range n).all (fun j => memGet s.mem (a + j) == memGet s.fenced (a + j))

/-- Memory as the device is sure to see it: its descriptor slots as they stood at their tail writes, the rest as it
stood at the last FENCE (log 11). -/
def atFence (s : State) : State := { s with mem := s.fenced }

/-- The byte address of transmit descriptor `i` (R13, R42). -/
def txdAddr (s : State) (i : Nat) : Nat := s.txRingBase.toNat + descSize * i

/-- The byte address of receive descriptor `i` (R13, R42). -/
def rxdAddr (s : State) (i : Nat) : Nat := s.rxRingBase.toNat + descSize * i

/-- Where the device finds transmit descriptor `i`: from the ring base registers TDBAH:TDBAL
(spec/20_memory.md R118). -/
def devTxdAddr (d : DevRegs) (i : Nat) : Nat := (d.tdbah ++ d.tdbal).toNat + descSize * i

/-- Where the device finds receive descriptor `i`: from RDBAH:RDBAL (R118). -/
def devRxdAddr (d : DevRegs) (i : Nat) : Nat := (d.rdbah ++ d.rdbal).toNat + descSize * i

/-- `TXD[i]` (R13, R101). -/
def txd (s : State) (i : Nat) : TxDesc := txDescOf (bytesAt s (txdAddr s i) descSize)

/-- `RXD[i]` (R13, R101). -/
def rxd (s : State) (i : Nat) : RxDesc := rxDescOf (bytesAt s (rxdAddr s i) descSize)

/-- Transmit slots published and not yet processed: a cursor distance with `IDLE`, the hidden counter with
`SEND_ALL` (spec/41_transmit.md R260). With `IDLE` and TDT ≥ N_TX all N_TX are: DESIGN CHOICE (log 46). -/
def txOutstanding (s : State) : Nat :=
  match s.cfg.wrapMode with
  | .idle => cyclicLen s.cfg.nTx s.dev.tdh.toNat s.dev.tdt.toNat
  | .sendAll => s.dev.txCount

/-- `work_TX` (R260). -/
def txWork (s : State) : Bool :=
  match s.cfg.wrapMode with
  | .idle => s.dev.tdh != s.dev.tdt
  | .sendAll => decide (0 < s.dev.txCount)

/-- The device owns transmit slot `i` (spec/10_state.md R46, R256). DESIGN CHOICE where TDT ≥ N_TX, for which R104 defines
no interval: the engine of R260 has work and comes to every slot, so each is the device's (spec/00_scope.md R24; log 46). -/
def devOwnsTx (s : State) (i : Nat) : Bool :=
  decide (i < s.cfg.nTx) && decide (cyclicLen s.cfg.nTx s.dev.tdh.toNat i < txOutstanding s)

/-- The device owns receive slot `i`: `i ∈ [RDH, RDT)` (R47). DESIGN CHOICE where RDT ≥ N_RX, for which R104 defines no
interval: R310's `RDH = RDT` never holds and the engine comes to every slot, so each is the device's (log 46). -/
def devOwnsRx (s : State) (i : Nat) : Bool :=
  cyclicMem s.cfg.nRx s.dev.rdh.toNat s.dev.rdt.toNat i

/-- A slot the device owns on the receive ring holds the buffer: it is the device's "through an outstanding
descriptor" (spec/00_scope.md R24, R47; spec/42_receive.md R305). -/
def deviceHolds (s : State) (b : Addr) : Bool :=
  (List.range s.cfg.nRx).any (fun i => devOwnsRx s i && s.rxOwner[i]? == some b)

/-- A transmit slot the device owns carries the buffer (spec/10_state.md R46). -/
def txHolds (s : State) (b : Addr) : Bool :=
  (List.range s.cfg.nTx).any (fun i => devOwnsTx s i && s.txOwner[i]? == some (some b))

/-- The owner of a recorded buffer: a buffer of the receive path is the device's from the RDT write that hands its
slot over until the device has filled it (R47, R305). -/
def ownerNow (s : State) (r : Buf) : Owner :=
  if r.owner = .rxPath ∧ deviceHolds s r.base = true then .device else r.owner

/-- The record of the ownership map at a buffer's address: the software component it was given to. -/
def recordedOwner (s : State) (b : Addr) : Owner :=
  match s.bufs.find? (fun r => r.base == b) with
  | some r => r.owner
  | none => .allocator

/-- The ownership map of R25 at a buffer's address. -/
def ownerOf (s : State) (b : Addr) : Owner :=
  match s.bufs.find? (fun r => r.base == b) with
  | some r => ownerNow s r
  | none => .allocator

/-- `own(b) <- o` (R25). -/
def setOwner (b : Addr) (o : Owner) (s : State) : State :=
  { s with bufs := s.bufs.map (fun r => if r.base = b then { r with owner := o } else r) }

/-- The `n` bytes from `a` lie inside one buffer owned by `who`. -/
def ownsRange (s : State) (who : Owner) (a n : Nat) : Bool :=
  s.bufs.any (fun r => decide (ownerNow s r = who) && decide (r.base.toNat ≤ a) &&
    decide (a + n ≤ r.base.toNat + s.cfg.bufSize))

/-- Which model fault an access by software to a byte it does not own is (spec/60_exceptions.md R468; R112
for the device's buffers; log 15). -/
def accessFault (s : State) (a : Nat) : ModelFault :=
  match bufAt s a with
  | none => .ownershipViolation
  | some r =>
    match r.owner with
    | .allocator => .aliasAfterHandoff
    | .portq _ => .aliasAfterHandoff
    | .device => .ownershipViolation
    | .rxPath => .ownershipViolation
    | .txPath => .ownershipViolation
    | .caller => .ownershipViolation
    | .framer => .ownershipViolation
    | .demux => .ownershipViolation

/-- The device writes `bs` from `a` on: software and the device see it at once (spec/20_memory.md R109). -/
def dmaPut (a : Nat) (bs : List Byte) (s : State) : State :=
  { s with mem := memPutBytes s.mem a bs, fenced := memPutBytes s.fenced a bs }

/-- A byte of a descriptor slot the device owns, where the device finds it (spec/10_state.md R46, R47;
spec/20_memory.md R118). -/
def inDeviceSlot (s : State) (c : Nat) : Bool :=
  (decide (devTxdAddr s.dev 0 ≤ c) && devOwnsTx s ((c - devTxdAddr s.dev 0) / descSize)) ||
    (decide (devRxdAddr s.dev 0 ≤ c) && devOwnsRx s ((c - devRxdAddr s.dev 0) / descSize))

/-- The memory `m`, with the bytes that `p` picks as `old` has them. -/
def memKeep (p : Nat → Bool) (old m : List Host.Cell) : List Host.Cell :=
  (old.filter fun c => p c.1).foldr (fun c m => memPut m c.1 c.2) (m.filter fun c => !p c.1)

/-- After a FENCE the device sees all that software has written (R106), but for the slots it owns: their contents are
those of their tail writes, and a FENCE that comes later adds nothing to them (R121; log 11). -/
def fenceState (s : State) : State := { s with fenced := memKeep (inDeviceSlot s) s.fenced s.mem }

/-- Two regions share a byte. -/
def overlaps (a n b m : Nat) : Bool := decide (a < b + m) && decide (b < a + n)

/-- A recorded buffer is the device's: through a receive slot (R47), or as a transmit buffer through an outstanding
slot (spec/00_scope.md R24, R46). -/
def heldByDevice (s : State) (r : Buf) : Bool :=
  decide (ownerNow s r = .device) || (decide (r.owner = .txPath) && txHolds s r.base)

/-- The `n` bytes from `a` touch what the device does not own: a descriptor of software's (R46, R47), or a recorded
buffer that is not the device's (R25). -/
def touchesSoftware (s : State) (a n : Nat) : Bool :=
  (List.range s.cfg.nTx).any (fun i => overlaps a n (txdAddr s i) descSize && !devOwnsTx s i) ||
    (List.range s.cfg.nRx).any (fun i => overlaps a n (rxdAddr s i) descSize && !devOwnsRx s i) ||
    s.bufs.any (fun r => overlaps a n r.base.toNat s.cfg.bufSize && !heldByDevice s r)

/-- The `n` bytes from `a` lie inside one transmit buffer that an outstanding slot carries, the device's to read
(R24, R46). A read of no byte touches no buffer, and is admitted anywhere, as CKSUM's is (DEDUCED: log 40). -/
def devReads (s : State) (a n : Nat) : Bool :=
  decide (n = 0) || s.bufs.any (fun r => decide (r.owner = .txPath) && txHolds s r.base && decide (r.base.toNat ≤ a) &&
    decide (a + n ≤ r.base.toNat + s.cfg.bufSize))

/-- Bytes an outside caller may read of a buffer: one of its own, or one a port queue has handed to its consumer
(R24; log 30). -/
def callersOwn : Owner → Bool
  | .caller => true
  | .portq _ => true
  | .allocator | .framer | .txPath | .rxPath | .demux | .device => false

/-- The `n` bytes from `a` touch a descriptor the device owns; the rings' places are fixed from INIT on
(spec/10_state.md R46, R47, R68). -/
def touchesDevSlot (s : State) (a n : Nat) : Bool :=
  decide (s.initPhase ≠ .notIssued) &&
    ((List.range s.cfg.nTx).any (fun i => devOwnsTx s i && overlaps a n (txdAddr s i) descSize) ||
      (List.range s.cfg.nRx).any (fun i => devOwnsRx s i && overlaps a n (rxdAddr s i) descSize))

/-- Which model fault an access of software to the `n` bytes from `a` is, where it owns the buffers that `mine` picks:
of a descriptor the device owns (R112, spec/70_reset_and_hazards.md R513), or of a buffer of someone else's (R25).
DESIGN CHOICE (log 15): R25, R430 and R468 name no order where one access touches several of these, and their names
differ. A descriptor of the device's goes before every buffer, and of the buffers the first in the list `bufs` names the
fault. -/
def foreignFault (mine : Buf → Bool) (s : State) (a n : Nat) : Option ModelFault :=
  if n = 0 then none
  else if touchesDevSlot s a n then some .ownershipViolation
  else
    match s.bufs.find? (fun r => overlaps a n r.base.toNat s.cfg.bufSize && !mine r) with
    | some r => some (accessFault s (max a r.base.toNat))
    | none => none

/-- Which model fault an outside caller's read of the `n` bytes from `a` is (R25, R112, spec/45_checksum.md R430; log 16);
where it touches several buffers not the caller's, the one `foreignFault` names (DESIGN CHOICE, log 15). -/
def callerReadFault (s : State) (a n : Nat) : Option ModelFault :=
  foreignFault (fun r => callersOwn r.owner) s a n

/-- Which model fault software's access to `n` bytes of transmit slot `i`, from the offset `off` on, is where the ring
has no slot `i`: TX_SUBMIT comes to one where TDT ≥ N_TX, which R52 admits once REG_WRITE has enlarged TDLEN. Those bytes
may be a descriptor of the device's, a buffer that is not the transmit path's, or one that an outstanding slot has handed
to the device (R24, R25, R112, spec/41_transmit.md R251; log 43). -/
def txSlotFault (s : State) (i off n : Nat) : Option ModelFault :=
  if i < s.cfg.nTx then none
  else foreignFault (fun r => decide (r.owner = .txPath) && !txHolds s r.base) s (txdAddr s i + off) n

/-- A region Alloc may answer (R21, R105): aligned, inside the address space, owned by no one else, and apart
from the rings (spec/70_reset_and_hazards.md R505). The block allocates from INIT on alone
(spec/40_ring_init.md R201). -/
def allocOk (s : State) (b : Addr) : Bool :=
  decide (b.toNat % s.cfg.bufSize = 0) && decide (b.toNat + s.cfg.bufSize ≤ addrSpace) &&
  s.bufs.all (fun r => decide (r.owner = .allocator) ||
    !overlaps b.toNat s.cfg.bufSize r.base.toNat s.cfg.bufSize) &&
  decide (s.initPhase ≠ .notIssued) &&
  !overlaps b.toNat s.cfg.bufSize s.txRingBase.toNat (s.cfg.nTx * descSize) &&
  !overlaps b.toNat s.cfg.bufSize s.rxRingBase.toNat (s.cfg.nRx * descSize)

/-- The state after Alloc answers `b` to `who`: the buffer is theirs and its contents are fresh (R21). -/
def allocState (b : Addr) (who : Owner) (s : State) : State :=
  { s with
    mem := memClear s.mem b.toNat s.cfg.bufSize
    fenced := memClear s.fenced b.toNat s.cfg.bufSize
    bufs := s.bufs.filter (fun r => !overlaps b.toNat s.cfg.bufSize r.base.toNat s.cfg.bufSize) ++
      [⟨b, who, s.draws + 1⟩]
    draws := s.draws + 1
    events := s.events ++ [.allocated b] }

end Sys2Proof.Machine
end

