-- ==== Sys2Proof/Machine/Ops.lean ====
section
/-! DEFINITION. The shared operations every meaning is built from: the sequencing of accesses, refusals,
TAKING A FATAL CAUSE (`raiseFatal`, spec/60_exceptions.md R460, R461) and a model fault (R468), INTERRUPT
ENTRY AND RETURN (`irqEntry`, `irqReturn`, R472, R473), free values, events, memory and the allocator. -/

namespace Sys2Proof.Machine

/-- How an operation stops before its end. -/
inductive Stop where
  /-- The step ends here with this state: halted, a model fault recorded, or INIT held at S3. -/
  | ended (s : State)
  | fault (f : Fault)
  | refused (r : Refusal)

/-- An operation: it reads and writes the state, and may stop. -/
abbrev M (α : Type) := StateT State (Except Stop) α

/-- Write the state. -/
def update (f : State → State) : M Unit := fun s => .ok ((), f s)

/-- The step is not in the transition relation (R466). -/
def refuse {α : Type} (r : Refusal) : M α := fun _ => .error (.refused r)

/-- Stop with a fault. -/
def stopFault {α : Type} (f : Fault) : M α := fun _ => .error (.fault f)

/-- A precondition the spec states with `require`. -/
def require (c : Bool) (r : Refusal) : M Unit := if c then pure () else refuse r

/-- The operation where the condition holds, nothing otherwise. -/
def whenever (c : Bool) (m : M Unit) : M Unit := if c then m else pure ()

/-- The step ends with the state as it is. -/
def endHere {α : Type} : M α := fun s => .error (.ended s)

/-! ### Exceptions -/

/-- `raise Fatal(cause)` (spec/00_scope.md R16, R460, R461): what was written stays, `halted` and `fatal_info`
record the cause, `Halt` is emitted, and the step ends. -/
def raiseFatal {α : Type} (c : FatalCause) (info : Nat) : M α := fun s =>
  .error (.ended { s with
    halted := some c, fatalInfo := BitVec.ofNat 32 info, events := s.events ++ [.halt c] })

/-- A step the source forbids: `model_fault` records it and the run stops (R468). -/
def raiseModelFault {α : Type} (f : ModelFault) : M α := fun s =>
  .error (.ended { s with modelFault := some f })

/-- Interrupt entry (R472): nothing is saved, no mode changes, `irq_held` is cleared, control goes to IRQ. -/
def irqEntry : M Unit := update fun s => { s with irqHeld := false, sw := .irqI1 }

/-- Interrupt return (R473): nothing is restored; software is idle. -/
def irqReturn : M Unit := update fun s => { s with sw := .idle }

/-! ### Free values and events -/

/-- `draw()` of `w` bits (R18): the value the environment has fixed, or a free one. -/
def draw (w : Nat) : M (BitVec w) := fun s =>
  match s.drawAns with
  | v :: rest => .ok (v.setWidth w, { s with drawAns := rest, draws := s.draws + 1 })
  | [] => .ok ((Config.drawWord s.draws).setWidth w, { s with draws := s.draws + 1 })

/-- `emit E` (R19). -/
def emit (e : Event) : M Unit := update fun s => { s with events := s.events ++ [e] }

/-- `return X` to the caller of an operation (R17). -/
def answer (r : OpResult) : M Unit := update fun s => { s with results := s.results ++ [r] }

/-! ### Software's memory accesses without an interleaving point -/

/-- `MemRead(a, n)`. -/
def memRead (a n : Nat) : M (List Byte) := fun s =>
  if a + n ≤ addrSpace then .ok (bytesAt s a n, s) else .error (.fault (.noSuchAddress (a + n - 1)))

/-- `MemWrite(a, |bs|, bs)`. -/
def memWrite (a : Nat) (bs : List Byte) : M Unit := fun s =>
  if a + bs.length ≤ addrSpace then .ok ((), { s with mem := memPutBytes s.mem a bs })
  else .error (.fault (.noSuchAddress (a + bs.length - 1)))

/-! ### The device's memory accesses (DMA; spec/20_memory.md R103) -/

/-- A DMA read of a descriptor: the slot's contents as they stood at the tail write that gave it to the device, what
software had written with no FENCE before that write not among them (spec/20_memory.md R121; log 11). -/
def descRead (a n : Nat) : M (List Byte) := fun s =>
  if a + n ≤ addrSpace then .ok (bytesAt (atFence s) a n, s) else .error (.fault (.noSuchAddress (a + n - 1)))

/-- The device's read of one byte of a buffer. One that software has written since its last FENCE has reached the device
or not, which is a free value: the device sees it as it is, or as it was at that FENCE (R106;
spec/70_reset_and_hazards.md R510; log 11). -/
def dmaReadByte (c : Nat) : M Byte := do
  let s ← get
  if memGet s.mem c = memGet s.fenced c then pure (byteAt s c)
  else do
    let fresh ← draw 1
    pure (if fresh = 1 then byteAt s c else byteAt (atFence s) c)

/-- The bytes from `a` on, one after another: a buffer copy has no atomicity across bytes, and each is drawn for itself
(spec/20_memory.md R113). -/
def dmaReadBytes : (n a : Nat) → M (List Byte)
  | 0, _ => pure []
  | n + 1, a => do
    let b ← dmaReadByte a
    let bs ← dmaReadBytes n (a + 1)
    pure (b :: bs)

/-- A DMA read of a buffer. -/
def dmaRead (a n : Nat) : M (List Byte) :=
  if a + n ≤ addrSpace then dmaReadBytes n a else stopFault (.noSuchAddress (a + n - 1))

/-- A DMA write: software and the device see it at once (R109). -/
def dmaWrite (a : Nat) (bs : List Byte) : M Unit := fun s =>
  if a + bs.length ≤ addrSpace then .ok ((), dmaPut a bs s)
  else .error (.fault (.noSuchAddress (a + bs.length - 1)))

/-! ### Locks (R20; spec/70_reset_and_hazards.md R515) -/

/-- Take a ring lock; software that takes a held lock waits forever. -/
def acquire (l : Lock) : M Unit := fun s =>
  if l ∈ s.locks then .error (.fault (.lockNeverReleased l)) else .ok ((), { s with locks := l :: s.locks })

/-- Release a ring lock. -/
def unlock (l : Lock) : M Unit := update fun s => { s with locks := s.locks.erase l }

/-- `with_lock(l) { body }`. -/
def withLock {α : Type} (l : Lock) (body : M α) : M α := do
  acquire l
  let r ← body
  unlock l
  pure r

/-- The body for each index `0 .. n-1` in order. -/
def forUpTo (body : Nat → M Unit) : Nat → M Unit
  | 0 => pure ()
  | n + 1 => do
    forUpTo body n
    body n

/-! ### The end of a meaning -/

/-- What an operation's end is to the host: a next state, a fault or a refusal. -/
def outcomeOf : Except Stop (Unit × State) → Host.Outcome State Fault Refusal
  | .ok (_, s) => .next s
  | .error (.ended s) => .next s
  | .error (.fault f) => .fault f
  | .error (.refused r) => .refused r

/-- Run an operation: no agent steps once the block has halted or a model fault is recorded (R50, R462,
R468), and operands that fail a check are refused (R466). -/
def runOp (i : Instr) (m : M Unit) (s : State) : Host.Outcome State Fault Refusal :=
  match s.halted with
  | some c => .fault (.blockHalted c)
  | none =>
    match s.modelFault with
    | some f => .fault (.runStopped f)
    | none =>
      match malformed s.cfg i with
      | some w => .refused (.malformedOperands w)
      | none => outcomeOf (m s)

end Sys2Proof.Machine
end

