-- ==== Sys2Proof/Machine/Device.lean ====
section
/-! DEFINITION. The device's own events: DEV_RESET (spec/40_ring_init.md R212), DEV_TX_STEP
(spec/41_transmit.md R260) and DEV_RX_FRAME (spec/42_receive.md R310 to R313). Each is one atomic event
(spec/20_memory.md R111). -/

namespace Sys2Proof.Machine

/-! ### DEV_RESET -/

/-- The registers after a device reset: the named ones cleared, CTRL.RST cleared, the others free values, the
`n`-th on (R212; spec/10_state.md R69, the device-reset column). CTRL's other bits stay (log 20). -/
def resetDev (n : Nat) (d : DevRegs) : DevRegs :=
  let w (k : Nat) : Word := (Config.drawWord (n + k)).setWidth 32
  { d with
    icr := 0, ims := 0, rctl := 0
    tctl := w 0 &&& ~~~ctlEn
    tdh := 0, tdt := 0, rdh := 0, rdt := 0
    txCount := 0
    rdtr := 0, radv := 0
    tipg := w 1
    tdbal := w 2, tdbah := w 3, tdlen := w 4
    rdbal := w 5, rdbah := w 6, rdlen := w 7
    ral0 := w 8, rah0 := w 9
    mta := Vector.ofFn (fun j => w (10 + j.val))
    ralx := Vector.ofFn (fun j => w (138 + j.val))
    rahx := Vector.ofFn (fun j => w (153 + j.val) &&& 0x7FFFFFFF)
    rxRemaining := 0
    ctrlRst := false
    resetPending := false }

/-- How many free values a device reset uses. -/
def resetDraws : Nat := 168

/-- DEV_RESET: enabled while a reset is pending (R212). -/
def devResetOp : M Unit := do
  let s ← get
  require s.dev.resetPending .eventNotEnabled
  update fun s => { setDev (resetDev s.draws s.dev) s with draws := s.draws + resetDraws }

/-! ### DEV_TX_STEP -/

/-- DEV_TX_STEP's 'Enabled when' (R260), but for `halted`, which stops every operation. -/
def txStepEnabled (s : State) : Bool :=
  txEnabled s.dev && !s.dev.resetPending && txWork s

/-- The registers after the slot at TDH is done (R260). -/
def advanceTdh (p : Params) (d : DevRegs) : DevRegs :=
  { d with
    tdh := BitVec.ofNat 32 ((d.tdh.toNat + 1) % p.nTx)
    txCount := match p.wrapMode with
      | .idle => d.txCount
      | .sendAll => d.txCount - 1 }

/-- The device takes the descriptor at `a`, to read it and to write it back. One of software's, or memory inside a
buffer that is not the device's, is the model fault OWNERSHIP_VIOLATION (spec/00_scope.md R25, spec/20_memory.md R112,
spec/70_reset_and_hazards.md R513); memory that is nobody's is admitted (log 17). -/
def takeDescriptor (a : Nat) : M Unit := do
  let s ← get
  if touchesSoftware s a descSize then raiseModelFault .ownershipViolation else pure ()

/-- DEV_TX_STEP (R260): one descriptor read, the DMA read of the frame, the frame on the wire, DD written back
if RS asks for it, and TDH advanced. The buffer it reads is the transmit path's and carried by an outstanding slot
(R24, R251); reading another is the model fault OWNERSHIP_VIOLATION (R112). The descriptor is found from the ring base
registers and read as it stood at its tail write (spec/20_memory.md R118, R121). -/
def devTxStepOp : M Unit := do
  let s ← get
  require (txStepEnabled s) .eventNotEnabled
  let h := s.dev.tdh.toNat
  takeDescriptor (devTxdAddr s.dev h)
  let bs ← descRead (devTxdAddr s.dev h) descSize
  let d := txDescOf bs
  require (hasBit d.cmd bitTxEop && !hasBit d.cmd bitDext) .txDescriptorForm
  if devReads s d.addr.toNat d.length.toNat then
    let frame ← dmaRead d.addr.toNat d.length.toNat
    emit (.wireTx frame)
    whenever (hasBit d.cmd bitRs) (dmaWrite (devTxdAddr s.dev h + offStatus) [d.status ||| bitDD])
    update fun s => setDev (advanceTdh s.cfg s.dev) s
  else
    raiseModelFault .ownershipViolation

/-! ### DEV_RX_FRAME -/

/-- The receive filter (R313). -/
def accept (p : Params) (f : List Byte) : Bool :=
  decide (f.take 6 = p.localMac.bytes) || decide (f.take 6 = Mac.broadcast.bytes)

/-- The registers after the slot at RDH is filled (R310). -/
def advanceRdh (p : Params) (left : Nat) (d : DevRegs) : DevRegs :=
  { d with
    rdh := BitVec.ofNat 32 ((d.rdh.toNat + 1) % p.nRx)
    icr := d.icr ||| icrRxdw
    rxRemaining := left }

/-- The write-back of a filled slot's descriptor, the status last (R310, spec/20_memory.md R109). -/
def writeBack (slot : Nat) (len : Nat) (last : Bool) : M Unit := do
  let csum ← draw 16
  let errors ← draw 8
  let special ← draw 16
  let other ← draw 8
  dmaWrite (slot + offLength) (leBytes 2 len)
  dmaWrite (slot + offCsum) (leBytes 2 csum.toNat)
  dmaWrite (slot + offErrors) [errors]
  dmaWrite (slot + offSpecial) (leBytes 2 special.toNat)
  dmaWrite (slot + offStatus) [bitDD ||| (if last then bitRxEop else 0) ||| (other &&& 0xFC)]

/-- The device takes one descriptor after another for what is left of the frame (R310, R311); each turn uses
up a descriptor or ends, so `fuel` turns suffice (log 24). A descriptor that is not the device's, or a buffer that is
not, is the model fault OWNERSHIP_VIOLATION (R25, R112). -/
def rxLoop : (fuel : Nat) → List Byte → M Unit
  | 0, _ => update fun s => setDev { s.dev with rxRemaining := 0 } s
  | fuel + 1, rest => do
    let s ← get
    if s.dev.rdh = s.dev.rdt then
      update fun s => setDev { s.dev with icr := s.dev.icr ||| icrRxo, rxRemaining := 0 } s
      emit (.dropped .rxOverrun)
    else
      let slot := devRxdAddr s.dev s.dev.rdh.toNat
      let chunk := rest.take s.cfg.rxBufSize
      let left := rest.drop s.cfg.rxBufSize
      let last := decide (rest.length ≤ s.cfg.rxBufSize)
      takeDescriptor slot
      let a ← descRead (slot + offAddr) 8
      if ownsRange s .device (leNat a) chunk.length then
        dmaWrite (leNat a) chunk
        writeBack slot chunk.length last
        update fun s => setDev (advanceRdh s.cfg left.length s.dev) s
        if last then pure () else rxLoop fuel left
      else
        raiseModelFault .ownershipViolation

/-- DEV_RX_FRAME (R310): the enable, then the filter, then descriptors (R471). -/
def devRxFrameOp (f : List Byte) : M Unit := do
  let s ← get
  require (!s.dev.resetPending) .eventNotEnabled
  if !rxEnabled s.dev then emit (.dropped .rxDisabled)
  else if !accept s.cfg f then emit (.dropped .filtered)
  else rxLoop (f.length + s.cfg.nRx + 1) f

/-! ### The events as operations of the table -/

/-- A device event that falls inside a software operation. -/
def devEvent : DevEvent → M Unit
  | .reset => devResetOp
  | .txStep => devTxStepOp
  | .rxFrame f => do
    require (decide (14 ≤ f.length ∧ f.length ≤ 65535)) (.malformedOperands .frameLength)
    devRxFrameOp f

/-- DEV_RESET (R212). -/
def execDevReset (s : State) : Host.Outcome State Fault Refusal :=
  runOp .devReset devResetOp s

/-- DEV_TX_STEP (R260). -/
def execDevTxStep (s : State) : Host.Outcome State Fault Refusal :=
  runOp .devTxStep devTxStepOp s

/-- DEV_RX_FRAME (R310). -/
def execDevRxFrame (frame : List Byte) (s : State) : Host.Outcome State Fault Refusal :=
  runOp (.devRxFrame frame) (devRxFrameOp frame) s

end Sys2Proof.Machine
end

