-- ==== Sys2Proof/Machine/Access.lean ====
section
/-! DEFINITION. Software's accesses (spec/20_memory.md R111, R113): each memory access, register access, fence
and collaborator call is one event, before which the scheduled device events fall. Here also stand the
ownership checks of R25 and R112, FENCE (R106), the register interface (spec/40_ring_init.md R210, R211),
the allocator (spec/00_scope.md R21) and the frames of calls between operations (spec/10_state.md R41). -/

namespace Sys2Proof.Machine

/-! ### Interleaving -/

/-- One scheduled device event; one whose step is refused is not taken (log 8). -/
def tryDevice (e : DevEvent) : M Unit := fun s =>
  match devEvent e s with
  | .error (.refused _) => .ok ((), s)
  | r => r

/-- The scheduled device events of one access, in order. -/
def runDevices : List DevEvent → M Unit
  | [] => pure ()
  | e :: es => do
    tryDevice e
    runDevices es

/-- The point before a software access where device events may fall (R111). -/
def point : M Unit := fun s =>
  match s.sched with
  | [] => .ok ((), s)
  | es :: rest => runDevices es { s with sched := rest }

/-- `FENCE()` (R106, R119), one event: the device sees every earlier write from here on, but for those to the slots it
owns, which come too late for their tail writes (R121; log 11). -/
def fence : M Unit := do
  point
  update fenceState

/-! ### Memory -/

/-- `MemRead` inside a buffer: an access to bytes `who` does not own is a model fault (R25, R468). -/
def bufRead (who : Owner) (b : Addr) (off n : Nat) : M (List Byte) := do
  point
  let s ← get
  if ownsRange s who (b.toNat + off) n then memRead (b.toNat + off) n
  else raiseModelFault (accessFault s (b.toNat + off))

/-- `MemWrite` inside a buffer (R25, R468). -/
def bufWrite (who : Owner) (b : Addr) (off : Nat) (bs : List Byte) : M Unit := do
  point
  let s ← get
  if ownsRange s who (b.toNat + off) bs.length then memWrite (b.toNat + off) bs
  else raiseModelFault (accessFault s (b.toNat + off))

/-- Field writes into a buffer, one event each, in order. -/
def bufWriteFields (who : Owner) (b : Addr) : List (Nat × List Byte) → M Unit
  | [] => pure ()
  | (off, bs) :: fs => do
    bufWrite who b off bs
    bufWriteFields who b fs

/-- A software access that is a model fault where one is named. -/
def guardFault {α : Type} (f : Option ModelFault) (m : M α) : M α :=
  match f with
  | some f => raiseModelFault f
  | none => m

/-- Software's write of a transmit descriptor field; a slot the device owns must not be written (R112), nor, past the
ring's end, what is not software's (R25, R468; log 43). -/
def txdWrite (i off : Nat) (bs : List Byte) : M Unit := do
  point
  let s ← get
  if devOwnsTx s i then raiseModelFault .ownershipViolation
  else guardFault (txSlotFault s i off bs.length) (memWrite (txdAddr s i + off) bs)

/-- Software's write of a receive descriptor field; a slot the device owns must not be written (R112). -/
def rxdWrite (i off : Nat) (bs : List Byte) : M Unit := do
  point
  let s ← get
  if devOwnsRx s i then raiseModelFault .ownershipViolation
  else memWrite (rxdAddr s i + off) bs

/-- INIT's write of a receive descriptor field (spec/40_ring_init.md R200 S10). INIT issues no FENCE between these writes
and the RDT write of S12 (spec/20_memory.md R119): with `rxInitView = fenced` the device does not see them at that tail
write, as R121 says; with `written` it does, as spec/70_reset_and_hazards.md R506 says (log 48). -/
def rxdPlace (i off : Nat) (bs : List Byte) : M Unit := do
  point
  let s ← get
  if devOwnsRx s i then raiseModelFault .ownershipViolation
  else match s.cfg.rxInitView with
    | .written => dmaWrite (rxdAddr s i + off) bs
    | .fenced => memWrite (rxdAddr s i + off) bs

/-- Descriptor field writes, one event each, in order. -/
def descWriteFields (write : (off : Nat) → List Byte → M Unit) : List (Nat × List Byte) → M Unit
  | [] => pure ()
  | (off, bs) :: fs => do
    write off bs
    descWriteFields write fs

/-- Software's poll of a transmit descriptor's status: the one read of a slot that may be the device's, since DD is
how software learns that the slot is its own again (spec/10_state.md R46, spec/41_transmit.md R250 T2). Past the ring's
end it reads only what is software's (R25; log 43). -/
def txdPoll (i : Nat) : M (List Byte) := do
  point
  let s ← get
  guardFault (txSlotFault s i offStatus 1) (memRead (txdAddr s i + offStatus) 1)

/-- Software's poll of a receive descriptor's status (R47, spec/42_receive.md R303 RD1). -/
def rxdPoll (i : Nat) : M (List Byte) := do
  point
  let s ← get
  memRead (rxdAddr s i + offStatus) 1

/-- Software's read of another receive descriptor field; a slot the device owns must not be read
(spec/70_reset_and_hazards.md R513). -/
def rxdRead (i off n : Nat) : M (List Byte) := do
  point
  let s ← get
  if devOwnsRx s i then raiseModelFault .ownershipViolation
  else memRead (rxdAddr s i + off) n

/-! ### The register interface -/

/-- REG_READ's effect (spec/40_ring_init.md R210): the stored value, free values in reserved bits
(spec/10_state.md R63), and a read of ICR clears it (spec/20_memory.md R116). -/
def regRead (name : RegName) : M Word := do
  point
  let s ← get
  if name = .icr then
    update fun s => setDev { s.dev with icr := 0 } s
    pure s.dev.icr
  else if reservedMask s.cfg name = 0 then
    pure (regValue s.cfg s.dev name)
  else
    let r ← draw 32
    pure ((regValue s.cfg s.dev name &&& ~~~reservedMask s.cfg name) ||| (r &&& reservedMask s.cfg name))

/-- The device after a CTRL write whose RST bit is `rst` (spec/10_state.md R61): RST = 1 starts a reset. -/
def writeCtrl (v : Word) (rst : Bool) (d : DevRegs) : DevRegs :=
  { d with ctrlOther := v, ctrlRst := rst, resetPending := d.resetPending || rst }

/-- The device after a TDT write (R114, R211): with TX_WRAP_MODE = SEND_ALL a new value makes the slots from TDH up
to it outstanding, none where it is TDH, and the current value changes nothing (R115; log 33; a value of N_TX or more:
log 46). -/
def writeTdt (p : Params) (v : Word) (d : DevRegs) : DevRegs :=
  { d with
    tdt := v
    txCount := match p.wrapMode with
      | .idle => d.txCount
      | .sendAll => if v = d.tdt then d.txCount else cyclicLen p.nTx d.tdh.toNat v.toNat }

/-- REG_WRITE's effect on the device, by register (spec/40_ring_init.md R211). -/
def writeReg (p : Params) (name : RegName) (v : Word) (d : DevRegs) : DevRegs :=
  match name with
  | .ctrl => writeCtrl v (v &&& p.ctrlRstMask != 0) d
  | .icr => { d with icr := d.icr &&& ~~~v }
  | .ims => { d with ims := d.ims ||| v }
  | .imc => { d with ims := d.ims &&& ~~~v }
  | .rctl => { d with rctl := v }
  | .tctl => { d with tctl := v }
  | .tipg => { d with tipg := v }
  | .rdbal => { d with rdbal := v }
  | .rdbah => { d with rdbah := v }
  | .rdlen => { d with rdlen := v }
  | .rdh => { d with rdh := v }
  | .rdt => { d with rdt := v }
  | .rdtr => { d with rdtr := v }
  | .radv => { d with radv := v }
  | .tdbal => { d with tdbal := v }
  | .tdbah => { d with tdbah := v }
  | .tdlen => { d with tdlen := v }
  | .tdh => { d with tdh := v }
  | .tdt => writeTdt p v d
  | .mta j => { d with mta := d.mta.set j.val v j.isLt }
  | .ral0 => { d with ral0 := v }
  | .rah0 => { d with rah0 := v }

/-- Why REG_WRITE refuses a value: a reserved bit (spec/10_state.md R63), a cursor not below its ring's
length (R52), a head cursor after INIT (spec/40_ring_init.md R211). DESIGN CHOICE where a length register is no multiple of
DESC_SIZE: R52's `N = xDLEN / DESC_SIZE` is rounded down (log 47). -/
def regWriteRefusal (s : State) (name : RegName) (v : Word) : Option Refusal :=
  if name ≠ .ctrl ∧ v &&& reservedMask s.cfg name ≠ 0 then some .reservedBit
  else
    match name with
    | .tdh =>
      if s.initPhase = .done then some .headOwnedByDevice
      else if v.toNat < s.dev.tdlen.toNat / descSize then none else some .cursorRange
    | .rdh =>
      if s.initPhase = .done then some .headOwnedByDevice
      else if v.toNat < s.dev.rdlen.toNat / descSize then none else some .cursorRange
    | .tdt => if v.toNat < s.dev.tdlen.toNat / descSize then none else some .cursorRange
    | .rdt => if v.toNat < s.dev.rdlen.toNat / descSize then none else some .cursorRange
    | .ctrl | .icr | .ims | .imc | .rctl | .tctl | .tipg => none
    | .rdbal | .rdbah | .rdlen | .rdtr | .radv | .tdbal | .tdbah | .tdlen => none
    | .mta _ | .ral0 | .rah0 => none

/-- A register write whose effect on the device is `f`. DESIGN CHOICE: where a value that an operation itself writes fails
R52's check, which no rule's does unless an outside REG_WRITE has shrunk TDLEN or RDLEN, the whole operation is refused, as
if none of its earlier accesses had been made (log 44). -/
def regStore (name : RegName) (v : Word) (f : Params → DevRegs → DevRegs) : M Unit := do
  point
  let s ← get
  match regWriteRefusal s name v with
  | some r => refuse r
  | none => update fun s => setDev (f s.cfg s.dev) s

/-- REG_WRITE's effect (R211). -/
def regWrite (name : RegName) (v : Word) : M Unit := regStore name v fun p d => writeReg p name v d

/-- INIT S2's second access: CTRL is written with the value just read and RST = 1 (R61). -/
def ctrlAssertReset (v : Word) : M Unit := do
  point
  update fun s => setDev (writeCtrl v true s.dev) s

/-! ### The allocator (spec/00_scope.md R21) -/

/-- Alloc's next answer: what the environment has fixed, or a free one. -/
def nextAllocAnswer (s : State) : Option Addr × State :=
  match s.allocAns with
  | a :: rest => (a, { s with allocAns := rest })
  | [] => (Config.allocAnswer s.draws, { s with draws := s.draws + 1 })

/-- `Alloc()` for `who`: `none` is FAIL. An answer that is no region Alloc may give counts as FAIL (log 6). -/
def alloc (who : Owner) : M (Option Addr) := do
  point
  let s ← get
  match nextAllocAnswer s with
  | (none, s') => do
    update fun _ => s'
    pure none
  | (some b, s') =>
    if allocOk s b then do
      update fun _ => allocState b who s'
      pure (some b)
    else do
      update fun _ => s'
      pure none

/-- The state after a buffer goes back to the allocator. -/
def releaseState (b : Addr) (s : State) : State :=
  { setOwner b .allocator s with events := s.events ++ [.released b] }

/-- Which model fault a release of `b` by `who` is: OWNERSHIP_VIOLATION for a buffer the device owns, through a receive
slot or, the transmit path's own among them, through an outstanding transmit slot (R112, spec/10_state.md R46);
DOUBLE_RELEASE for another that `who` does not own (R468; spec/93_implementation_defined.md I15; log 15). -/
def releaseFault (s : State) (who : Owner) (b : Addr) : Option ModelFault :=
  if ownerOf s b = .device ∨ (ownerOf s b = .txPath ∧ txHolds s b = true) then some .ownershipViolation
  else if ownerOf s b = who then none
  else some .doubleRelease

/-- `Release(b)` by `who`; releasing what `who` does not own, or the device does, is a model fault. -/
def release (who : Owner) (b : Addr) : M Unit := do
  point
  let s ← get
  guardFault (releaseFault s who b) (update (releaseState b))

/-! ### Calls between operations -/

/-- Issue an internal operation from the sequencer position `pos` (spec/10_state.md R41, spec/30_encoding.md
R155), and come back to where software stood. -/
def callFrom {α : Type} (pos : SwSeq) (m : M α) : M α := do
  let s ← get
  update fun s => { s with sw := pos }
  let r ← m
  update fun t => { t with sw := s.sw }
  pure r

/-- An operation an outside caller or PLATFORM issues after INIT (spec/40_ring_init.md R201), software being
idle (spec/20_memory.md R110). -/
def fromOutside (m : M Unit) : M Unit := do
  let s ← get
  require (decide (s.sw = .idle)) .softwareBusy
  require (decide (s.initPhase = .done)) .beforeInit
  m

end Sys2Proof.Machine
end

