-- ==== Sys2Proof/Machine/Checksum.lean ====
section
/-! DEFINITION. CKSUM, the Internet checksum unit (spec/45_checksum.md R430 to R434). -/

namespace Sys2Proof.Machine

/-- The sum of the 16-bit big-endian words, a trailing odd byte being the high byte of a final word, in the
32-bit accumulator (R430). -/
def cksumAcc : Word → List Byte → Word
  | s, [] => s
  | s, [b] => s + (b.setWidth 32 <<< 8)
  | s, a :: b :: bs => cksumAcc (s + ((a.setWidth 32 <<< 8) ||| b.setWidth 32)) bs

/-- One fold of the carries (R430). -/
def cksumFold (s : Word) : Word := (s &&& (0xFFFF : Word)) + (s >>> 16)

/-- `checksum(bytes)` (R430). -/
def cksum (bs : List Byte) : Half := ~~~((cksumFold (cksumFold (cksumAcc 0 bs))).setWidth 16)

/-- CKSUM of `n` bytes of memory by an outside caller, one read event: of a region the caller owns (R430), another
being a model fault (R25, R112, R468; log 16). -/
def cksumMem (a n : Nat) : M Half := do
  point
  let s ← get
  match callerReadFault s a n with
  | some f => raiseModelFault f
  | none => do
    let bs ← memRead a n
    pure (cksum bs)

/-- CKSUM of `n` bytes of `who`'s buffer `b` from the offset `off` on. -/
def cksumBuf (who : Owner) (b : Addr) (off n : Nat) : M Half := do
  let bs ← bufRead who b off n
  pure (cksum bs)

/-- CKSUM (R430), admitted before INIT (spec/40_ring_init.md R201), but one software operation
runs at a time (log 35). -/
def execCksum (src : CksumSrc) (s : State) : Host.Outcome State Fault Refusal :=
  runOp (.cksum src) (do
    let s ← get
    require (decide (s.sw = .idle)) .softwareBusy
    match src with
    | .data bs => answer (.checksum (cksum bs))
    | .mem a n => do
      let c ← cksumMem a.toNat n.toNat
      answer (.checksum c)) s

end Sys2Proof.Machine
end

