-- ==== Sys2Proof/Machine/Transmit.lean ====
section
/-! DEFINITION. TX_SUBMIT (spec/41_transmit.md R250 to R256). -/

namespace Sys2Proof.Machine

/-- T3: the slot's earlier buffer is released. DESIGN CHOICE: where TDT ≥ N_TX, which R52 admits once REG_WRITE has
enlarged TDLEN, there is no record (R44) and it reads as NONE: nothing is released (log 43). -/
def releaseOld (t : Nat) : M Unit := do
  let s ← get
  match s.txOwner.getD t none with
  | some old => release .txPath old
  | none => pure ()

/-- T4: the slot's owner record and its descriptor, DD cleared last. DESIGN CHOICE: where TDT ≥ N_TX there is no record
to write (R44), and the descriptor is written past the ring, at `tx_ring_base` + 16 TDT, where those bytes are software's
(`txSlotFault`; log 43). -/
def fillTxSlot (t : Nat) (buf : Addr) (len : Half) : M Unit := do
  update fun s => setOwner buf .txPath { s with txOwner := s.txOwner.set t (some buf) }
  txdWrite t offAddr (leBytes 8 buf.toNat)
  txdWrite t offLength (leBytes 2 len.toNat)
  txdWrite t offCso [0]
  txdWrite t offCss [0]
  txdWrite t offSpecial (leBytes 2 0)
  txdWrite t offCmd [bitRs ||| bitTxEop]
  txdWrite t offStatus [0x00]

/-- The device after the TDT write that publishes one more descriptor (T5; R256). -/
def writeTail (v : Word) (p : Params) (d : DevRegs) : DevRegs :=
  { d with
    tdt := v
    txCount := match p.wrapMode with
      | .idle => d.txCount
      | .sendAll => min (d.txCount + 1) p.nTx }

/-- T5: the fence, then the tail. -/
def publishTx (t : Nat) : M Unit := do
  fence
  let s ← get
  regStore .tdt (BitVec.ofNat 32 ((t + 1) % s.cfg.nTx)) (writeTail (BitVec.ofNat 32 ((t + 1) % s.cfg.nTx)))

/-- T1 to T5, under the transmit ring's lock; on `Full` nothing is written (R252). -/
def submitBody (buf : Addr) (len : Half) : M ResultCode := do
  let tdt ← regRead .tdt                                              -- T1
  let st ← txdPoll tdt.toNat                                          -- T2
  if hasBit (byteOf st) bitDD = false then
    pure .full
  else do
    releaseOld tdt.toNat                                              -- T3
    fillTxSlot tdt.toNat buf len                                      -- T4
    publishTx tdt.toNat                                               -- T5
    pure .ok

/-- TX_SUBMIT by an owner `who` of the buffer (R250): the outside caller, the framer or the demultiplexer. DESIGN CHOICE:
a buffer recorded as a port queue's is not the caller's here, though a dequeued one is its consumer's (R24): the record
does not tell the two apart, and its submission is refused (log 45). -/
def txSubmitOp (who : Owner) (buf : Addr) (len : Half) : M ResultCode := do
  let s ← get
  require (decide (ownerOf s buf = who)) .bufferNotOwned
  require (decide (1 ≤ len.toNat ∧ len.toNat ≤ s.cfg.bufSize)) (.malformedOperands .txLength)
  withLock .tx (submitBody buf len)

/-- TX_SUBMIT (R250), of a buffer recorded as the caller's (log 45). -/
def execTxSubmit (buf : Addr) (len : Half) (s : State) : Host.Outcome State Fault Refusal :=
  runOp (.txSubmit buf len) (fromOutside do
    let r ← txSubmitOp .caller buf len
    answer (.code r)) s

end Sys2Proof.Machine
end

