-- ==== Sys2Proof/Machine/Framer.lean ====
section
/-! DEFINITION. UDP_TX, the UDP transmit framer (spec/44_udp_framer.md R400 to R403). -/

namespace Sys2Proof.Machine

/-- CopyIn's next answer: what the environment has fixed, or a free one (R400). -/
def nextCopyAnswer (s : State) : Bool × State :=
  match s.copyAns with
  | a :: rest => (a, { s with copyAns := rest })
  | [] => (Config.copyAnswer s.draws, { s with draws := s.draws + 1 })

/-- `CopyIn(b + off, payload, plen)`: the payload is written where it succeeds, nothing where it fails
(log 23). -/
def copyIn (b : Addr) (off : Nat) (payload : List Byte) : M Bool := do
  point
  let s ← get
  let a := nextCopyAnswer s
  update fun _ => a.2
  if a.1 then
    if ownsRange s .framer (b.toNat + off) payload.length then do
      memWrite (b.toNat + off) payload
      pure true
    else raiseModelFault (accessFault s (b.toNat + off))
  else pure false

/-- UDP_TX (R400), steps F1 to F7. DESIGN CHOICE (log 29): the result of R23 is UDP_TX's own; those of the CKSUM of F4
and the TX_SUBMIT of F7 go to UDP_TX alone and are not recorded. -/
def udpTxOp (sport : Half) (dstIp : Word) (dport : Half) (payload : List Byte) : M ResultCode := do
  let s ← get
  let plen := payload.length
  let total := udpTxHdrs + plen
  if s.cfg.bufSize < total then pure .tooLarge                        -- F1
  else do
    let b? ← alloc .framer                                            -- F2
    match b? with
    | none => pure .allocationFailed
    | some b => do
      bufWriteFields .framer b (udpTxFields s.cfg dstIp plen)         -- F3
      let c ← cksumBuf .framer b 14 20                                -- F4
      bufWrite .framer b 24 (be16Bytes c)
      bufWriteFields .framer b (udpHeaderFields sport dport plen)     -- F5
      let copied ← copyIn b 42 payload                                -- F6
      if copied then do
        let res ← txSubmitOp .framer b (BitVec.ofNat 16 total)        -- F7
        if res = .full then
          release .framer b
          pure .full
        else pure .ok
      else do
        release .framer b
        pure .copyFailed

/-- UDP_TX (R400). -/
def execUdpTx (sport : Half) (dstIp : Word) (dport : Half) (payload : List Byte) (s : State) :
    Host.Outcome State Fault Refusal :=
  runOp (.udpTx sport dstIp dport payload) (fromOutside do
    let r ← udpTxOp sport dstIp dport payload
    answer (.code r)) s

end Sys2Proof.Machine
end

