-- ==== Sys2Proof/Machine/Init.lean ====
section
/-! DEFINITION. INIT (spec/40_ring_init.md R200 to R203): S1 to S3 up to the device reset, S4 to S17 after it.
Where the scheduled device events do not complete the reset, INIT is held at S3, a position of the software
sequencer (spec/10_state.md R41), and `step` resumes it once the reset is complete. -/

namespace Sys2Proof.Machine

/-- S3: poll CTRL.RST at each access until the reset has completed, or hold INIT once no device event is
scheduled at its coming accesses (R203). -/
def awaitReset : (polls : Nat) → M Unit
  | 0 => do
    update fun s => { s with sw := .initHold }
    endHere
  | polls + 1 => do
    point
    let s ← get
    if s.dev.ctrlRst then awaitReset polls else pure ()

/-- S6: each transmit descriptor done, each owner NONE. -/
def initTxSlot (i : Nat) : M Unit := do
  descWriteFields (txdWrite i) (txDescFields ⟨0, 0, 0, 0, bitDD, 0, 0⟩)
  update fun s => { s with txOwner := s.txOwner.set i none }

/-- S10: each receive slot with a fresh buffer (what the device sees of it: log 48). -/
def initRxSlot (i : Nat) : M Unit := do
  let b? ← alloc .rxPath
  match b? with
  | none => raiseFatal .rxInitAlloc i
  | some b => do
    update fun s => { s with rxOwner := s.rxOwner.set i b }
    descWriteFields (rxdPlace i) (rxDescFields ⟨b, 0, 0, 0, 0, 0⟩)

/-- A ring's byte size must be a multiple of RING_ALIGN (S7, S11): `info` tells the ring (spec/60_exceptions.md
R460). -/
def checkAlign (n info : Nat) : M Unit := do
  let s ← get
  if n * descSize % s.cfg.ringAlign ≠ 0 then raiseFatal .ringMisaligned info else pure ()

/-- S1 and S2: mask the interrupts, start the device reset. -/
def initStart : M Unit := do
  regWrite .imc 0xFFFFFFFF                                            -- S1
  let v ← regRead .ctrl                                               -- S2
  ctrlAssertReset v

/-- S4 to S9: mask again, fence, the transmit ring. -/
def initTxRing : M Unit := do
  let s ← get
  regWrite .imc 0xFFFFFFFF                                            -- S4
  fence                                                               -- S5
  forUpTo initTxSlot s.cfg.nTx                                        -- S6
  checkAlign s.cfg.nTx 0                                              -- S7
  regWrite .tdbal (s.txRingBase.extractLsb' 0 32)                     -- S8
  regWrite .tdbah (s.txRingBase.extractLsb' 32 32)
  regWrite .tdlen (BitVec.ofNat 32 (s.cfg.nTx * descSize))
  regWrite .tdh 0                                                     -- S9
  regWrite .tdt 0

/-- S10 to S12: the receive ring. -/
def initRxRing : M Unit := do
  let s ← get
  forUpTo initRxSlot s.cfg.nRx                                        -- S10
  checkAlign s.cfg.nRx 1                                              -- S11
  regWrite .rdbal (s.rxRingBase.extractLsb' 0 32)                     -- S12
  regWrite .rdbah (s.rxRingBase.extractLsb' 32 32)
  regWrite .rdlen (BitVec.ofNat 32 (s.cfg.nRx * descSize))
  regWrite .rdh 0
  regWrite .rdt (BitVec.ofNat 32 (s.cfg.nRx - 1))

/-- S13's multicast table entry `j`. -/
def initMta (j : Nat) : M Unit :=
  if h : j < 128 then regWrite (.mta ⟨j, h⟩) 0 else pure ()

/-- S13 to S17: the address filter, the engines, the delay timers, the interrupt cause. -/
def initEngines : M Unit := do
  let s ← get
  regWrite .ral0 (ral0Of s.cfg.localMac)                              -- S13
  regWrite .rah0 (rah0Of s.cfg.localMac)
  forUpTo initMta 128
  regWrite .tctl tctlInit                                             -- S14
  regWrite .tipg tipgInit
  regWrite .rctl rctlInit                                             -- S15
  regWrite .rdtr 0                                                    -- S16
  regWrite .radv 0
  regWrite .ims icrRxdw                                               -- S17

/-- S4 to S17, once the reset has completed. -/
def initFinish : M Unit := do
  initTxRing
  initRxRing
  initEngines
  update fun s => { s with sw := .idle, initPhase := .done }

/-- INIT is issued: the ring bases and `register_base` are fixed from here on (spec/10_state.md R68). -/
def beginInit (rb tb xb : Addr) (s : State) : State :=
  { s with initPhase := .running, registerBase := rb, txRingBase := tb, rxRingBase := xb }

/-- S1 to S17. -/
def initBody : M Unit := do
  initStart
  let s ← get
  awaitReset (s.sched.length + 1)                                     -- S3
  initFinish

/-- INIT (R200), issued once (R201). -/
def initOp (rb tb xb : Addr) : M Unit := do
  let s ← get
  require (decide (s.sw = .idle)) .softwareBusy
  require (decide (s.initPhase = .notIssued)) .secondInit
  update (beginInit rb tb xb)
  initBody

/-- INIT (R200). -/
def execInit (registerBase txRingBase rxRingBase : Addr) (s : State) :
    Host.Outcome State Fault Refusal :=
  runOp (.init registerBase txRingBase rxRingBase) (initOp registerBase txRingBase rxRingBase) s

/-- INIT goes on from S3: the poll that finds the reset complete, then S4 to S17 (R203). -/
def resumeInit (s : State) : Host.Outcome State Fault Refusal :=
  outcomeOf (initFinish s)

end Sys2Proof.Machine
end

