-- ==== Sys2Proof/Machine/Demux.lean ====
section
/-! DEFINITION. CLASSIFY, ARP_RX, IP_RX and UDP_PAYLOAD (spec/43_demux.md R350 to R367), with the port-queue
collaborator as the demultiplexer sees it (R352). -/

namespace Sys2Proof.Machine

/-! ### PORTQ (R352) -/

/-- The queues bound to a port; port 0 is the unbound sentinel. -/
def boundQueues (s : State) (port : Half) : List Nat :=
  if port = 0 then []
  else (List.range s.portq.length).filter (fun q => decide ((s.portq[q]?).map Queue.port = some port))

/-- `PortLookup(p)`: the queue bound to `p`, any one of them where several are (decision D27). -/
def portLookup (port : Half) : M (Option Nat) := do
  point
  let s ← get
  match boundQueues s port with
  | [] => pure none
  | [q] => pure (some q)
  | q :: qs => do
    let pick ← draw 64
    pure (some ((q :: qs).getD (pick.toNat % (q :: qs).length) q))

/-- `PortEnqueue(q, pkt)`: appended, or counted as a drop where the queue is full. -/
def portEnqueue (q : Nat) (pkt : Packet) : M Bool := do
  point
  let s ← get
  match s.portq[q]? with
  | none => pure false
  | some e =>
    if e.packets.length < s.cfg.maxQueueLen then do
      update fun s => { s with portq := s.portq.set q { e with packets := e.packets ++ [pkt] } }
      pure true
    else do
      update fun s => { s with portq := s.portq.set q { e with drops := e.drops + 1 } }
      pure false

/-- `Wake(q)`: the consumers blocked on the queue are woken, one event of PORTQ (R352, R360; spec/20_memory.md
R111). -/
def portWake (q : Nat) : M Unit := do
  point
  emit (.wake q)

/-! ### ARP_RX -/

/-- A5 where the transmit ring is full: the reply is dropped. -/
def dropReply (r : Addr) : M Unit := do
  emit (.dropped .arpReplyRingFull)
  release .demux r

/-- A4: the reply's fields, in order; the querier's addresses are read from the query where they are written. -/
def arpReplyBuild (p : Params) (b r : Addr) : M Unit := do
  let dst ← bufRead .demux b 6 6
  bufWrite .demux r 0 dst
  bufWriteFields .demux r (arpReplyFields p)
  let tha ← bufRead .demux b 6 6
  bufWrite .demux r 32 tha
  let tpa ← bufRead .demux b 28 4
  bufWrite .demux r 38 tpa

/-- ARP_RX (R355). DESIGN CHOICE (log 29): the result of A5's TX_SUBMIT goes to ARP_RX alone and is not recorded
(spec/00_scope.md R23). -/
def arpRxOp (b : Addr) (_len : Half) : M Unit := do
  let s ← get
  if s.arpSeen then                                                   -- A1
    emit (.dropped .arpSuppressed)
    release .demux b
  else do
    update fun s => { s with arpSeen := true }                        -- A2
    let r? ← alloc .demux                                             -- A3
    match r? with
    | none => raiseFatal .arpReplyAlloc 0
    | some r => do
      arpReplyBuild s.cfg b r                                         -- A4
      let res ← txSubmitOp .demux r 42                                -- A5
      whenever (decide (res = .full)) (dropReply r)
      release .demux b                                                -- A6

/-! ### IP_RX -/

/-- IP_RX (R360): no field but IHL and the ports is looked at. -/
def ipRxOp (b : Addr) (len : Half) : M Unit := do
  let vi ← bufRead .demux b 14 1                                      -- P1
  let u := udpOffset (byteOf vi)
  let dp ← bufRead .demux b (u + 2) 2                                 -- P2
  let dport := be16 dp
  let q? ← portLookup dport                                           -- P3
  match q? with
  | none => do
    emit (.diag (.ipRxNoPort dport))
    emit (.dropped .noPort)
    release .demux b
  | some q => do
    let sp ← bufRead .demux b u 2                                     -- P4
    let pkt : Packet := ⟨len, be16 sp, b⟩
    let res ← portEnqueue q pkt                                       -- P5
    if res then
      update (setOwner b (.portq q))
      emit (.enqueue dport pkt)
      portWake q
    else
      emit (.dropped .queueFull)
      release .demux b

/-! ### CLASSIFY -/

/-- The type test of CLASSIFY: the length is tested first, and only then is the type field read (R350). -/
def typeIs (b : Addr) (len : Half) (minLen : Nat) (ty : Half) : M Bool :=
  if minLen ≤ len.toNat then do
    let bs ← bufRead .demux b 12 2
    pure (decide (be16 bs = ty))
  else pure false

/-- CLASSIFY (R350). -/
def classifyOp (b : Addr) (len : Half) : M Unit := do
  let arp ← typeIs b len arpFrameMin ethTypeArp                       -- C1
  if arp then callFrom .classifyC1 (arpRxOp b len)
  else do
    let ip ← typeIs b len ipFrameMin ethTypeIp                        -- C2
    if ip then callFrom .classifyC2 (ipRxOp b len)
    else do
      emit (.dropped .unrecognized)                                   -- C3
      release .demux b

/-! ### UDP_PAYLOAD -/

/-- Who reads a dequeued packet's buffer: the queue's consumer that owns it, or else the caller that consumes it
(R24; log 30). -/
def payloadReader (s : State) (b : Addr) : Owner :=
  match ownerOf s b with
  | .portq q => .portq q
  | .allocator | .caller | .framer | .txPath | .rxPath | .demux | .device => .caller

/-- UDP_PAYLOAD (R365). -/
def udpPayloadOp (b : Addr) (maxLen : BitVec 64) : M OpResult := do
  let s ← get
  let who := payloadReader s b
  let vi ← bufRead who b 14 1                                         -- U1
  let u := udpOffset (byteOf vi)
  let ip ← bufRead who b 26 4                                         -- U2
  let sp ← bufRead who b u 2
  let ul ← bufRead who b (u + 4) 2                                    -- U3
  let plen := (be16 ul).toNat - 8
  let count := min (min maxLen.toNat plen) (s.cfg.bufSize - (u + 8))  -- U4
  let data ← bufRead who b (u + 8) count
  pure (.payload (be32 ip) (be16 sp) (BitVec.ofNat 64 count) data)

/-! ### The operations -/

/-- An internal operation: refused unless the sequencer stands where it is issued (R155; log 12). -/
def internally (here : SwSeq → Bool) (m : M Unit) : M Unit := do
  let s ← get
  require (here s.sw) .internalOperation
  m

/-- CLASSIFY, issued by RX_DRAIN at RD3 (R350). -/
def execClassify (buf : Addr) (len : Half) (s : State) : Host.Outcome State Fault Refusal :=
  runOp (.classify buf len)
    (internally (fun p => match p with
      | .drainRD3 _ _ => true
      | _ => false) (classifyOp buf len)) s

/-- ARP_RX, issued by CLASSIFY at C1 (R355). -/
def execArpRx (buf : Addr) (len : Half) (s : State) : Host.Outcome State Fault Refusal :=
  runOp (.arpRx buf len) (internally (fun p => decide (p = .classifyC1)) (arpRxOp buf len)) s

/-- IP_RX, issued by CLASSIFY at C2 (R360). -/
def execIpRx (buf : Addr) (len : Half) (s : State) : Host.Outcome State Fault Refusal :=
  runOp (.ipRx buf len) (internally (fun p => decide (p = .classifyC2)) (ipRxOp buf len)) s

/-- UDP_PAYLOAD (R365); its result does not depend on the packet's length. -/
def execUdpPayload (buf : Addr) (len : Half) (maxLen : BitVec 64) (s : State) :
    Host.Outcome State Fault Refusal :=
  runOp (.udpPayload buf len maxLen) (fromOutside do
    let r ← udpPayloadOp buf maxLen
    answer r) s

end Sys2Proof.Machine
end

