-- ==== Sys2Proof/Machine/Receive.lean ====
section
/-! DEFINITION. IRQ and RX_DRAIN (spec/42_receive.md R300 to R306). -/

namespace Sys2Proof.Machine

/-- RD3: the slot's buffer and the frame's length go to CLASSIFY, in iteration `k` of the drain. -/
def deliver (i k : Nat) : M Unit := do
  let s ← get
  let b := s.rxOwner.getD i 0
  let len ← rxdRead i offLength 2
  update (setOwner b .demux)
  callFrom (.drainRD3 i k) (classifyOp b (BitVec.ofNat 16 (leNat len)))

/-- RD4 and RD5: the slot gets a fresh buffer, the receive path's until the tail write that hands the slot over
(R305), and its index goes to the tail register. -/
def replenish (i : Nat) : M Unit := do
  let nb? ← alloc .rxPath                                             -- RD4
  match nb? with
  | none => raiseFatal .rxReplenishAlloc i
  | some nb => do
    update fun s => { s with rxOwner := s.rxOwner.set i nb }
    rxdWrite i offAddr (leBytes 8 nb.toNat)
    rxdWrite i offStatus [0x00]
    fence                                                             -- RD5
    regWrite .rdt (BitVec.ofNat 32 i)

/-- The drain loop of a ring of `n` slots (R303 RD1 to RD5): `left` iterations remain, slot `i` is next, `done`
are processed. -/
def drainLoop (n : Nat) : (left i done : Nat) → M Nat
  | 0, _, done => pure done
  | left + 1, i, done => do
    let st ← rxdPoll i                                                -- RD1
    if hasBit (byteOf st) bitDD then
      if hasBit (byteOf st) bitRxEop then do                          -- RD2
        deliver i (n - (left + 1))
        replenish i
        drainLoop n left ((i + 1) % n) (done + 1)
      else raiseFatal .rxMultiDesc i
    else pure done

/-- RX_DRAIN (R303). It returns nothing (spec/60_exceptions.md R464); the diagnostic `processed` count of
spec/30_encoding.md R154 is RD6's event (R306; log 39). -/
def rxDrainOp : M Unit :=
  withLock .rx do
    let rdt ← regRead .rdt                                            -- RD0
    let s ← get
    let n ← drainLoop s.cfg.nRx s.cfg.nRx ((rdt.toNat + 1) % s.cfg.nRx) 0
    whenever (decide (0 < n)) (emit (.diag (.rxProcessed n)))         -- RD6

/-- RX_DRAIN, issued by IRQ at I2 (R303). -/
def execRxDrain (s : State) : Host.Outcome State Fault Refusal :=
  runOp .rxDrain (internally (fun p => decide (p = .irqI2)) rxDrainOp) s

/-- IRQ (R300): the interrupt entry, I1 the acknowledge, I2 the drain, the return. -/
def irqOp : M Unit := do
  irqEntry
  regWrite .icr 0xFFFFFFFF                                            -- I1
  callFrom .irqI2 rxDrainOp                                           -- I2
  irqReturn

/-- IRQ (R300). -/
def execIrq (s : State) : Host.Outcome State Fault Refusal :=
  runOp .irq (fromOutside irqOp) s

end Sys2Proof.Machine
end

