-- ==== Sys2Proof/Machine/Registers.lean ====
section
/-! DEFINITION. REG_READ and REG_WRITE as operations of an outside caller (spec/40_ring_init.md R210, R211). -/

namespace Sys2Proof.Machine

/-- REG_READ (R210). -/
def execRegRead (name : RegName) (s : State) : Host.Outcome State Fault Refusal :=
  runOp (.regRead name) (fromOutside do
    let v ← regRead name
    answer (.regValue v)) s

/-- REG_WRITE (R211). -/
def execRegWrite (name : RegName) (value : Word) (s : State) : Host.Outcome State Fault Refusal :=
  runOp (.regWrite name value) (fromOutside (regWrite name value)) s

end Sys2Proof.Machine
end

