-- ==== Sys2Proof/Machine/Dispatch.lean ====
section
/-! DEFINITION. One arm per operation of spec/opcode_table.json. -/

namespace Sys2Proof.Machine

def exec (i : Instr) (s : State) : Host.Outcome State Fault Refusal :=
  match i with
  | .init rb tb xb => Sys2Proof.Machine.execInit rb tb xb s
  | .txSubmit buf len => Sys2Proof.Machine.execTxSubmit buf len s
  | .irq => Sys2Proof.Machine.execIrq s
  | .rxDrain => Sys2Proof.Machine.execRxDrain s
  | .classify buf len => Sys2Proof.Machine.execClassify buf len s
  | .arpRx buf len => Sys2Proof.Machine.execArpRx buf len s
  | .ipRx buf len => Sys2Proof.Machine.execIpRx buf len s
  | .udpPayload buf len maxLen => Sys2Proof.Machine.execUdpPayload buf len maxLen s
  | .udpTx sport dstIp dport payload => Sys2Proof.Machine.execUdpTx sport dstIp dport payload s
  | .cksum src => Sys2Proof.Machine.execCksum src s
  | .regRead name => Sys2Proof.Machine.execRegRead name s
  | .regWrite name value => Sys2Proof.Machine.execRegWrite name value s
  | .devReset => Sys2Proof.Machine.execDevReset s
  | .devTxStep => Sys2Proof.Machine.execDevTxStep s
  | .devRxFrame frame => Sys2Proof.Machine.execDevRxFrame frame s

end Sys2Proof.Machine
end

