-- ==== Sys2Proof/Machine/Step.lean ====
section
/-! DEFINITION. One step of the block: which agent moves is data of the state (spec/20_memory.md R110, R111).
Software that INIT holds goes on once the reset is complete; else the command the scheduler offers runs;
with no command offered, an agent whose step is enabled takes it (weak fairness: R203, R261, R315). -/

namespace Sys2Proof.Machine

/-- INIT is held at S3 and the device has completed its reset (spec/40_ring_init.md R203). -/
def holdLifted (s : State) : Bool := decide (s.sw = .initHold) && !s.dev.ctrlRst

/-- The step an agent takes on its own when no command is offered (log 10): the device completes a pending
reset, PLATFORM delivers a held edge, the transmit engine takes a slot. -/
def ownMove (s : State) : Option Instr :=
  if s.dev.resetPending then some .devReset
  else if s.irqHeld && decide (s.initPhase = .done) && decide (s.sw = .idle) then some .irq
  else if txStepEnabled s then some .devTxStep
  else none

/-- One step. -/
def step (s : State) : Host.Outcome State Fault Refusal :=
  match s.halted, s.modelFault with
  | some c, _ => .fault (.blockHalted c)
  | none, some f => .fault (.runStopped f)
  | none, none =>
    if holdLifted s then resumeInit s
    else
      match s.inbox with
      | c :: rest =>
        match decode s.cfg.regOff c.word c.ports with
        | .ok i => exec i { s with inbox := rest, sched := c.during }
        | .error e => .refused (.illegalCommand e)
      | [] =>
        match ownMove s with
        | some i => exec i { s with sched := [] }
        | none => .refused .noAgentCanStep

/-- `s` with the instruction whose `nbits` bits are `w` offered as the next command, every port zero and no
device event falling inside it (log 27). -/
def State.withFetchWord (s : State) (nbits w : Nat) : State :=
  { s with inbox := [{ word := BitVec.ofNat 32 (w % 2 ^ nbits) }] }

end Sys2Proof.Machine
end

