-- ==== Sys2Proof/Safety.lean ====
section
/-! DEFINITION. What counts as a safe run of the block, in the terms the claims use: runs and their ends
(spec/00_scope.md R23, spec/60_exceptions.md R462, R468), the states software may be issued in, and the
invariants of every step. -/

namespace Sys2Proof.Machine

/-! ### Runs -/

/-- `t` follows from `s` by some number of steps. -/
inductive Reaches (s : State) : State → Prop where
  | here : Reaches s s
  | next {t u : State} (h : Reaches s t) (hs : step t = .next u) : Reaches s u

/-- Neither a fatal cause nor a model fault has stopped the run. -/
def Running (s : State) : Prop := s.halted = none ∧ s.modelFault = none

/-- The run has stopped in failure: a fatal cause (R462) or a model fault (R468). -/
def Failed (s : State) : Prop := s.halted ≠ none ∨ s.modelFault ≠ none

/-- A run from `s` is safe: no state it reaches records a model fault (R468). -/
def SafeFrom (s : State) : Prop := ∀ t, Reaches s t → t.modelFault = none

/-- The block runs, INIT is complete, software is idle and holds no lock, and no device event is scheduled at
the accesses of the next operation. An outside operation issued here is neither too early (R201) nor too
many (R110), and runs alone. -/
structure Ready (s : State) : Prop where
  halted : s.halted = none
  modelFault : s.modelFault = none
  initPhase : s.initPhase = .done
  sw : s.sw = .idle
  locks : s.locks = []
  sched : s.sched = []

/-- The block runs, software holds no lock and stands where an internal operation is issued, and no device
event is scheduled at the accesses of that operation. -/
structure ReadyAt (here : SwSeq) (s : State) : Prop where
  halted : s.halted = none
  modelFault : s.modelFault = none
  sw : s.sw = here
  locks : Lock.tx ∉ s.locks
  sched : s.sched = []

/-- The fatal causes an operation may raise: the 'raised by' column of spec/60_exceptions.md R460, with the
operations that call a raiser (spec/42_receive.md R300, R303; spec/43_demux.md R356). -/
def fatalCauses : Instr → List FatalCause
  | .init _ _ _ => [.ringMisaligned, .rxInitAlloc]
  | .irq | .rxDrain => [.rxMultiDesc, .rxReplenishAlloc, .arpReplyAlloc]
  | .classify _ _ | .arpRx _ _ => [.arpReplyAlloc]
  | .txSubmit _ _ | .ipRx _ _ | .udpPayload _ _ _ | .udpTx _ _ _ _ | .cksum _ => []
  | .regRead _ | .regWrite _ _ | .devReset | .devTxStep | .devRxFrame _ => []

/-! ### What a step leaves alone in memory -/

/-- Every byte reads as before. -/
def SameBytes (s t : State) : Prop := ∀ c, byteAt t c = byteAt s c

/-- The receive path's buffers are the ones INIT and RX_DRAIN put into the receive ring: there are none before INIT,
and they share no byte with that ring (spec/40_ring_init.md R201, spec/70_reset_and_hazards.md R505). -/
def DeviceBufsOffRing (s : State) : Prop :=
  ∀ r ∈ s.bufs, r.owner = .rxPath ∨ r.owner = .device → s.initPhase ≠ .notIssued ∧
    overlaps r.base.toNat s.cfg.bufSize s.rxRingBase.toNat (s.cfg.nRx * descSize) = false

/-- Every byte outside the `n` bytes from `a` reads as before. -/
def SameBytesOutside (a n : Nat) (s t : State) : Prop :=
  ∀ c, c < a ∨ a + n ≤ c → byteAt t c = byteAt s c

/-- The size constraints of spec/00_scope.md R8 on the parameters. That a ring's length fits its 32-bit length register
and RX_BUF_SIZE is at least 1 is the model's choice (log 1). -/
structure SizesOk (p : Params) : Prop where
  tx : 1 ≤ p.nTx ∧ p.nTx * 16 < 2 ^ 32
  rx : 1 ≤ p.nRx ∧ p.nRx * 16 < 2 ^ 32
  buf : 128 ≤ p.bufSize ∧ p.bufSize ≤ 65535
  rxBuf : 1 ≤ p.rxBufSize ∧ p.rxBufSize ≤ p.bufSize

/-! ### The checksum over unbounded integers (spec/45_checksum.md R431) -/

/-- The sum of the 16-bit big-endian words, a trailing odd byte being the high byte of a final word. -/
def wordSum : List Byte → Nat
  | [] => 0
  | [b] => b.toNat * 256
  | a :: b :: bs => a.toNat * 256 + b.toNat + wordSum bs

/-- The one's-complement sum that an unbounded sum stands for: its residue modulo 65535, where 0 stands for 0
alone and 65535 for its other multiples. -/
def onesSum (n : Nat) : Nat := if n = 0 then 0 else (n - 1) % 65535 + 1

/-! ### What the device sees -/

/-- The ring registers name the transmit ring INIT was given (spec/40_ring_init.md R200 S8). -/
structure TxRingSet (s : State) : Prop where
  base : s.dev.tdbah ++ s.dev.tdbal = s.txRingBase
  length : s.dev.tdlen.toNat = s.cfg.nTx * 16

/-- The ring registers name the receive ring INIT was given (R200 S12). -/
structure RxRingSet (s : State) : Prop where
  base : s.dev.rdbah ++ s.dev.rdbal = s.rxRingBase
  length : s.dev.rdlen.toNat = s.cfg.nRx * 16

/-- The device sees the `n` bytes from `a` as software does: every write of software to them is before its last FENCE,
and before the tail write that gave the device a slot there (spec/20_memory.md R106, R121). -/
def DeviceSees (s : State) (a n : Nat) : Prop :=
  ∀ c, a ≤ c → c < a + n → memGet s.mem c = memGet s.fenced c

/-- What the device sees of `t`, where software has passed a FENCE since `s`: every byte as it is, but for those of the
slots it owned in `s`, which it sees as it did (R106, R121). The `n` bytes from `a` are a buffer given out since `s`. -/
def FenceSeen (s t : State) (a n : Nat) : Prop :=
  ∀ c, (inDeviceSlot s c = false → memGet t.fenced c = memGet t.mem c) ∧
    (inDeviceSlot s c = true → c < a ∨ a + n ≤ c → memGet t.fenced c = memGet s.fenced c)

/-- The `n` bytes from `a` are the device's to take a descriptor from: they touch no slot of software's, and no buffer
but one the device holds (spec/00_scope.md R24, R25; spec/10_state.md R46, R47; spec/20_memory.md R112). -/
structure DeviceMayTouch (s : State) (a n : Nat) : Prop where
  txSlots : ∀ i < s.cfg.nTx, overlaps a n (txdAddr s i) 16 = true → devOwnsTx s i = true
  rxSlots : ∀ i < s.cfg.nRx, overlaps a n (rxdAddr s i) 16 = true → devOwnsRx s i = true
  buffers : ∀ r ∈ s.bufs, overlaps a n r.base.toNat s.cfg.bufSize = true → heldByDevice s r = true

/-- The `n` bytes from `a` are the device's to send: they lie inside a transmit buffer that an outstanding slot carries
(spec/00_scope.md R24, R27; R46), or are none (log 40). -/
def DeviceReads (s : State) (a n : Nat) : Prop :=
  n = 0 ∨ ∃ r ∈ s.bufs, r.owner = .txPath ∧ (∃ i, devOwnsTx s i = true ∧ s.txOwner[i]? = some (some r.base)) ∧
    r.base.toNat ≤ a ∧ a + n ≤ r.base.toNat + s.cfg.bufSize

/-! ### Where the receive engine writes (spec/42_receive.md R310 to R312) -/

/-- The `j`-th receive slot from RDH on. -/
def rxSlot (s : State) (j : Nat) : Nat := (s.dev.rdh.toNat + j) % s.cfg.nRx

/-- The length of the `j`-th chunk of a frame of `n` bytes (R311). -/
def chunkLen (p : Params) (n j : Nat) : Nat := min p.rxBufSize (n - j * p.rxBufSize)

/-- The `k` slots from RDH on are free, the device finds them in the ring, which no buffer and no transmit slot touches,
it sees their address fields, and each holds the address of its owner record, a buffer of the receive path's, inside the
address space and apart from the other slots' buffers. -/
structure RxSlotsReady (s : State) (k : Nat) : Prop where
  ring : RxRingSet s
  free : k ≤ cyclicLen s.cfg.nRx s.dev.rdh.toNat s.dev.rdt.toNat
  seen : ∀ j < k, DeviceSees s (rxdAddr s (rxSlot s j)) 8
  record : ∀ j < k, s.rxOwner[rxSlot s j]? = some (rxd s (rxSlot s j)).addr
  owned : ∀ j < k, recordedOwner s (rxd s (rxSlot s j)).addr = .rxPath
  inside : ∀ j < k, (rxd s (rxSlot s j)).addr.toNat + s.cfg.bufSize ≤ addrSpace
  offRing : ∀ r ∈ s.bufs, overlaps r.base.toNat s.cfg.bufSize s.rxRingBase.toNat (s.cfg.nRx * descSize) = false
  offTx : overlaps s.txRingBase.toNat (s.cfg.nTx * descSize) s.rxRingBase.toNat (s.cfg.nRx * descSize) = false
  apart : ∀ i j, i < j → j < k → overlaps (rxd s (rxSlot s i)).addr.toNat s.cfg.bufSize
    (rxd s (rxSlot s j)).addr.toNat s.cfg.bufSize = false

/-- What `k` chunks of the frame `f`, written into the slots from RDH on, make of a state: each buffer holds its
chunk, each descriptor its address, the chunk's length, DD, and EOP on the frame's last chunk; every other byte reads
as before, and what the device saw it still sees; RDH moves on by `k`, ICR.RXDW is set, and what the interrupt line
does is held. -/
structure RxFilled (s : State) (f : List Byte) (k : Nat) (t : State) : Prop where
  slots : ∀ j < k,
    (rxd t (rxSlot s j)).addr = (rxd s (rxSlot s j)).addr ∧
    (rxd t (rxSlot s j)).length.toNat = chunkLen s.cfg f.length j ∧
    hasBit (rxd t (rxSlot s j)).status bitDD = true ∧
    hasBit (rxd t (rxSlot s j)).status bitRxEop = decide (f.length ≤ (j + 1) * s.cfg.rxBufSize) ∧
    bytesAt t (rxd s (rxSlot s j)).addr.toNat (chunkLen s.cfg f.length j) =
      (f.drop (j * s.cfg.rxBufSize)).take s.cfg.rxBufSize
  same : ∀ c,
    (∀ j < k, (c < (rxd s (rxSlot s j)).addr.toNat ∨
        (rxd s (rxSlot s j)).addr.toNat + chunkLen s.cfg f.length j ≤ c) ∧
      (c < rxdAddr s (rxSlot s j) + 8 ∨ rxdAddr s (rxSlot s j) + 16 ≤ c)) →
    byteAt t c = byteAt s c
  sees : ∀ a n, DeviceSees s a n → DeviceSees t a n
  state : t = { s with
    mem := t.mem, fenced := t.fenced, drawAns := t.drawAns, draws := s.draws + 4 * k
    irqHeld := s.irqHeld || (!irqLine s.dev && irqLine t.dev)
    dev := { s.dev with
      rdh := BitVec.ofNat 32 ((s.dev.rdh.toNat + k) % s.cfg.nRx)
      icr := if k = 0 then s.dev.icr else s.dev.icr ||| icrRxdw
      rxRemaining := if k = 0 then s.dev.rxRemaining else f.length - k * s.cfg.rxBufSize } }

/-! ### The ownership map and the owner records -/

/-- The ownership map's buffers are aligned, lie inside the address space and share no byte
(spec/00_scope.md R21, R24; spec/20_memory.md R105). -/
structure BufsApart (s : State) : Prop where
  aligned : ∀ r ∈ s.bufs, r.base.toNat % s.cfg.bufSize = 0
  inside : ∀ r ∈ s.bufs, r.base.toNat + s.cfg.bufSize ≤ addrSpace
  apart : s.bufs.Pairwise fun r q =>
    overlaps r.base.toNat s.cfg.bufSize q.base.toNat s.cfg.bufSize = false

/-- The owner records have one entry per slot (spec/10_state.md R44). -/
def OwnersSized (s : State) : Prop :=
  s.txOwner.length = s.cfg.nTx ∧ s.rxOwner.length = s.cfg.nRx

/-! ### INIT (spec/40_ring_init.md R200) -/

/-- The registers as DEV_RESET leaves them, as far as INIT relies on it (R212). -/
structure ResetDone (d : DevRegs) : Prop where
  icr : d.icr = 0
  ims : d.ims = 0
  tx : d.tdh = 0 ∧ d.tdt = 0 ∧ d.txCount = 0
  rx : d.rdh = 0 ∧ d.rdt = 0
  done : d.ctrlRst = false ∧ d.resetPending = false

/-- The rings at `tb` and `xb` lie inside the address space and share no byte (spec/70_reset_and_hazards.md
R505). -/
structure RingsApart (p : Params) (tb xb : Addr) : Prop where
  tx : tb.toNat + p.nTx * 16 ≤ addrSpace
  rx : xb.toNat + p.nRx * 16 ≤ addrSpace
  apart : overlaps tb.toNat (p.nTx * 16) xb.toNat (p.nRx * 16) = false

/-- The buffers `bs` are regions Alloc may answer one after another (spec/00_scope.md R21, spec/20_memory.md
R105): aligned, inside the address space, no one else's, apart from the rings and from each other. -/
structure FreshBuffers (s : State) (tb xb : Addr) (bs : List Addr) : Prop where
  aligned : ∀ b ∈ bs, b.toNat % s.cfg.bufSize = 0
  inside : ∀ b ∈ bs, b.toNat + s.cfg.bufSize ≤ addrSpace
  free : ∀ b ∈ bs, ∀ r ∈ s.bufs, r.owner = .allocator ∨
    overlaps b.toNat s.cfg.bufSize r.base.toNat s.cfg.bufSize = false
  offTx : ∀ b ∈ bs, overlaps b.toNat s.cfg.bufSize tb.toNat (s.cfg.nTx * 16) = false
  offRx : ∀ b ∈ bs, overlaps b.toNat s.cfg.bufSize xb.toNat (s.cfg.nRx * 16) = false
  distinct : bs.Nodup

/-- INIT from S4 on: the parameters and the ring bases of the state are as R8 and R105 ask, its device has been
reset, and the allocator's coming answers are receive buffers, at most one for each
slot. -/
structure InitReady (s : State) (bs : List Addr) (rest : List (Option Addr)) : Prop where
  sizes : SizesOk s.cfg
  owners : OwnersSized s
  sched : s.sched = []
  phase : s.initPhase = .running
  dev : ResetDone s.dev
  rings : RingsApart s.cfg s.txRingBase s.rxRingBase
  apart : BufsApart s
  answers : s.allocAns = bs.map some ++ rest
  fresh : FreshBuffers s s.txRingBase s.rxRingBase bs
  count : bs.length ≤ s.cfg.nRx

/-- A state in which INIT may be issued with the ring bases `tb` and `xb`, its device completing its reset at one of
INIT's polls (the first is INIT's fourth access) and taking the events of `later` at the accesses after it, and the
allocator's coming answers being receive buffers, at most one for each slot. -/
structure InitIssued (s : State) (tb xb : Addr) (bs : List Addr) (rest : List (Option Addr))
    (later : List (List DevEvent)) : Prop where
  running : Running s
  idle : s.sw = .idle
  phase : s.initPhase = .notIssued
  sizes : SizesOk s.cfg
  owners : OwnersSized s
  apart : BufsApart s
  aligned : tb.toNat % 16 = 0 ∧ xb.toNat % 16 = 0
  rings : RingsApart s.cfg tb xb
  answers : s.allocAns = bs.map some ++ rest
  fresh : FreshBuffers s tb xb bs
  count : bs.length ≤ s.cfg.nRx
  sched : ∃ polls, s.sched = List.replicate (3 + polls) [] ++ [.reset] :: later

/-- How many accesses INIT makes from S4 to S15: the mask and the fence, seven for each slot of either ring, five for each
ring's registers, the address filter, and the three registers that set the engines going (R200). -/
def initAccesses (p : Params) : Nat := 2 + 7 * p.nTx + 5 + 7 * p.nRx + 5 + (2 + 128) + 3

/-- The fatal ends of INIT from S6 on, in order: `s` is the state INIT goes on from, `d` its device after the reset,
`o` INIT's outcome (R200 S7, S10, S11; spec/60_exceptions.md R460, R461). -/
structure InitFatalEnds (s : State) (d : DevRegs) (bs : List Addr) (rest : List (Option Addr))
    (o : Host.Outcome State Fault Refusal) : Prop where
  txMisaligned : s.cfg.nTx * 16 % s.cfg.ringAlign ≠ 0 → ∃ t, o = .next t ∧
    t.halted = some .ringMisaligned ∧ t.fatalInfo = 0 ∧ t.events = s.events ++ [.halt .ringMisaligned] ∧
    t.dev.tdlen = d.tdlen ∧ t.dev.tdbal = d.tdbal ∧ t.dev.tdbah = d.tdbah ∧
    ∀ i < s.cfg.nTx, txd t i = ⟨0, 0, 0, 0, 0x01, 0, 0⟩
  allocFails : s.cfg.nTx * 16 % s.cfg.ringAlign = 0 → bs.length < s.cfg.nRx → rest.head? = some none →
    ∃ t, o = .next t ∧
    t.halted = some .rxInitAlloc ∧ t.fatalInfo = BitVec.ofNat 32 bs.length ∧
    t.events = s.events ++ bs.map Event.allocated ++ [.halt .rxInitAlloc] ∧
    t.dev.rdlen = d.rdlen ∧ t.dev.rdbal = d.rdbal ∧ t.dev.rdbah = d.rdbah ∧
    ∀ (j : Nat) (h : j < bs.length), rxd t j = ⟨bs[j], 0, 0, 0, 0, 0⟩ ∧ t.rxOwner[j]? = some bs[j]
  rxMisaligned : s.cfg.nTx * 16 % s.cfg.ringAlign = 0 → bs.length = s.cfg.nRx →
    s.cfg.nRx * 16 % s.cfg.ringAlign ≠ 0 → ∃ t, o = .next t ∧
    t.halted = some .ringMisaligned ∧ t.fatalInfo = 1 ∧
    t.events = s.events ++ bs.map Event.allocated ++ [.halt .ringMisaligned] ∧
    t.dev.rdlen = d.rdlen ∧ t.dev.tdlen.toNat = s.cfg.nTx * 16

/-- The registers after INIT: the last column of spec/10_state.md R69, with the values of R64 to R66. -/
structure InitRegisters (p : Params) (tb xb : Addr) (d : DevRegs) : Prop where
  irq : d.icr = 0 ∧ d.ims = 0x00000080
  txRing : d.tdbal = tb.extractLsb' 0 32 ∧ d.tdbah = tb.extractLsb' 32 32 ∧ d.tdlen.toNat = p.nTx * 16 ∧
    d.tdh = 0 ∧ d.tdt = 0
  rxRing : d.rdbal = xb.extractLsb' 0 32 ∧ d.rdbah = xb.extractLsb' 32 32 ∧ d.rdlen.toNat = p.nRx * 16 ∧
    d.rdh = 0 ∧ d.rdt.toNat = p.nRx - 1
  filter : d.ral0.toNat = p.localMac.b0.toNat + 2 ^ 8 * p.localMac.b1.toNat + 2 ^ 16 * p.localMac.b2.toNat +
      2 ^ 24 * p.localMac.b3.toNat ∧
    d.rah0.toNat = p.localMac.b4.toNat + 2 ^ 8 * p.localMac.b5.toNat + 2 ^ 31 ∧
    ∀ (j : Nat) (h : j < 128), d.mta[j] = 0
  engines : d.rctl = 0x04008002 ∧ d.tctl = 0x0004010A ∧ d.tipg = 0x0060200A ∧ d.rdtr = 0 ∧ d.radv = 0
  hidden : d.ctrlRst = false ∧ d.resetPending = false ∧ d.txCount = 0

/-- What INIT with the ring bases `tb` and `xb` and the buffers `bs` makes of a state `s` (R200): both rings and
their owner records, the registers, the buffers the receive path's and handed to the device but for the reserved
slot's (spec/10_state.md R47; log 34), one `Allocated` each; the device sees all but the transmit ring's slots, none of
which is its own, and, with `rxInitView = fenced`, the receive ring's, which it sees as they stood at the FENCE of S5
(spec/20_memory.md R121, R506; log 11, 48); every other byte and everything else as before. -/
structure AfterInit (s : State) (rb tb xb : Addr) (bs : List Addr) (rest : List (Option Addr)) (t : State) :
    Prop where
  registers : InitRegisters s.cfg tb xb t.dev
  txRing : ∀ i < s.cfg.nTx, txd t i = ⟨0, 0, 0, 0, 0x01, 0, 0⟩ ∧ t.txOwner[i]? = some none
  rxRing : ∀ (i : Nat) (h : i < bs.length), rxd t i = ⟨bs[i], 0, 0, 0, 0, 0⟩ ∧ t.rxOwner[i]? = some bs[i]
  owners : ∀ x, recordedOwner t x = if x ∈ bs then .rxPath else recordedOwner s x
  handed : ∀ (i : Nat) (h : i < bs.length), ownerOf t bs[i] = if i + 1 < s.cfg.nRx then .device else .rxPath
  sees : ∀ a n, (a + n ≤ tb.toNat ∨ tb.toNat + s.cfg.nTx * 16 ≤ a) →
    (s.cfg.rxInitView = .fenced → a + n ≤ xb.toNat ∨ xb.toNat + s.cfg.nRx * 16 ≤ a) → DeviceSees t a n
  unseen : s.cfg.rxInitView = .fenced → ∀ c, xb.toNat ≤ c → c < xb.toNat + s.cfg.nRx * 16 →
    memGet t.fenced c = memGet s.mem c
  same : ∀ c, (c < tb.toNat ∨ tb.toNat + s.cfg.nTx * 16 ≤ c) → (c < xb.toNat ∨ xb.toNat + s.cfg.nRx * 16 ≤ c) →
    (∀ b ∈ bs, c < b.toNat ∨ b.toNat + s.cfg.bufSize ≤ c) → byteAt t c = byteAt s c
  state : t = { s with
    mem := t.mem, fenced := t.fenced, dev := t.dev, bufs := t.bufs, txOwner := t.txOwner, rxOwner := t.rxOwner
    draws := t.draws, drawAns := t.drawAns, registerBase := rb, txRingBase := tb, rxRingBase := xb
    allocAns := rest, events := s.events ++ bs.map Event.allocated, initPhase := .done, sw := .idle, sched := [] }

/-- Both rings lie inside the address space (spec/70_reset_and_hazards.md R505). -/
def RingsInside (s : State) : Prop :=
  s.txRingBase.toNat + s.cfg.nTx * descSize ≤ addrSpace ∧
    s.rxRingBase.toNat + s.cfg.nRx * descSize ≤ addrSpace

/-! ### The frames the block builds and reads -/

/-- The 42 bytes of the ARP reply (spec/43_demux.md R355 A4); `qsrc` is the query's Ethernet source, `qspa` its
sender protocol address. -/
def arpReply (p : Params) (qsrc qspa : List Byte) : List Byte :=
  qsrc ++ p.localMac.bytes ++ [0x08, 0x06, 0x00, 0x01, 0x08, 0x00, 0x06, 0x04, 0x00, 0x02] ++
    p.localMac.bytes ++ be32Bytes p.localIp ++ qsrc ++ qspa

/-- The IPv4 header of UDP_TX with the checksum field `c` (spec/44_udp_framer.md R400 F3). -/
def udpIpHeader (p : Params) (dstIp : Word) (plen : Nat) (c : List Byte) : List Byte :=
  [0x45, 0x00] ++ be16Bytes (BitVec.ofNat 16 (28 + plen)) ++ [0x00, 0x00, 0x00, 0x00, p.ipTxTtl, 0x11] ++ c ++
    be32Bytes p.localIp ++ be32Bytes dstIp

/-- The frame of UDP_TX (R400 F3 to F6): the Ethernet header, the IPv4 header with its checksum, the UDP header
and the payload. -/
def udpFrame (p : Params) (sport : Half) (dstIp : Word) (dport : Half) (payload : List Byte) : List Byte :=
  p.peerMac.bytes ++ p.localMac.bytes ++ [0x08, 0x00] ++
    udpIpHeader p dstIp payload.length
      (be16Bytes (cksum (udpIpHeader p dstIp payload.length [0x00, 0x00]))) ++
    be16Bytes sport ++ be16Bytes dport ++ be16Bytes (BitVec.ofNat 16 (8 + payload.length)) ++ [0x00, 0x00] ++
    payload

/-- The type field of the frame in a buffer (spec/43_demux.md R350). -/
def frameType (s : State) (b : Addr) : Half := be16 (bytesAt s (b.toNat + 12) 2)

/-- The address of the UDP header of the frame in a buffer: 14 + 4 * IHL, from the version/length byte (R360 P1,
R365 U1). -/
def udpAt (s : State) (b : Addr) : Nat := b.toNat + 14 + 4 * ((byteAt s (b.toNat + 14)).toNat % 16)

/-- Queue `q` is bound to a port; port 0 is the unbound sentinel (R352). -/
def BoundTo (s : State) (port : Half) (q : Nat) (e : Queue) : Prop :=
  port ≠ 0 ∧ s.portq[q]? = some e ∧ e.port = port

/-- A buffer of `who`, inside the address space, in a block with buffers of at least 128 bytes (spec/00_scope.md
R8). -/
structure Holds (s : State) (who : Owner) (b : Addr) : Prop where
  owner : ownerOf s b = who
  size : 128 ≤ s.cfg.bufSize
  inside : b.toNat + s.cfg.bufSize ≤ addrSpace

/-- A state in which software may allocate a buffer and try to submit it: the sizes are R8's, the rings lie inside the
address space, and the buffers are apart. -/
structure SubmitReady (s : State) : Prop where
  sched : s.sched = []
  sizes : SizesOk s.cfg
  rings : RingsInside s
  apart : BufsApart s
  locks : Lock.tx ∉ s.locks
  tail : s.dev.tdt.toNat < s.cfg.nTx
  tdlen : s.dev.tdlen.toNat = s.cfg.nTx * 16

/-- The slot at TDT is software's to fill: the device does not own it, DD is set, and its earlier buffer is the
transmit path's and is carried by no slot the device owns (spec/10_state.md R46; spec/20_memory.md R112). -/
structure SlotReady (s : State) : Prop where
  slot : devOwnsTx s s.dev.tdt.toNat = false
  done : hasBit (txd s s.dev.tdt.toNat).status bitDD = true
  old : ∀ o, s.txOwner.getD s.dev.tdt.toNat none = some o → ownerOf s o = .txPath ∧ txHolds s o = false

/-- What the submission of the fresh buffer `r` with the length `len` makes of a state, the answers and events
apart: the slot at TDT carries `r`, the tail moves on, `r` is the transmit path's, the slot's earlier buffer and
the buffers of `freed` are the allocator's; no byte outside `r` and the slot's descriptor has changed, and the device
sees all of it (spec/41_transmit.md R250, R254; spec/20_memory.md R107). -/
structure SubmittedFresh (s : State) (r : Addr) (len : Half) (freed : List Addr) (t : State) : Prop where
  slot : txd t s.dev.tdt.toNat = ⟨r, len, 0, 0x09, 0x00, 0, 0⟩
  owners : ∀ x, ownerOf t x =
    if x = r then .txPath
    else if x ∈ freed ∨ s.txOwner.getD s.dev.tdt.toNat none = some x then .allocator
    else ownerOf s x
  same : ∀ c, (c < r.toNat ∨ r.toNat + s.cfg.bufSize ≤ c) →
    (c < txdAddr s s.dev.tdt.toNat ∨ txdAddr s s.dev.tdt.toNat + 16 ≤ c) → byteAt t c = byteAt s c
  txOwner : t.txOwner = s.txOwner.set s.dev.tdt.toNat (some r)
  seen : FenceSeen s t r.toNat s.cfg.bufSize
  dev : t.dev = { s.dev with
    tdt := BitVec.ofNat 32 ((s.dev.tdt.toNat + 1) % s.cfg.nTx)
    txCount := if s.cfg.wrapMode = .sendAll then min (s.dev.txCount + 1) s.cfg.nTx else s.dev.txCount }

/-- The buffer `r` went out of the allocator and back: no owner but its own has changed, and no byte outside it. -/
structure GivenBack (s : State) (r : Addr) (freed : List Addr) (t : State) : Prop where
  owners : ∀ x, ownerOf t x = if x = r ∨ x ∈ freed then .allocator else ownerOf s x
  same : ∀ c, (c < r.toNat ∨ r.toNat + s.cfg.bufSize ≤ c) → byteAt t c = byteAt s c

/-- One more transmit slot can be published without reaching the wrap state of R256. -/
def TxRoom (s : State) : Prop := cyclicLen s.cfg.nTx s.dev.tdh.toNat s.dev.tdt.toNat + 1 < s.cfg.nTx

/-- RD4 and RD5 (spec/42_receive.md R303, R304) make of a state: slot `i` carries the fresh buffer `nb`, the receive
path's until that tail write (the model's reading of RD4's DEVICE: log 34), with its status clear and its other fields
kept, and the tail register the slot's index; no byte outside `nb` and the slot's descriptor has changed, and the device
sees all of it. -/
structure Replenished (s : State) (i : Nat) (nb : Addr) (t : State) : Prop where
  slot : rxd t i = { rxd s i with addr := nb, status := 0 }
  owners : ∀ x, recordedOwner t x = if x = nb then .rxPath else recordedOwner s x
  apart : BufsApart t
  same : ∀ c, (c < nb.toNat ∨ nb.toNat + s.cfg.bufSize ≤ c) →
    (c < rxdAddr s i ∨ rxdAddr s i + 16 ≤ c) → byteAt t c = byteAt s c
  offRing : nb.toNat + s.cfg.bufSize ≤ s.rxRingBase.toNat ∨
    s.rxRingBase.toNat + s.cfg.nRx * descSize ≤ nb.toNat
  seen : FenceSeen s t nb.toNat s.cfg.bufSize
  state : t = { s with
    mem := t.mem, fenced := t.fenced, bufs := t.bufs, draws := t.draws, allocAns := s.allocAns.tail
    rxOwner := s.rxOwner.set i nb
    dev := { s.dev with rdt := BitVec.ofNat 32 i }, events := s.events ++ [.allocated nb] }

/-- The `n` bytes from `a` are an outside caller's to read (spec/45_checksum.md R430; log 16): they touch no descriptor
the device owns, and no buffer that is neither the caller's nor a port queue's. -/
structure CallerReads (s : State) (a n : Nat) : Prop where
  txSlots : s.initPhase ≠ .notIssued → ∀ i, devOwnsTx s i = true → overlaps a n (txdAddr s i) 16 = false
  rxSlots : s.initPhase ≠ .notIssued → ∀ i, devOwnsRx s i = true → overlaps a n (rxdAddr s i) 16 = false
  buffers : ∀ r ∈ s.bufs, overlaps a n r.base.toNat s.cfg.bufSize = true →
    r.owner = .caller ∨ ∃ q, r.owner = .portq q

/-- Back at a sequencer position where the operation called has not stopped the run (spec/10_state.md R41). -/
def backTo (p : SwSeq) (t : State) : State :=
  if t.halted = none ∧ t.modelFault = none then { t with sw := p } else t

/-- The end of a called operation, seen from where software comes back to (spec/10_state.md R41). -/
def comeBack (p : SwSeq) : Host.Outcome State Fault Refusal → Host.Outcome State Fault Refusal
  | .next t => .next (backTo p t)
  | o => o

/-! ### Invariants -/

/-- No interrupt is lost: while `irq_line` is 1, an edge is held for PLATFORM (spec/42_receive.md R315). A
model fault ends the run in the middle of an operation and is not covered. -/
def NoLostEdge (s : State) : Prop :=
  s.modelFault = none → s.halted = none → irqLine s.dev = true → s.irqHeld = true

/-- Between steps of a run that has not failed, software is idle or held at INIT S3, and holds no lock
(spec/20_memory.md R110, spec/70_reset_and_hazards.md R515). -/
def SoftwareRests (s : State) : Prop :=
  Running s → (s.sw = .idle ∨ s.sw = .initHold) ∧ s.locks = []

/-- The rings as INIT leaves them: inside the address space and apart, named by the device's ring registers, every
cursor on its ring, every buffer of the ownership map off both rings (spec/20_memory.md R104, R105;
spec/70_reset_and_hazards.md R505), and no device reset pending. -/
structure RingsGuarded (s : State) : Prop where
  sizes : SizesOk s.cfg
  rings : RingsApart s.cfg s.txRingBase s.rxRingBase
  tx : TxRingSet s
  rx : RxRingSet s
  txCursors : s.dev.tdh.toNat < s.cfg.nTx ∧ s.dev.tdt.toNat < s.cfg.nTx
  rxCursors : s.dev.rdh.toNat < s.cfg.nRx ∧ s.dev.rdt.toNat < s.cfg.nRx
  owners : OwnersSized s
  bufs : ∀ r ∈ s.bufs,
    overlaps r.base.toNat s.cfg.bufSize s.txRingBase.toNat (s.cfg.nTx * 16) = false ∧
    overlaps r.base.toNat s.cfg.bufSize s.rxRingBase.toNat (s.cfg.nRx * 16) = false
  noReset : s.dev.resetPending = false

/-- The transmit ring between software operations, outside the wrap state (spec/41_transmit.md R262,
spec/10_state.md R46): DD is clear exactly on the slots of `[TDH, TDT)`, and each of those carries its owner's
buffer and the command RS | EOP, and the device sees it as software wrote it (spec/20_memory.md R107). -/
structure TxRingInv (s : State) : Prop where
  head : s.dev.tdh.toNat < s.cfg.nTx
  tail : s.dev.tdt.toNat < s.cfg.nTx
  count : txOutstanding s = cyclicLen s.cfg.nTx s.dev.tdh.toNat s.dev.tdt.toNat
  done : ∀ i < s.cfg.nTx, cyclicMem s.cfg.nTx s.dev.tdh.toNat s.dev.tdt.toNat i = true ↔
    hasBit (txd s i).status bitDD = false
  owned : ∀ i < s.cfg.nTx, cyclicMem s.cfg.nTx s.dev.tdh.toNat s.dev.tdt.toNat i = true →
    s.txOwner[i]? = some (some (txd s i).addr) ∧ (txd s i).cmd = 0x09
  seen : ∀ i < s.cfg.nTx, cyclicMem s.cfg.nTx s.dev.tdh.toNat s.dev.tdt.toNat i = true →
    DeviceSees s (txdAddr s i) 16

/-- The wrap state with IDLE: TDT = TDH, so the device has no work, and every DD is clear, so that software finds no room.
The ring is dead for good (spec/41_transmit.md R256; spec/70_reset_and_hazards.md R514). -/
structure TxDead (s : State) : Prop where
  mode : s.cfg.wrapMode = .idle
  empty : s.dev.tdt = s.dev.tdh
  clear : ∀ i < s.cfg.nTx, hasBit (txd s i).status bitDD = false

/-- The receive ring between software operations (spec/10_state.md R47, spec/42_receive.md R316): its free slots and
the reserved one hold their owner records' buffers with DD clear, which the device sees (spec/20_memory.md R108), and
the other slots are filled. -/
structure RxRingInv (s : State) : Prop where
  head : s.dev.rdh.toNat < s.cfg.nRx
  tail : s.dev.rdt.toNat < s.cfg.nRx
  free : ∀ i < s.cfg.nRx, cyclicMem s.cfg.nRx s.dev.rdh.toNat s.dev.rdt.toNat i = true →
    hasBit (rxd s i).status bitDD = false ∧ s.rxOwner[i]? = some (rxd s i).addr
  filled : ∀ i < s.cfg.nRx,
    cyclicMem s.cfg.nRx ((s.dev.rdt.toNat + 1) % s.cfg.nRx) s.dev.rdh.toNat i = true →
    hasBit (rxd s i).status bitDD = true
  reserved : hasBit (rxd s s.dev.rdt.toNat).status bitDD = false ∧
    s.rxOwner[s.dev.rdt.toNat]? = some (rxd s s.dev.rdt.toNat).addr
  seen : ∀ i < s.cfg.nRx,
    cyclicMem s.cfg.nRx s.dev.rdh.toNat s.dev.rdt.toNat i = true ∨ i = s.dev.rdt.toNat → DeviceSees s (rxdAddr s i) 8

end Sys2Proof.Machine
end

