-- ==== Sys2Proof/Certificates/Slice0/Obligations.lean ====
section
/-! DEFINITION. The statements for the provers. Each cites the rule of spec/ it formalises. -/

open Sys2Proof Sys2Proof.Machine

/-! ### Encoding -/

/-- Decoding the command of any operation, at any register offsets R8 admits, gives the operation back
(spec/30_encoding.md R153, R154). -/
def Obligations.DecodeEncode : Prop :=
  ∀ (ro : RegOff) (i : Instr), ro.wf = true → decode ro (encode ro i).1 (encode ro i).2 = .ok i

/-- A word the decoder accepts is the one command word of the operation it decodes to: no two words share a
meaning (R153, R154). -/
def Obligations.DecodeOnlyItsWord : Prop :=
  ∀ (ro : RegOff) (w : Word) (p : Ports) (i : Instr), decode ro w p = .ok i → w = encodeWord i

/-- The illegal command words are those of R156, each refused by its own name, and no others. -/
def Obligations.IllegalCommandWords : Prop :=
  ∀ (ro : RegOff) (w : Word) (p : Ports),
    (decode ro w p = .error .reservedWordBits ↔ 0x100 ≤ w.toNat) ∧
    (decode ro w p = .error .unknownOpcode ↔
      w.toNat = 0x00 ∨ (0x0B ≤ w.toNat ∧ w.toNat ≤ 0x0F) ∨ (0x12 ≤ w.toNat ∧ w.toNat ≤ 0x7F) ∨
        (0x83 ≤ w.toNat ∧ w.toNat ≤ 0xFF))

/-- REG_READ and REG_WRITE decode exactly where the access is 32 bits wide, 4-aligned and at the offset of a
register, and then name that register (spec/20_memory.md R102). -/
def Obligations.RegisterAccesses : Prop :=
  ∀ (ro : RegOff) (p : Ports) (i : Instr), ro.wf = true →
    (decode ro 0x00000010 p = .ok i ↔ ∃ n, i = .regRead n ∧ p.regWidth = .word32 ∧
      p.regOffset.toNat % 4 = 0 ∧ p.regOffset.toNat = ro.off n) ∧
    (decode ro 0x00000011 p = .ok i ↔ ∃ n, i = .regWrite n p.value ∧ p.regWidth = .word32 ∧
      p.regOffset.toNat % 4 = 0 ∧ p.regOffset.toNat = ro.off n)

/-- The command word of each row of R154, written out, decodes to the row's operation with its operands from the ports
the row names. -/
def Obligations.WrittenWordsDecode : Prop :=
  decode .reference 0x00000001 { registerBase := 0x10000000, txRingBase := 0x80000000, rxRingBase := 0x80001000 } =
      .ok (.init 0x10000000 0x80000000 0x80001000) ∧
  decode .reference 0x00000002 { buf := 0x80010000, len := 42 } = .ok (.txSubmit 0x80010000 42) ∧
  decode .reference 0x00000003 {} = .ok .irq ∧
  decode .reference 0x00000004 {} = .ok .rxDrain ∧
  decode .reference 0x00000005 { buf := 0x80010800, len := 60 } = .ok (.classify 0x80010800 60) ∧
  decode .reference 0x00000006 { buf := 0x80010800, len := 42 } = .ok (.arpRx 0x80010800 42) ∧
  decode .reference 0x00000007 { buf := 0x80010800, len := 52 } = .ok (.ipRx 0x80010800 52) ∧
  decode .reference 0x00000008 { buf := 0x80010800, len := 52, maxLen := 1500 } =
      .ok (.udpPayload 0x80010800 52 1500) ∧
  decode .reference 0x00000009 { sport := 5000, dstIp := 0x0A000202, dport := 6000, payload := [0x68, 0x69] } =
      .ok (.udpTx 5000 0x0A000202 6000 [0x68, 0x69]) ∧
  decode .reference 0x0000000A { addr := 0x80010000, n := 20 } = .ok (.cksum (.mem 0x80010000 20)) ∧
  decode .reference 0x0000000A { dataBytes := some [0x45, 0x00], n := 2 } = .ok (.cksum (.data [0x45, 0x00])) ∧
  decode .reference 0x00000010 { regOffset := 0x3818 } = .ok (.regRead .tdt) ∧
  decode .reference 0x00000011 { regOffset := 0xC0, value := 0xFFFFFFFF } = .ok (.regWrite .icr 0xFFFFFFFF) ∧
  decode .reference 0x00000080 {} = .ok .devReset ∧
  decode .reference 0x00000081 {} = .ok .devTxStep ∧
  decode .reference 0x00000082 { frame := [0xFF, 0x01] } = .ok (.devRxFrame [0xFF, 0x01])

/-- Descriptor fields are little-endian at the offsets of R140 and R141 in the 16 bytes at ring base + 16*i
(R101, R42), and the bytes of a descriptor read back as that descriptor. -/
def Obligations.DescriptorLayouts : Prop :=
  (∀ (s : State) (i : Nat),
    txd s i = { addr := BitVec.ofNat 64 (leNat (bytesAt s (s.txRingBase.toNat + 16 * i) 8)),
                length := BitVec.ofNat 16 (leNat (bytesAt s (s.txRingBase.toNat + 16 * i + 8) 2)),
                cso := byteAt s (s.txRingBase.toNat + 16 * i + 10),
                cmd := byteAt s (s.txRingBase.toNat + 16 * i + 11),
                status := byteAt s (s.txRingBase.toNat + 16 * i + 12),
                css := byteAt s (s.txRingBase.toNat + 16 * i + 13),
                special := BitVec.ofNat 16 (leNat (bytesAt s (s.txRingBase.toNat + 16 * i + 14) 2)) } ∧
    rxd s i = { addr := BitVec.ofNat 64 (leNat (bytesAt s (s.rxRingBase.toNat + 16 * i) 8)),
                length := BitVec.ofNat 16 (leNat (bytesAt s (s.rxRingBase.toNat + 16 * i + 8) 2)),
                csum := BitVec.ofNat 16 (leNat (bytesAt s (s.rxRingBase.toNat + 16 * i + 10) 2)),
                status := byteAt s (s.rxRingBase.toNat + 16 * i + 12),
                errors := byteAt s (s.rxRingBase.toNat + 16 * i + 13),
                special := BitVec.ofNat 16 (leNat (bytesAt s (s.rxRingBase.toNat + 16 * i + 14) 2)) }) ∧
  (∀ d : TxDesc, (txDescBytes d).length = 16 ∧ txDescOf (txDescBytes d) = d) ∧
  (∀ d : RxDesc, (rxDescBytes d).length = 16 ∧ rxDescOf (rxDescBytes d) = d)

/-! ### The step -/

/-- A step runs the decoded operation: where the block runs and INIT has no hold to leave, the command at the
head of the inbox is taken off it, its device events are scheduled at the operation's accesses, and the step is
the operation's meaning; a command that does not decode is refused by the decoder's name for it (R153, R156). That
commands stand in an inbox, carry the device events of their accesses, and wait for a lifted hold of INIT to be left
first, is the model's choice (log 7, 9, 27). -/
def Obligations.StepRunsDecoded : Prop :=
  ∀ (s : State) (c : Command) (rest : List Command), Running s → holdLifted s = false → s.inbox = c :: rest →
    (∀ i, decode s.cfg.regOff c.word c.ports = .ok i →
      step s = exec i { s with inbox := rest, sched := c.during }) ∧
    (∀ e, decode s.cfg.regOff c.word c.ports = .error e → step s = .refused (.illegalCommand e))

/-- The moves agents make on their own (the model's reading of the weak fairness of R203, R261 and R315: log
10). INIT leaves its hold first; with no command offered the device completes a pending reset, PLATFORM delivers
a held edge to an idle software, the transmit engine takes a slot, and with none of these the run is over. -/
def Obligations.StepOwnMoves : Prop :=
  ∀ s : State, Running s →
    (holdLifted s = true → step s = resumeInit s) ∧
    (holdLifted s = false → s.inbox = [] →
      (s.dev.resetPending = true → step s = exec .devReset { s with sched := [] }) ∧
      (s.dev.resetPending = false → s.irqHeld = true → s.initPhase = .done → s.sw = .idle →
        step s = exec .irq { s with sched := [] }) ∧
      (s.dev.resetPending = false → s.irqHeld = false → txStepEnabled s = true →
        step s = exec .devTxStep { s with sched := [] }) ∧
      (s.dev.resetPending = false → s.irqHeld = false → txStepEnabled s = false →
        step s = .refused .noAgentCanStep))

/-! ### Invariants of every step -/

/-- The state right after reset: the power-on values R500 states, nothing listed in memory nor in what the device has
seen of it, and every invariant below. The model's choices it rests on: that no edge is due, on the reset values of ICR
and IMS (log 2); the record lengths, on those of the owner records (log 3); that memory lists nothing (log 4), nor what
the device has seen of it (log 11); that the parameters are legal, on their reference values (log 1). -/
def Obligations.ResetMeetsInvariants : Prop :=
  (State.reset.arpSeen = false ∧ State.reset.halted = none ∧ State.reset.modelFault = none ∧
    State.reset.irqHeld = false ∧ rxEnabled State.reset.dev = false ∧ txEnabled State.reset.dev = false ∧
    State.reset.dev.resetPending = false ∧ State.reset.initPhase = .notIssued ∧ State.reset.mem = [] ∧
    State.reset.fenced = []) ∧
  Memory.wf State.reset.mem = true ∧ Memory.wf State.reset.fenced = true ∧ BufsApart State.reset ∧
    DeviceBufsOffRing State.reset ∧ NoLostEdge State.reset ∧ SoftwareRests State.reset ∧ OwnersSized State.reset ∧
    State.reset.cfg.wf = true

/-- Every step keeps memory, and memory as the device is sure to see it, in its canonical form. -/
def Obligations.StepKeepsMemoryCanonical : Prop :=
  ∀ s t : State, Memory.wf s.mem = true → Memory.wf s.fenced = true → step s = .next t →
    Memory.wf t.mem = true ∧ Memory.wf t.fenced = true

/-- Every step keeps the buffers of the ownership map aligned, inside the address space and apart: one owner
per byte at every instant (spec/00_scope.md R21, R24; spec/20_memory.md R105). And it keeps the device's buffers apart
from the receive ring (spec/70_reset_and_hazards.md R505). -/
def Obligations.StepKeepsBufsApart : Prop :=
  (∀ s t : State, BufsApart s → step s = .next t → BufsApart t) ∧
  (∀ s t : State, DeviceBufsOffRing s → step s = .next t → DeviceBufsOffRing t)

/-- No interrupt is lost, under every interleaving of device events: while `irq_line` is 1, an edge waits for
delivery (spec/42_receive.md R301, R315). -/
def Obligations.StepKeepsNoLostEdge : Prop :=
  ∀ s t : State, NoLostEdge s → step s = .next t → NoLostEdge t

/-- Software operations are serialised: each step that does not fail leaves software idle or held at INIT S3,
holding no lock (spec/20_memory.md R110; spec/70_reset_and_hazards.md R515). -/
def Obligations.StepKeepsSoftwareRests : Prop :=
  ∀ s t : State, SoftwareRests s → step s = .next t → SoftwareRests t

/-- The parameters never change, and the three base addresses never change once INIT has been issued
(spec/10_state.md R68). -/
def Obligations.ConfigurationIsFixed : Prop :=
  ∀ s t : State, step s = .next t →
    t.cfg = s.cfg ∧
    (s.initPhase ≠ .notIssued → t.registerBase = s.registerBase ∧ t.txRingBase = s.txRingBase ∧
      t.rxRingBase = s.rxRingBase)

/-- `arp_seen` is never cleared, and only ARP_RX, alone or inside CLASSIFY, RX_DRAIN or IRQ, sets it
(spec/10_state.md R45). -/
def Obligations.ArpSeenOnlySet : Prop :=
  (∀ s t : State, step s = .next t → s.arpSeen = true → t.arpSeen = true) ∧
  (∀ (i : Instr) (s t : State), exec i s = .next t →
    i.opcode ∉ [.arpRx, .classify, .rxDrain, .irq] → t.arpSeen = s.arpSeen)

/-- The owner records keep one entry per slot, `tx_owner` is written only by INIT and TX_SUBMIT (alone or
inside UDP_TX, ARP_RX and what calls it), and `rx_owner` only by INIT and RX_DRAIN (spec/10_state.md R44). -/
def Obligations.OwnerRecordsWrittenBy : Prop :=
  (∀ s t : State, OwnersSized s → step s = .next t → OwnersSized t) ∧
  (∀ (i : Instr) (s t : State), exec i s = .next t →
    (i.opcode ∉ [.init, .txSubmit, .udpTx, .arpRx, .classify, .rxDrain, .irq] → t.txOwner = s.txOwner) ∧
    (i.opcode ∉ [.init, .rxDrain, .irq] → t.rxOwner = s.rxOwner))

/-- What the operations that only look or only touch the device leave alone, under every interleaving: CKSUM,
UDP_PAYLOAD, REG_READ, REG_WRITE and the device's own events change no owner record, no ownership, no queue, no
software flag and no failure record but a model fault (spec/10_state.md R49; spec/42_receive.md R312). -/
def Obligations.QuietOperationsFrame : Prop :=
  ∀ (i : Instr) (s t : State), exec i s = .next t →
    i.opcode ∈ [.cksum, .udpPayload, .regRead, .regWrite, .devReset, .devTxStep, .devRxFrame] →
    t.cfg = s.cfg ∧ t.registerBase = s.registerBase ∧ t.txRingBase = s.txRingBase ∧
    t.rxRingBase = s.rxRingBase ∧ t.txOwner = s.txOwner ∧ t.rxOwner = s.rxOwner ∧ t.arpSeen = s.arpSeen ∧
    t.halted = s.halted ∧ t.fatalInfo = s.fatalInfo ∧ t.initPhase = s.initPhase ∧ t.sw = s.sw ∧
    t.locks = s.locks ∧ t.bufs = s.bufs ∧ t.portq = s.portq ∧ t.inbox = s.inbox

/-! ### Fatal causes, model faults and refusals -/

/-- Once `halted` is not NONE, no agent steps: no operation and no step answers a next state
(spec/10_state.md R50). -/
def Obligations.HaltedIsTerminal : Prop :=
  ∀ (s : State) (c : FatalCause), s.halted = some c →
    (∀ i, exec i s = .fault (.blockHalted c)) ∧ step s = .fault (.blockHalted c)

/-- Which operation may raise which fatal cause, under every interleaving: CLASSIFY only ARP_REPLY_ALLOC, IP_RX
and TX_SUBMIT none (spec/43_demux.md R356), and the others as R460's table has it; BIND_EXHAUSTED is never
raised. -/
def Obligations.FatalCausesByOperation : Prop :=
  (∀ (i : Instr) (s t : State), exec i s = .next t →
    t.halted = s.halted ∨ ∃ c ∈ fatalCauses i, t.halted = some c) ∧
  (∀ s t : State, step s = .next t → t.halted ≠ some .bindExhausted)

/-- Raising a fatal cause records it with its value, emits Halt and ends the step with what was written left
as it is; a model fault is recorded alone, and once recorded no operation and no step answers a next state; interrupt
entry clears `irq_held` alone and sends control to IRQ; interrupt return restores nothing (spec/60_exceptions.md R460,
R461, R468, R472, R473). -/
def Obligations.ExceptionEntryAndReturn : Prop :=
  (∀ (c : FatalCause) (info : Nat) (s : State),
    (raiseFatal c info : M Unit) s = .error (.ended { s with
      halted := some c, fatalInfo := BitVec.ofNat 32 info, events := s.events ++ [.halt c] })) ∧
  (∀ (f : ModelFault) (s : State),
    (raiseModelFault f : M Unit) s = .error (.ended { s with modelFault := some f })) ∧
  (∀ (s : State) (f : ModelFault), s.halted = none → s.modelFault = some f →
    (∀ i, exec i s = .fault (.runStopped f)) ∧ step s = .fault (.runStopped f)) ∧
  (∀ s : State, irqEntry s = .ok ((), { s with irqHeld := false, sw := .irqI1 })) ∧
  (∀ s : State, irqReturn s = .ok ((), { s with sw := .idle }))

/-- Before INIT has completed, TX_SUBMIT, IRQ, UDP_TX, UDP_PAYLOAD, REG_READ and REG_WRITE are refused; once INIT has
been issued, a second INIT is refused (spec/40_ring_init.md R201). CKSUM of a byte sequence completes before INIT and
after it wherever software is idle; that it asks for idle software, so that an INIT held at S3 keeps it out, is the
model's reading (log 35). -/
def Obligations.InitOnceAndFirst : Prop :=
  ∀ s : State, Running s →
    (s.initPhase ≠ .done → ∀ i : Instr,
      i.opcode ∈ [.txSubmit, .irq, .udpTx, .udpPayload, .regRead, .regWrite] → ∃ r, exec i s = .refused r) ∧
    (s.initPhase ≠ .notIssued → ∀ rb tb xb, ∃ r, exec (.init rb tb xb) s = .refused r) ∧
    (s.sw = .idle → ∀ bytes : List Byte, bytes.length ≤ 65535 →
      exec (.cksum (.data bytes)) s = .next { s with results := s.results ++ [.checksum (cksum bytes)] })

/-- The internal operations are refused where no operation issues them, software being idle or held in INIT
(spec/30_encoding.md R155); and while an operation runs, no outside operation starts (spec/20_memory.md R110,
spec/00_scope.md R10). That CKSUM too waits for software to be idle is the model's reading (log 35). -/
def Obligations.InternalAndSerialised : Prop :=
  ∀ (s : State) (i : Instr), Running s →
    ((s.sw = .idle ∨ s.sw = .initHold) → i.opcode ∈ [.rxDrain, .classify, .arpRx, .ipRx] →
      exec i s = .refused .internalOperation) ∧
    (s.sw ≠ .idle →
      i.opcode ∈ [.init, .txSubmit, .irq, .udpTx, .udpPayload, .cksum, .regRead, .regWrite] →
      ∃ r, exec i s = .refused r)

/-- Operands out of range are refused: an unaligned ring base (R105), a transmit length outside 1..BUF_SIZE
(R255), a buffer the caller does not own (R250), a checksum over more than 65535 bytes (R430), a read of IMC
(R210), a frame outside 14..65535 bytes (R310). That a port queue's buffer counts as one the caller does not own, though
its consumer owns it (spec/00_scope.md R24), is the model's choice (log 45). -/
def Obligations.OperandRefusals : Prop :=
  ∀ s : State, Running s →
    (∀ rb tb xb, ¬ (tb.toNat % 16 = 0 ∧ xb.toNat % 16 = 0) →
      exec (.init rb tb xb) s = .refused (.malformedOperands .ringBaseUnaligned)) ∧
    (∀ b len, ¬ (1 ≤ len.toNat ∧ len.toNat ≤ s.cfg.bufSize) →
      exec (.txSubmit b len) s = .refused (.malformedOperands .txLength)) ∧
    (∀ b len, 1 ≤ len.toNat → len.toNat ≤ s.cfg.bufSize → s.sw = .idle → s.initPhase = .done →
      ownerOf s b ≠ .caller → exec (.txSubmit b len) s = .refused .bufferNotOwned) ∧
    (∀ bytes : List Byte, 65535 < bytes.length →
      exec (.cksum (.data bytes)) s = .refused (.malformedOperands .cksumTooLong)) ∧
    (exec (.regRead .imc) s = .refused (.malformedOperands .imcNotReadable)) ∧
    (∀ f : List Byte, ¬ (14 ≤ f.length ∧ f.length ≤ 65535) →
      exec (.devRxFrame f) s = .refused (.malformedOperands .frameLength))

/-- The reserved bits are the ones the register map does not name: of RCTL, TCTL and TIPG the fields of R64 and R65
are named, of RAH0 bits 15:0 and 31 (R66), of CTRL the reset bit (R61); ICR, IMS, IMC and the full-width registers have
none (R63). REG_WRITE refuses a 1 in a reserved bit (R63), a head cursor after INIT (R211), and a tail cursor not below
its ring's length register divided by 16 (R52); that a length which is no multiple of 16 is rounded down is the model's
choice (log 47). -/
def Obligations.RegisterWriteRefusals : Prop :=
  (∀ (p : Params) (k : Fin 32),
    (reservedMask p .rctl).getLsbD k =
      decide (k.val ∉ [1, 2, 3, 4, 5, 6, 7, 8, 9, 12, 13, 15, 16, 17, 18, 19, 20, 22, 23, 25, 26]) ∧
    (reservedMask p .tctl).getLsbD k =
      decide (k.val ≠ 1 ∧ ¬ (3 ≤ k.val ∧ k.val ≤ 22) ∧ k.val ≠ 24) ∧
    (reservedMask p .tipg).getLsbD k = decide (30 ≤ k.val) ∧
    (reservedMask p .rah0).getLsbD k = decide (16 ≤ k.val ∧ k.val ≤ 30) ∧
    (reservedMask p .ctrl).getLsbD k = !p.ctrlRstMask.getLsbD k ∧
    (∀ n ∈ [RegName.icr, .ims, .imc, .tdbal, .tdbah, .rdbal, .rdbah, .ral0],
      (reservedMask p n).getLsbD k = false) ∧
    (∀ j, (reservedMask p (.mta j)).getLsbD k = false)) ∧
  ∀ (s : State) (v : Word), Ready s →
    (∀ n k, n ≠ .ctrl → k < 32 → (reservedMask s.cfg n).getLsbD k = true → v.getLsbD k = true →
      exec (.regWrite n v) s = .refused .reservedBit) ∧
    (exec (.regWrite .tdh v) s = .refused .headOwnedByDevice) ∧
    (exec (.regWrite .rdh v) s = .refused .headOwnedByDevice) ∧
    (s.dev.tdlen.toNat / 16 ≤ v.toNat → exec (.regWrite .tdt v) s = .refused .cursorRange) ∧
    (s.dev.rdlen.toNat / 16 ≤ v.toNat → exec (.regWrite .rdt v) s = .refused .cursorRange)

/-! ### The transmit path -/

/-- TX_SUBMIT of a buffer the caller owns, into a slot whose DD is set: the earlier buffer of the slot, the transmit
path's and carried by no outstanding slot, is released and is another one; the slot's owner and descriptor are
written, whole; the tail moves on, with every write before it fenced (but to the slots the device owns, whose contents
are those of their own tail writes: spec/20_memory.md R106, R121); nothing else changes (spec/41_transmit.md R250,
R251, R254). Where an outstanding slot carries the earlier buffer, its release is OWNERSHIP_VIOLATION (R112), and so
is the poll where TDT lies past the ring's end (log 43) in a buffer an outstanding slot has handed to the device
(spec/00_scope.md R24, R25; spec/60_exceptions.md R468); that all slots are outstanding there with IDLE is the model's
choice (log 46). -/
def Obligations.TxSubmitOk : Prop :=
  (∀ (s : State) (buf : Addr) (len : Half), Ready s → RingsInside s →
    s.dev.tdt.toNat < s.cfg.nTx → s.dev.tdlen.toNat = s.cfg.nTx * 16 →
    ownerOf s buf = .caller → 1 ≤ len.toNat → len.toNat ≤ s.cfg.bufSize →
    hasBit (txd s s.dev.tdt.toNat).status bitDD = true → devOwnsTx s s.dev.tdt.toNat = false →
    (∀ old, s.txOwner.getD s.dev.tdt.toNat none = some old → ownerOf s old = .txPath ∧ txHolds s old = false) →
    ∃ t, exec (.txSubmit buf len) s = .next t ∧
      txd t s.dev.tdt.toNat = { addr := buf, length := len, cso := 0, cmd := 0x09, status := 0x00, css := 0,
                                special := 0 } ∧
      SameBytesOutside (txdAddr s s.dev.tdt.toNat) 16 s t ∧
      ownerOf t buf = .txPath ∧
      (∀ x, x ≠ buf → ownerOf t x =
        if s.txOwner.getD s.dev.tdt.toNat none = some x then .allocator else ownerOf s x) ∧
      s.txOwner.getD s.dev.tdt.toNat none ≠ some buf ∧ FenceSeen s t 0 0 ∧
      t = { s with
        mem := t.mem, fenced := t.fenced, bufs := t.bufs
        txOwner := s.txOwner.set s.dev.tdt.toNat (some buf)
        dev := { s.dev with
          tdt := BitVec.ofNat 32 ((s.dev.tdt.toNat + 1) % s.cfg.nTx)
          txCount := if s.cfg.wrapMode = .sendAll then min (s.dev.txCount + 1) s.cfg.nTx else s.dev.txCount }
        events := s.events ++ (s.txOwner.getD s.dev.tdt.toNat none).toList.map Event.released
        results := s.results ++ [.code .ok] }) ∧
  (∀ (s : State) (buf old : Addr) (len : Half), Ready s → RingsInside s → s.dev.tdt.toNat < s.cfg.nTx →
    ownerOf s buf = .caller → 1 ≤ len.toNat → len.toNat ≤ s.cfg.bufSize →
    hasBit (txd s s.dev.tdt.toNat).status bitDD = true →
    s.txOwner.getD s.dev.tdt.toNat none = some old → ownerOf s old = .txPath →
    (∃ i, devOwnsTx s i = true ∧ s.txOwner[i]? = some (some old)) →
    exec (.txSubmit buf len) s = .next { s with locks := [.tx], modelFault := some .ownershipViolation }) ∧
  (∀ (s : State) (buf : Addr) (len : Half) (r : Buf) (a : Nat), Ready s → BufsApart s → s.cfg.nTx ≤ s.dev.tdt.toNat →
    ownerOf s buf = .caller → 1 ≤ len.toNat → len.toNat ≤ s.cfg.bufSize →
    a = s.txRingBase.toNat + 16 * s.dev.tdt.toNat + 12 →
    r ∈ s.bufs → r.owner = .txPath → (∃ i, devOwnsTx s i = true ∧ s.txOwner[i]? = some (some r.base)) →
    r.base.toNat ≤ a → a < r.base.toNat + s.cfg.bufSize →
    exec (.txSubmit buf len) s = .next { s with locks := [.tx], modelFault := some .ownershipViolation })

/-- On `Full` TX_SUBMIT writes no state and emits no event, and the caller keeps the buffer: nothing changes
but the answer (spec/41_transmit.md R252). -/
def Obligations.TxSubmitFull : Prop :=
  ∀ (s : State) (buf : Addr) (len : Half), Ready s → RingsInside s → s.dev.tdt.toNat < s.cfg.nTx →
    ownerOf s buf = .caller → 1 ≤ len.toNat → len.toNat ≤ s.cfg.bufSize →
    hasBit (txd s s.dev.tdt.toNat).status bitDD = false →
    exec (.txSubmit buf len) s = .next { s with results := s.results ++ [.code .full] }

/-- DEV_TX_STEP sends the frame of the slot at TDH, in a transmit buffer that an outstanding slot carries, byte for
byte, sets DD where RS asks for it, and moves TDH on; it writes no other byte and no other state. It is refused where
it is not enabled, and on a descriptor with EOP = 0 or DEXT = 1; a descriptor that touches a slot of software's or a
buffer that is not the device's is OWNERSHIP_VIOLATION (spec/41_transmit.md R260; spec/00_scope.md R25, R27;
spec/20_memory.md R112; spec/60_exceptions.md R466, R468); that a descriptor in memory which is nobody's stops no one
is the model's reading (log 17), and so is that any outstanding slot's transmit buffer will do for the frame, and that
a frame outside such a buffer, in nobody's memory or past the buffer's end among it, is OWNERSHIP_VIOLATION, but for a
frame of no byte, which is sent (log 40), and that with IDLE every slot is outstanding for a TDT past the ring's end
(log 46). The descriptor is the one of the slot's tail write, with what was before a FENCE by then (spec/20_memory.md
R107, R121); of a frame's bytes written since the last FENCE, the device reads each as it is or as it stood before
(R106, R113), and any mix of the two may come about (a free value for each byte: log 11). FENCE makes all of memory
seen but the slots the device owns, which stay as they were seen (R106, R121). -/
def Obligations.DevTxStep : Prop :=
  (∀ s : State, Running s → txStepEnabled s = true → s.dev.tdh.toNat < s.cfg.nTx → RingsInside s → TxRingSet s →
    DeviceMayTouch s (txdAddr s s.dev.tdh.toNat) 16 → DeviceSees s (txdAddr s s.dev.tdh.toNat) 16 →
    hasBit (txd s s.dev.tdh.toNat).cmd bitTxEop = true → hasBit (txd s s.dev.tdh.toNat).cmd bitDext = false →
    DeviceReads s (txd s s.dev.tdh.toNat).addr.toNat (txd s s.dev.tdh.toNat).length.toNat →
    (txd s s.dev.tdh.toNat).addr.toNat + (txd s s.dev.tdh.toNat).length.toNat ≤ addrSpace →
    DeviceSees s (txd s s.dev.tdh.toNat).addr.toNat (txd s s.dev.tdh.toNat).length.toNat →
    ∃ t, exec .devTxStep s = .next t ∧
      (txd t s.dev.tdh.toNat).status = (if hasBit (txd s s.dev.tdh.toNat).cmd bitRs = true
        then (txd s s.dev.tdh.toNat).status ||| 0x01 else (txd s s.dev.tdh.toNat).status) ∧
      SameBytesOutside (txdAddr s s.dev.tdh.toNat + 12) 1 s t ∧ (∀ a n, DeviceSees s a n → DeviceSees t a n) ∧
      t = { s with
        mem := t.mem, fenced := t.fenced
        dev := { s.dev with
          tdh := BitVec.ofNat 32 ((s.dev.tdh.toNat + 1) % s.cfg.nTx)
          txCount := if s.cfg.wrapMode = .sendAll then s.dev.txCount - 1 else s.dev.txCount }
        events := s.events ++ [.wireTx (bytesAt s (txd s s.dev.tdh.toNat).addr.toNat
          (txd s s.dev.tdh.toNat).length.toNat)] }) ∧
  (∀ s : State, Running s →
    (txStepEnabled s = false → exec .devTxStep s = .refused .eventNotEnabled) ∧
    (txStepEnabled s = true → ¬ DeviceMayTouch s (devTxdAddr s.dev s.dev.tdh.toNat) 16 →
      exec .devTxStep s = .next { s with modelFault := some .ownershipViolation }) ∧
    (txStepEnabled s = true → TxRingSet s → txdAddr s s.dev.tdh.toNat + 16 ≤ addrSpace →
      DeviceMayTouch s (txdAddr s s.dev.tdh.toNat) 16 → DeviceSees s (txdAddr s s.dev.tdh.toNat) 16 →
      (hasBit (txd s s.dev.tdh.toNat).cmd bitTxEop = false ∨ hasBit (txd s s.dev.tdh.toNat).cmd bitDext = true →
        exec .devTxStep s = .refused .txDescriptorForm) ∧
      (hasBit (txd s s.dev.tdh.toNat).cmd bitTxEop = true → hasBit (txd s s.dev.tdh.toNat).cmd bitDext = false →
        ¬ DeviceReads s (txd s s.dev.tdh.toNat).addr.toNat (txd s s.dev.tdh.toNat).length.toNat →
        exec .devTxStep s = .next { s with modelFault := some .ownershipViolation }))) ∧
  (∀ (s : State) (a n : Nat), a + n ≤ addrSpace →
    descRead a n s = .ok (bytesAt { s with mem := s.fenced } a n, s) ∧
    (DeviceSees s a n → descRead a n s = .ok (bytesAt s a n, s) ∧ dmaRead a n s = .ok (bytesAt s a n, s)) ∧
    (∃ bs l k, dmaRead a n s = .ok (bs, { s with drawAns := l, draws := k }) ∧ bs.length = n ∧
      ∀ j < n, bs[j]? = some (byteAt s (a + j)) ∨ bs[j]? = some (byteAt { s with mem := s.fenced } (a + j))) ∧
    ∀ bs : List Byte, bs.length = n →
      (∀ j < n, bs[j]? = some (byteAt s (a + j)) ∨ bs[j]? = some (byteAt { s with mem := s.fenced } (a + j))) →
      ∃ l k, dmaRead a n { s with drawAns := l } = .ok (bs, { s with drawAns := [], draws := k })) ∧
  (∀ s : State, s.sched = [] → ∃ f, fence s = .ok ((), { s with fenced := f }) ∧
    FenceSeen s { s with fenced := f } 0 0 ∧ ∀ a n, DeviceSees s a n → DeviceSees { s with fenced := f } a n)

/-- Every operation but INIT, an outside REG_WRITE and DEV_RESET keeps the transmit ring's invariant, and what guards
both rings, under every interleaving of device events, wherever it goes on: TX_SUBMIT and UDP_TX where they start with
room for one more slot outside the wrap state, ARP_RX and what calls it where they do or no reply is due, DEV_TX_STEP
and the rest always. A TX_SUBMIT with no device event in it and a DEV_TX_STEP need less: of what guards the rings,
only what they touch, with the slot at the tail in no slot of the device's. And no operation but INIT makes an owner
record NONE (spec/41_transmit.md R262; spec/10_state.md R46). -/
def Obligations.TxRingInvKept : Prop :=
  (∀ (i : Instr) (s t : State), i.opcode ∉ [.init, .regWrite, .devReset] → RingsGuarded s → TxRingInv s →
    (i.opcode ∈ [.txSubmit, .udpTx] → TxRoom s) →
    (i.opcode ∈ [.arpRx, .classify, .rxDrain, .irq] → s.arpSeen = false → TxRoom s) →
    exec i s = .next t → Running t → RingsGuarded t ∧ TxRingInv t) ∧
  (∀ (s t : State) (buf : Addr) (len : Half), Ready s → RingsInside s → OwnersSized s →
    s.dev.tdlen.toNat = s.cfg.nTx * 16 → TxRingInv s →
    (s.dev.tdt.toNat + 1) % s.cfg.nTx ≠ s.dev.tdh.toNat →
    (∀ c, txdAddr s s.dev.tdt.toNat ≤ c → c < txdAddr s s.dev.tdt.toNat + 16 → inDeviceSlot s c = false) →
    exec (.txSubmit buf len) s = .next t → Running t → TxRingInv t) ∧
  (∀ s t : State, RingsInside s → s.cfg.nTx * 16 < 2 ^ 32 → TxRingSet s → TxRingInv s → exec .devTxStep s = .next t →
    Running t → TxRingInv t) ∧
  (∀ (i : Instr) (s t : State) (n : Nat), i.opcode ≠ .init → exec i s = .next t →
    s.txOwner[n]? ≠ some none → t.txOwner[n]? ≠ some none)

/-- The wrap case: a TX_SUBMIT that fills the last slot makes TDT = TDH with every DD clear. With SEND_ALL all N_TX
descriptors are outstanding and an enabled transmit engine has work. With IDLE the ring is dead for good: every operation
but INIT, an outside REG_WRITE and DEV_RESET, under every interleaving of device events, leaves it so wherever it goes on,
and in every such state the device has no work and a TX_SUBMIT answers `Full` (spec/41_transmit.md R256;
spec/70_reset_and_hazards.md R514). -/
def Obligations.TxWrap : Prop :=
  (∀ (s t : State) (buf : Addr) (len : Half), Ready s → RingsInside s → OwnersSized s →
    s.dev.tdlen.toNat = s.cfg.nTx * 16 → TxRingInv s →
    (s.dev.tdt.toNat + 1) % s.cfg.nTx = s.dev.tdh.toNat →
    exec (.txSubmit buf len) s = .next t → Running t →
    t.dev.tdt = t.dev.tdh ∧ (∀ i < t.cfg.nTx, hasBit (txd t i).status bitDD = false) ∧
    (t.cfg.wrapMode = .idle → TxDead t) ∧
    (t.cfg.wrapMode = .sendAll → txOutstanding t = t.cfg.nTx ∧
      (txEnabled t.dev = true → t.dev.resetPending = false → txStepEnabled t = true)) ∧
    (RingsGuarded s → RingsGuarded t)) ∧
  (∀ (i : Instr) (s t : State), i.opcode ∉ [.init, .regWrite, .devReset] → RingsGuarded s → TxDead s →
    exec i s = .next t → Running t → RingsGuarded t ∧ TxDead t) ∧
  (∀ s : State, TxDead s →
    (Running s → exec .devTxStep s = .refused .eventNotEnabled) ∧
    (∀ (b : Addr) (l : Half), Ready s → RingsInside s → s.dev.tdt.toNat < s.cfg.nTx →
      ownerOf s b = .caller → 1 ≤ l.toNat → l.toNat ≤ s.cfg.bufSize →
      exec (.txSubmit b l) s = .next { s with results := s.results ++ [.code .full] }))

/-! ### The device's receive engine -/

/-- DEV_RX_FRAME of an accepted frame takes one descriptor for each of its `ceil(L / RX_BUF_SIZE)` chunks, where
that many are free: every descriptor but the last holds RX_BUF_SIZE bytes and EOP = 0, the last the remainder and
EOP = 1, and `RxFilled` says the rest of what changes (spec/42_receive.md R310, R311). -/
def Obligations.RxFrameFills : Prop :=
  ∀ (s : State) (f : List Byte) (k : Nat), Running s → SizesOk s.cfg → RingsInside s →
    s.dev.rdh.toNat < s.cfg.nRx → s.dev.rdt.toNat < s.cfg.nRx →
    s.dev.resetPending = false → rxEnabled s.dev = true →
    (f.take 6 = s.cfg.localMac.bytes ∨ f.take 6 = [0xFF, 0xFF, 0xFF, 0xFF, 0xFF, 0xFF]) →
    14 ≤ f.length → f.length ≤ 65535 →
    k = (f.length + s.cfg.rxBufSize - 1) / s.cfg.rxBufSize → RxSlotsReady s k →
    ∃ t, exec (.devRxFrame f) s = .next t ∧ RxFilled s f k t

/-- DEV_RX_FRAME of an accepted frame that needs more descriptors than are free fills the free ones, all with
EOP = 0, drops the rest of the frame, and sets ICR.RXO; with RDH = RDT the frame is dropped whole
(spec/42_receive.md R310, R317). -/
def Obligations.RxFrameOverrun : Prop :=
  ∀ (s : State) (f : List Byte) (k : Nat), Running s → SizesOk s.cfg → RingsInside s →
    s.dev.rdh.toNat < s.cfg.nRx → s.dev.rdt.toNat < s.cfg.nRx →
    s.dev.resetPending = false → rxEnabled s.dev = true →
    (f.take 6 = s.cfg.localMac.bytes ∨ f.take 6 = [0xFF, 0xFF, 0xFF, 0xFF, 0xFF, 0xFF]) →
    14 ≤ f.length → f.length ≤ 65535 →
    k = cyclicLen s.cfg.nRx s.dev.rdh.toNat s.dev.rdt.toNat → k * s.cfg.rxBufSize < f.length → RxSlotsReady s k →
    ∃ u, RxFilled s f k u ∧ u.dev.rdh = u.dev.rdt ∧
      exec (.devRxFrame f) s = .next
        { setDev { u.dev with icr := u.dev.icr ||| 0x40, rxRemaining := 0 } u with
          events := s.events ++ [.dropped .rxOverrun] }

/-- The receive filter accepts LOCAL_MAC and broadcast and nothing else, and every frame to another destination
is dropped before any descriptor is used: its drop is all that happens (spec/42_receive.md R313). -/
def Obligations.ReceiveFilter : Prop :=
  (∀ (p : Params) (f : List Byte),
    accept p f = true ↔ f.take 6 = p.localMac.bytes ∨ f.take 6 = [0xFF, 0xFF, 0xFF, 0xFF, 0xFF, 0xFF]) ∧
  ∀ (s : State) (f : List Byte), Running s → s.dev.resetPending = false → rxEnabled s.dev = true →
    14 ≤ f.length → f.length ≤ 65535 → f.take 6 ≠ s.cfg.localMac.bytes →
    f.take 6 ≠ [0xFF, 0xFF, 0xFF, 0xFF, 0xFF, 0xFF] →
    exec (.devRxFrame f) s = .next { s with events := s.events ++ [.dropped .filtered] }

/-- With RCTL.EN = 0 every frame is dropped and nothing else happens (spec/40_ring_init.md R213), and while a
reset is pending no frame is taken (spec/42_receive.md R310). -/
def Obligations.ReceiveDisabled : Prop :=
  ∀ (s : State) (f : List Byte), Running s → 14 ≤ f.length → f.length ≤ 65535 →
    (s.dev.resetPending = false → s.dev.rctl &&& 0x2 = 0 →
      exec (.devRxFrame f) s = .next { s with events := s.events ++ [.dropped .rxDisabled] }) ∧
    (s.dev.resetPending = true → exec (.devRxFrame f) s = .refused .eventNotEnabled)

/-- The device writes only slots in `[RDH, RDT)`, and only their buffer and the last eight bytes of their
descriptor, never the address field; the reserved slot RDT and the slots awaiting the drain stay as they are, at
every end of DEV_RX_FRAME (spec/42_receive.md R312). The address fields are those of the slots' tail writes
(spec/20_memory.md R108, R121). An accepted frame whose next descriptor, where the ring registers locate it, touches a
slot of software's or a buffer that is not the device's is OWNERSHIP_VIOLATION, and nothing is written
(spec/00_scope.md R25; spec/20_memory.md R112; spec/60_exceptions.md R468); that every slot is the device's for an RDT
past the ring's end is the model's choice (log 46). -/
def Obligations.DeviceWritesOnlyItsSlots : Prop :=
  (∀ (s : State) (f : List Byte), Running s → s.dev.resetPending = false → rxEnabled s.dev = true →
    (f.take 6 = s.cfg.localMac.bytes ∨ f.take 6 = [0xFF, 0xFF, 0xFF, 0xFF, 0xFF, 0xFF]) →
    14 ≤ f.length → f.length ≤ 65535 → s.dev.rdh ≠ s.dev.rdt →
    ¬ DeviceMayTouch s (devRxdAddr s.dev s.dev.rdh.toNat) 16 →
    exec (.devRxFrame f) s = .next { s with modelFault := some .ownershipViolation }) ∧
  ∀ (s t : State) (f : List Byte), SizesOk s.cfg → DeviceBufsOffRing s → RxRingSet s →
    s.dev.rdh.toNat < s.cfg.nRx → s.dev.rdt.toNat < s.cfg.nRx →
    (∀ i, cyclicMem s.cfg.nRx s.dev.rdh.toNat s.dev.rdt.toNat i = true → DeviceSees s (rxdAddr s i) 8) →
    exec (.devRxFrame f) s = .next t →
    (∀ c, byteAt t c ≠ byteAt s c →
      ∃ i, cyclicMem s.cfg.nRx s.dev.rdh.toNat s.dev.rdt.toNat i = true ∧
        ((rxdAddr s i + 8 ≤ c ∧ c < rxdAddr s i + 16) ∨
          ((rxd s i).addr.toNat ≤ c ∧ c < (rxd s i).addr.toNat + s.cfg.rxBufSize))) ∧
    (∀ i < s.cfg.nRx, (rxd t i).addr = (rxd s i).addr) ∧
    (∀ i < s.cfg.nRx, cyclicMem s.cfg.nRx s.dev.rdh.toNat s.dev.rdt.toNat i = false → rxd t i = rxd s i)

/-- INIT establishes both ring invariants and what guards the rings, whether its device completes the reset at one of
INIT's polls or INIT goes on from its hold, and whatever device events `more` fall at the accesses after S15; and
where none do, the first frame finds a valid ring (spec/40_ring_init.md R200; spec/70_reset_and_hazards.md R506); the
receive ring's invariant and that valid ring ask `rxInitView = written`, since by R121 alone the device would not see the
ring (the model's parameter: log 48); DEV_RX_FRAME keeps the receive ring's at each of its ends: the slot it fills leaves
`[RDH, RDT)` with DD set and joins the slots that wait for the drain, the reserved slot stays free; and every
operation but INIT, an outside REG_WRITE and DEV_RESET keeps it under every interleaving, wherever it goes on,
RX_DRAIN and IRQ among them (spec/42_receive.md R316, spec/41_transmit.md R262, spec/10_state.md R47). -/
def Obligations.RxRingInvKept : Prop :=
  (∀ (s t : State) (rb tb xb : Addr) (bs : List Addr) (rest : List (Option Addr)) (later : List (List DevEvent)),
    InitIssued s tb xb bs rest later →
    (later = [] ∨ s.cfg.nTx * 16 % s.cfg.ringAlign = 0 ∧ s.cfg.nRx * 16 % s.cfg.ringAlign = 0 ∧
      ∃ more, later = List.replicate (initAccesses s.cfg) [] ++ more) →
    (∀ r ∈ s.bufs, overlaps r.base.toNat s.cfg.bufSize tb.toNat (s.cfg.nTx * 16) = false ∧
      overlaps r.base.toNat s.cfg.bufSize xb.toNat (s.cfg.nRx * 16) = false) →
    bs.length = s.cfg.nRx → exec (.init rb tb xb) s = .next t → Running t →
    RingsGuarded t ∧ TxRingInv t ∧
      (s.cfg.rxInitView = .written → RxRingInv t ∧ (later = [] → ∀ k < s.cfg.nRx, RxSlotsReady t k))) ∧
  (∀ (s t : State) (bs : List Addr) (rest : List (Option Addr)), Running s → s.sw = .initHold →
    InitReady s bs rest →
    (∀ r ∈ s.bufs, overlaps r.base.toNat s.cfg.bufSize s.txRingBase.toNat (s.cfg.nTx * 16) = false ∧
      overlaps r.base.toNat s.cfg.bufSize s.rxRingBase.toNat (s.cfg.nRx * 16) = false) →
    bs.length = s.cfg.nRx → step s = .next t → Running t →
    RingsGuarded t ∧ TxRingInv t ∧
      (s.cfg.rxInitView = .written → RxRingInv t ∧ ∀ k < s.cfg.nRx, RxSlotsReady t k)) ∧
  (∀ (s t : State) (f : List Byte), SizesOk s.cfg → DeviceBufsOffRing s → RxRingSet s → RxRingInv s →
    exec (.devRxFrame f) s = .next t → RxRingInv t) ∧
  (∀ (i : Instr) (s t : State), i.opcode ∉ [.init, .regWrite, .devReset] → RingsGuarded s → RxRingInv s →
    exec i s = .next t → Running t → RingsGuarded t ∧ RxRingInv t)

/-! ### The receive drain and the interrupt -/

/-- RX_DRAIN where the slot after the reserved one is not filled: nothing is processed and nothing changes
(spec/42_receive.md R303 RD1), and nothing is answered (spec/60_exceptions.md R464). -/
def Obligations.RxDrainEmpty : Prop :=
  ∀ s : State, ReadyAt .irqI2 s → Lock.rx ∉ s.locks → SizesOk s.cfg → RingsInside s →
    hasBit (rxd s ((s.dev.rdt.toNat + 1) % s.cfg.nRx)).status bitDD = false →
    exec .rxDrain s = .next s

/-- RX_DRAIN, slot by slot. It is the drain loop from the slot after the reserved one, with at most N_RX turns. The
loop ends at a slot whose DD is clear and after its last turn. A turn at a filled slot delivers its buffer to
CLASSIFY, whatever the frame, and where CLASSIFY goes on and Alloc answers, replenishes the slot, keeps the receive
ring's invariant, and goes on at the next slot; a CLASSIFY that stops the run ends the drain. For a ring with one
filled slot, whose frame CLASSIFY does not recognize, all of it is said at once: the frame's buffer is released, the
slot gets a fresh buffer with its status clear and its other fields kept, the tail register takes the slot's index, so
that the slot reserved before is the device's, nothing is answered, and nothing else changes (spec/42_receive.md R303,
R304, R305, R316; spec/60_exceptions.md R464). That the fresh buffer is recorded as the receive path's, the device's
from the tail write on that hands its slot over, where RD4 writes DEVICE at once, is the model's reading (log 34); the
diagnostic event is its choice (log 39). -/
def Obligations.RxDrainOne : Prop :=
  (∀ (s : State) (i : Nat) (b nb : Addr), ReadyAt .irqI2 s → Lock.rx ∉ s.locks → SizesOk s.cfg → RingsInside s →
    BufsApart s → s.dev.rdlen.toNat = s.cfg.nRx * 16 →
    i = (s.dev.rdt.toNat + 1) % s.cfg.nRx →
    cyclicMem s.cfg.nRx s.dev.rdh.toNat s.dev.rdt.toNat i = false →
    hasBit (rxd s i).status bitDD = true → hasBit (rxd s i).status bitRxEop = true →
    s.rxOwner.getD i 0 = b → Holds s .rxPath b →
    ¬ (42 ≤ (rxd s i).length.toNat ∧ frameType s b = 0x0806) →
    ¬ (34 ≤ (rxd s i).length.toNat ∧ frameType s b = 0x0800) →
    (1 < s.cfg.nRx → hasBit (rxd s ((i + 1) % s.cfg.nRx)).status bitDD = false) →
    (nextAllocAnswer s).1 = some nb → allocOk (setOwner b .allocator s) nb = true →
    ∃ t, exec .rxDrain s = .next t ∧
      rxd t i = { rxd s i with addr := nb, status := 0x00 } ∧
      (∀ x, recordedOwner t x = if x = nb then .rxPath else if x = b then .allocator else recordedOwner s x) ∧
      (∀ c, (c < nb.toNat ∨ nb.toNat + s.cfg.bufSize ≤ c) → (c < rxdAddr s i ∨ rxdAddr s i + 16 ≤ c) →
        byteAt t c = byteAt s c) ∧
      (1 < s.cfg.nRx → s.dev.rdh.toNat < s.cfg.nRx → s.dev.rdt.toNat < s.cfg.nRx →
        devOwnsRx t s.dev.rdt.toNat = true) ∧
      FenceSeen s t nb.toNat s.cfg.bufSize ∧
      t = { s with
        mem := t.mem, fenced := t.fenced, bufs := t.bufs, draws := t.draws, allocAns := s.allocAns.tail
        rxOwner := s.rxOwner.set i nb, dev := { s.dev with rdt := BitVec.ofNat 32 i }
        events := s.events ++ [.dropped .unrecognized, .released b, .allocated nb, .diag (.rxProcessed 1)] }) ∧
  (∀ s : State, ReadyAt .irqI2 s → Lock.rx ∉ s.locks →
    (∀ c t, drainLoop s.cfg.nRx s.cfg.nRx ((s.dev.rdt.toNat + 1) % s.cfg.nRx) 0 { s with locks := .rx :: s.locks } =
      .ok (c, t) → exec .rxDrain s = .next { t with
        locks := s.locks
        events := if 0 < c then t.events ++ [.diag (.rxProcessed c)] else t.events }) ∧
    (∀ t, drainLoop s.cfg.nRx s.cfg.nRx ((s.dev.rdt.toNat + 1) % s.cfg.nRx) 0 { s with locks := .rx :: s.locks } =
      .error (.ended t) → exec .rxDrain s = .next t)) ∧
  (∀ (s : State) (n left i done : Nat), drainLoop n 0 i done s = .ok (done, s) ∧
    (s.sched = [] → rxdAddr s i + 16 ≤ addrSpace → hasBit (rxd s i).status bitDD = false →
      drainLoop n left i done s = .ok (done, s))) ∧
  ∀ (s : State) (left i done : Nat) (b : Addr), Running s → s.sched = [] → BufsApart s → RingsGuarded s →
    RxRingInv s → i = (s.dev.rdt.toNat + 1) % s.cfg.nRx → hasBit (rxd s i).status bitDD = true →
    hasBit (rxd s i).status bitRxEop = true → s.rxOwner.getD i 0 = b →
    ∀ u, exec (.classify b (rxd s i).length)
        { setOwner b .demux s with sw := .drainRD3 i (s.cfg.nRx - (left + 1)) } = .next u →
      (Running u → ∀ nb, (nextAllocAnswer u).1 = some nb → allocOk u nb = true →
        ∃ v, Replenished { u with sw := s.sw } i nb v ∧ RingsGuarded v ∧ RxRingInv v ∧
          devOwnsRx v s.dev.rdt.toNat = true ∧
          drainLoop s.cfg.nRx (left + 1) i done s = drainLoop s.cfg.nRx left ((i + 1) % s.cfg.nRx) (done + 1) v) ∧
      (Running u → (nextAllocAnswer u).1 = none → ∃ n,
        drainLoop s.cfg.nRx (left + 1) i done s = .error (.ended { u with
          sw := s.sw, allocAns := u.allocAns.tail, draws := n, halted := some .rxReplenishAlloc
          fatalInfo := BitVec.ofNat 32 i, events := u.events ++ [.halt .rxReplenishAlloc] })) ∧
      (¬ Running u → drainLoop s.cfg.nRx (left + 1) i done s = .error (.ended u))

/-- RX_DRAIN's fatal ends: a filled slot without EOP stops the run before its buffer is delivered, and where Alloc
fails after a frame (here one CLASSIFY does not recognize) was delivered, the run stops with the tail register not
advanced; both record the slot (spec/42_receive.md R303; spec/60_exceptions.md R460, R461). -/
def Obligations.RxDrainFatal : Prop :=
  ∀ (s : State) (i : Nat) (b : Addr), ReadyAt .irqI2 s → Lock.rx ∉ s.locks → SizesOk s.cfg → RingsInside s →
    i = (s.dev.rdt.toNat + 1) % s.cfg.nRx → hasBit (rxd s i).status bitDD = true →
    (hasBit (rxd s i).status bitRxEop = false → exec .rxDrain s = .next { s with
      locks := .rx :: s.locks, halted := some .rxMultiDesc, fatalInfo := BitVec.ofNat 32 i
      events := s.events ++ [.halt .rxMultiDesc] }) ∧
    (hasBit (rxd s i).status bitRxEop = true →
      cyclicMem s.cfg.nRx s.dev.rdh.toNat s.dev.rdt.toNat i = false →
      s.rxOwner.getD i 0 = b → Holds s .rxPath b →
      ¬ (42 ≤ (rxd s i).length.toNat ∧ frameType s b = 0x0806) →
      ¬ (34 ≤ (rxd s i).length.toNat ∧ frameType s b = 0x0800) → (nextAllocAnswer s).1 = none →
      ∃ t, exec .rxDrain s = .next t ∧ SameBytes s t ∧
        (∀ x, ownerOf t x = if x = b then .allocator else ownerOf s x) ∧
        t = { s with
          bufs := t.bufs, draws := t.draws, allocAns := s.allocAns.tail, locks := .rx :: s.locks
          halted := some .rxReplenishAlloc, fatalInfo := BitVec.ofNat 32 i
          events := s.events ++ [.dropped .unrecognized, .released b, .halt .rxReplenishAlloc] })

/-- IRQ: the held edge is cleared, every interrupt cause is acknowledged, and only then the drain runs, as RX_DRAIN
does from there; software is then idle, unless the run has stopped. IRQ answers nothing. With no slot filled, clearing the
edge and the causes is all it does (spec/42_receive.md R300, R301; spec/60_exceptions.md R464, R472, R473). -/
def Obligations.IrqRuns : Prop :=
  ∀ s : State, Ready s →
    exec .irq s =
      comeBack .idle (exec .rxDrain { s with irqHeld := false, sw := .irqI2, dev := { s.dev with icr := 0 } }) ∧
    (∀ t, exec .irq s = .next t → t.results = s.results) ∧
    (SizesOk s.cfg → RingsInside s → hasBit (rxd s ((s.dev.rdt.toNat + 1) % s.cfg.nRx)).status bitDD = false →
      exec .irq s = .next { s with irqHeld := false, dev := { s.dev with icr := 0 } })

/-! ### The demultiplexer -/

/-- CLASSIFY drops a frame that passes neither type test: neither 42 bytes with the ARP type nor 34 bytes with the
IP type. The buffer goes back to the allocator; nothing else changes (spec/43_demux.md R350 C3). -/
def Obligations.ClassifyDrops : Prop :=
  ∀ (s : State) (i k : Nat) (b : Addr) (len : Half), ReadyAt (.drainRD3 i k) s → Holds s .demux b →
    ¬ (42 ≤ len.toNat ∧ frameType s b = 0x0806) → ¬ (34 ≤ len.toNat ∧ frameType s b = 0x0800) →
    ∃ t, exec (.classify b len) s = .next t ∧ SameBytes s t ∧
      (∀ x, ownerOf t x = if x = b then .allocator else ownerOf s x) ∧
      t = { s with bufs := t.bufs, events := s.events ++ [.dropped .unrecognized, .released b] }

/-- CLASSIFY of at least 42 bytes with the ARP type is ARP_RX, of at least 34 bytes with the IP type IP_RX, issued
from CLASSIFY's position; software comes back to where CLASSIFY was issued unless the run has stopped
(spec/43_demux.md R350 C1, C2). -/
def Obligations.ClassifyCalls : Prop :=
  ∀ (s : State) (i k : Nat) (b : Addr) (len : Half), ReadyAt (.drainRD3 i k) s → Holds s .demux b →
    (42 ≤ len.toNat → frameType s b = 0x0806 →
      exec (.classify b len) s = comeBack (.drainRD3 i k) (exec (.arpRx b len) { s with sw := .classifyC1 })) ∧
    (34 ≤ len.toNat → frameType s b = 0x0800 →
      exec (.classify b len) s = comeBack (.drainRD3 i k) (exec (.ipRx b len) { s with sw := .classifyC2 }))

/-- The first ARP_RX answers: the reply's 42 bytes are built in a fresh buffer, which is submitted with the length
42 where the transmit ring has room; `arp_seen` is set, the query's buffer is released, and nothing else changes
(spec/43_demux.md R355). -/
def Obligations.ArpReplies : Prop :=
  ∀ (s : State) (b r : Addr) (len : Half), ReadyAt .classifyC1 s → SubmitReady s → Holds s .demux b →
    s.arpSeen = false → (nextAllocAnswer s).1 = some r → allocOk s r = true → SlotReady s →
    ∃ t, exec (.arpRx b len) s = .next t ∧ SubmittedFresh s r 42 [b] t ∧
      bytesAt t r.toNat 42 = arpReply s.cfg (bytesAt s (b.toNat + 6) 6) (bytesAt s (b.toNat + 28) 4) ∧
      t = { s with
        mem := t.mem, fenced := t.fenced, bufs := t.bufs, draws := t.draws, allocAns := s.allocAns.tail
        txOwner := t.txOwner, dev := t.dev, arpSeen := true
        events := s.events ++ .allocated r ::
          ((s.txOwner.getD s.dev.tdt.toNat none).toList.map Event.released ++ [.released b]) }

/-- ARP_RX sends nothing: once `arp_seen` is set, the frame is dropped and released; with the transmit ring full, in
either wrap mode (spec/41_transmit.md R256), the reply is dropped and both buffers released; where Alloc fails, the
run stops with ARP_REPLY_ALLOC, `arp_seen` set and the query's buffer kept (spec/43_demux.md R355 A1, A3, A5, R357).
-/
def Obligations.ArpNotAnswered : Prop :=
  ∀ (s : State) (b : Addr) (len : Half), ReadyAt .classifyC1 s → Holds s .demux b →
    (s.arpSeen = true → ∃ t, exec (.arpRx b len) s = .next t ∧ SameBytes s t ∧
      (∀ x, ownerOf t x = if x = b then .allocator else ownerOf s x) ∧
      t = { s with bufs := t.bufs, events := s.events ++ [.dropped .arpSuppressed, .released b] }) ∧
    (∀ r, s.arpSeen = false → SubmitReady s → (nextAllocAnswer s).1 = some r → allocOk s r = true →
      hasBit (txd s s.dev.tdt.toNat).status bitDD = false →
      ∃ t, exec (.arpRx b len) s = .next t ∧ GivenBack s r [b] t ∧
        t = { s with
          mem := t.mem, fenced := t.fenced, bufs := t.bufs, draws := t.draws, allocAns := s.allocAns.tail
          arpSeen := true
          events := s.events ++ [.allocated r, .dropped .arpReplyRingFull, .released r, .released b] }) ∧
    (s.arpSeen = false → (nextAllocAnswer s).1 = none → ∃ n, exec (.arpRx b len) s = .next { s with
      allocAns := s.allocAns.tail, draws := n, arpSeen := true
      halted := some .arpReplyAlloc, fatalInfo := 0, events := s.events ++ [.halt .arpReplyAlloc] })

/-- IP_RX: with no queue bound to the destination port, a diagnostic and the drop, and the buffer goes back to the
allocator; otherwise one of the bound queues takes the packet (the length, the source port and the buffer), becomes
the buffer's owner, and its consumers are woken, or, where it is full, counts a drop, and the buffer goes back to the
allocator. No byte and no other field changes but the free values a choice among several queues uses up
(spec/43_demux.md R352, R360, R361). -/
def Obligations.IpRxOutcomes : Prop :=
  ∀ (s : State) (b : Addr) (len dport sport : Half), ReadyAt .classifyC2 s → Holds s .demux b →
    dport = be16 (bytesAt s (udpAt s b + 2) 2) → sport = be16 (bytesAt s (udpAt s b) 2) →
    ((∀ q e, ¬ BoundTo s dport q e) → ∃ t, exec (.ipRx b len) s = .next t ∧ SameBytes s t ∧
      (∀ x, ownerOf t x = if x = b then .allocator else ownerOf s x) ∧
      t = { s with bufs := t.bufs, events := s.events ++
        [.diag (.ipRxNoPort dport), .dropped .noPort, .released b] }) ∧
    ((∃ q e, BoundTo s dport q e) → ∃ q e t, BoundTo s dport q e ∧ exec (.ipRx b len) s = .next t ∧
      SameBytes s t ∧
      if e.packets.length < s.cfg.maxQueueLen then
        (∀ x, ownerOf t x = if x = b then .portq q else ownerOf s x) ∧
        t = { s with
          bufs := t.bufs, drawAns := t.drawAns, draws := t.draws
          portq := s.portq.set q { e with packets := e.packets ++ [⟨len, sport, b⟩] }
          events := s.events ++ [.enqueue dport ⟨len, sport, b⟩, .wake q] }
      else
        (∀ x, ownerOf t x = if x = b then .allocator else ownerOf s x) ∧
        t = { s with
          bufs := t.bufs, drawAns := t.drawAns, draws := t.draws
          portq := s.portq.set q { e with drops := e.drops + 1 }
          events := s.events ++ [.dropped .queueFull, .released b] })

/-- UDP_PAYLOAD of a buffer a queue, its consumer or the caller holds: the source address from offset 26, the source
port from the UDP header that IHL locates, and as many payload bytes as the UDP length field, the caller's limit and
the buffer's end admit. Nothing else changes (spec/43_demux.md R365). That the reader is the buffer's owner is the
model's reading (log 30). -/
def Obligations.UdpPayloadParses : Prop :=
  ∀ (s : State) (b : Addr) (who : Owner) (len : Half) (maxLen : BitVec 64) (count : Nat), Ready s → Holds s who b →
    (who = .caller ∨ ∃ q, who = .portq q) →
    count = min (min maxLen.toNat ((be16 (bytesAt s (udpAt s b + 4) 2)).toNat - 8))
      (b.toNat + s.cfg.bufSize - (udpAt s b + 8)) →
    exec (.udpPayload b len maxLen) s = .next { s with
      results := s.results ++ [.payload (be32 (bytesAt s (b.toNat + 26) 4)) (be16 (bytesAt s (udpAt s b) 2))
        (BitVec.ofNat 64 count) (bytesAt s (udpAt s b + 8) count)] }

/-! ### The UDP framer -/

/-- UDP_TX of a payload that fits one buffer, where the allocator gives a buffer, the copy succeeds and the transmit
ring has room: the buffer holds the whole frame, it is submitted with the frame's length, the answer is `Ok`, and
nothing else changes (spec/44_udp_framer.md R400, R401). -/
def Obligations.UdpTxSends : Prop :=
  ∀ (s : State) (r : Addr) (sport : Half) (dstIp : Word) (dport : Half) (payload : List Byte), Ready s →
    SubmitReady s → 42 + payload.length ≤ s.cfg.bufSize → (nextAllocAnswer s).1 = some r → allocOk s r = true →
    s.copyAns.head? = some true → SlotReady s →
    ∃ t, exec (.udpTx sport dstIp dport payload) s = .next t ∧
      SubmittedFresh s r (BitVec.ofNat 16 (42 + payload.length)) [] t ∧
      bytesAt t r.toNat (42 + payload.length) = udpFrame s.cfg sport dstIp dport payload ∧
      t = { s with
        mem := t.mem, fenced := t.fenced, bufs := t.bufs, draws := t.draws, allocAns := s.allocAns.tail
        copyAns := s.copyAns.tail, txOwner := t.txOwner, dev := t.dev
        events := s.events ++ .allocated r :: (s.txOwner.getD s.dev.tdt.toNat none).toList.map Event.released
        results := s.results ++ [.code .ok] }

/-- UDP_TX's failures, in the order of the checks: a frame larger than a buffer answers `TooLarge` and allocates
nothing; a failed allocation answers `AllocationFailed`; a failed copy answers `CopyFailed`, and a full transmit ring,
in either wrap mode (spec/41_transmit.md R256), `Full`, both with the buffer released, so that no buffer leaks
(spec/44_udp_framer.md R400, R401, R402). That a copy that fails has written nothing is the model's choice (log 23).
-/
def Obligations.UdpTxFails : Prop :=
  ∀ (s : State) (sport : Half) (dstIp : Word) (dport : Half) (payload : List Byte), Ready s →
    (s.cfg.bufSize < 42 + payload.length → exec (.udpTx sport dstIp dport payload) s = .next { s with
      results := s.results ++ [.code .tooLarge] }) ∧
    (42 + payload.length ≤ s.cfg.bufSize →
      ((nextAllocAnswer s).1 = none → ∃ n, exec (.udpTx sport dstIp dport payload) s = .next { s with
        allocAns := s.allocAns.tail, draws := n, results := s.results ++ [.code .allocationFailed] }) ∧
      ∀ r, SubmitReady s → (nextAllocAnswer s).1 = some r → allocOk s r = true →
        (s.copyAns.head? = some false → ∃ t, exec (.udpTx sport dstIp dport payload) s = .next t ∧
          GivenBack s r [] t ∧ t = { s with
            mem := t.mem, fenced := t.fenced, bufs := t.bufs, draws := t.draws, allocAns := s.allocAns.tail
            copyAns := s.copyAns.tail
            events := s.events ++ [.allocated r, .released r], results := s.results ++ [.code .copyFailed] }) ∧
        (s.copyAns.head? = some true → hasBit (txd s s.dev.tdt.toNat).status bitDD = false →
          ∃ t, exec (.udpTx sport dstIp dport payload) s = .next t ∧
          GivenBack s r [] t ∧ t = { s with
            mem := t.mem, fenced := t.fenced, bufs := t.bufs, draws := t.draws, allocAns := s.allocAns.tail
            copyAns := s.copyAns.tail
            events := s.events ++ [.allocated r, .released r], results := s.results ++ [.code .full] }))

/-- The frame UDP_TX builds is one this block's own parser accepts: its type is IP, its UDP header is found at offset
34, where the destination port is, the checksum over its IPv4 header is 0 to whoever may read it, and UDP_PAYLOAD
answers the local address, the source port and the payload up to the caller's limit (spec/44_udp_framer.md R403;
spec/43_demux.md R365). Which buffers an outside caller's CKSUM and UDP_PAYLOAD may read is the model's reading (log
16, 30). -/
def Obligations.UdpFrameParses : Prop :=
  ∀ (s : State) (b : Addr) (who : Owner) (sport dport len : Half) (dstIp : Word) (payload : List Byte)
    (maxLen : BitVec 64), Ready s → Holds s who b → (who = .caller ∨ ∃ q, who = .portq q) →
    42 + payload.length ≤ s.cfg.bufSize → s.cfg.bufSize ≤ 65535 →
    bytesAt s b.toNat (42 + payload.length) = udpFrame s.cfg sport dstIp dport payload →
    frameType s b = 0x0800 ∧ udpAt s b = b.toNat + 34 ∧ be16 (bytesAt s (udpAt s b + 2) 2) = dport ∧
    (CallerReads s (b.toNat + 14) 20 →
      exec (.cksum (.mem (b + 14) 20)) s = .next { s with results := s.results ++ [.checksum 0] }) ∧
    exec (.udpPayload b len maxLen) s = .next { s with
      results := s.results ++ [.payload s.cfg.localIp sport (BitVec.ofNat 64 (min maxLen.toNat payload.length))
        (payload.take maxLen.toNat)] }

/-! ### Registers and the device reset -/

/-- REG_READ answers the register's value: whole where it has no reserved bit, with free values in the reserved
bits otherwise; a read of ICR clears it and nothing else (spec/40_ring_init.md R210, spec/20_memory.md R116,
spec/10_state.md R63). -/
def Obligations.RegisterReads : Prop :=
  ∀ s : State, Ready s →
    (∀ n : RegName, n ≠ .icr → n ≠ .imc → reservedMask s.cfg n = 0 →
      exec (.regRead n) s = .next { s with results := s.results ++ [.regValue (regValue s.cfg s.dev n)] }) ∧
    (∀ n : RegName, n ≠ .icr → n ≠ .imc → reservedMask s.cfg n ≠ 0 → ∃ (v : Word) (l : List (BitVec 64)),
      v &&& ~~~reservedMask s.cfg n = regValue s.cfg s.dev n &&& ~~~reservedMask s.cfg n ∧
      exec (.regRead n) s = .next { s with
        results := s.results ++ [.regValue v], drawAns := l, draws := s.draws + 1 }) ∧
    exec (.regRead .icr) s = .next { s with
      dev := { s.dev with icr := 0 }, results := s.results ++ [.regValue s.dev.icr] }

/-- A write of v to ICR clears the causes that are 1 in v, a write to IMS sets mask bits, a write to IMC clears
them; a rise of `irq_line` under the new mask is held for PLATFORM; nothing else changes
(spec/10_state.md R62, spec/40_ring_init.md R211, spec/42_receive.md R315). -/
def Obligations.InterruptRegisterWrites : Prop :=
  ∀ (s : State) (v : Word), Ready s →
    exec (.regWrite .icr v) s = .next { s with dev := { s.dev with icr := s.dev.icr &&& ~~~v } } ∧
    exec (.regWrite .ims v) s = .next { s with
      dev := { s.dev with ims := s.dev.ims ||| v }
      irqHeld := s.irqHeld || (s.dev.icr &&& s.dev.ims == 0 && s.dev.icr &&& v != 0) } ∧
    exec (.regWrite .imc v) s = .next { s with dev := { s.dev with ims := s.dev.ims &&& ~~~v } }

/-- REG_WRITE of any other register but CTRL stores the value, where its reserved bits are 0, a tail cursor lies
below its ring's length register divided by 16, and no head cursor is meant: that register reads as the value,
every other register, the device's hidden state and the rest of the state are as before, but for the slots a TDT
other than the current one makes outstanding under SEND_ALL (spec/40_ring_init.md R211, spec/10_state.md R52,
spec/20_memory.md R114; how many these are is the model's choice: log 33, and log 46 for a tail of N_TX or more;
that a length which is no multiple of 16 counts rounded down is its choice too: log 47). -/
def Obligations.RegisterStores : Prop :=
  ∀ (s : State) (n : RegName) (v : Word), Ready s → n ∉ [RegName.ctrl, .icr, .ims, .imc, .tdh, .rdh] →
    v &&& reservedMask s.cfg n = 0 →
    (n = .tdt → v.toNat < s.dev.tdlen.toNat / 16) → (n = .rdt → v.toNat < s.dev.rdlen.toNat / 16) →
    ∃ d : DevRegs, exec (.regWrite n v) s = .next { s with dev := d } ∧
      (∀ m, regValue s.cfg d m = if m = n then v else regValue s.cfg s.dev m) ∧
      d.ctrlRst = s.dev.ctrlRst ∧ d.resetPending = s.dev.resetPending ∧ d.ralx = s.dev.ralx ∧
      d.rahx = s.dev.rahx ∧ d.rxRemaining = s.dev.rxRemaining ∧
      d.txCount = (if n = .tdt ∧ s.cfg.wrapMode = .sendAll ∧ v ≠ s.dev.tdt
        then cyclicLen s.cfg.nTx s.dev.tdh.toNat v.toNat else s.dev.txCount)

/-- A CTRL write with RST = 1 starts a device reset; with RST = 0 it only stores, and it ends no reset
(spec/10_state.md R61, spec/40_ring_init.md R211). -/
def Obligations.ControlWrites : Prop :=
  ∀ (s : State) (v : Word), Ready s →
    ∃ d : DevRegs, exec (.regWrite .ctrl v) s = .next { s with dev := d } ∧
      d = { s.dev with ctrlRst := d.ctrlRst, ctrlOther := d.ctrlOther, resetPending := d.resetPending } ∧
      (regValue s.cfg d .ctrl &&& ~~~s.cfg.ctrlRstMask = v &&& ~~~s.cfg.ctrlRstMask) ∧
      (d.ctrlRst = true ↔ v &&& s.cfg.ctrlRstMask ≠ 0) ∧
      (d.resetPending = true ↔ s.dev.resetPending = true ∨ v &&& s.cfg.ctrlRstMask ≠ 0)

/-- DEV_RESET, while a reset is pending, clears the interrupt cause and mask, both enables, the cursors, the
delay timers, AV of the other address slots, the frame in progress and CTRL.RST, gives the other registers free
values, and leaves memory and everything else alone; with no reset pending it is refused
(spec/40_ring_init.md R212; spec/10_state.md R69). That CTRL's other bits stay is the model's choice (log 20). -/
def Obligations.DeviceReset : Prop :=
  ∀ s : State, Running s →
    (s.dev.resetPending = true → ∃ t, exec .devReset s = .next t ∧
      t = { s with dev := t.dev, draws := t.draws } ∧
      t.dev.icr = 0 ∧ t.dev.ims = 0 ∧ t.dev.rctl = 0 ∧ txEnabled t.dev = false ∧
      t.dev.tdh = 0 ∧ t.dev.tdt = 0 ∧ t.dev.rdh = 0 ∧ t.dev.rdt = 0 ∧ t.dev.txCount = 0 ∧
      t.dev.rdtr = 0 ∧ t.dev.radv = 0 ∧ (∀ (j : Nat) (h : j < 15), t.dev.rahx[j].getLsbD 31 = false) ∧
      t.dev.rxRemaining = 0 ∧ t.dev.ctrlRst = false ∧ t.dev.ctrlOther = s.dev.ctrlOther ∧
      t.dev.resetPending = false) ∧
    (s.dev.resetPending = false → exec .devReset s = .refused .eventNotEnabled)

/-! ### INIT -/

/-- INIT with a device that completes its reset at one of INIT's polls, the first or a later one, runs to its end: both
rings, the owner records, the registers and the buffers are as `AfterInit` says, and nothing else has changed
(spec/40_ring_init.md R200, spec/10_state.md R69). A frame that fits the ring and falls between S15 and S17 (before the
write of RDTR, of RADV or of IMS) fills its slots, and `irq_line` rises at S17, an edge that PLATFORM holds (R200's corner
case; log 42). That a receive buffer is the receive path's until its slot is handed over, and the device's from then on,
is the model's reading (log 34). What the device sees of the receive ring, for which INIT has no FENCE after S10, is as
`rxInitView` says, and the frame's clause is for `written`; InitHolds says where a frame stops the run with `fenced`
(spec/20_memory.md R121, spec/70_reset_and_hazards.md R506; log 48). -/
def Obligations.InitRuns : Prop :=
  (∀ (s : State) (rb tb xb : Addr) (bs : List Addr) (rest : List (Option Addr)), InitIssued s tb xb bs rest [] →
    s.cfg.nTx * 16 % s.cfg.ringAlign = 0 → s.cfg.nRx * 16 % s.cfg.ringAlign = 0 → bs.length = s.cfg.nRx →
    ∃ t, exec (.init rb tb xb) s = .next t ∧ AfterInit s rb tb xb bs rest t) ∧
  ∀ (s : State) (rb tb xb : Addr) (bs : List Addr) (rest : List (Option Addr)) (f : List Byte) (j : Nat),
    InitIssued s tb xb bs rest (List.replicate (initAccesses s.cfg + j) [] ++ [[.rxFrame f]]) → j < 3 →
    s.cfg.rxInitView = .written →
    (∀ r ∈ s.bufs, overlaps r.base.toNat s.cfg.bufSize tb.toNat (s.cfg.nTx * 16) = false ∧
      overlaps r.base.toNat s.cfg.bufSize xb.toNat (s.cfg.nRx * 16) = false) →
    s.cfg.nTx * 16 % s.cfg.ringAlign = 0 → s.cfg.nRx * 16 % s.cfg.ringAlign = 0 → bs.length = s.cfg.nRx →
    (f.take 6 = s.cfg.localMac.bytes ∨ f.take 6 = [0xFF, 0xFF, 0xFF, 0xFF, 0xFF, 0xFF]) →
    14 ≤ f.length → f.length ≤ 65535 → f.length ≤ (s.cfg.nRx - 1) * s.cfg.rxBufSize →
    ∃ w t, AfterInit s rb tb xb bs rest w ∧ exec (.init rb tb xb) s = .next t ∧
      RxFilled w f ((f.length + s.cfg.rxBufSize - 1) / s.cfg.rxBufSize) t ∧ irqLine t.dev = true ∧ t.irqHeld = true

/-- INIT holds at S3 while the device has not completed its reset: interrupts are masked, CTRL.RST is set, the reset is
pending, the ring bases are fixed, and nothing else has changed; once the device has completed its reset, the step after
the hold is the rest of INIT (spec/40_ring_init.md R200, R203). With `rxInitView = fenced`, the reading of
spec/20_memory.md R121, the first frame after it meets the descriptor address that lay at slot 0 before INIT, and where no
buffer of the device's holds its first chunk there, the run stops with OWNERSHIP_VIOLATION (spec/60_exceptions.md R468).
That the hold is a state of the software sequencer is the model's choice (log 9), and so is the parameter (log 48); whose a
receive buffer is when is its reading (log 34). -/
def Obligations.InitHolds : Prop :=
  (∀ (s : State) (rb tb xb : Addr), Running s → s.sw = .idle → s.initPhase = .notIssued →
    tb.toNat % 16 = 0 → xb.toNat % 16 = 0 → s.sched = [] →
    ∃ v l n, exec (.init rb tb xb) s = .next { s with
      initPhase := .running, registerBase := rb, txRingBase := tb, rxRingBase := xb, sw := .initHold
      drawAns := l, draws := n
      dev := { s.dev with ims := 0, ctrlRst := true, ctrlOther := v, resetPending := true } }) ∧
  (∀ (s : State) (bs : List Addr) (rest : List (Option Addr)), Running s → s.sw = .initHold →
    InitReady s bs rest → bs.length = s.cfg.nRx →
    s.cfg.nTx * 16 % s.cfg.ringAlign = 0 → s.cfg.nRx * 16 % s.cfg.ringAlign = 0 →
    ∃ t, step s = .next t ∧ AfterInit s s.registerBase s.txRingBase s.rxRingBase bs rest t) ∧
  (∀ (s t : State) (bs : List Addr) (rest : List (Option Addr)) (f : List Byte), Running s → s.sw = .initHold →
    InitReady s bs rest → s.cfg.rxInitView = .fenced → bs.length = s.cfg.nRx → 1 < s.cfg.nRx →
    s.cfg.nTx * 16 % s.cfg.ringAlign = 0 → s.cfg.nRx * 16 % s.cfg.ringAlign = 0 → step s = .next t →
    (f.take 6 = s.cfg.localMac.bytes ∨ f.take 6 = [0xFF, 0xFF, 0xFF, 0xFF, 0xFF, 0xFF]) →
    14 ≤ f.length → f.length ≤ 65535 →
    ownsRange t .device (leNat (bytesAt { t with mem := s.mem } s.rxRingBase.toNat 8)) (min f.length s.cfg.rxBufSize) =
      false → exec (.devRxFrame f) t = .next { t with modelFault := some .ownershipViolation })

/-- INIT fails fatally where the transmit ring's byte size is misaligned (recorded value 0) before it programs
that ring, then where Alloc fails for receive slot i (recorded value i) with the slots before i filled, then where
the receive ring's byte size is misaligned (recorded value 1); what was written stays: where INIT goes on from its hold,
and where its device completes the reset while INIT polls, the registers not yet programmed then holding the reset's
free values (spec/40_ring_init.md R200, R212, spec/60_exceptions.md R460, R461). -/
def Obligations.InitFails : Prop :=
  (∀ (s : State) (bs : List Addr) (rest : List (Option Addr)), Running s → s.sw = .initHold →
    InitReady s bs rest → InitFatalEnds s s.dev bs rest (step s)) ∧
  (∀ (s : State) (rb tb xb : Addr) (bs : List Addr) (rest : List (Option Addr)), InitIssued s tb xb bs rest [] →
    ∃ n, InitFatalEnds s (resetDev n s.dev) bs rest (exec (.init rb tb xb) s))

/-! ### The checksum unit -/

/-- CKSUM answers the checksum of its bytes, given directly or read from memory that is the caller's to read, and
changes nothing else; it is admitted before INIT, after it, and between INIT's steps wherever software is idle, so not
while INIT is held at S3 (log 35). A read of a descriptor the device owns, or of a buffer of another owner, is a model
fault instead (spec/45_checksum.md R430, spec/40_ring_init.md R201; spec/20_memory.md R112,
spec/70_reset_and_hazards.md R513). Which memory is the caller's to read is the model's reading (log 16), and that a
descriptor of the device's names the fault where the read touches a buffer of another owner as well is its choice (log
15). -/
def Obligations.ChecksumAnswers : Prop :=
  ∀ s : State, Running s → s.sw = .idle →
    (∀ bytes : List Byte, bytes.length ≤ 65535 →
      exec (.cksum (.data bytes)) s = .next { s with results := s.results ++ [.checksum (cksum bytes)] }) ∧
    (∀ (a : Addr) (n : Half), s.sched = [] → a.toNat + n.toNat ≤ addrSpace →
      (n = 0 ∨ CallerReads s a.toNat n.toNat → exec (.cksum (.mem a n)) s = .next { s with
        results := s.results ++ [.checksum (cksum (bytesAt s a.toNat n.toNat))] }) ∧
      (n ≠ 0 → ¬ CallerReads s a.toNat n.toNat → ∃ f, exec (.cksum (.mem a n)) s = .next { s with
        modelFault := some f }) ∧
      (n ≠ 0 → s.initPhase ≠ .notIssued →
        (∃ i, (devOwnsTx s i = true ∧ overlaps a.toNat n.toNat (txdAddr s i) 16 = true) ∨
          (devOwnsRx s i = true ∧ overlaps a.toNat n.toNat (rxdAddr s i) 16 = true)) →
        exec (.cksum (.mem a n)) s = .next { s with modelFault := some .ownershipViolation }))

/-- For at most 65535 bytes the 32-bit accumulator holds the sum over unbounded integers, which is at most
floor(n/2)*0xFFFF + 0xFF00, below 2^32; and the result is the complement of the one's-complement sum
(spec/45_checksum.md R431). -/
def Obligations.AccumulatorBound : Prop :=
  ∀ bytes : List Byte, bytes.length ≤ 65535 →
    (cksumAcc 0 bytes).toNat = wordSum bytes ∧
    wordSum bytes ≤ bytes.length / 2 * 0xFFFF + 0xFF00 ∧
    bytes.length / 2 * 0xFFFF + 0xFF00 ≤ 2147450625 ∧
    cksum bytes = ~~~(BitVec.ofNat 16 (onesSum (wordSum bytes)))

/-- The first fold gives at most 0x1FFFE, the second at most 0xFFFF, and 0 exactly for the sum 0, so that the
result is 0xFFFF exactly when every byte is zero (spec/45_checksum.md R432). -/
def Obligations.FoldBound : Prop :=
  (∀ s0 : Word,
    (cksumFold s0).toNat = s0.toNat % 0x10000 + s0.toNat / 0x10000 ∧
    (cksumFold s0).toNat ≤ 0x1FFFE ∧
    (0x10000 ≤ (cksumFold s0).toNat → (cksumFold s0).toNat % 0x10000 ≤ 0xFFFE ∧ (cksumFold s0).toNat / 0x10000 = 1) ∧
    ((cksumFold s0).toNat < 0x10000 → cksumFold (cksumFold s0) = cksumFold s0) ∧
    (cksumFold (cksumFold s0)).toNat ≤ 0xFFFF ∧
    (cksumFold (cksumFold s0) = 0 ↔ s0 = 0)) ∧
  (∀ bytes : List Byte, bytes.length ≤ 65535 → (cksum bytes = 0xFFFF ↔ ∀ b ∈ bytes, b = 0))

/-- The verification property: a byte sequence of even length whose field at an even offset holds the checksum
computed with that field zero has the checksum 0, and it fails for a checksum appended at an odd offset
(spec/45_checksum.md R433). -/
def Obligations.ChecksumVerifies : Prop :=
  (∀ pre post : List Byte, pre.length % 2 = 0 → post.length % 2 = 0 → pre.length + 2 + post.length ≤ 65535 →
    cksum (pre ++ be16Bytes (cksum (pre ++ [0, 0] ++ post)) ++ post) = 0) ∧
  (∃ data : List Byte, data.length % 2 = 1 ∧ cksum (data ++ be16Bytes (cksum data)) ≠ 0)
end

