-- ==== Sys2Proof/Laws/State.lean ====
section
/-! SUPPORT. One lemma per field of the state per named update, so that no proof unfolds an update. -/

namespace Sys2Proof.Machine

/-! ### setDev -/

@[simp] theorem setDev_cfg (d : DevRegs) (s : State) :
    (setDev d s).cfg = s.cfg := rfl
@[simp] theorem setDev_mem (d : DevRegs) (s : State) :
    (setDev d s).mem = s.mem := rfl
@[simp] theorem setDev_fenced (d : DevRegs) (s : State) :
    (setDev d s).fenced = s.fenced := rfl
@[simp] theorem setDev_dev (d : DevRegs) (s : State) :
    (setDev d s).dev = d := rfl
@[simp] theorem setDev_registerBase (d : DevRegs) (s : State) :
    (setDev d s).registerBase = s.registerBase := rfl
@[simp] theorem setDev_txRingBase (d : DevRegs) (s : State) :
    (setDev d s).txRingBase = s.txRingBase := rfl
@[simp] theorem setDev_rxRingBase (d : DevRegs) (s : State) :
    (setDev d s).rxRingBase = s.rxRingBase := rfl
@[simp] theorem setDev_txOwner (d : DevRegs) (s : State) :
    (setDev d s).txOwner = s.txOwner := rfl
@[simp] theorem setDev_rxOwner (d : DevRegs) (s : State) :
    (setDev d s).rxOwner = s.rxOwner := rfl
@[simp] theorem setDev_arpSeen (d : DevRegs) (s : State) :
    (setDev d s).arpSeen = s.arpSeen := rfl
@[simp] theorem setDev_halted (d : DevRegs) (s : State) :
    (setDev d s).halted = s.halted := rfl
@[simp] theorem setDev_fatalInfo (d : DevRegs) (s : State) :
    (setDev d s).fatalInfo = s.fatalInfo := rfl
@[simp] theorem setDev_modelFault (d : DevRegs) (s : State) :
    (setDev d s).modelFault = s.modelFault := rfl
@[simp] theorem setDev_irqHeld (d : DevRegs) (s : State) :
    (setDev d s).irqHeld = (s.irqHeld || (!irqLine s.dev && irqLine d)) := rfl
@[simp] theorem setDev_initPhase (d : DevRegs) (s : State) :
    (setDev d s).initPhase = s.initPhase := rfl
@[simp] theorem setDev_sw (d : DevRegs) (s : State) :
    (setDev d s).sw = s.sw := rfl
@[simp] theorem setDev_locks (d : DevRegs) (s : State) :
    (setDev d s).locks = s.locks := rfl
@[simp] theorem setDev_bufs (d : DevRegs) (s : State) :
    (setDev d s).bufs = s.bufs := rfl
@[simp] theorem setDev_portq (d : DevRegs) (s : State) :
    (setDev d s).portq = s.portq := rfl
@[simp] theorem setDev_events (d : DevRegs) (s : State) :
    (setDev d s).events = s.events := rfl
@[simp] theorem setDev_results (d : DevRegs) (s : State) :
    (setDev d s).results = s.results := rfl
@[simp] theorem setDev_allocAns (d : DevRegs) (s : State) :
    (setDev d s).allocAns = s.allocAns := rfl
@[simp] theorem setDev_copyAns (d : DevRegs) (s : State) :
    (setDev d s).copyAns = s.copyAns := rfl
@[simp] theorem setDev_drawAns (d : DevRegs) (s : State) :
    (setDev d s).drawAns = s.drawAns := rfl
@[simp] theorem setDev_draws (d : DevRegs) (s : State) :
    (setDev d s).draws = s.draws := rfl
@[simp] theorem setDev_inbox (d : DevRegs) (s : State) :
    (setDev d s).inbox = s.inbox := rfl
@[simp] theorem setDev_sched (d : DevRegs) (s : State) :
    (setDev d s).sched = s.sched := rfl

/-! ### setOwner -/

@[simp] theorem setOwner_cfg (b : Addr) (o : Owner) (s : State) :
    (setOwner b o s).cfg = s.cfg := rfl
@[simp] theorem setOwner_mem (b : Addr) (o : Owner) (s : State) :
    (setOwner b o s).mem = s.mem := rfl
@[simp] theorem setOwner_fenced (b : Addr) (o : Owner) (s : State) :
    (setOwner b o s).fenced = s.fenced := rfl
@[simp] theorem setOwner_dev (b : Addr) (o : Owner) (s : State) :
    (setOwner b o s).dev = s.dev := rfl
@[simp] theorem setOwner_registerBase (b : Addr) (o : Owner) (s : State) :
    (setOwner b o s).registerBase = s.registerBase := rfl
@[simp] theorem setOwner_txRingBase (b : Addr) (o : Owner) (s : State) :
    (setOwner b o s).txRingBase = s.txRingBase := rfl
@[simp] theorem setOwner_rxRingBase (b : Addr) (o : Owner) (s : State) :
    (setOwner b o s).rxRingBase = s.rxRingBase := rfl
@[simp] theorem setOwner_txOwner (b : Addr) (o : Owner) (s : State) :
    (setOwner b o s).txOwner = s.txOwner := rfl
@[simp] theorem setOwner_rxOwner (b : Addr) (o : Owner) (s : State) :
    (setOwner b o s).rxOwner = s.rxOwner := rfl
@[simp] theorem setOwner_arpSeen (b : Addr) (o : Owner) (s : State) :
    (setOwner b o s).arpSeen = s.arpSeen := rfl
@[simp] theorem setOwner_halted (b : Addr) (o : Owner) (s : State) :
    (setOwner b o s).halted = s.halted := rfl
@[simp] theorem setOwner_fatalInfo (b : Addr) (o : Owner) (s : State) :
    (setOwner b o s).fatalInfo = s.fatalInfo := rfl
@[simp] theorem setOwner_modelFault (b : Addr) (o : Owner) (s : State) :
    (setOwner b o s).modelFault = s.modelFault := rfl
@[simp] theorem setOwner_irqHeld (b : Addr) (o : Owner) (s : State) :
    (setOwner b o s).irqHeld = s.irqHeld := rfl
@[simp] theorem setOwner_initPhase (b : Addr) (o : Owner) (s : State) :
    (setOwner b o s).initPhase = s.initPhase := rfl
@[simp] theorem setOwner_sw (b : Addr) (o : Owner) (s : State) :
    (setOwner b o s).sw = s.sw := rfl
@[simp] theorem setOwner_locks (b : Addr) (o : Owner) (s : State) :
    (setOwner b o s).locks = s.locks := rfl
@[simp] theorem setOwner_bufs (b : Addr) (o : Owner) (s : State) :
    (setOwner b o s).bufs = s.bufs.map (fun r => if r.base = b then { r with owner := o } else r) := rfl
@[simp] theorem setOwner_portq (b : Addr) (o : Owner) (s : State) :
    (setOwner b o s).portq = s.portq := rfl
@[simp] theorem setOwner_events (b : Addr) (o : Owner) (s : State) :
    (setOwner b o s).events = s.events := rfl
@[simp] theorem setOwner_results (b : Addr) (o : Owner) (s : State) :
    (setOwner b o s).results = s.results := rfl
@[simp] theorem setOwner_allocAns (b : Addr) (o : Owner) (s : State) :
    (setOwner b o s).allocAns = s.allocAns := rfl
@[simp] theorem setOwner_copyAns (b : Addr) (o : Owner) (s : State) :
    (setOwner b o s).copyAns = s.copyAns := rfl
@[simp] theorem setOwner_drawAns (b : Addr) (o : Owner) (s : State) :
    (setOwner b o s).drawAns = s.drawAns := rfl
@[simp] theorem setOwner_draws (b : Addr) (o : Owner) (s : State) :
    (setOwner b o s).draws = s.draws := rfl
@[simp] theorem setOwner_inbox (b : Addr) (o : Owner) (s : State) :
    (setOwner b o s).inbox = s.inbox := rfl
@[simp] theorem setOwner_sched (b : Addr) (o : Owner) (s : State) :
    (setOwner b o s).sched = s.sched := rfl

/-! ### allocState -/

@[simp] theorem allocState_cfg (b : Addr) (who : Owner) (s : State) :
    (allocState b who s).cfg = s.cfg := rfl
@[simp] theorem allocState_mem (b : Addr) (who : Owner) (s : State) :
    (allocState b who s).mem = memClear s.mem b.toNat s.cfg.bufSize := rfl
@[simp] theorem allocState_fenced (b : Addr) (who : Owner) (s : State) :
    (allocState b who s).fenced = memClear s.fenced b.toNat s.cfg.bufSize := rfl
@[simp] theorem allocState_dev (b : Addr) (who : Owner) (s : State) :
    (allocState b who s).dev = s.dev := rfl
@[simp] theorem allocState_registerBase (b : Addr) (who : Owner) (s : State) :
    (allocState b who s).registerBase = s.registerBase := rfl
@[simp] theorem allocState_txRingBase (b : Addr) (who : Owner) (s : State) :
    (allocState b who s).txRingBase = s.txRingBase := rfl
@[simp] theorem allocState_rxRingBase (b : Addr) (who : Owner) (s : State) :
    (allocState b who s).rxRingBase = s.rxRingBase := rfl
@[simp] theorem allocState_txOwner (b : Addr) (who : Owner) (s : State) :
    (allocState b who s).txOwner = s.txOwner := rfl
@[simp] theorem allocState_rxOwner (b : Addr) (who : Owner) (s : State) :
    (allocState b who s).rxOwner = s.rxOwner := rfl
@[simp] theorem allocState_arpSeen (b : Addr) (who : Owner) (s : State) :
    (allocState b who s).arpSeen = s.arpSeen := rfl
@[simp] theorem allocState_halted (b : Addr) (who : Owner) (s : State) :
    (allocState b who s).halted = s.halted := rfl
@[simp] theorem allocState_fatalInfo (b : Addr) (who : Owner) (s : State) :
    (allocState b who s).fatalInfo = s.fatalInfo := rfl
@[simp] theorem allocState_modelFault (b : Addr) (who : Owner) (s : State) :
    (allocState b who s).modelFault = s.modelFault := rfl
@[simp] theorem allocState_irqHeld (b : Addr) (who : Owner) (s : State) :
    (allocState b who s).irqHeld = s.irqHeld := rfl
@[simp] theorem allocState_initPhase (b : Addr) (who : Owner) (s : State) :
    (allocState b who s).initPhase = s.initPhase := rfl
@[simp] theorem allocState_sw (b : Addr) (who : Owner) (s : State) :
    (allocState b who s).sw = s.sw := rfl
@[simp] theorem allocState_locks (b : Addr) (who : Owner) (s : State) :
    (allocState b who s).locks = s.locks := rfl
@[simp] theorem allocState_bufs (b : Addr) (who : Owner) (s : State) :
    (allocState b who s).bufs = s.bufs.filter (fun r => !overlaps b.toNat s.cfg.bufSize r.base.toNat s.cfg.bufSize) ++ [⟨b, who, s.draws + 1⟩] := rfl
@[simp] theorem allocState_portq (b : Addr) (who : Owner) (s : State) :
    (allocState b who s).portq = s.portq := rfl
@[simp] theorem allocState_events (b : Addr) (who : Owner) (s : State) :
    (allocState b who s).events = s.events ++ [.allocated b] := rfl
@[simp] theorem allocState_results (b : Addr) (who : Owner) (s : State) :
    (allocState b who s).results = s.results := rfl
@[simp] theorem allocState_allocAns (b : Addr) (who : Owner) (s : State) :
    (allocState b who s).allocAns = s.allocAns := rfl
@[simp] theorem allocState_copyAns (b : Addr) (who : Owner) (s : State) :
    (allocState b who s).copyAns = s.copyAns := rfl
@[simp] theorem allocState_drawAns (b : Addr) (who : Owner) (s : State) :
    (allocState b who s).drawAns = s.drawAns := rfl
@[simp] theorem allocState_draws (b : Addr) (who : Owner) (s : State) :
    (allocState b who s).draws = s.draws + 1 := rfl
@[simp] theorem allocState_inbox (b : Addr) (who : Owner) (s : State) :
    (allocState b who s).inbox = s.inbox := rfl
@[simp] theorem allocState_sched (b : Addr) (who : Owner) (s : State) :
    (allocState b who s).sched = s.sched := rfl

/-! ### releaseState -/

@[simp] theorem releaseState_cfg (b : Addr) (s : State) :
    (releaseState b s).cfg = s.cfg := rfl
@[simp] theorem releaseState_mem (b : Addr) (s : State) :
    (releaseState b s).mem = s.mem := rfl
@[simp] theorem releaseState_fenced (b : Addr) (s : State) :
    (releaseState b s).fenced = s.fenced := rfl
@[simp] theorem releaseState_dev (b : Addr) (s : State) :
    (releaseState b s).dev = s.dev := rfl
@[simp] theorem releaseState_registerBase (b : Addr) (s : State) :
    (releaseState b s).registerBase = s.registerBase := rfl
@[simp] theorem releaseState_txRingBase (b : Addr) (s : State) :
    (releaseState b s).txRingBase = s.txRingBase := rfl
@[simp] theorem releaseState_rxRingBase (b : Addr) (s : State) :
    (releaseState b s).rxRingBase = s.rxRingBase := rfl
@[simp] theorem releaseState_txOwner (b : Addr) (s : State) :
    (releaseState b s).txOwner = s.txOwner := rfl
@[simp] theorem releaseState_rxOwner (b : Addr) (s : State) :
    (releaseState b s).rxOwner = s.rxOwner := rfl
@[simp] theorem releaseState_arpSeen (b : Addr) (s : State) :
    (releaseState b s).arpSeen = s.arpSeen := rfl
@[simp] theorem releaseState_halted (b : Addr) (s : State) :
    (releaseState b s).halted = s.halted := rfl
@[simp] theorem releaseState_fatalInfo (b : Addr) (s : State) :
    (releaseState b s).fatalInfo = s.fatalInfo := rfl
@[simp] theorem releaseState_modelFault (b : Addr) (s : State) :
    (releaseState b s).modelFault = s.modelFault := rfl
@[simp] theorem releaseState_irqHeld (b : Addr) (s : State) :
    (releaseState b s).irqHeld = s.irqHeld := rfl
@[simp] theorem releaseState_initPhase (b : Addr) (s : State) :
    (releaseState b s).initPhase = s.initPhase := rfl
@[simp] theorem releaseState_sw (b : Addr) (s : State) :
    (releaseState b s).sw = s.sw := rfl
@[simp] theorem releaseState_locks (b : Addr) (s : State) :
    (releaseState b s).locks = s.locks := rfl
@[simp] theorem releaseState_bufs (b : Addr) (s : State) :
    (releaseState b s).bufs = (setOwner b .allocator s).bufs := rfl
@[simp] theorem releaseState_portq (b : Addr) (s : State) :
    (releaseState b s).portq = s.portq := rfl
@[simp] theorem releaseState_events (b : Addr) (s : State) :
    (releaseState b s).events = s.events ++ [.released b] := rfl
@[simp] theorem releaseState_results (b : Addr) (s : State) :
    (releaseState b s).results = s.results := rfl
@[simp] theorem releaseState_allocAns (b : Addr) (s : State) :
    (releaseState b s).allocAns = s.allocAns := rfl
@[simp] theorem releaseState_copyAns (b : Addr) (s : State) :
    (releaseState b s).copyAns = s.copyAns := rfl
@[simp] theorem releaseState_drawAns (b : Addr) (s : State) :
    (releaseState b s).drawAns = s.drawAns := rfl
@[simp] theorem releaseState_draws (b : Addr) (s : State) :
    (releaseState b s).draws = s.draws := rfl
@[simp] theorem releaseState_inbox (b : Addr) (s : State) :
    (releaseState b s).inbox = s.inbox := rfl
@[simp] theorem releaseState_sched (b : Addr) (s : State) :
    (releaseState b s).sched = s.sched := rfl

/-! ### dmaPut -/

@[simp] theorem dmaPut_cfg (a : Nat) (bs : List Byte) (s : State) :
    (dmaPut a bs s).cfg = s.cfg := rfl
@[simp] theorem dmaPut_mem (a : Nat) (bs : List Byte) (s : State) :
    (dmaPut a bs s).mem = memPutBytes s.mem a bs := rfl
@[simp] theorem dmaPut_fenced (a : Nat) (bs : List Byte) (s : State) :
    (dmaPut a bs s).fenced = memPutBytes s.fenced a bs := rfl
@[simp] theorem dmaPut_dev (a : Nat) (bs : List Byte) (s : State) :
    (dmaPut a bs s).dev = s.dev := rfl
@[simp] theorem dmaPut_registerBase (a : Nat) (bs : List Byte) (s : State) :
    (dmaPut a bs s).registerBase = s.registerBase := rfl
@[simp] theorem dmaPut_txRingBase (a : Nat) (bs : List Byte) (s : State) :
    (dmaPut a bs s).txRingBase = s.txRingBase := rfl
@[simp] theorem dmaPut_rxRingBase (a : Nat) (bs : List Byte) (s : State) :
    (dmaPut a bs s).rxRingBase = s.rxRingBase := rfl
@[simp] theorem dmaPut_txOwner (a : Nat) (bs : List Byte) (s : State) :
    (dmaPut a bs s).txOwner = s.txOwner := rfl
@[simp] theorem dmaPut_rxOwner (a : Nat) (bs : List Byte) (s : State) :
    (dmaPut a bs s).rxOwner = s.rxOwner := rfl
@[simp] theorem dmaPut_arpSeen (a : Nat) (bs : List Byte) (s : State) :
    (dmaPut a bs s).arpSeen = s.arpSeen := rfl
@[simp] theorem dmaPut_halted (a : Nat) (bs : List Byte) (s : State) :
    (dmaPut a bs s).halted = s.halted := rfl
@[simp] theorem dmaPut_fatalInfo (a : Nat) (bs : List Byte) (s : State) :
    (dmaPut a bs s).fatalInfo = s.fatalInfo := rfl
@[simp] theorem dmaPut_modelFault (a : Nat) (bs : List Byte) (s : State) :
    (dmaPut a bs s).modelFault = s.modelFault := rfl
@[simp] theorem dmaPut_irqHeld (a : Nat) (bs : List Byte) (s : State) :
    (dmaPut a bs s).irqHeld = s.irqHeld := rfl
@[simp] theorem dmaPut_initPhase (a : Nat) (bs : List Byte) (s : State) :
    (dmaPut a bs s).initPhase = s.initPhase := rfl
@[simp] theorem dmaPut_sw (a : Nat) (bs : List Byte) (s : State) :
    (dmaPut a bs s).sw = s.sw := rfl
@[simp] theorem dmaPut_locks (a : Nat) (bs : List Byte) (s : State) :
    (dmaPut a bs s).locks = s.locks := rfl
@[simp] theorem dmaPut_bufs (a : Nat) (bs : List Byte) (s : State) :
    (dmaPut a bs s).bufs = s.bufs := rfl
@[simp] theorem dmaPut_portq (a : Nat) (bs : List Byte) (s : State) :
    (dmaPut a bs s).portq = s.portq := rfl
@[simp] theorem dmaPut_events (a : Nat) (bs : List Byte) (s : State) :
    (dmaPut a bs s).events = s.events := rfl
@[simp] theorem dmaPut_results (a : Nat) (bs : List Byte) (s : State) :
    (dmaPut a bs s).results = s.results := rfl
@[simp] theorem dmaPut_allocAns (a : Nat) (bs : List Byte) (s : State) :
    (dmaPut a bs s).allocAns = s.allocAns := rfl
@[simp] theorem dmaPut_copyAns (a : Nat) (bs : List Byte) (s : State) :
    (dmaPut a bs s).copyAns = s.copyAns := rfl
@[simp] theorem dmaPut_drawAns (a : Nat) (bs : List Byte) (s : State) :
    (dmaPut a bs s).drawAns = s.drawAns := rfl
@[simp] theorem dmaPut_draws (a : Nat) (bs : List Byte) (s : State) :
    (dmaPut a bs s).draws = s.draws := rfl
@[simp] theorem dmaPut_inbox (a : Nat) (bs : List Byte) (s : State) :
    (dmaPut a bs s).inbox = s.inbox := rfl
@[simp] theorem dmaPut_sched (a : Nat) (bs : List Byte) (s : State) :
    (dmaPut a bs s).sched = s.sched := rfl

/-! ### fenceState -/

@[simp] theorem fenceState_cfg (s : State) :
    (fenceState s).cfg = s.cfg := rfl
@[simp] theorem fenceState_mem (s : State) :
    (fenceState s).mem = s.mem := rfl
@[simp] theorem fenceState_fenced (s : State) :
    (fenceState s).fenced = memKeep (inDeviceSlot s) s.fenced s.mem := rfl
@[simp] theorem fenceState_dev (s : State) :
    (fenceState s).dev = s.dev := rfl
@[simp] theorem fenceState_registerBase (s : State) :
    (fenceState s).registerBase = s.registerBase := rfl
@[simp] theorem fenceState_txRingBase (s : State) :
    (fenceState s).txRingBase = s.txRingBase := rfl
@[simp] theorem fenceState_rxRingBase (s : State) :
    (fenceState s).rxRingBase = s.rxRingBase := rfl
@[simp] theorem fenceState_txOwner (s : State) :
    (fenceState s).txOwner = s.txOwner := rfl
@[simp] theorem fenceState_rxOwner (s : State) :
    (fenceState s).rxOwner = s.rxOwner := rfl
@[simp] theorem fenceState_arpSeen (s : State) :
    (fenceState s).arpSeen = s.arpSeen := rfl
@[simp] theorem fenceState_halted (s : State) :
    (fenceState s).halted = s.halted := rfl
@[simp] theorem fenceState_fatalInfo (s : State) :
    (fenceState s).fatalInfo = s.fatalInfo := rfl
@[simp] theorem fenceState_modelFault (s : State) :
    (fenceState s).modelFault = s.modelFault := rfl
@[simp] theorem fenceState_irqHeld (s : State) :
    (fenceState s).irqHeld = s.irqHeld := rfl
@[simp] theorem fenceState_initPhase (s : State) :
    (fenceState s).initPhase = s.initPhase := rfl
@[simp] theorem fenceState_sw (s : State) :
    (fenceState s).sw = s.sw := rfl
@[simp] theorem fenceState_locks (s : State) :
    (fenceState s).locks = s.locks := rfl
@[simp] theorem fenceState_bufs (s : State) :
    (fenceState s).bufs = s.bufs := rfl
@[simp] theorem fenceState_portq (s : State) :
    (fenceState s).portq = s.portq := rfl
@[simp] theorem fenceState_events (s : State) :
    (fenceState s).events = s.events := rfl
@[simp] theorem fenceState_results (s : State) :
    (fenceState s).results = s.results := rfl
@[simp] theorem fenceState_allocAns (s : State) :
    (fenceState s).allocAns = s.allocAns := rfl
@[simp] theorem fenceState_copyAns (s : State) :
    (fenceState s).copyAns = s.copyAns := rfl
@[simp] theorem fenceState_drawAns (s : State) :
    (fenceState s).drawAns = s.drawAns := rfl
@[simp] theorem fenceState_draws (s : State) :
    (fenceState s).draws = s.draws := rfl
@[simp] theorem fenceState_inbox (s : State) :
    (fenceState s).inbox = s.inbox := rfl
@[simp] theorem fenceState_sched (s : State) :
    (fenceState s).sched = s.sched := rfl

end Sys2Proof.Machine
end

