-- ==== Sys2Proof/Laws/Monad.lean ====
section
/-! SUPPORT. How operations run: one evaluation lemma per combinator, and what a named end of an operation is
to the host. -/

namespace Sys2Proof.Machine

@[simp] theorem pure_apply {α : Type} (a : α) (s : State) : (pure a : M α) s = .ok (a, s) := rfl

@[simp] theorem bind_apply {α β : Type} (x : M α) (f : α → M β) (s : State) :
    (x >>= f) s = match x s with
      | .ok (a, t) => f a t
      | .error e => .error e := by
  simp only [bind, StateT.bind, Except.bind]
  cases x s <;> rfl

@[simp] theorem map_apply {α β : Type} (f : α → β) (x : M α) (s : State) :
    (f <$> x) s = match x s with
      | .ok (a, t) => .ok (f a, t)
      | .error e => .error e := by
  simp only [Functor.map, StateT.map, bind, Except.bind]
  cases x s <;> rfl

@[simp] theorem get_apply (s : State) : (get : M State) s = .ok (s, s) := rfl

@[simp] theorem update_apply (f : State → State) (s : State) : update f s = .ok ((), f s) := rfl

@[simp] theorem refuse_apply {α : Type} (r : Refusal) (s : State) :
    (refuse r : M α) s = .error (.refused r) := rfl

@[simp] theorem stopFault_apply {α : Type} (f : Fault) (s : State) :
    (stopFault f : M α) s = .error (.fault f) := rfl

@[simp] theorem endHere_apply {α : Type} (s : State) : (endHere : M α) s = .error (.ended s) := rfl

@[simp] theorem ite_apply {α : Type} (c : Prop) [Decidable c] (x y : M α) (s : State) :
    (if c then x else y) s = if c then x s else y s := by split <;> rfl

theorem require_apply (c : Bool) (r : Refusal) (s : State) :
    require c r s = if c then .ok ((), s) else .error (.refused r) := by
  cases c <;> rfl

@[simp] theorem require_of_true (r : Refusal) (s : State) : require true r s = .ok ((), s) := rfl

@[simp] theorem require_of_false (r : Refusal) (s : State) :
    require false r s = .error (.refused r) := rfl

theorem whenever_apply (c : Bool) (m : M Unit) (s : State) :
    whenever c m s = if c then m s else .ok ((), s) := by
  cases c <;> rfl

@[simp] theorem whenever_true (m : M Unit) : whenever true m = m := rfl

@[simp] theorem whenever_false (m : M Unit) : whenever false m = pure () := rfl

@[simp] theorem raiseModelFault_apply {α : Type} (f : ModelFault) (s : State) :
    (raiseModelFault f : M α) s = .error (.ended { s with modelFault := some f }) := rfl

@[simp] theorem raiseFatal_apply {α : Type} (c : FatalCause) (info : Nat) (s : State) :
    (raiseFatal c info : M α) s = .error (.ended { s with
      halted := some c, fatalInfo := BitVec.ofNat 32 info, events := s.events ++ [.halt c] }) := rfl

@[simp] theorem emit_apply (e : Event) (s : State) :
    emit e s = .ok ((), { s with events := s.events ++ [e] }) := rfl

@[simp] theorem answer_apply (r : OpResult) (s : State) :
    answer r s = .ok ((), { s with results := s.results ++ [r] }) := rfl

@[simp] theorem irqEntry_apply (s : State) :
    irqEntry s = .ok ((), { s with irqHeld := false, sw := .irqI1 }) := rfl

@[simp] theorem irqReturn_apply (s : State) : irqReturn s = .ok ((), { s with sw := .idle }) := rfl

@[simp] theorem unlock_apply (l : Lock) (s : State) :
    unlock l s = .ok ((), { s with locks := s.locks.erase l }) := rfl

theorem acquire_apply (l : Lock) (s : State) :
    acquire l s = if l ∈ s.locks then .error (.fault (.lockNeverReleased l))
      else .ok ((), { s with locks := l :: s.locks }) := rfl

theorem memRead_apply (a n : Nat) (s : State) :
    memRead a n s = if a + n ≤ addrSpace then .ok (bytesAt s a n, s)
      else .error (.fault (.noSuchAddress (a + n - 1))) := rfl

theorem memWrite_apply (a : Nat) (bs : List Byte) (s : State) :
    memWrite a bs s = if a + bs.length ≤ addrSpace then .ok ((), { s with mem := memPutBytes s.mem a bs })
      else .error (.fault (.noSuchAddress (a + bs.length - 1))) := rfl

theorem dmaWrite_apply (a : Nat) (bs : List Byte) (s : State) :
    dmaWrite a bs s = if a + bs.length ≤ addrSpace then .ok ((), dmaPut a bs s)
      else .error (.fault (.noSuchAddress (a + bs.length - 1))) := rfl

theorem descRead_apply (a n : Nat) (s : State) :
    descRead a n s = if a + n ≤ addrSpace then .ok (bytesAt (atFence s) a n, s)
      else .error (.fault (.noSuchAddress (a + n - 1))) := rfl

theorem takeDescriptor_apply (a : Nat) (s : State) :
    takeDescriptor a s = if touchesSoftware s a descSize then
      .error (.ended { s with modelFault := some .ownershipViolation }) else .ok ((), s) := by
  simp only [takeDescriptor, bind_apply, get_apply, ite_apply, raiseModelFault_apply, pure_apply]

@[simp] theorem guardFault_none {α : Type} (m : M α) : guardFault none m = m := rfl

/-- A slot of the ring is guarded by its owner alone. -/
theorem txSlotFault_none {s : State} {i : Nat} (h : i < s.cfg.nTx) (off n : Nat) : txSlotFault s i off n = none :=
  if_pos h

/-- A draw answers some value and uses up one. -/
theorem draw_spec (w : Nat) (s : State) :
    ∃ v l, draw w s = .ok (v, { s with drawAns := l, draws := s.draws + 1 }) := by
  unfold draw
  split
  · exact ⟨_, _, rfl⟩
  · next h => exact ⟨_, s.drawAns, rfl⟩

/-- The bytes from `a` as the device may see them: each as it is, or as the device is sure to see it (R106, R113). -/
def MaySee (s : State) (a : Nat) (bs : List Byte) : Prop :=
  ∀ j < bs.length, bs[j]? = some (byteAt s (a + j)) ∨ bs[j]? = some (byteAt (atFence s) (a + j))

theorem MaySee.cons {s t : State} {a : Nat} {b : Byte} {bs : List Byte} (h : MaySee t (a + 1) bs)
    (hs : ∀ c, byteAt t c = byteAt s c) (hf : ∀ c, byteAt (atFence t) c = byteAt (atFence s) c)
    (hb : b = byteAt s a ∨ b = byteAt (atFence s) a) : MaySee s a (b :: bs) := by
  intro j hj
  cases j with
  | zero => simpa using hb
  | succ j =>
    have := h j (by simpa using hj)
    rw [hs, hf, show a + 1 + j = a + (j + 1) by omega] at this
    simpa using this

/-- One byte of a DMA read. -/
theorem dmaReadByte_spec (c : Nat) (s : State) : ∃ b l k,
    dmaReadByte c s = .ok (b, { s with drawAns := l, draws := k }) ∧ (b = byteAt s c ∨ b = byteAt (atFence s) c) := by
  by_cases h : memGet s.mem c = memGet s.fenced c
  · exact ⟨_, s.drawAns, s.draws, by simp [dmaReadByte, h], .inl rfl⟩
  · obtain ⟨v, l, hd⟩ := draw_spec 1 s
    refine ⟨if v = 1 then byteAt s c else byteAt (atFence s) c, l, s.draws + 1,
      by simp only [dmaReadByte, bind_apply, get_apply, h, if_false, hd, pure_apply], ?_⟩
    split
    · exact .inl rfl
    · exact .inr rfl

/-- A byte the device is sure to see. -/
theorem dmaReadByte_seen {c : Nat} {s : State} (h : memGet s.mem c = memGet s.fenced c) :
    dmaReadByte c s = .ok (byteAt s c, s) := by
  simp [dmaReadByte, h]

theorem dmaReadBytes_spec (n : Nat) : ∀ (a : Nat) (s : State), ∃ bs l k,
    dmaReadBytes n a s = .ok (bs, { s with drawAns := l, draws := k }) ∧ bs.length = n ∧ MaySee s a bs := by
  induction n with
  | zero => exact fun a s => ⟨[], s.drawAns, s.draws, rfl, rfl, fun j hj => absurd hj (Nat.not_lt_zero _)⟩
  | succ n ih =>
    intro a s
    obtain ⟨b, l, k, hb, hm⟩ := dmaReadByte_spec a s
    obtain ⟨bs, l', k', hbs, hl, hms⟩ := ih (a + 1) { s with drawAns := l, draws := k }
    refine ⟨b :: bs, l', k', ?_, by rw [List.length_cons, hl], hms.cons (fun _ => rfl) (fun _ => rfl) hm⟩
    simp only [dmaReadBytes, bind_apply, hb, hbs, pure_apply]

theorem dmaReadBytes_seen (n : Nat) : ∀ (a : Nat) (s : State),
    (∀ j < n, memGet s.mem (a + j) = memGet s.fenced (a + j)) → dmaReadBytes n a s = .ok (bytesAt s a n, s) := by
  induction n with
  | zero => exact fun a s _ => rfl
  | succ n ih =>
    intro a s h
    have h0 := dmaReadByte_seen (h 0 (Nat.succ_pos _))
    have h1 := ih (a + 1) s fun j hj => by
      rw [show a + 1 + j = a + (j + 1) by omega]; exact h (j + 1) (by omega)
    simp only [Nat.add_zero] at h0
    simp only [dmaReadBytes, bind_apply, h0, h1, pure_apply]
    rw [show bytesAt s a (n + 1) = byteAt s a :: bytesAt s (a + 1) n from ?_]
    simp [bytesAt, List.range_succ_eq_map, Function.comp_def, Nat.add_assoc, Nat.add_comm 1]

/-- A DMA read of bytes the device is sure to see is a plain read. -/
theorem dmaRead_seen {a n : Nat} {s : State} (h : seenByDevice s a n = true) : dmaRead a n s = memRead a n s := by
  have h' : ∀ j < n, memGet s.mem (a + j) = memGet s.fenced (a + j) := by
    simpa [seenByDevice, List.all_eq_true] using h
  unfold dmaRead
  rw [ite_apply, dmaReadBytes_seen n a s h', memRead_apply]
  rfl

/-- A DMA read answers each byte as it is or as the device is sure to see it, using up some free values. -/
theorem dmaRead_cases (a n : Nat) (s : State) :
    (a + n ≤ addrSpace ∧ ∃ bs l k, bs.length = n ∧ MaySee s a bs ∧
      dmaRead a n s = .ok (bs, { s with drawAns := l, draws := k })) ∨
    ∃ f, dmaRead a n s = .error (.fault f) := by
  unfold dmaRead
  by_cases hf : a + n ≤ addrSpace
  · obtain ⟨bs, l, k, h, hl, hm⟩ := dmaReadBytes_spec n a s
    exact .inl ⟨hf, bs, l, k, hl, hm, by rw [if_pos hf, h]⟩
  · exact .inr ⟨_, by rw [if_neg hf]; rfl⟩

@[simp] theorem outcomeOf_ok (u : Unit) (s : State) : outcomeOf (.ok (u, s)) = .next s := rfl
@[simp] theorem outcomeOf_ended (s : State) : outcomeOf (.error (.ended s)) = .next s := rfl
@[simp] theorem outcomeOf_fault (f : Fault) : outcomeOf (.error (.fault f)) = .fault f := rfl
@[simp] theorem outcomeOf_refused (r : Refusal) : outcomeOf (.error (.refused r)) = .refused r := rfl

/-- What `runOp` is where the block runs and the operands pass their checks. -/
theorem runOp_running {i : Instr} {m : M Unit} {s : State} (hh : s.halted = none)
    (hf : s.modelFault = none) (hw : malformed s.cfg i = none) : runOp i m s = outcomeOf (m s) := by
  simp [runOp, hh, hf, hw]

/-- What `runOp`'s next state comes from. -/
theorem runOp_next {i : Instr} {m : M Unit} {s t : State} (h : runOp i m s = .next t) :
    s.halted = none ∧ s.modelFault = none ∧ malformed s.cfg i = none ∧
      (m s = .ok ((), t) ∨ m s = .error (.ended t)) := by
  unfold runOp at h
  split at h
  · cases h
  · next hh =>
    split at h
    · cases h
    · next hf =>
      split at h
      · cases h
      · next hw =>
        refine ⟨hh, hf, hw, ?_⟩
        unfold outcomeOf at h
        split at h <;> cases h
        · left; assumption
        · right; assumption

end Sys2Proof.Machine
end

