-- ==== Sys2Proof/Laws/Memory.lean ====
section
/-! SUPPORT. Laws of memory: a read after a write, what a write leaves alone, and that every memory operation
keeps the canonical form. -/

namespace Sys2Proof.Machine

/-! ### Read after write -/

theorem memGet_memPut (m : List Host.Cell) (a : Nat) (b : Byte) (c : Nat) :
    memGet (memPut m a b) c = if c = a then some b else memGet m c := by
  induction m with
  | nil =>
    by_cases h : c = a <;> simp [memPut, memGet, h]
    exact fun h' => absurd h'.symm h
  | cons x m ih =>
    obtain ⟨x, v⟩ := x
    by_cases h1 : a < x
    · by_cases h : c = a
      · simp [memPut, memGet, h1, h]
      · have h' : ¬ a = c := fun e => h e.symm
        simp [memPut, memGet, h1, h, h']
    · by_cases h2 : a = x
      · subst h2
        by_cases h : c = a
        · simp [memPut, memGet, h]
        · have h' : ¬ a = c := fun e => h e.symm
          simp [memPut, memGet, h, h']
      · by_cases h3 : x = c
        · subst h3
          have h' : ¬ x = a := fun e => h2 e.symm
          simp [memPut, memGet, h1, h2, h']
        · simp [memPut, memGet, h1, h2, h3, ih]

theorem memGet_memPutBytes (bs : List Byte) : ∀ (m : List Host.Cell) (a c : Nat),
    memGet (memPutBytes m a bs) c =
      if a ≤ c ∧ c < a + bs.length then bs[c - a]? else memGet m c := by
  induction bs with
  | nil => intro m a c; rw [memPutBytes, if_neg (by simp)]
  | cons b bs ih =>
    intro m a c
    rw [memPutBytes, ih, memGet_memPut]
    by_cases h : c = a
    · subst h; simp
    · by_cases h2 : a + 1 ≤ c ∧ c < a + 1 + bs.length
      · have h3 : a ≤ c ∧ c < a + (b :: bs).length := by simp; omega
        rw [if_pos h2, if_pos h3]
        have : c - a = (c - (a + 1)) + 1 := by omega
        simp [this]
      · have h3 : ¬ (a ≤ c ∧ c < a + (b :: bs).length) := by simp; omega
        rw [if_neg h2, if_neg h3, if_neg h]

theorem memGet_memClear (m : List Host.Cell) (a n c : Nat) :
    memGet (memClear m a n) c = if a ≤ c ∧ c < a + n then none else memGet m c := by
  induction m with
  | nil => simp [memClear, memGet]
  | cons x m ih =>
    obtain ⟨x, v⟩ := x
    by_cases hx : x < a ∨ a + n ≤ x
    · have : memClear ((x, v) :: m) a n = (x, v) :: memClear m a n := by
        simp [memClear, hx]
      rw [this, memGet, memGet, ih]
      by_cases hc : x = c
      · subst hc; rw [if_pos rfl, if_neg (by omega), if_pos rfl]
      · simp [hc]
    · have : memClear ((x, v) :: m) a n = memClear m a n := by
        simp only [memClear, List.filter_cons]
        rw [if_neg (by simpa using hx)]
      rw [this, memGet, ih]
      by_cases hc : x = c
      · subst hc; rw [if_pos (by omega), if_pos (by omega)]
      · simp [hc]

theorem memGet_filter (p : Nat → Bool) (m : List Host.Cell) (c : Nat) :
    memGet (m.filter fun x => p x.1) c = if p c then memGet m c else none := by
  induction m with
  | nil => simp [memGet]
  | cons x m ih =>
    obtain ⟨x, v⟩ := x
    by_cases hx : p x = true
    · rw [List.filter_cons_of_pos (by simpa using hx), memGet, memGet, ih]
      by_cases hc : x = c
      · subst hc; simp [hx]
      · simp [hc]
    · rw [List.filter_cons_of_neg (by simpa using hx), ih, memGet]
      by_cases hc : x = c
      · subst hc; simp [hx]
      · simp [hc]

theorem memGet_foldr_memPut (l m : List Host.Cell) (c : Nat) :
    memGet (l.foldr (fun x m => memPut m x.1 x.2) m) c =
      match memGet l c with
      | some b => some b
      | none => memGet m c := by
  induction l with
  | nil => rfl
  | cons x l ih =>
    obtain ⟨x, v⟩ := x
    rw [List.foldr_cons, memGet_memPut, ih, memGet]
    by_cases hc : c = x
    · subst hc; simp
    · rw [if_neg hc, if_neg (fun e => hc e.symm)]

/-- What a byte is where the picked bytes stay as they were. -/
theorem memGet_memKeep (p : Nat → Bool) (old m : List Host.Cell) (c : Nat) :
    memGet (memKeep p old m) c = if p c then memGet old c else memGet m c := by
  rw [memKeep, memGet_foldr_memPut, memGet_filter p, memGet_filter fun x => !p x]
  cases p c <;> simp
  cases memGet old c <;> rfl

/-! ### The canonical form -/

theorem memPut_keys (m : List Host.Cell) (a : Nat) (b : Byte) (x : Nat)
    (h : x ∈ (memPut m a b).map Prod.fst) : x = a ∨ x ∈ m.map Prod.fst := by
  induction m with
  | nil => simpa [memPut] using h
  | cons c m ih =>
    obtain ⟨y, v⟩ := c
    unfold memPut at h
    split at h
    · simpa using h
    · split at h
      · next h2 => subst h2; simp at h ⊢; tauto
      · simp only [List.map_cons, List.mem_cons] at h ⊢
        rcases h with h | h
        · tauto
        · rcases ih h with h | h <;> tauto

theorem memPut_rising (m : List Host.Cell) (a : Nat) (b : Byte)
    (h : (m.map Prod.fst).Pairwise (· < ·)) : ((memPut m a b).map Prod.fst).Pairwise (· < ·) := by
  induction m with
  | nil => simp [memPut]
  | cons c m ih =>
    obtain ⟨y, v⟩ := c
    simp only [List.map_cons, List.pairwise_cons] at h
    unfold memPut
    split
    · next h1 =>
      simp only [List.map_cons, List.pairwise_cons, List.mem_cons]
      refine ⟨?_, h.1, h.2⟩
      rintro x (rfl | hx)
      · exact h1
      · exact Nat.lt_trans h1 (h.1 x hx)
    · split
      · next h2 =>
        subst h2
        simpa [List.pairwise_cons] using h
      · next h1 h2 =>
        simp only [List.map_cons, List.pairwise_cons]
        refine ⟨?_, ih h.2⟩
        intro x hx
        rcases memPut_keys m a b x hx with rfl | hx
        · omega
        · exact h.1 x hx

theorem Memory.wf_iff (m : List Host.Cell) :
    Memory.wf m = true ↔
      (m.map Prod.fst).Pairwise (· < ·) ∧ ∀ x ∈ m.map Prod.fst, x < addrSpace := by
  simp [Memory.wf, List.all_eq_true]

theorem memPut_wf {m : List Host.Cell} {a : Nat} (b : Byte) (h : Memory.wf m = true)
    (ha : a < addrSpace) : Memory.wf (memPut m a b) = true := by
  rw [Memory.wf_iff] at h ⊢
  refine ⟨memPut_rising m a b h.1, fun x hx => ?_⟩
  rcases memPut_keys m a b x hx with rfl | hx
  · exact ha
  · exact h.2 x hx

/-- `MemWrite` inside the address space keeps the canonical form. -/
theorem memPutBytes_wf (bs : List Byte) : ∀ {m : List Host.Cell} {a : Nat}, Memory.wf m = true →
    a + bs.length ≤ addrSpace → Memory.wf (memPutBytes m a bs) = true := by
  induction bs with
  | nil => intro m a h _; exact h
  | cons b bs ih =>
    intro m a h ha
    simp only [List.length_cons] at ha
    exact ih (memPut_wf b h (by omega)) (by omega)

/-- Forgetting a region keeps the canonical form. -/
theorem memClear_wf {m : List Host.Cell} (a n : Nat) (h : Memory.wf m = true) :
    Memory.wf (memClear m a n) = true := by
  rw [Memory.wf_iff] at h ⊢
  have hs : ((memClear m a n).map Prod.fst).Sublist (m.map Prod.fst) :=
    (List.filter_sublist).map _
  exact ⟨h.1.sublist hs, fun x hx => h.2 x (hs.subset hx)⟩

theorem filter_wf {m : List Host.Cell} (p : Host.Cell → Bool) (h : Memory.wf m = true) :
    Memory.wf (m.filter p) = true := by
  rw [Memory.wf_iff] at h ⊢
  have hs : ((m.filter p).map Prod.fst).Sublist (m.map Prod.fst) := List.filter_sublist.map _
  exact ⟨h.1.sublist hs, fun x hx => h.2 x (hs.subset hx)⟩

/-- Keeping some bytes of another canonical memory keeps the canonical form. -/
theorem memKeep_wf (p : Nat → Bool) {old m : List Host.Cell} (ho : Memory.wf old = true)
    (h : Memory.wf m = true) : Memory.wf (memKeep p old m) = true := by
  have hb : ∀ c ∈ old.filter (fun c => p c.1), c.1 < addrSpace := fun c hc =>
    ((Memory.wf_iff _).1 ho).2 _ (List.mem_map_of_mem (List.mem_of_mem_filter hc))
  unfold memKeep
  revert hb
  generalize old.filter (fun c => p c.1) = l
  intro hb
  induction l with
  | nil => exact filter_wf _ h
  | cons c l ih =>
    exact memPut_wf _ (ih fun x hx => hb x (List.mem_cons_of_mem _ hx)) (hb c List.mem_cons_self)

theorem reset_memory_wf : Memory.wf State.reset.mem = true := by decide

/-! ### Bytes as the state reads them -/

/-- Two regions share no byte exactly where one ends before the other begins. -/
theorem overlaps_eq_false (a n b m : Nat) : overlaps a n b m = false ↔ b + m ≤ a ∨ a + n ≤ b := by
  simp only [overlaps, Bool.and_eq_false_iff, decide_eq_false_iff_not, Nat.not_lt]

theorem overlaps_false {a n b m : Nat} (h : overlaps a n b m = false) : b + m ≤ a ∨ a + n ≤ b :=
  (overlaps_eq_false a n b m).1 h

theorem overlaps_true {a n b m : Nat} (h : overlaps a n b m = true) : a < b + m ∧ b < a + n := by
  simpa [overlaps] using h

/-- A byte depends on memory and on the ownership map's regions alone. -/
theorem byteAt_congr {s t : State} {a : Nat} (hm : memGet t.mem a = memGet s.mem a)
    (he : epochAt t a = epochAt s a) : byteAt t a = byteAt s a := by
  simp [byteAt, hm, he]

theorem bufAt_setOwner (s : State) (b : Addr) (o : Owner) (a : Nat) :
    bufAt (setOwner b o s) a =
      (bufAt s a).map (fun r => if r.base = b then { r with owner := o } else r) := by
  simp only [bufAt, setOwner_bufs, setOwner_cfg, List.find?_map]
  congr 1
  congr 1
  funext r
  simp only [Function.comp]
  split <;> rfl

@[simp] theorem epochAt_setOwner (s : State) (b : Addr) (o : Owner) (a : Nat) :
    epochAt (setOwner b o s) a = epochAt s a := by
  unfold epochAt
  rw [bufAt_setOwner]
  cases bufAt s a with
  | none => rfl
  | some r => simp only [Option.map_some]; split <;> rfl

@[simp] theorem epochAt_releaseState (s : State) (b : Addr) (a : Nat) :
    epochAt (releaseState b s) a = epochAt s a :=
  epochAt_setOwner s b .allocator a

/-- A change of owner changes no byte. -/
@[simp] theorem byteAt_setOwner (s : State) (b : Addr) (o : Owner) (a : Nat) :
    byteAt (setOwner b o s) a = byteAt s a :=
  byteAt_congr rfl (epochAt_setOwner s b o a)

/-- A release changes no byte. -/
@[simp] theorem byteAt_releaseState (s : State) (b : Addr) (a : Nat) :
    byteAt (releaseState b s) a = byteAt s a :=
  byteAt_setOwner s b .allocator a

/-- A byte after `MemWrite`. -/
theorem byteAt_memPutBytes (s : State) (a : Nat) (bs : List Byte) (c : Nat) :
    byteAt { s with mem := memPutBytes s.mem a bs } c =
      if a ≤ c ∧ c < a + bs.length then bs.getD (c - a) 0 else byteAt s c := by
  unfold byteAt
  simp only [memGet_memPutBytes]
  by_cases h : a ≤ c ∧ c < a + bs.length
  · have hlt : c - a < bs.length := by omega
    simp [h, hlt]
  · rw [if_neg h, if_neg h]; rfl

/-- `MemWrite` leaves every byte outside its range alone. -/
theorem byteAt_memPutBytes_outside (s : State) (a : Nat) (bs : List Byte) (c : Nat)
    (h : c < a ∨ a + bs.length ≤ c) :
    byteAt { s with mem := memPutBytes s.mem a bs } c = byteAt s c := by
  rw [byteAt_memPutBytes, if_neg (by omega)]

/-- A read gives back what the write before it wrote. -/
theorem bytesAt_memPutBytes_same (s : State) (a : Nat) (bs : List Byte) :
    bytesAt { s with mem := memPutBytes s.mem a bs } a bs.length = bs := by
  apply List.ext_getElem
  · simp [bytesAt]
  · intro i h1 h2
    simp only [bytesAt, List.getElem_map, List.getElem_range]
    rw [byteAt_memPutBytes, if_pos (by omega)]
    simp [h2]

theorem bytesAt_length (s : State) (a n : Nat) : (bytesAt s a n).length = n := by simp [bytesAt]

/-- A read depends on the bytes of its range alone. -/
theorem bytesAt_congr {s t : State} {a n : Nat} (h : ∀ c, a ≤ c → c < a + n → byteAt t c = byteAt s c) :
    bytesAt t a n = bytesAt s a n := by
  apply List.map_congr_left
  intro j hj
  exact h _ (by omega) (by simp at hj; omega)

/-- A device write changes bytes as a write of software does. -/
theorem byteAt_dmaPut (s : State) (a : Nat) (bs : List Byte) (c : Nat) :
    byteAt (dmaPut a bs s) c = if a ≤ c ∧ c < a + bs.length then bs.getD (c - a) 0 else byteAt s c :=
  byteAt_memPutBytes s a bs c

/-! ### What the device sees -/

theorem seenByDevice_iff (s : State) (a n : Nat) : seenByDevice s a n = true ↔ DeviceSees s a n := by
  simp only [seenByDevice, DeviceSees, List.all_eq_true, List.mem_range, beq_iff_eq]
  constructor
  · intro h c h1 h2
    have := h (c - a) (by omega)
    rwa [Nat.add_sub_cancel' h1] at this
  · intro h j hj
    exact h _ (by omega) (by omega)

/-- A part of what the device sees it sees. -/
theorem DeviceSees.part {s : State} {a n b m : Nat} (h : DeviceSees s a n) (h1 : a ≤ b) (h2 : b + m ≤ a + n) :
    DeviceSees s b m := fun c c1 c2 => h c (by omega) (by omega)

/-- After a FENCE the device sees every byte outside its slots, and in them what it saw before. -/
theorem DeviceSees.fence {s : State} {a n : Nat}
    (h : ∀ c, a ≤ c → c < a + n → inDeviceSlot s c = true → memGet s.mem c = memGet s.fenced c) :
    DeviceSees (fenceState s) a n := by
  intro c h1 h2
  rw [fenceState_mem, fenceState_fenced, memGet_memKeep]
  split
  · next hc => exact h c h1 h2 hc
  · rfl

/-- What the device saw before a FENCE it sees after it. -/
theorem DeviceSees.fenceState {s : State} {a n : Nat} (h : DeviceSees s a n) : DeviceSees (fenceState s) a n :=
  .fence fun c h1 h2 _ => h c h1 h2

/-- A descriptor the device sees it reads as software wrote it (spec/20_memory.md R107, R108). -/
theorem DeviceSees.bytesAt {s : State} {a n : Nat} (h : DeviceSees s a n) :
    bytesAt (atFence s) a n = Machine.bytesAt s a n :=
  bytesAt_congr fun c h1 h2 => byteAt_congr (h c h1 h2).symm rfl

/-- The device's own writes hide nothing from it. -/
theorem DeviceSees.dmaPut {s : State} {a n : Nat} (h : DeviceSees s a n) (b : Nat) (bs : List Byte) :
    DeviceSees (dmaPut b bs s) a n := by
  intro c h1 h2
  rw [dmaPut_mem, dmaPut_fenced, memGet_memPutBytes, memGet_memPutBytes, h c h1 h2]

/-- What software writes elsewhere hides nothing. -/
theorem DeviceSees.memPut {s : State} {a n : Nat} (h : DeviceSees s a n) {b : Nat} {bs : List Byte}
    (hd : a + n ≤ b ∨ b + bs.length ≤ a) : DeviceSees { s with mem := memPutBytes s.mem b bs } a n := by
  intro c h1 h2
  show memGet (memPutBytes s.mem b bs) c = memGet s.fenced c
  rw [memGet_memPutBytes, if_neg (by omega), h c h1 h2]

theorem DeviceSees.congr {s t : State} {a n : Nat} (h : DeviceSees s a n) (hm : t.mem = s.mem)
    (hf : t.fenced = s.fenced) : DeviceSees t a n := by
  intro c h1 h2
  rw [hm, hf, h c h1 h2]

theorem touchesSoftware_iff (s : State) (a : Nat) :
    touchesSoftware s a descSize = false ↔ DeviceMayTouch s a descSize := by
  simp only [touchesSoftware, Bool.or_eq_false_iff, List.any_eq_false, List.mem_range, Bool.and_eq_true,
    Bool.not_eq_true', not_and, Bool.not_eq_false]
  exact ⟨fun ⟨⟨h1, h2⟩, h3⟩ => ⟨h1, h2, h3⟩, fun ⟨h1, h2, h3⟩ => ⟨⟨h1, h2⟩, h3⟩⟩

theorem devReads_iff (s : State) (a n : Nat) : devReads s a n = true ↔ DeviceReads s a n := by
  simp only [devReads, DeviceReads, txHolds, List.any_eq_true, Bool.and_eq_true, Bool.or_eq_true, decide_eq_true_eq,
    List.mem_range, beq_iff_eq, and_assoc]
  refine or_congr_right ?_
  refine exists_congr fun r => and_congr_right fun _ => and_congr_right fun _ => and_congr_left fun _ => ?_
  exact exists_congr fun i => ⟨fun h => h.2, fun h => ⟨by simpa [devOwnsTx] using (Bool.and_eq_true_iff.1 h.1).1, h⟩⟩

/-- What one FENCE since `s`, and an allocation of the `n` bytes from `a` before it, leave seen. -/
theorem FenceSeen.of_memKeep {s t : State} {old : List Host.Cell} {a n : Nat}
    (h : t.fenced = memKeep (inDeviceSlot s) old t.mem)
    (ho : ∀ c, c < a ∨ a + n ≤ c → memGet old c = memGet s.fenced c) : FenceSeen s t a n := by
  intro c
  rw [h, memGet_memKeep]
  refine ⟨fun hc => by rw [if_neg (by simp [hc])], fun hc hx => by rw [if_pos hc, ho c hx]⟩

/-- `u`'s memory is `s`'s with `bs` written from `a` on, over the same buffers. -/
structure Wrote (a : Nat) (bs : List Byte) (s u : State) : Prop where
  mem : u.mem = memPutBytes s.mem a bs
  bufs : u.bufs = s.bufs
  cfg : u.cfg = s.cfg

theorem Wrote.byteAt_outside {a : Nat} {bs : List Byte} {s u : State} (h : Wrote a bs s u) {c : Nat}
    (hc : c < a ∨ a + bs.length ≤ c) : byteAt u c = byteAt s c := by
  refine byteAt_congr ?_ ?_
  · rw [h.mem, memGet_memPutBytes, if_neg (by omega)]
  · simp [epochAt, bufAt, h.bufs, h.cfg]

theorem Wrote.bytesAt {a : Nat} {bs : List Byte} {s u : State} (h : Wrote a bs s u) :
    bytesAt u a bs.length = bs := by
  apply List.ext_getElem
  · simp [Machine.bytesAt]
  · intro i h1 h2
    simp only [Machine.bytesAt, List.getElem_map, List.getElem_range, byteAt, h.mem, memGet_memPutBytes]
    rw [if_pos (by omega), Nat.add_sub_cancel_left, List.getElem?_eq_getElem h2]

end Sys2Proof.Machine
end

