-- ==== Sys2Proof/Laws/Bytes.lean ====
section
/-! SUPPORT. Bytes and fields: lengths, little- and big-endian round trips, the descriptors' bytes, and reading
part of a byte range. -/

namespace Sys2Proof.Machine

@[simp] theorem leBytes_length (n v : Nat) : (leBytes n v).length = n := by
  induction n generalizing v with
  | zero => rfl
  | succ n ih => simp [leBytes, ih]

theorem leNat_leBytes (n v : Nat) : leNat (leBytes n v) = v % 256 ^ n := by
  induction n generalizing v with
  | zero => simp [leBytes, leNat, Nat.mod_one]
  | succ n ih =>
    simp only [leBytes, leNat, ih, BitVec.toNat_ofNat, Nat.reducePow]
    rw [show 256 ^ (n + 1) = 256 * 256 ^ n by ring, Nat.mod_mul]

@[simp] theorem be16Bytes_length (v : Half) : (be16Bytes v).length = 2 := rfl
@[simp] theorem be32Bytes_length (v : Word) : (be32Bytes v).length = 4 := rfl
@[simp] theorem Mac.bytes_length (m : Mac) : m.bytes.length = 6 := rfl
@[simp] theorem txDescBytes_length (d : TxDesc) : (txDescBytes d).length = 16 := by simp [txDescBytes]
@[simp] theorem rxDescBytes_length (d : RxDesc) : (rxDescBytes d).length = 16 := by simp [rxDescBytes]

theorem ofNat_leNat_leBytes {w n : Nat} (h : w = 8 * n) (v : BitVec w) :
    BitVec.ofNat w (leNat (leBytes n v.toNat)) = v := by
  subst h
  rw [leNat_leBytes, show 256 ^ n = 2 ^ (8 * n) by rw [Nat.pow_mul]]
  rw [Nat.mod_eq_of_lt v.isLt]
  simp

theorem be16_be16Bytes (v : Half) : be16 (be16Bytes v) = v := by
  simp only [be16, be16Bytes, beNat]
  apply BitVec.eq_of_toNat_eq
  have := v.isLt
  simp [BitVec.extractLsb'_toNat, Nat.shiftRight_eq_div_pow] at *
  omega

theorem be32_be32Bytes (v : Word) : be32 (be32Bytes v) = v := by
  simp only [be32, be32Bytes, beNat]
  apply BitVec.eq_of_toNat_eq
  have := v.isLt
  simp [BitVec.extractLsb'_toNat, Nat.shiftRight_eq_div_pow] at *
  omega

theorem drop_append_ge {α : Type} (a b : List α) {n : Nat} (h : a.length ≤ n) :
    (a ++ b).drop n = b.drop (n - a.length) := by
  rw [List.drop_append, List.drop_of_length_le h, List.nil_append]

/-- The bytes of a transmit descriptor read back as the descriptor. -/
@[simp] theorem txDescOf_txDescBytes (d : TxDesc) : txDescOf (txDescBytes d) = d := by
  obtain ⟨addr, length, cso, cmd, status, css, special⟩ := d
  simp only [txDescOf, txDescBytes, List.append_assoc, TxDesc.mk.injEq]
  refine ⟨?_, ?_, ?_, ?_, ?_, ?_, ?_⟩
  · rw [List.take_append_of_le_length (by simp), List.take_of_length_le (by simp)]
    exact ofNat_leNat_leBytes (n := 8) rfl addr
  · rw [List.drop_append_of_le_length (by simp), List.drop_of_length_le (by simp), List.nil_append,
      List.take_append_of_le_length (by simp), List.take_of_length_le (by simp)]
    exact ofNat_leNat_leBytes (n := 2) rfl length
  · simp
  · simp
  · simp
  · simp
  · rw [drop_append_ge _ _ (by simp), drop_append_ge _ _ (by simp), drop_append_ge _ _ (by simp)]
    simp only [leBytes_length, List.length_cons, List.length_nil, Nat.reduceAdd, Nat.reduceSub, List.drop_zero]
    rw [List.take_of_length_le (by simp)]
    exact ofNat_leNat_leBytes (n := 2) rfl special

/-- The bytes of a receive descriptor read back as the descriptor. -/
@[simp] theorem rxDescOf_rxDescBytes (d : RxDesc) : rxDescOf (rxDescBytes d) = d := by
  obtain ⟨addr, length, csum, status, errors, special⟩ := d
  simp only [rxDescOf, rxDescBytes, List.append_assoc, RxDesc.mk.injEq]
  refine ⟨?_, ?_, ?_, ?_, ?_, ?_⟩
  · rw [List.take_append_of_le_length (by simp), List.take_of_length_le (by simp)]
    exact ofNat_leNat_leBytes (n := 8) rfl addr
  · rw [List.drop_append_of_le_length (by simp), List.drop_of_length_le (by simp), List.nil_append,
      List.take_append_of_le_length (by simp), List.take_of_length_le (by simp)]
    exact ofNat_leNat_leBytes (n := 2) rfl length
  · rw [drop_append_ge _ _ (by simp), drop_append_ge _ _ (by simp)]
    simp only [leBytes_length, Nat.reduceSub, List.drop_zero]
    rw [List.take_append_of_le_length (by simp), List.take_of_length_le (by simp)]
    exact ofNat_leNat_leBytes (n := 2) rfl csum
  · simp
  · simp
  · rw [drop_append_ge _ _ (by simp), drop_append_ge _ _ (by simp), drop_append_ge _ _ (by simp),
      drop_append_ge _ _ (by simp)]
    simp only [leBytes_length, List.length_cons, List.length_nil, Nat.reduceAdd, Nat.reduceSub, List.drop_zero]
    rw [List.take_of_length_le (by simp)]
    exact ofNat_leNat_leBytes (n := 2) rfl special

/-! ### Parts of a range -/

theorem bytesAt_getElem (s : State) (a n j : Nat) (h : j < (bytesAt s a n).length) :
    (bytesAt s a n)[j] = byteAt s (a + j) := by
  simp [bytesAt]

theorem bytesAt_getD (s : State) (a n j : Nat) (h : j < n) : (bytesAt s a n).getD j 0 = byteAt s (a + j) := by
  simp [bytesAt, List.getD, h]

theorem bytesAt_slice (s : State) (a n j k : Nat) (h : j + k ≤ n) :
    ((bytesAt s a n).drop j).take k = bytesAt s (a + j) k := by
  apply List.ext_getElem
  · simp [bytesAt]; omega
  · intro i h1 h2
    simp [bytesAt, Nat.add_assoc]

theorem bytesAt_take (s : State) (a n k : Nat) (h : k ≤ n) : (bytesAt s a n).take k = bytesAt s a k := by
  simpa using bytesAt_slice s a n 0 k (by omega)

/-- A read of exactly the bytes a range holds. -/
theorem bytesAt_eq_of {s : State} {a : Nat} {bs : List Byte}
    (h : ∀ j, (hj : j < bs.length) → byteAt s (a + j) = bs[j]) : bytesAt s a bs.length = bs := by
  apply List.ext_getElem
  · simp [bytesAt]
  · intro i h1 h2
    rw [bytesAt_getElem]
    exact h i h2

/-- The transmit descriptor a slot's bytes hold. -/
theorem txd_of_bytes {s : State} {i : Nat} {d : TxDesc} (h : bytesAt s (txdAddr s i) 16 = txDescBytes d) :
    txd s i = d := by
  unfold txd descSize
  rw [h, txDescOf_txDescBytes]

/-- The receive descriptor a slot's bytes hold. -/
theorem rxd_of_bytes {s : State} {i : Nat} {d : RxDesc} (h : bytesAt s (rxdAddr s i) 16 = rxDescBytes d) :
    rxd s i = d := by
  unfold rxd descSize
  rw [h, rxDescOf_rxDescBytes]

/-- The status byte of a transmit descriptor stands at offset 12. -/
theorem txd_status (s : State) (i : Nat) : (txd s i).status = byteAt s (txdAddr s i + offStatus) :=
  bytesAt_getD s _ 16 12 (by decide)

/-- The status byte of a receive descriptor stands at offset 12. -/
theorem rxd_status (s : State) (i : Nat) : (rxd s i).status = byteAt s (rxdAddr s i + offStatus) :=
  bytesAt_getD s _ 16 12 (by decide)

/-- The address field of a receive descriptor. -/
theorem rxd_addr (s : State) (i : Nat) :
    (rxd s i).addr = BitVec.ofNat 64 (leNat (bytesAt s (rxdAddr s i) 8)) :=
  congrArg (fun l => BitVec.ofNat 64 (leNat l)) (bytesAt_take s (rxdAddr s i) 16 8 (by omega))

/-- The length field of a receive descriptor. -/
theorem rxd_length (s : State) (i : Nat) :
    (rxd s i).length = BitVec.ofNat 16 (leNat (bytesAt s (rxdAddr s i + 8) 2)) :=
  congrArg (fun l => BitVec.ofNat 16 (leNat l)) (bytesAt_slice s (rxdAddr s i) 16 8 2 (by omega))

/-- A receive descriptor is what its 16 bytes say. -/
theorem rxd_congr {s u : State} {i : Nat} (ha : rxdAddr u i = rxdAddr s i)
    (h : ∀ c, rxdAddr s i ≤ c → c < rxdAddr s i + 16 → byteAt u c = byteAt s c) : rxd u i = rxd s i := by
  have hb : bytesAt u (rxdAddr s i) descSize = bytesAt s (rxdAddr s i) descSize := bytesAt_congr h
  unfold rxd
  rw [ha, hb]

/-- A transmit descriptor is what its 16 bytes say. -/
theorem txd_congr {s u : State} {i : Nat} (ha : txdAddr u i = txdAddr s i)
    (h : ∀ c, txdAddr s i ≤ c → c < txdAddr s i + 16 → byteAt u c = byteAt s c) : txd u i = txd s i := by
  have hb : bytesAt u (txdAddr s i) descSize = bytesAt s (txdAddr s i) descSize := bytesAt_congr h
  unfold txd
  rw [ha, hb]

end Sys2Proof.Machine
end

