-- ==== Sys2Proof/Laws/Trace.lean ====
section
/-! SUPPORT. What a step can do, said once: every operation is a trace of small updates, each of a named kind,
and `exec_trace` and `step_trace` say which kinds each operation is made of. An invariant that every kind keeps
holds after every step, and a field no kind of an operation writes is unchanged by it. -/

namespace Sys2Proof.Machine

/-- The kinds of update an operation is made of. -/
inductive Kind where
  | dev | mem | dma | fence | event | result | draw | alloc | owner | release | txOwner | txNone | rxOwner | arp
  | fatal (c : FatalCause)
  | fault | sw | lock | portq | sched | initBegin | initDone | irqEntry
deriving DecidableEq, Repr

/-- One update of the state. -/
inductive Micro : Kind → State → State → Prop where
  | dev (d : DevRegs) (s : State) : Micro .dev s (setDev d s)
  | mem (a : Nat) (bs : List Byte) (s : State) (h : a + bs.length ≤ addrSpace) :
      Micro .mem s { s with mem := memPutBytes s.mem a bs }
  | dma (a : Nat) (bs : List Byte) (s : State) (h : a + bs.length ≤ addrSpace) : Micro .dma s (dmaPut a bs s)
  | fence (s : State) : Micro .fence s (fenceState s)
  | event (e : Event) (s : State) : Micro .event s { s with events := s.events ++ [e] }
  | result (r : OpResult) (s : State) : Micro .result s { s with results := s.results ++ [r] }
  | draw (d : List (BitVec 64)) (a : List (Option Addr)) (c : List Bool) (n : Nat) (s : State) :
      Micro .draw s { s with drawAns := d, allocAns := a, copyAns := c, draws := n }
  | alloc (b : Addr) (who : Owner) (s : State) (h : allocOk s b = true) :
      Micro .alloc s (allocState b who s)
  | owner (b : Addr) (o : Owner) (s : State) (h : o ≠ .rxPath ∧ o ≠ .device) : Micro .owner s (setOwner b o s)
  | release (b : Addr) (s : State) : Micro .release s (releaseState b s)
  | txOwner (i : Nat) (b : Addr) (s : State) :
      Micro .txOwner s { s with txOwner := s.txOwner.set i (some b) }
  | txNone (i : Nat) (s : State) : Micro .txNone s { s with txOwner := s.txOwner.set i none }
  | rxOwner (i : Nat) (v : Addr) (s : State) : Micro .rxOwner s { s with rxOwner := s.rxOwner.set i v }
  | arp (s : State) : Micro .arp s { s with arpSeen := true }
  | fatal (c : FatalCause) (w : Word) (s : State) :
      Micro (.fatal c) s { s with halted := some c, fatalInfo := w, events := s.events ++ [.halt c] }
  | fault (f : ModelFault) (s : State) : Micro .fault s { s with modelFault := some f }
  | sw (p : SwSeq) (s : State) : Micro .sw s { s with sw := p }
  | lock (l : List Lock) (s : State) : Micro .lock s { s with locks := l }
  | portq (q : Nat) (e : Queue) (s : State) : Micro .portq s { s with portq := s.portq.set q e }
  | sched (s : State) : Micro .sched s { s with sched := s.sched.tail }
  | initBegin (rb tb xb : Addr) (s : State) (h : s.initPhase = .notIssued) :
      Micro .initBegin s
        { s with initPhase := .running, registerBase := rb, txRingBase := tb, rxRingBase := xb }
  | initDone (s : State) : Micro .initDone s { s with sw := .idle, initPhase := .done }
  | irqEntry (s : State) : Micro .irqEntry s { s with irqHeld := false, sw := .irqI1 }

/-- Any number of updates of the kinds listed. -/
def Trace (ks : List Kind) : State → State → Prop :=
  Relation.ReflTransGen fun s t => ∃ k ∈ ks, Micro k s t

theorem Trace.refl (ks : List Kind) (s : State) : Trace ks s s := Relation.ReflTransGen.refl

theorem Trace.one {ks : List Kind} {k : Kind} {s t : State} (h : Micro k s t) (hk : k ∈ ks) :
    Trace ks s t := Relation.ReflTransGen.single ⟨k, hk, h⟩

theorem Trace.trans {ks : List Kind} {s t u : State} (h : Trace ks s t) (h' : Trace ks t u) :
    Trace ks s u := Relation.ReflTransGen.trans h h'

theorem Trace.mono {ks ks' : List Kind} {s t : State} (h : Trace ks s t) (hk : ks ⊆ ks') :
    Trace ks' s t := by
  induction h with
  | refl => exact .refl _ _
  | tail _ hs ih => obtain ⟨k, hm, h⟩ := hs; exact Relation.ReflTransGen.tail ih ⟨k, hk hm, h⟩

/-- A relation to the start that every listed kind of update keeps holds along the trace. -/
theorem Trace.keeps {ks : List Kind} {s t : State} (h : Trace ks s t) (P : State → Prop)
    (hP : ∀ k ∈ ks, ∀ u v, Micro k u v → P u → P v) (h0 : P s) : P t := by
  induction h with
  | refl => exact h0
  | tail _ hs ih => obtain ⟨k, hk, hm⟩ := hs; exact hP k hk _ _ hm ih

/-- Where no device event is scheduled, none is scheduled afterwards. -/
theorem Trace.sched {ks : List Kind} {s t : State} (h : Trace ks s t) (hs : s.sched = []) : t.sched = [] :=
  h.keeps (·.sched = []) (fun _ _ u v hm hu => by cases hm <;> simp_all [releaseState]) hs

/-- An operation is a trace of the kinds listed, whether it returns or ends. -/
def Traces (ks : List Kind) {α : Type} (m : M α) : Prop := ∀ s,
  (∀ a t, m s = .ok (a, t) → Trace ks s t) ∧ (∀ t, m s = .error (.ended t) → Trace ks s t)

namespace Traces

variable {ks ks' : List Kind} {α β : Type}

theorem mono {m : M α} (h : Traces ks m) (hk : ks ⊆ ks') : Traces ks' m := fun s =>
  ⟨fun a t e => ((h s).1 a t e).mono hk, fun t e => ((h s).2 t e).mono hk⟩

theorem pure (a : α) : Traces ks (Pure.pure a : M α) := fun s =>
  ⟨fun _ t e => by cases e; exact .refl _ _, fun t e => by cases e⟩

theorem get : Traces ks (MonadState.get : M State) := fun s =>
  ⟨fun _ t e => by cases e; exact .refl _ _, fun t e => by cases e⟩

theorem refuse (r : Refusal) : Traces ks (Machine.refuse r : M α) := fun s =>
  ⟨fun _ t e => (by cases e), fun t e => by cases e⟩

theorem bind {m : M α} {f : α → M β} (hm : Traces ks m) (hf : ∀ a, Traces ks (f a)) :
    Traces ks (m >>= f) := fun s => by
  have h := hm s
  constructor
  · intro b u e
    rw [bind_apply] at e
    split at e
    · next a t ht => exact (h.1 a t ht).trans ((hf a t).1 b u e)
    · cases e
  · intro u e
    rw [bind_apply] at e
    split at e
    · next a t ht => exact (h.1 a t ht).trans ((hf a t).2 u e)
    · next x hx => cases e; exact h.2 u hx

/-- Where the next part is chosen from the state as it is. -/
theorem get_bind {f : State → M β} (hf : ∀ s, (∀ a t, f s s = .ok (a, t) → Trace ks s t) ∧
    (∀ t, f s s = .error (.ended t) → Trace ks s t)) : Traces ks (MonadState.get >>= f) := fun s => by
  simpa only [bind_apply, get_apply] using hf s

theorem ite {c : Prop} [Decidable c] {x y : M α} (hx : Traces ks x) (hy : Traces ks y) :
    Traces ks (if c then x else y) := by split <;> assumption

theorem require (c : Bool) (r : Refusal) : Traces ks (Machine.require c r) := by
  unfold Machine.require
  exact ite (pure _) (refuse r)

theorem whenever (c : Bool) {m : M Unit} (h : Traces ks m) : Traces ks (Machine.whenever c m) := by
  unfold Machine.whenever
  exact ite h (pure _)

theorem update {f : State → State} (h : ∀ s, Trace ks s (f s)) : Traces ks (Machine.update f) := fun s =>
  ⟨fun _ t e => by cases e; exact h s, fun t e => by cases e⟩

theorem update_one {f : State → State} {k : Kind} (hk : k ∈ ks) (h : ∀ s, Micro k s (f s)) :
    Traces ks (Machine.update f) := update fun s => .one (h s) hk

theorem modelFault (hk : Kind.fault ∈ ks) (f : ModelFault) : Traces ks (raiseModelFault f : M α) :=
  fun s => ⟨fun _ t e => (by cases e), fun t e => by cases e; exact .one (.fault f s) hk⟩

theorem fatal {c : FatalCause} (hk : Kind.fatal c ∈ ks) (i : Nat) : Traces ks (raiseFatal c i : M α) :=
  fun s => ⟨fun _ t e => (by cases e), fun t e => by cases e; exact .one (.fatal c _ s) hk⟩

theorem emit (hk : Kind.event ∈ ks) (e : Event) : Traces ks (Machine.emit e) :=
  update_one hk fun s => .event e s

theorem answer (hk : Kind.result ∈ ks) (r : OpResult) : Traces ks (Machine.answer r) :=
  update_one hk fun s => .result r s

theorem draw (hk : Kind.draw ∈ ks) (w : Nat) : Traces ks (Machine.draw w) := fun s => by
  obtain ⟨v, l, h⟩ := draw_spec w s
  rw [h]
  exact ⟨fun _ t e => by cases e; exact .one (.draw _ _ _ _ _) hk, fun t e => by cases e⟩

theorem memRead (a n : Nat) : Traces ks (Machine.memRead a n) := fun s => by
  rw [memRead_apply]
  split
  · exact ⟨fun _ t e => by cases e; exact .refl _ _, fun t e => by cases e⟩
  · exact ⟨fun _ t e => (by cases e), fun t e => by cases e⟩

theorem memWrite (hk : Kind.mem ∈ ks) (a : Nat) (bs : List Byte) : Traces ks (Machine.memWrite a bs) :=
  fun s => by
    rw [memWrite_apply]
    split
    · next h => exact ⟨fun _ t e => by cases e; exact .one (.mem a bs s h) hk, fun t e => by cases e⟩
    · exact ⟨fun _ t e => (by cases e), fun t e => by cases e⟩

theorem stopFault (f : Fault) : Traces ks (Machine.stopFault f : M α) := fun s =>
  ⟨fun _ t e => (by cases e), fun t e => by cases e⟩

theorem dmaReadBytes (hk : Kind.draw ∈ ks) (n : Nat) : ∀ a, Traces ks (Machine.dmaReadBytes n a) := by
  induction n with
  | zero => exact fun _ => pure _
  | succ n ih =>
    exact fun a => bind (bind get fun _ => ite (pure _) (bind (draw hk 1) fun _ => pure _)) fun _ =>
      bind (ih _) fun _ => pure _

theorem dmaRead (hk : Kind.draw ∈ ks) (a n : Nat) : Traces ks (Machine.dmaRead a n) :=
  ite (dmaReadBytes hk n a) (stopFault _)

theorem descRead (a n : Nat) : Traces ks (Machine.descRead a n) := fun s => by
  rw [descRead_apply]
  split
  · exact ⟨fun _ t e => by cases e; exact .refl _ _, fun t e => by cases e⟩
  · exact ⟨fun _ t e => (by cases e), fun t e => by cases e⟩

theorem takeDescriptor (hk : Kind.fault ∈ ks) (a : Nat) : Traces ks (Machine.takeDescriptor a) :=
  bind get fun _ => ite (modelFault hk _) (pure _)

theorem guardFault (hk : Kind.fault ∈ ks) (f : Option ModelFault) {m : M α} (h : Traces ks m) :
    Traces ks (Machine.guardFault f m) := by
  cases f with
  | none => exact h
  | some f => exact modelFault hk f

theorem dmaWrite (hk : Kind.dma ∈ ks) (a : Nat) (bs : List Byte) : Traces ks (Machine.dmaWrite a bs) :=
  fun s => by
    rw [dmaWrite_apply]
    split
    · next h => exact ⟨fun _ t e => by cases e; exact .one (.dma a bs s h) hk, fun t e => by cases e⟩
    · exact ⟨fun _ t e => (by cases e), fun t e => by cases e⟩

theorem withLock (hk : Kind.lock ∈ ks) (l : Lock) {m : M α} (h : Traces ks m) :
    Traces ks (Machine.withLock l m) := by
  refine bind (fun s => ?_) fun _ => bind h fun _ => bind (update_one hk fun s => .lock _ s) fun _ => pure _
  rw [acquire_apply]
  split
  · exact ⟨fun _ t e => (by cases e), fun t e => by cases e⟩
  · exact ⟨fun _ t e => by cases e; exact .one (.lock _ s) hk, fun t e => by cases e⟩

theorem forUpTo {body : Nat → M Unit} (h : ∀ i, Traces ks (body i)) (n : Nat) :
    Traces ks (Machine.forUpTo body n) := by
  induction n with
  | zero => exact pure _
  | succ n ih => exact bind ih fun _ => h n

theorem callFrom (hk : Kind.sw ∈ ks) (p : SwSeq) {m : M α} (h : Traces ks m) :
    Traces ks (Machine.callFrom p m) :=
  bind get fun s => bind (update_one hk fun s => .sw p s) fun _ => bind h fun _ =>
    bind (update_one hk fun t => .sw s.sw t) fun _ => pure _

end Traces

/-! ### The device's operations -/

/-- What a device event is made of. -/
def devKinds : List Kind := [.dev, .dma, .event, .draw, .fault]

theorem traces_devReset : Traces devKinds devResetOp :=
  .bind .get fun s => .bind (.require _ _) fun _ => .update fun s =>
    (Trace.one (.dev _ s) (by decide)).trans (.one (.draw _ _ _ _ _) (by decide))

theorem traces_devTxStep : Traces devKinds devTxStepOp :=
  .bind .get fun s => .bind (.require _ _) fun _ => .bind (.takeDescriptor (by decide) _) fun _ =>
    .bind (.descRead _ _) fun bs => .bind (.require _ _) fun _ => .ite
      (.bind (.dmaRead (by decide) _ _) fun f => .bind (.emit (by decide) _) fun _ =>
        .bind (.whenever _ (.dmaWrite (by decide) _ _)) fun _ =>
          .update_one (k := .dev) (by decide) fun s => .dev _ s)
      (.modelFault (by decide) _)

theorem traces_writeBack (slot len : Nat) (last : Bool) : Traces devKinds (writeBack slot len last) :=
  .bind (.draw (by decide) _) fun _ => .bind (.draw (by decide) _) fun _ =>
  .bind (.draw (by decide) _) fun _ => .bind (.draw (by decide) _) fun _ =>
  .bind (.dmaWrite (by decide) _ _) fun _ => .bind (.dmaWrite (by decide) _ _) fun _ =>
  .bind (.dmaWrite (by decide) _ _) fun _ => .bind (.dmaWrite (by decide) _ _) fun _ =>
  .dmaWrite (by decide) _ _

theorem traces_rxLoop (n : Nat) : ∀ rest, Traces devKinds (rxLoop n rest) := by
  induction n with
  | zero => intro rest; exact .update_one (k := .dev) (by decide) fun s => .dev _ s
  | succ n ih =>
    intro rest
    exact .bind .get fun s => .ite
      (.bind (.update_one (k := .dev) (by decide) fun s => .dev _ s) fun _ => .emit (by decide) _)
      (.bind (.takeDescriptor (by decide) _) fun _ => .bind (.descRead _ _) fun a => .ite
        (.bind (.dmaWrite (by decide) _ _) fun _ => .bind (traces_writeBack _ _ _) fun _ =>
          .bind (.update_one (k := .dev) (by decide) fun s => .dev _ s) fun _ => .ite (.pure _) (ih _))
        (.modelFault (by decide) _))

theorem traces_devRxFrame (f : List Byte) : Traces devKinds (devRxFrameOp f) :=
  .bind .get fun s => .bind (.require _ _) fun _ => .ite (.emit (by decide) _)
    (.ite (.emit (by decide) _) (traces_rxLoop _ _))

theorem traces_devEvent (e : DevEvent) : Traces devKinds (devEvent e) := by
  cases e with
  | reset => exact traces_devReset
  | txStep => exact traces_devTxStep
  | rxFrame f => exact .bind (.require _ _) fun _ => traces_devRxFrame f

theorem traces_tryDevice (e : DevEvent) : Traces devKinds (tryDevice e) := fun s => by
  have h := traces_devEvent e s
  unfold tryDevice
  split
  · exact ⟨fun _ t e => by cases e; exact .refl _ _, fun t e => by cases e⟩
  · exact h

theorem traces_runDevices (es : List DevEvent) : Traces devKinds (runDevices es) := by
  induction es with
  | nil => exact .pure _
  | cons e es ih => exact .bind (traces_tryDevice e) fun _ => ih

/-! ### Software's accesses -/

/-- What may fall in front of a software access. -/
def pointKinds : List Kind := .sched :: devKinds

/-- What an access of software is made of. -/
def accessKinds : List Kind := [.mem, .fence] ++ pointKinds

theorem traces_point : Traces pointKinds point := fun s => by
  unfold point
  split
  · exact ⟨fun _ t e => by cases e; exact .refl _ _, fun t e => by cases e⟩
  · next es rest hs =>
    have h := (traces_runDevices es).mono (ks' := pointKinds) (by decide) { s with sched := rest }
    have h0 : Trace pointKinds s { s with sched := rest } := by
      have := Trace.one (ks := pointKinds) (.sched s) (by decide)
      rwa [hs] at this
    exact ⟨fun a t e => h0.trans (h.1 a t e), fun t e => h0.trans (h.2 t e)⟩

theorem traces_fence : Traces accessKinds fence :=
  .bind (traces_point.mono (by decide)) fun _ => .update_one (k := .fence) (by decide) fun s => .fence s

theorem traces_bufRead (who : Owner) (b : Addr) (off n : Nat) :
    Traces accessKinds (bufRead who b off n) :=
  .bind (traces_point.mono (by decide)) fun _ => .bind .get fun _ => .ite (.memRead _ _) (.modelFault (by decide) _)

theorem traces_bufWrite (who : Owner) (b : Addr) (off : Nat) (bs : List Byte) :
    Traces accessKinds (bufWrite who b off bs) :=
  .bind (traces_point.mono (by decide)) fun _ => .bind .get fun _ =>
    .ite (.memWrite (by decide) _ _) (.modelFault (by decide) _)

theorem traces_bufWriteFields (who : Owner) (b : Addr) (fs : List (Nat × List Byte)) :
    Traces accessKinds (bufWriteFields who b fs) := by
  induction fs with
  | nil => exact .pure _
  | cons f fs ih => exact .bind (traces_bufWrite _ _ _ _) fun _ => ih

theorem traces_txdWrite (i off : Nat) (bs : List Byte) : Traces accessKinds (txdWrite i off bs) :=
  .bind (traces_point.mono (by decide)) fun _ => .bind .get fun _ =>
    .ite (.modelFault (by decide) _) (.guardFault (by decide) _ (.memWrite (by decide) _ _))

theorem traces_rxdWrite (i off : Nat) (bs : List Byte) : Traces accessKinds (rxdWrite i off bs) :=
  .bind (traces_point.mono (by decide)) fun _ => .bind .get fun _ =>
    .ite (.modelFault (by decide) _) (.memWrite (by decide) _ _)

theorem traces_rxdPlace (i off : Nat) (bs : List Byte) : Traces accessKinds (rxdPlace i off bs) :=
  .bind (traces_point.mono (by decide)) fun _ => .bind .get fun s => .ite (.modelFault (by decide) _) (by
    cases s.cfg.rxInitView
    exacts [.dmaWrite (by decide) _ _, .memWrite (by decide) _ _])

theorem traces_descWriteFields {ks : List Kind} {write : Nat → List Byte → M Unit}
    (h : ∀ off bs, Traces ks (write off bs)) (fs : List (Nat × List Byte)) :
    Traces ks (descWriteFields write fs) := by
  induction fs with
  | nil => exact .pure _
  | cons f fs ih => exact .bind (h _ _) fun _ => ih

theorem traces_txdPoll (i : Nat) : Traces accessKinds (txdPoll i) :=
  .bind (traces_point.mono (by decide)) fun _ => .bind .get fun _ => .guardFault (by decide) _ (.memRead _ _)

theorem traces_rxdPoll (i : Nat) : Traces accessKinds (rxdPoll i) :=
  .bind (traces_point.mono (by decide)) fun _ => .bind .get fun _ => .memRead _ _

theorem traces_rxdRead (i off n : Nat) : Traces accessKinds (rxdRead i off n) :=
  .bind (traces_point.mono (by decide)) fun _ => .bind .get fun _ => .ite (.modelFault (by decide) _) (.memRead _ _)

theorem traces_regRead (name : RegName) : Traces accessKinds (regRead name) :=
  .bind (traces_point.mono (by decide)) fun _ => .bind .get fun _ => .ite
    (.bind (.update_one (k := .dev) (by decide) fun s => .dev _ s) fun _ => .pure _)
    (.ite (.pure _) (.bind (.draw (by decide) _) fun _ => .pure _))

theorem traces_regStore (name : RegName) (v : Word) (f : Params → DevRegs → DevRegs) :
    Traces accessKinds (regStore name v f) := by
  refine .bind (traces_point.mono (by decide)) fun _ => .bind .get fun s => ?_
  split
  · exact .refuse _
  · exact .update_one (k := .dev) (by decide) fun s => .dev _ s

theorem traces_regWrite (name : RegName) (v : Word) : Traces accessKinds (regWrite name v) :=
  traces_regStore _ _ _

theorem traces_ctrlAssertReset (v : Word) : Traces accessKinds (ctrlAssertReset v) :=
  .bind (traces_point.mono (by decide)) fun _ => .update_one (k := .dev) (by decide) fun s => .dev _ s

/-- What Alloc's answer leaves: the answer, and the answer list and the counter moved on. -/
theorem nextAllocAnswer_spec (s : State) : ∃ r l n, nextAllocAnswer s = (r, { s with allocAns := l, draws := n }) := by
  unfold nextAllocAnswer
  split
  · exact ⟨_, _, s.draws, rfl⟩
  · exact ⟨_, s.allocAns, _, rfl⟩

/-- What Alloc is made of. -/
def allocKinds : List Kind := .alloc :: accessKinds

theorem traces_alloc (who : Owner) : Traces allocKinds (alloc who) := by
  refine .bind (traces_point.mono (by decide)) fun _ => .get_bind fun s => ?_
  obtain ⟨r, l, n, h⟩ := nextAllocAnswer_spec s
  have h0 : Trace allocKinds s { s with allocAns := l, draws := n } :=
    .one (.draw s.drawAns l s.copyAns n s) (by decide)
  rw [h]
  cases r with
  | none => exact ⟨fun _ t e => by cases e; exact h0, fun t e => by cases e⟩
  | some b =>
    simp only [ite_apply]
    split
    · next hb =>
      have h1 : Trace allocKinds s (allocState b who { s with allocAns := l, draws := n }) :=
        h0.trans (.one (.alloc b who _ hb) (by decide))
      exact ⟨fun _ t e => by cases e; exact h1, fun t e => by cases e⟩
    · exact ⟨fun _ t e => by cases e; exact h0, fun t e => by cases e⟩

/-- What Release is made of. -/
def releaseKinds : List Kind := .release :: accessKinds

theorem traces_release (who : Owner) (b : Addr) : Traces releaseKinds (release who b) :=
  .bind (traces_point.mono (by decide)) fun _ => .bind .get fun _ => .guardFault (by decide) _
    (.update_one (k := .release) (by decide) fun s => .release b s)

/-! ### The operations -/

/-- What TX_SUBMIT is made of. -/
def submitKinds : List Kind := [.lock, .owner, .txOwner] ++ releaseKinds

theorem traces_releaseOld (t : Nat) : Traces releaseKinds (releaseOld t) := by
  refine .bind .get fun s => ?_
  split
  · exact traces_release _ _
  · exact .pure _

theorem traces_fillTxSlot (t : Nat) (buf : Addr) (len : Half) :
    Traces ([.owner, .txOwner] ++ accessKinds) (fillTxSlot t buf len) := by
  have w (off : Nat) (bs : List Byte) : Traces ([.owner, .txOwner] ++ accessKinds) (txdWrite t off bs) :=
    (traces_txdWrite t off bs).mono (by decide)
  refine .bind (.update fun s => ?_) fun _ => .bind (w _ _) fun _ => .bind (w _ _) fun _ =>
    .bind (w _ _) fun _ => .bind (w _ _) fun _ => .bind (w _ _) fun _ => .bind (w _ _) fun _ => w _ _
  exact (Trace.one (.txOwner t buf s) (by decide)).trans (.one (.owner buf .txPath _ (by simp)) (by decide))

theorem traces_publishTx (t : Nat) : Traces accessKinds (publishTx t) :=
  .bind traces_fence fun _ => .bind .get fun _ => traces_regStore _ _ _

theorem traces_txSubmit (who : Owner) (buf : Addr) (len : Half) :
    Traces submitKinds (txSubmitOp who buf len) := by
  have p {α : Type} {m : M α} (h : Traces accessKinds m) : Traces submitKinds m := h.mono (by decide)
  exact .bind .get fun s => .bind (.require _ _) fun _ => .bind (.require _ _) fun _ =>
    .withLock (by decide) _ (.bind (p (traces_regRead _)) fun tdt =>
      .bind (p (traces_txdPoll _)) fun st => .ite (.pure _)
        (.bind ((traces_releaseOld _).mono (by decide)) fun _ =>
          .bind ((traces_fillTxSlot _ _ _).mono (by decide)) fun _ =>
          .bind (p (traces_publishTx _)) fun _ => .pure _))

theorem traces_cksumMem (a n : Nat) : Traces accessKinds (cksumMem a n) := by
  refine .bind (traces_point.mono (by decide)) fun _ => .bind .get fun s => ?_
  split
  · exact .modelFault (by decide) _
  · exact .bind (.memRead _ _) fun _ => .pure _

theorem traces_cksumBuf (who : Owner) (b : Addr) (off n : Nat) : Traces accessKinds (cksumBuf who b off n) :=
  .bind (traces_bufRead _ _ _ _) fun _ => .pure _

theorem traces_arpReplyBuild (p : Params) (b r : Addr) : Traces accessKinds (arpReplyBuild p b r) :=
  .bind (traces_bufRead _ _ _ _) fun _ => .bind (traces_bufWrite _ _ _ _) fun _ =>
  .bind (traces_bufWriteFields _ _ _) fun _ => .bind (traces_bufRead _ _ _ _) fun _ =>
  .bind (traces_bufWrite _ _ _ _) fun _ => .bind (traces_bufRead _ _ _ _) fun _ => traces_bufWrite _ _ _ _

theorem traces_portWake (q : Nat) : Traces accessKinds (portWake q) :=
  .bind (traces_point.mono (by decide)) fun _ => .emit (by decide) _

/-- What ARP_RX is made of. -/
def arpKinds : List Kind := [.arp, .alloc, .fatal .arpReplyAlloc] ++ submitKinds

theorem traces_arpRx (b : Addr) (len : Half) : Traces arpKinds (arpRxOp b len) := by
  have p {α : Type} {m : M α} (h : Traces accessKinds m) : Traces arpKinds m := h.mono (by decide)
  have r (x : Addr) : Traces arpKinds (release .demux x) := (traces_release _ x).mono (by decide)
  refine .bind .get fun s => .ite (.bind (.emit (by decide) _) fun _ => r b) ?_
  refine .bind (.update_one (k := .arp) (by decide) fun s => .arp s) fun _ =>
    .bind ((traces_alloc _).mono (by decide)) fun x => ?_
  split
  · exact .fatal (by decide) _
  · exact .bind (p (traces_arpReplyBuild _ _ _)) fun _ =>
      .bind ((traces_txSubmit _ _ _).mono (by decide)) fun _ =>
      .bind (.whenever _ (.bind (.emit (by decide) _) fun _ => r _)) fun _ => r b

/-- What IP_RX is made of. -/
def ipKinds : List Kind := [.portq, .owner] ++ releaseKinds

theorem traces_portLookup (port : Half) : Traces accessKinds (portLookup port) := by
  refine .bind (traces_point.mono (by decide)) fun _ => .bind .get fun s => ?_
  split
  · exact .pure _
  · exact .pure _
  · exact .bind (.draw (by decide) _) fun _ => .pure _

theorem traces_portEnqueue (q : Nat) (pkt : Packet) : Traces (.portq :: accessKinds) (portEnqueue q pkt) := by
  refine .bind (traces_point.mono (by decide)) fun _ => .bind .get fun s => ?_
  split
  · exact .pure _
  · exact .ite (.bind (.update_one (k := .portq) (by decide) fun s => .portq _ _ s) fun _ => .pure _)
      (.bind (.update_one (k := .portq) (by decide) fun s => .portq _ _ s) fun _ => .pure _)

theorem traces_ipRx (b : Addr) (len : Half) : Traces ipKinds (ipRxOp b len) := by
  have p {α : Type} {m : M α} (h : Traces accessKinds m) : Traces ipKinds m := h.mono (by decide)
  have r : Traces ipKinds (release .demux b) := (traces_release _ b).mono (by decide)
  refine .bind (p (traces_bufRead _ _ _ _)) fun _ => .bind (p (traces_bufRead _ _ _ _)) fun _ =>
    .bind (p (traces_portLookup _)) fun q => ?_
  split
  · exact .bind (.emit (by decide) _) fun _ => .bind (.emit (by decide) _) fun _ => r
  · refine .bind (p (traces_bufRead _ _ _ _)) fun _ =>
      .bind ((traces_portEnqueue _ _).mono (by decide)) fun res => .ite ?_ ?_
    · exact .bind (.update_one (k := .owner) (by decide) fun s => .owner _ _ s (by simp)) fun _ =>
        .bind (.emit (by decide) _) fun _ => p (traces_portWake _)
    · exact .bind (.emit (by decide) _) fun _ => r

/-- What CLASSIFY is made of. -/
def classifyKinds : List Kind := [.sw, .portq] ++ arpKinds

theorem traces_typeIs (b : Addr) (len : Half) (n : Nat) (ty : Half) :
    Traces accessKinds (typeIs b len n ty) :=
  .ite (.bind (traces_bufRead _ _ _ _) fun _ => .pure _) (.pure _)

theorem traces_classify (b : Addr) (len : Half) : Traces classifyKinds (classifyOp b len) := by
  refine .bind ((traces_typeIs _ _ _ _).mono (by decide)) fun _ => .ite
    (.callFrom (by decide) _ ((traces_arpRx _ _).mono (by decide))) ?_
  refine .bind ((traces_typeIs _ _ _ _).mono (by decide)) fun _ => .ite
    (.callFrom (by decide) _ ((traces_ipRx _ _).mono (by decide))) ?_
  exact .bind (.emit (by decide) _) fun _ => (traces_release _ _).mono (by decide)

theorem traces_udpPayload (b : Addr) (n : BitVec 64) : Traces accessKinds (udpPayloadOp b n) :=
  .bind .get fun _ => .bind (traces_bufRead _ _ _ _) fun _ => .bind (traces_bufRead _ _ _ _) fun _ =>
    .bind (traces_bufRead _ _ _ _) fun _ => .bind (traces_bufRead _ _ _ _) fun _ =>
    .bind (traces_bufRead _ _ _ _) fun _ => .pure _

/-- What RX_DRAIN is made of. -/
def drainKinds : List Kind :=
  [.rxOwner, .fatal .rxMultiDesc, .fatal .rxReplenishAlloc] ++ classifyKinds

theorem traces_deliver (i k : Nat) : Traces drainKinds (deliver i k) :=
  .bind .get fun _ => .bind ((traces_rxdRead _ _ _).mono (by decide)) fun _ =>
    .bind (.update_one (k := .owner) (by decide) fun s => .owner _ _ s (by simp)) fun _ =>
    .callFrom (by decide) _ ((traces_classify _ _).mono (by decide))

theorem traces_replenish (i : Nat) : Traces drainKinds (replenish i) := by
  have p {α : Type} {m : M α} (h : Traces accessKinds m) : Traces drainKinds m := h.mono (by decide)
  refine .bind ((traces_alloc _).mono (by decide)) fun nb => ?_
  split
  · exact .fatal (by decide) _
  · exact .bind (.update_one (k := .rxOwner) (by decide) fun s => .rxOwner _ _ s) fun _ =>
      .bind (p (traces_rxdWrite _ _ _)) fun _ => .bind (p (traces_rxdWrite _ _ _)) fun _ =>
      .bind (p traces_fence) fun _ => p (traces_regWrite _ _)

theorem traces_drainLoop (k left : Nat) : ∀ i n, Traces drainKinds (drainLoop k left i n) := by
  induction left with
  | zero => intro i n; exact .pure _
  | succ left ih =>
    intro i n
    exact .bind ((traces_rxdPoll _).mono (by decide)) fun st => .ite
      (.ite (.bind (traces_deliver _ _) fun _ => .bind (traces_replenish _) fun _ => ih _ _) (.fatal (by decide) _))
      (.pure _)

theorem traces_rxDrain : Traces drainKinds rxDrainOp := by
  refine .withLock (by decide) _ (.bind ((traces_regRead _).mono (by decide)) fun _ =>
    .bind .get fun _ => .bind (traces_drainLoop _ _ _ _) fun n =>
    .whenever _ (.emit (by decide) _))

/-- What IRQ is made of. -/
def irqKinds : List Kind := .irqEntry :: drainKinds

theorem traces_irq : Traces irqKinds irqOp :=
  .bind (.update_one (k := .irqEntry) (by decide) fun s => .irqEntry s) fun _ =>
  .bind ((traces_regWrite _ _).mono (by decide)) fun _ =>
  .bind (.callFrom (by decide) _ (traces_rxDrain.mono (by decide))) fun _ =>
  .update_one (k := .sw) (by decide) fun s => .sw _ s

/-- What UDP_TX is made of. -/
def udpTxKinds : List Kind := .alloc :: submitKinds

theorem nextCopyAnswer_spec (s : State) :
    ∃ r l n, nextCopyAnswer s = (r, { s with copyAns := l, draws := n }) := by
  unfold nextCopyAnswer
  split
  · exact ⟨_, _, s.draws, rfl⟩
  · exact ⟨_, s.copyAns, _, rfl⟩

theorem traces_copyIn (b : Addr) (off : Nat) (pl : List Byte) : Traces accessKinds (copyIn b off pl) := by
  refine .bind (traces_point.mono (by decide)) fun _ => .get_bind fun s => ?_
  obtain ⟨r, l, n, h⟩ := nextCopyAnswer_spec s
  have h0 : Trace accessKinds s { s with copyAns := l, draws := n } :=
    .one (.draw s.drawAns s.allocAns l n s) (by decide)
  have h1 : Traces accessKinds (do
      if r then
        if ownsRange s .framer (b.toNat + off) pl.length then do
          memWrite (b.toNat + off) pl
          pure true
        else raiseModelFault (accessFault s (b.toNat + off))
      else pure false : M Bool) :=
    .ite (.ite (.bind (.memWrite (by decide) _ _) fun _ => .pure _) (.modelFault (by decide) _)) (.pure _)
  have h2 := h1 { s with copyAns := l, draws := n }
  rw [h]
  exact ⟨fun a t e => h0.trans (h2.1 a t e), fun t e => h0.trans (h2.2 t e)⟩

theorem traces_udpTx (sp : Half) (ip : Word) (dp : Half) (pl : List Byte) :
    Traces udpTxKinds (udpTxOp sp ip dp pl) := by
  have p {α : Type} {m : M α} (h : Traces accessKinds m) : Traces udpTxKinds m := h.mono (by decide)
  refine .bind .get fun s => .ite (.pure _) (.bind ((traces_alloc _).mono (by decide)) fun x => ?_)
  split
  · exact .pure _
  · refine .bind (p (traces_bufWriteFields _ _ _)) fun _ => .bind (p (traces_cksumBuf _ _ _ _)) fun _ =>
      .bind (p (traces_bufWrite _ _ _ _)) fun _ => .bind (p (traces_bufWriteFields _ _ _)) fun _ =>
      .bind (p (traces_copyIn _ _ _)) fun _ => .ite
        (.bind ((traces_txSubmit _ _ _).mono (by decide)) fun _ => .ite
          (.bind ((traces_release _ _).mono (by decide)) fun _ => .pure _) (.pure _))
        (.bind ((traces_release _ _).mono (by decide)) fun _ => .pure _)

/-- What INIT is made of after S3. -/
def initKinds : List Kind :=
  [.alloc, .txNone, .rxOwner, .fatal .ringMisaligned, .fatal .rxInitAlloc, .initDone] ++ accessKinds

theorem traces_checkAlign (n i : Nat) : Traces initKinds (checkAlign n i) :=
  .bind .get fun _ => .ite (.fatal (by decide) _) (.pure _)

theorem traces_initTxRing : Traces initKinds initTxRing := by
  have p {α : Type} {m : M α} (h : Traces accessKinds m) : Traces initKinds m := h.mono (by decide)
  have w (n : RegName) (v : Word) : Traces initKinds (regWrite n v) := p (traces_regWrite n v)
  exact .bind .get fun _ => .bind (w _ _) fun _ => .bind (p traces_fence) fun _ =>
    .bind (.forUpTo (fun i => .bind (traces_descWriteFields (fun _ _ => p (traces_txdWrite _ _ _)) _) fun _ =>
      .update_one (k := .txNone) (by decide) fun s => .txNone _ s) _) fun _ =>
    .bind (traces_checkAlign _ _) fun _ =>
    .bind (w _ _) fun _ => .bind (w _ _) fun _ =>
    .bind (w _ _) fun _ => .bind (w _ _) fun _ => w _ _

theorem traces_initRxSlot (i : Nat) : Traces initKinds (initRxSlot i) := by
  refine .bind ((traces_alloc _).mono (by decide)) fun b => ?_
  split
  · exact .fatal (by decide) _
  · exact .bind (.update_one (k := .rxOwner) (by decide) fun s => .rxOwner _ _ s) fun _ =>
      traces_descWriteFields (fun _ _ => (traces_rxdPlace _ _ _).mono (by decide)) _

theorem traces_initRxRing : Traces initKinds initRxRing := by
  have w (n : RegName) (v : Word) : Traces initKinds (regWrite n v) :=
    (traces_regWrite n v).mono (by decide)
  exact .bind .get fun _ => .bind (.forUpTo traces_initRxSlot _) fun _ =>
    .bind (traces_checkAlign _ _) fun _ =>
    .bind (w _ _) fun _ => .bind (w _ _) fun _ =>
    .bind (w _ _) fun _ => .bind (w _ _) fun _ => w _ _

theorem traces_initEngines : Traces initKinds initEngines := by
  have w (n : RegName) (v : Word) : Traces initKinds (regWrite n v) :=
    (traces_regWrite n v).mono (by decide)
  refine .bind .get fun _ => .bind (w _ _) fun _ => .bind (w _ _) fun _ =>
    .bind (.forUpTo (fun j => ?_) _) fun _ => .bind (w _ _) fun _ => .bind (w _ _) fun _ =>
    .bind (w _ _) fun _ => .bind (w _ _) fun _ => .bind (w _ _) fun _ => w _ _
  unfold initMta
  split
  · exact w _ _
  · exact .pure _

theorem traces_initFinish : Traces initKinds initFinish :=
  .bind traces_initTxRing fun _ => .bind traces_initRxRing fun _ => .bind traces_initEngines fun _ =>
    .update_one (k := .initDone) (by decide) fun s => .initDone s

theorem traces_awaitReset (n : Nat) : Traces (.sw :: accessKinds) (awaitReset n) := by
  induction n with
  | zero =>
    refine .bind (.update_one (k := .sw) (by decide) fun s => .sw _ s) fun _ s => ?_
    exact ⟨fun _ t e => (by cases e), fun t e => by cases e; exact .refl _ _⟩
  | succ n ih =>
    exact .bind (traces_point.mono (by decide)) fun _ => .bind .get fun s => .ite ih (.pure _)

/-- What INIT is made of. -/
def initAllKinds : List Kind := [.initBegin, .sw] ++ initKinds

theorem traces_initStart : Traces accessKinds initStart :=
  .bind (traces_regWrite _ _) fun _ => .bind (traces_regRead _) fun _ => traces_ctrlAssertReset _

theorem traces_initBody : Traces (.sw :: initKinds) initBody :=
  .bind (traces_initStart.mono (by decide)) fun _ => .bind .get fun _ =>
    .bind ((traces_awaitReset _).mono (by decide)) fun _ => traces_initFinish.mono (by decide)

theorem traces_init (rb tb xb : Addr) : Traces initAllKinds (initOp rb tb xb) := by
  refine .get_bind fun s => ?_
  simp only [bind_apply, require_apply]
  cases h1 : decide (s.sw = .idle)
  · simp
  · cases h2 : decide (s.initPhase = .notIssued)
    · simp
    · have h0 : Trace initAllKinds s (beginInit rb tb xb s) :=
        .one (.initBegin rb tb xb s (of_decide_eq_true h2)) (by decide)
      have h := (traces_initBody.mono (ks' := initAllKinds) (by decide)) (beginInit rb tb xb s)
      exact ⟨fun a t e => h0.trans (h.1 a t e), fun t e => h0.trans (h.2 t e)⟩

/-! ### Every operation and every step -/

/-- What an operation is made of. -/
def kindsOf : Instr → List Kind
  | .init _ _ _ => initAllKinds
  | .txSubmit _ _ => .result :: submitKinds
  | .irq => irqKinds
  | .rxDrain => .result :: drainKinds
  | .classify _ _ => classifyKinds
  | .arpRx _ _ => arpKinds
  | .ipRx _ _ => ipKinds
  | .udpPayload _ _ _ => .result :: accessKinds
  | .udpTx _ _ _ _ => .result :: udpTxKinds
  | .cksum _ => .result :: accessKinds
  | .regRead _ => .result :: accessKinds
  | .regWrite _ _ => accessKinds
  | .devReset => devKinds
  | .devTxStep => devKinds
  | .devRxFrame _ => devKinds

theorem runOp_trace {ks : List Kind} {i : Instr} {m : M Unit} {s t : State} (hm : Traces ks m)
    (h : runOp i m s = .next t) : Trace ks s t := by
  obtain ⟨-, -, -, h | h⟩ := runOp_next h
  · exact (hm s).1 _ t h
  · exact (hm s).2 t h

theorem traces_fromOutside {ks : List Kind} {m : M Unit} (h : Traces ks m) : Traces ks (fromOutside m) :=
  .bind .get fun _ => .bind (.require _ _) fun _ => .bind (.require _ _) fun _ => h

theorem traces_internally {ks : List Kind} {p : SwSeq → Bool} {m : M Unit} (h : Traces ks m) :
    Traces ks (internally p m) :=
  .bind .get fun _ => .bind (.require _ _) fun _ => h

/-- The body of each operation. -/
def bodyOf : Instr → M Unit
  | .init rb tb xb => initOp rb tb xb
  | .txSubmit b l => fromOutside do
    let r ← txSubmitOp .caller b l
    answer (.code r)
  | .irq => fromOutside irqOp
  | .rxDrain => internally (fun p => decide (p = .irqI2)) rxDrainOp
  | .classify b l => internally (fun p => match p with
      | .drainRD3 _ _ => true
      | _ => false) (classifyOp b l)
  | .arpRx b l => internally (fun p => decide (p = .classifyC1)) (arpRxOp b l)
  | .ipRx b l => internally (fun p => decide (p = .classifyC2)) (ipRxOp b l)
  | .udpPayload b _ n => fromOutside do
    let r ← udpPayloadOp b n
    answer r
  | .udpTx sp ip dp pl => fromOutside do
    let r ← udpTxOp sp ip dp pl
    answer (.code r)
  | .cksum src => do
    let s ← get
    require (decide (s.sw = .idle)) .softwareBusy
    match src with
    | .data bs => answer (.checksum (cksum bs))
    | .mem a n => do
      let c ← cksumMem a.toNat n.toNat
      answer (.checksum c)
  | .regRead n => fromOutside do
    let v ← regRead n
    answer (.regValue v)
  | .regWrite n v => fromOutside (regWrite n v)
  | .devReset => devResetOp
  | .devTxStep => devTxStepOp
  | .devRxFrame f => devRxFrameOp f

/-- Every operation runs its body under `runOp`. -/
theorem exec_eq (i : Instr) (s : State) : exec i s = runOp i (bodyOf i) s := by
  cases i <;> rfl

theorem traces_bodyOf (i : Instr) : Traces (kindsOf i) (bodyOf i) := by
  cases i with
  | init rb tb xb => exact traces_init rb tb xb
  | txSubmit b l =>
    exact traces_fromOutside (ks := .result :: submitKinds)
      (.bind ((traces_txSubmit .caller b l).mono (by decide)) fun _ => .answer (by decide) _)
  | irq => exact traces_fromOutside traces_irq
  | rxDrain =>
    unfold bodyOf kindsOf
    exact traces_internally (traces_rxDrain.mono (by decide))
  | classify b l => unfold bodyOf kindsOf; exact traces_internally (traces_classify b l)
  | arpRx b l => unfold bodyOf kindsOf; exact traces_internally (traces_arpRx b l)
  | ipRx b l => unfold bodyOf kindsOf; exact traces_internally (traces_ipRx b l)
  | udpPayload b l n =>
    exact traces_fromOutside (ks := .result :: accessKinds)
      (.bind ((traces_udpPayload b n).mono (by decide)) fun _ => .answer (by decide) _)
  | udpTx sp ip dp pl =>
    exact traces_fromOutside (ks := .result :: udpTxKinds)
      (.bind ((traces_udpTx sp ip dp pl).mono (by decide)) fun _ => .answer (by decide) _)
  | cksum src =>
    refine Traces.bind (ks := .result :: accessKinds) .get fun _ => .bind (.require _ _) fun _ => ?_
    cases src with
    | data bs => exact .answer (by decide) _
    | mem a n => exact .bind ((traces_cksumMem _ _).mono (by decide)) fun _ => .answer (by decide) _
  | regRead n =>
    exact traces_fromOutside (ks := .result :: accessKinds)
      (.bind ((traces_regRead n).mono (by decide)) fun _ => .answer (by decide) _)
  | regWrite n v => exact traces_fromOutside (traces_regWrite n v)
  | devReset => exact traces_devReset
  | devTxStep => exact traces_devTxStep
  | devRxFrame f => exact traces_devRxFrame f

/-- What an operation can do: a next state comes by updates of the operation's kinds. -/
theorem exec_trace {i : Instr} {s t : State} (h : exec i s = .next t) : Trace (kindsOf i) s t :=
  runOp_trace (traces_bodyOf i) (exec_eq i s ▸ h)

/-- Every kind of update an operation of the block makes. -/
def allKinds : List Kind :=
  [.dev, .mem, .dma, .fence, .event, .result, .draw, .alloc, .owner, .release, .txOwner, .txNone, .rxOwner, .arp,
   .fault, .sw, .lock, .portq, .sched, .initBegin, .initDone, .irqEntry, .fatal .ringMisaligned, .fatal .rxInitAlloc,
   .fatal .rxMultiDesc, .fatal .rxReplenishAlloc, .fatal .arpReplyAlloc]

theorem kindsOf_subset (i : Instr) : kindsOf i ⊆ allKinds := by
  cases i <;> simp only [kindsOf] <;> decide

/-- What a step can do: INIT goes on from its hold, or the offered command is taken off the inbox and run, or
an agent moves on its own. -/
theorem step_cases {s t : State} (h : step s = .next t) :
    s.halted = none ∧ s.modelFault = none ∧
      ((holdLifted s = true ∧ resumeInit s = .next t) ∨
       (holdLifted s = false ∧ ∃ c rest i, s.inbox = c :: rest ∧
          decode s.cfg.regOff c.word c.ports = .ok i ∧
          exec i { s with inbox := rest, sched := c.during } = .next t) ∨
       (holdLifted s = false ∧ s.inbox = [] ∧ ∃ i, ownMove s = some i ∧
          exec i { s with sched := [] } = .next t)) := by
  unfold step at h
  split at h
  · cases h
  · cases h
  · next hh hf =>
    refine ⟨hh, hf, ?_⟩
    split at h
    · next hl => exact .inl ⟨hl, h⟩
    · next hl =>
      have hl' : holdLifted s = false := by simpa using hl
      right
      split at h
      · next c rest hi =>
        split at h
        · next i hd => exact .inl ⟨hl', c, rest, i, hi, hd, h⟩
        · cases h
      · next hi =>
        split at h
        · next i hm => exact .inr ⟨hl', hi, i, hm, h⟩
        · cases h

theorem resumeInit_trace {s t : State} (h : resumeInit s = .next t) : Trace initKinds s t := by
  unfold resumeInit outcomeOf at h
  have hm := traces_initFinish s
  split at h <;> cases h
  · next h' => exact hm.1 _ _ h'
  · next h' => exact hm.2 _ h'

/-- Every step is a trace of updates from a state that differs from the start in the scheduler's lists
alone. -/
theorem step_trace {s t : State} (h : step s = .next t) :
    ∃ ib sc, Trace allKinds { s with inbox := ib, sched := sc } t := by
  obtain ⟨-, -, h | h | h⟩ := step_cases h
  · exact ⟨s.inbox, s.sched, (resumeInit_trace h.2).mono (by decide)⟩
  · obtain ⟨-, c, rest, i, -, -, h⟩ := h
    exact ⟨rest, c.during, (exec_trace h).mono (kindsOf_subset i)⟩
  · obtain ⟨-, -, i, -, h⟩ := h
    exact ⟨s.inbox, [], (exec_trace h).mono (kindsOf_subset i)⟩

/-- An invariant that every kind of update keeps, and that does not look at the scheduler's lists, is kept by
every step. -/
theorem step_keeps (P : State → Prop) (hm : ∀ k ∈ allKinds, ∀ s t, Micro k s t → P s → P t)
    (hs : ∀ s ib sc, P s → P { s with inbox := ib, sched := sc }) {s t : State} (h : step s = .next t)
    (h0 : P s) : P t := by
  obtain ⟨ib, sc, ht⟩ := step_trace h
  exact ht.keeps P hm (hs s ib sc h0)

end Sys2Proof.Machine
end

