-- ==== Sys2Proof/Laws/Restores.lean ====
section
/-! SUPPORT. What every operation leaves as it was when it returns: the sequencer's place, the locks held, and
no failure recorded; and that it ends without returning only in failure, or held at INIT S3. -/

namespace Sys2Proof.Machine

/-- The sequencer, the locks and the failure records are as they were. -/
def SameControl (s t : State) : Prop :=
  t.sw = s.sw ∧ t.locks = s.locks ∧ t.halted = s.halted ∧ t.modelFault = s.modelFault

theorem SameControl.refl (s : State) : SameControl s s := ⟨rfl, rfl, rfl, rfl⟩

theorem SameControl.trans {s t u : State} (h : SameControl s t) (h' : SameControl t u) : SameControl s u :=
  ⟨h'.1.trans h.1, h'.2.1.trans h.2.1, h'.2.2.1.trans h.2.2.1, h'.2.2.2.trans h.2.2.2⟩

/-- An operation that returns with the control as it found it, and ends otherwise only in failure. -/
def Restores {α : Type} (m : M α) : Prop := ∀ s,
  (∀ a t, m s = .ok (a, t) → SameControl s t) ∧ (∀ t, m s = .error (.ended t) → Failed t)

namespace Restores

variable {α β : Type}

theorem pure (a : α) : Restores (Pure.pure a : M α) := fun s =>
  ⟨fun _ t e => (by cases e; exact .refl _), fun t e => (by cases e)⟩

theorem get : Restores (MonadState.get : M State) := fun s =>
  ⟨fun _ t e => (by cases e; exact .refl _), fun t e => (by cases e)⟩

theorem refuse (r : Refusal) : Restores (Machine.refuse r : M α) := fun s =>
  ⟨fun _ t e => (by cases e), fun t e => (by cases e)⟩

theorem bind {m : M α} {f : α → M β} (hm : Restores m) (hf : ∀ a, Restores (f a)) :
    Restores (m >>= f) := fun s => by
  have h := hm s
  constructor
  · intro b u e
    rw [bind_apply] at e
    split at e
    · next a t ht => exact (h.1 a t ht).trans ((hf a t).1 b u e)
    · cases e
  · intro u e
    rw [bind_apply] at e
    split at e
    · next a t ht => exact (hf a t).2 u e
    · next x hx => cases e; exact h.2 u hx

theorem ite {c : Prop} [Decidable c] {x y : M α} (hx : Restores x) (hy : Restores y) :
    Restores (if c then x else y) := by split <;> assumption

theorem require (c : Bool) (r : Refusal) : Restores (Machine.require c r) := by
  unfold Machine.require
  exact ite (pure _) (refuse r)

theorem whenever (c : Bool) {m : M Unit} (h : Restores m) : Restores (Machine.whenever c m) := by
  unfold Machine.whenever
  exact ite h (pure _)

theorem update {f : State → State} (h : ∀ s, SameControl s (f s)) : Restores (Machine.update f) := fun s =>
  ⟨fun _ t e => (by cases e; exact h s), fun t e => (by cases e)⟩

theorem modelFault (f : ModelFault) : Restores (raiseModelFault f : M α) :=
  fun s => ⟨fun _ t e => (by cases e), fun t e => (by cases e; exact .inr (by simp))⟩

theorem fatal (c : FatalCause) (i : Nat) : Restores (raiseFatal c i : M α) :=
  fun s => ⟨fun _ t e => (by cases e), fun t e => (by cases e; exact .inl (by simp))⟩

theorem emit (e : Event) : Restores (Machine.emit e) := update fun _ => ⟨rfl, rfl, rfl, rfl⟩

theorem answer (r : OpResult) : Restores (Machine.answer r) := update fun _ => ⟨rfl, rfl, rfl, rfl⟩

theorem draw (w : Nat) : Restores (Machine.draw w) := fun s => by
  obtain ⟨v, l, h⟩ := draw_spec w s
  rw [h]
  exact ⟨fun _ t e => (by cases e; exact ⟨rfl, rfl, rfl, rfl⟩), fun t e => (by cases e)⟩

theorem memRead (a n : Nat) : Restores (Machine.memRead a n) := fun s => by
  rw [memRead_apply]
  split
  · exact ⟨fun _ t e => (by cases e; exact .refl _), fun t e => (by cases e)⟩
  · exact ⟨fun _ t e => (by cases e), fun t e => (by cases e)⟩

theorem memWrite (a : Nat) (bs : List Byte) : Restores (Machine.memWrite a bs) := fun s => by
  rw [memWrite_apply]
  split
  · exact ⟨fun _ t e => (by cases e; exact ⟨rfl, rfl, rfl, rfl⟩), fun t e => (by cases e)⟩
  · exact ⟨fun _ t e => (by cases e), fun t e => (by cases e)⟩

theorem stopFault (f : Fault) : Restores (Machine.stopFault f : M α) := fun s =>
  ⟨fun _ t e => (by cases e), fun t e => (by cases e)⟩

theorem dmaReadBytes (n : Nat) : ∀ a, Restores (Machine.dmaReadBytes n a) := by
  induction n with
  | zero => exact fun _ => pure _
  | succ n ih =>
    exact fun a => bind (bind get fun _ => ite (pure _) (bind (draw 1) fun _ => pure _)) fun _ =>
      bind (ih _) fun _ => pure _

theorem dmaRead (a n : Nat) : Restores (Machine.dmaRead a n) := ite (dmaReadBytes n a) (stopFault _)

theorem descRead (a n : Nat) : Restores (Machine.descRead a n) := fun s => by
  rw [descRead_apply]
  split
  · exact ⟨fun _ t e => (by cases e; exact .refl _), fun t e => (by cases e)⟩
  · exact ⟨fun _ t e => (by cases e), fun t e => (by cases e)⟩

theorem takeDescriptor (a : Nat) : Restores (Machine.takeDescriptor a) :=
  bind get fun _ => ite (modelFault _) (pure _)

theorem guardFault (f : Option ModelFault) {m : M α} (h : Restores m) : Restores (Machine.guardFault f m) := by
  cases f with
  | none => exact h
  | some f => exact modelFault f

theorem dmaWrite (a : Nat) (bs : List Byte) : Restores (Machine.dmaWrite a bs) := fun s => by
  rw [dmaWrite_apply]
  split
  · exact ⟨fun _ t e => (by cases e; exact ⟨rfl, rfl, rfl, rfl⟩), fun t e => (by cases e)⟩
  · exact ⟨fun _ t e => (by cases e), fun t e => (by cases e)⟩

/-- A lock taken is released again on return. -/
theorem withLock (l : Lock) {m : M α} (h : Restores m) : Restores (Machine.withLock l m) := fun s => by
  unfold Machine.withLock
  simp only [bind_apply, acquire_apply]
  by_cases hl : l ∈ s.locks
  · simp only [hl, if_true]
    exact ⟨fun _ t e => (by cases e), fun t e => (by cases e)⟩
  · simp only [hl, if_false]
    have hm := h { s with locks := l :: s.locks }
    split
    · next a t ht =>
      have hc := hm.1 a t ht
      refine ⟨fun _ u e => ?_, fun u e => (by cases e)⟩
      cases e
      refine ⟨hc.1, ?_, hc.2.2.1, hc.2.2.2⟩
      simp [hc.2.1]
    · next e' ht =>
      refine ⟨fun _ u e => (by cases e), fun u e => ?_⟩
      cases e
      exact hm.2 u ht

theorem forUpTo {body : Nat → M Unit} (h : ∀ i, Restores (body i)) (n : Nat) :
    Restores (Machine.forUpTo body n) := by
  induction n with
  | zero => exact pure _
  | succ n ih => exact bind ih fun _ => h n

/-- An internal operation comes back to where software stood. -/
theorem callFrom (p : SwSeq) {m : M α} (h : Restores m) : Restores (Machine.callFrom p m) := fun s => by
  unfold Machine.callFrom
  simp only [bind_apply, get_apply, update_apply]
  have hm := h { s with sw := p }
  split
  · next a t ht =>
    have hc := hm.1 a t ht
    refine ⟨fun _ u e => ?_, fun u e => (by cases e)⟩
    cases e
    exact ⟨rfl, hc.2.1, hc.2.2.1, hc.2.2.2⟩
  · next e' ht =>
    refine ⟨fun _ u e => (by cases e), fun u e => ?_⟩
    cases e
    exact hm.2 u ht

end Restores

theorem restores_devReset : Restores devResetOp :=
  .bind .get fun _ => .bind (.require _ _) fun _ => .update fun _ => ⟨rfl, rfl, rfl, rfl⟩

theorem restores_devTxStep : Restores devTxStepOp :=
  .bind .get fun _ => .bind (.require _ _) fun _ => .bind (.takeDescriptor _) fun _ => .bind (.descRead _ _) fun _ =>
    .bind (.require _ _) fun _ => .ite
      (.bind (.dmaRead _ _) fun _ => .bind (.emit _) fun _ => .bind (.whenever _ (.dmaWrite _ _)) fun _ =>
          .update fun _ => ⟨rfl, rfl, rfl, rfl⟩)
      (.modelFault _)

theorem restores_rxLoop (n : Nat) : ∀ rest, Restores (rxLoop n rest) := by
  induction n with
  | zero => intro rest; exact .update fun _ => ⟨rfl, rfl, rfl, rfl⟩
  | succ n ih =>
    intro rest
    exact .bind .get fun s => .ite
      (.bind (.update fun _ => ⟨rfl, rfl, rfl, rfl⟩) fun _ => .emit _)
      (.bind (.takeDescriptor _) fun _ => .bind (.descRead _ _) fun a => .ite
        (.bind (.dmaWrite _ _) fun _ => .bind
          (.bind (.draw _) fun _ => .bind (.draw _) fun _ => .bind (.draw _) fun _ => .bind (.draw _) fun _ =>
            .bind (.dmaWrite _ _) fun _ => .bind (.dmaWrite _ _) fun _ => .bind (.dmaWrite _ _) fun _ =>
            .bind (.dmaWrite _ _) fun _ => .dmaWrite _ _) fun _ =>
          .bind (.update fun _ => ⟨rfl, rfl, rfl, rfl⟩) fun _ => .ite (.pure _) (ih _))
        (.modelFault _))

theorem restores_devRxFrame (f : List Byte) : Restores (devRxFrameOp f) :=
  .bind .get fun _ => .bind (.require _ _) fun _ => .ite (.emit _) (.ite (.emit _) (restores_rxLoop _ _))

theorem restores_tryDevice (e : DevEvent) : Restores (tryDevice e) := fun s => by
  have h : Restores (devEvent e) := by
    cases e with
    | reset => exact restores_devReset
    | txStep => exact restores_devTxStep
    | rxFrame f => exact .bind (.require _ _) fun _ => restores_devRxFrame f
  unfold tryDevice
  split
  · exact ⟨fun _ t e => (by cases e; exact .refl _), fun t e => (by cases e)⟩
  · exact h s

theorem restores_point : Restores point := fun s => by
  have hr : ∀ es, Restores (runDevices es) := by
    intro es
    induction es with
    | nil => exact .pure _
    | cons e es ih => exact .bind (restores_tryDevice e) fun _ => ih
  unfold point
  split
  · exact ⟨fun _ t e => (by cases e; exact .refl _), fun t e => (by cases e)⟩
  · next es rest _ =>
    have h := hr es { s with sched := rest }
    exact ⟨fun a t e => h.1 a t e, fun t e => h.2 t e⟩

theorem restores_bufRead (who : Owner) (b : Addr) (off n : Nat) : Restores (bufRead who b off n) :=
  .bind restores_point fun _ => .bind .get fun _ => .ite (.memRead _ _) (.modelFault _)

theorem restores_bufWrite (who : Owner) (b : Addr) (off : Nat) (bs : List Byte) :
    Restores (bufWrite who b off bs) :=
  .bind restores_point fun _ => .bind .get fun _ => .ite (.memWrite _ _) (.modelFault _)

theorem restores_bufWriteFields (who : Owner) (b : Addr) (fs : List (Nat × List Byte)) :
    Restores (bufWriteFields who b fs) := by
  induction fs with
  | nil => exact .pure _
  | cons f fs ih => exact .bind (restores_bufWrite _ _ _ _) fun _ => ih

theorem restores_txdWrite (i off : Nat) (bs : List Byte) : Restores (txdWrite i off bs) :=
  .bind restores_point fun _ => .bind .get fun _ => .ite (.modelFault _) (.guardFault _ (.memWrite _ _))

theorem restores_rxdWrite (i off : Nat) (bs : List Byte) : Restores (rxdWrite i off bs) :=
  .bind restores_point fun _ => .bind .get fun _ => .ite (.modelFault _) (.memWrite _ _)

theorem restores_rxdPlace (i off : Nat) (bs : List Byte) : Restores (rxdPlace i off bs) :=
  .bind restores_point fun _ => .bind .get fun s => .ite (.modelFault _) (by
    cases s.cfg.rxInitView
    exacts [.dmaWrite _ _, .memWrite _ _])

theorem restores_descWriteFields {write : Nat → List Byte → M Unit} (h : ∀ off bs, Restores (write off bs))
    (fs : List (Nat × List Byte)) : Restores (descWriteFields write fs) := by
  induction fs with
  | nil => exact .pure _
  | cons f fs ih => exact .bind (h _ _) fun _ => ih

theorem restores_txdPoll (i : Nat) : Restores (txdPoll i) :=
  .bind restores_point fun _ => .bind .get fun _ => .guardFault _ (.memRead _ _)

theorem restores_rxdPoll (i : Nat) : Restores (rxdPoll i) :=
  .bind restores_point fun _ => .bind .get fun _ => .memRead _ _

theorem restores_rxdRead (i off n : Nat) : Restores (rxdRead i off n) :=
  .bind restores_point fun _ => .bind .get fun _ => .ite (.modelFault _) (.memRead _ _)

theorem restores_fence : Restores fence :=
  .bind restores_point fun _ => .update fun _ => ⟨rfl, rfl, rfl, rfl⟩

theorem restores_regRead (name : RegName) : Restores (regRead name) :=
  .bind restores_point fun _ => .bind .get fun _ => .ite
    (.bind (.update fun _ => ⟨rfl, rfl, rfl, rfl⟩) fun _ => .pure _)
    (.ite (.pure _) (.bind (.draw _) fun _ => .pure _))

theorem restores_regStore (name : RegName) (v : Word) (f : Params → DevRegs → DevRegs) :
    Restores (regStore name v f) := by
  refine .bind restores_point fun _ => .bind .get fun s => ?_
  split
  · exact .refuse _
  · exact .update fun _ => ⟨rfl, rfl, rfl, rfl⟩

theorem restores_regWrite (name : RegName) (v : Word) : Restores (regWrite name v) := restores_regStore _ _ _

theorem restores_ctrlAssertReset (v : Word) : Restores (ctrlAssertReset v) :=
  .bind restores_point fun _ => .update fun _ => ⟨rfl, rfl, rfl, rfl⟩

theorem restores_alloc (who : Owner) : Restores (alloc who) := by
  refine .bind restores_point fun _ s => ?_
  obtain ⟨r, l, n, h⟩ := nextAllocAnswer_spec s
  simp only [bind_apply, get_apply, h]
  cases r with
  | none => exact ⟨fun _ t e => (by cases e; exact ⟨rfl, rfl, rfl, rfl⟩), fun t e => (by cases e)⟩
  | some b =>
    simp only [ite_apply]
    split
    · exact ⟨fun _ t e => (by cases e; exact ⟨rfl, rfl, rfl, rfl⟩), fun t e => (by cases e)⟩
    · exact ⟨fun _ t e => (by cases e; exact ⟨rfl, rfl, rfl, rfl⟩), fun t e => (by cases e)⟩

theorem restores_release (who : Owner) (b : Addr) : Restores (release who b) :=
  .bind restores_point fun _ => .bind .get fun _ => .guardFault _
    (.update fun _ => ⟨rfl, rfl, rfl, rfl⟩)

theorem restores_releaseOld (t : Nat) : Restores (releaseOld t) := by
  refine .bind .get fun s => ?_
  split
  · exact restores_release _ _
  · exact .pure _

theorem restores_fillTxSlot (t : Nat) (buf : Addr) (len : Half) : Restores (fillTxSlot t buf len) :=
  .bind (.update fun _ => ⟨rfl, rfl, rfl, rfl⟩) fun _ =>
    .bind (restores_txdWrite _ _ _) fun _ => .bind (restores_txdWrite _ _ _) fun _ =>
    .bind (restores_txdWrite _ _ _) fun _ => .bind (restores_txdWrite _ _ _) fun _ =>
    .bind (restores_txdWrite _ _ _) fun _ => .bind (restores_txdWrite _ _ _) fun _ => restores_txdWrite _ _ _

theorem restores_publishTx (t : Nat) : Restores (publishTx t) :=
  .bind restores_fence fun _ => .bind .get fun _ => restores_regStore _ _ _

theorem restores_txSubmit (who : Owner) (buf : Addr) (len : Half) : Restores (txSubmitOp who buf len) :=
  .bind .get fun _ => .bind (.require _ _) fun _ => .bind (.require _ _) fun _ =>
    .withLock _ (.bind (restores_regRead _) fun _ => .bind (restores_txdPoll _) fun _ =>
      .ite (.pure _) (.bind (restores_releaseOld _) fun _ => .bind (restores_fillTxSlot _ _ _) fun _ =>
        .bind (restores_publishTx _) fun _ => .pure _))

theorem restores_cksumMem (a n : Nat) : Restores (cksumMem a n) := by
  refine .bind restores_point fun _ => .bind .get fun s => ?_
  split
  · exact .modelFault _
  · exact .bind (.memRead _ _) fun _ => .pure _

theorem restores_cksumBuf (who : Owner) (b : Addr) (off n : Nat) : Restores (cksumBuf who b off n) :=
  .bind (restores_bufRead _ _ _ _) fun _ => .pure _

theorem restores_arpReplyBuild (p : Params) (b r : Addr) : Restores (arpReplyBuild p b r) :=
  .bind (restores_bufRead _ _ _ _) fun _ => .bind (restores_bufWrite _ _ _ _) fun _ =>
  .bind (restores_bufWriteFields _ _ _) fun _ => .bind (restores_bufRead _ _ _ _) fun _ =>
  .bind (restores_bufWrite _ _ _ _) fun _ => .bind (restores_bufRead _ _ _ _) fun _ => restores_bufWrite _ _ _ _

theorem restores_portWake (q : Nat) : Restores (portWake q) := .bind restores_point fun _ => .emit _

theorem restores_arpRx (b : Addr) (len : Half) : Restores (arpRxOp b len) := by
  refine .bind .get fun _ => .ite (.bind (.emit _) fun _ => restores_release _ _)
    (.bind (.update fun _ => ⟨rfl, rfl, rfl, rfl⟩) fun _ => .bind (restores_alloc _) fun x => ?_)
  split
  · exact .fatal _ _
  · exact .bind (restores_arpReplyBuild _ _ _) fun _ => .bind (restores_txSubmit _ _ _) fun _ =>
      .bind (.whenever _ (.bind (.emit _) fun _ => restores_release _ _)) fun _ => restores_release _ _

theorem restores_portLookup (port : Half) : Restores (portLookup port) := by
  refine .bind restores_point fun _ => .bind .get fun s => ?_
  split
  · exact .pure _
  · exact .pure _
  · exact .bind (.draw _) fun _ => .pure _

theorem restores_portEnqueue (q : Nat) (pkt : Packet) : Restores (portEnqueue q pkt) := by
  refine .bind restores_point fun _ => .bind .get fun s => ?_
  split
  · exact .pure _
  · exact .ite (.bind (.update fun _ => ⟨rfl, rfl, rfl, rfl⟩) fun _ => .pure _)
      (.bind (.update fun _ => ⟨rfl, rfl, rfl, rfl⟩) fun _ => .pure _)

theorem restores_ipRx (b : Addr) (len : Half) : Restores (ipRxOp b len) := by
  refine .bind (restores_bufRead _ _ _ _) fun _ => .bind (restores_bufRead _ _ _ _) fun _ =>
    .bind (restores_portLookup _) fun q => ?_
  split
  · exact .bind (.emit _) fun _ => .bind (.emit _) fun _ => restores_release _ _
  · exact .bind (restores_bufRead _ _ _ _) fun _ => .bind (restores_portEnqueue _ _) fun _ => .ite
      (.bind (.update fun _ => ⟨rfl, rfl, rfl, rfl⟩) fun _ => .bind (.emit _) fun _ => restores_portWake _)
      (.bind (.emit _) fun _ => restores_release _ _)

theorem restores_typeIs (b : Addr) (len : Half) (n : Nat) (ty : Half) : Restores (typeIs b len n ty) :=
  .ite (.bind (restores_bufRead _ _ _ _) fun _ => .pure _) (.pure _)

theorem restores_classify (b : Addr) (len : Half) : Restores (classifyOp b len) :=
  .bind (restores_typeIs _ _ _ _) fun _ => .ite (.callFrom _ (restores_arpRx _ _))
    (.bind (restores_typeIs _ _ _ _) fun _ => .ite (.callFrom _ (restores_ipRx _ _))
      (.bind (.emit _) fun _ => restores_release _ _))

theorem restores_udpPayload (b : Addr) (n : BitVec 64) : Restores (udpPayloadOp b n) :=
  .bind .get fun _ => .bind (restores_bufRead _ _ _ _) fun _ => .bind (restores_bufRead _ _ _ _) fun _ =>
    .bind (restores_bufRead _ _ _ _) fun _ => .bind (restores_bufRead _ _ _ _) fun _ =>
    .bind (restores_bufRead _ _ _ _) fun _ => .pure _

theorem restores_deliver (i k : Nat) : Restores (deliver i k) :=
  .bind .get fun _ => .bind (restores_rxdRead _ _ _) fun _ => .bind (.update fun _ => ⟨rfl, rfl, rfl, rfl⟩) fun _ =>
    .callFrom _ (restores_classify _ _)

theorem restores_replenish (i : Nat) : Restores (replenish i) := by
  refine .bind (restores_alloc _) fun nb => ?_
  split
  · exact .fatal _ _
  · exact .bind (.update fun _ => ⟨rfl, rfl, rfl, rfl⟩) fun _ => .bind (restores_rxdWrite _ _ _) fun _ =>
      .bind (restores_rxdWrite _ _ _) fun _ => .bind restores_fence fun _ => restores_regWrite _ _

theorem restores_drainLoop (k left : Nat) : ∀ i n, Restores (drainLoop k left i n) := by
  induction left with
  | zero => intro i n; exact .pure _
  | succ left ih =>
    intro i n
    exact .bind (restores_rxdPoll _) fun _ => .ite
      (.ite (.bind (restores_deliver _ _) fun _ => .bind (restores_replenish _) fun _ => ih _ _) (.fatal _ _)) (.pure _)

theorem restores_rxDrain : Restores rxDrainOp :=
  .withLock _ (.bind (restores_regRead _) fun _ => .bind .get fun _ => .bind (restores_drainLoop _ _ _ _) fun _ =>
    .whenever _ (.emit _))

theorem restores_copyIn (b : Addr) (off : Nat) (pl : List Byte) : Restores (copyIn b off pl) := by
  refine .bind restores_point fun _ s => ?_
  obtain ⟨r, l, n, h⟩ := nextCopyAnswer_spec s
  have h1 : Restores (do
      if r then
        if ownsRange s .framer (b.toNat + off) pl.length then do
          memWrite (b.toNat + off) pl
          pure true
        else raiseModelFault (accessFault s (b.toNat + off))
      else pure false : M Bool) :=
    .ite (.ite (.bind (.memWrite _ _) fun _ => .pure _) (.modelFault _)) (.pure _)
  have h2 := h1 { s with copyAns := l, draws := n }
  simp only [bind_apply, get_apply, h, update_apply]
  exact ⟨fun a t e => h2.1 a t e, fun t e => h2.2 t e⟩

theorem restores_udpTx (sp : Half) (ip : Word) (dp : Half) (pl : List Byte) :
    Restores (udpTxOp sp ip dp pl) := by
  refine .bind .get fun s => .ite (.pure _) (.bind (restores_alloc _) fun x => ?_)
  split
  · exact .pure _
  · exact .bind (restores_bufWriteFields _ _ _) fun _ => .bind (restores_cksumBuf _ _ _ _) fun _ =>
      .bind (restores_bufWrite _ _ _ _) fun _ => .bind (restores_bufWriteFields _ _ _) fun _ =>
      .bind (restores_copyIn _ _ _) fun _ => .ite
        (.bind (restores_txSubmit _ _ _) fun _ => .ite (.bind (restores_release _ _) fun _ => .pure _) (.pure _))
        (.bind (restores_release _ _) fun _ => .pure _)

/-- IRQ returns to an idle software, whatever it did. -/
theorem irqOp_returns {s t : State} (h : irqOp s = .ok ((), t)) :
    t.sw = .idle ∧ t.locks = s.locks ∧ t.halted = s.halted ∧ t.modelFault = s.modelFault := by
  unfold irqOp at h
  simp only [bind_apply, irqEntry_apply] at h
  split at h
  · next a u hu =>
    have h1 := (restores_regWrite _ _ _).1 a u hu
    split at h
    · next b v hv =>
      have h2 := (Restores.callFrom _ restores_rxDrain u).1 b v hv
      cases h
      exact ⟨rfl, h2.2.1.trans h1.2.1, h2.2.2.1.trans h1.2.2.1, h2.2.2.2.trans h1.2.2.2⟩
    · cases h
  · cases h

theorem irqOp_ends {s t : State} (h : irqOp s = .error (.ended t)) : Failed t := by
  unfold irqOp at h
  simp only [bind_apply, irqEntry_apply] at h
  split at h
  · next a u hu =>
    split at h
    · cases h
    · next e he => cases h; exact (Restores.callFrom _ restores_rxDrain u).2 t he
  · next e he => cases h; exact (restores_regWrite _ _ _).2 t he

theorem restores_checkAlign (n i : Nat) : Restores (checkAlign n i) :=
  .bind .get fun _ => .ite (.fatal _ _) (.pure _)

theorem restores_initTxSlot (i : Nat) : Restores (initTxSlot i) :=
  .bind (restores_descWriteFields (restores_txdWrite i) _) fun _ => .update fun _ => ⟨rfl, rfl, rfl, rfl⟩

theorem restores_initTxRing : Restores initTxRing :=
  .bind .get fun _ => .bind (restores_regWrite _ _) fun _ => .bind restores_fence fun _ =>
    .bind (.forUpTo restores_initTxSlot _) fun _ =>
    .bind (restores_checkAlign _ _) fun _ => .bind (restores_regWrite _ _) fun _ =>
    .bind (restores_regWrite _ _) fun _ => .bind (restores_regWrite _ _) fun _ =>
    .bind (restores_regWrite _ _) fun _ => restores_regWrite _ _

theorem restores_initRxSlot (i : Nat) : Restores (initRxSlot i) := by
  refine .bind (restores_alloc _) fun b => ?_
  split
  · exact .fatal _ _
  · exact .bind (.update fun _ => ⟨rfl, rfl, rfl, rfl⟩) fun _ =>
      restores_descWriteFields (restores_rxdPlace i) _

theorem restores_initRxRing : Restores initRxRing :=
  .bind .get fun _ => .bind (.forUpTo restores_initRxSlot _) fun _ => .bind (restores_checkAlign _ _) fun _ =>
    .bind (restores_regWrite _ _) fun _ => .bind (restores_regWrite _ _) fun _ =>
    .bind (restores_regWrite _ _) fun _ => .bind (restores_regWrite _ _) fun _ => restores_regWrite _ _

theorem restores_initEngines : Restores initEngines := by
  refine .bind .get fun _ => .bind (restores_regWrite _ _) fun _ => .bind (restores_regWrite _ _) fun _ =>
    .bind (.forUpTo (fun j => ?_) _) fun _ => .bind (restores_regWrite _ _) fun _ =>
    .bind (restores_regWrite _ _) fun _ => .bind (restores_regWrite _ _) fun _ =>
    .bind (restores_regWrite _ _) fun _ => .bind (restores_regWrite _ _) fun _ => restores_regWrite _ _
  unfold initMta
  split
  · exact restores_regWrite _ _
  · exact .pure _

/-- INIT from S4 on returns to an idle software with INIT done, the locks and the failure records as they
were, or ends in failure. -/
theorem initFinish_returns (s : State) :
    (∀ t, initFinish s = .ok ((), t) → t.sw = .idle ∧ t.initPhase = .done ∧ t.locks = s.locks ∧
      t.halted = s.halted ∧ t.modelFault = s.modelFault) ∧
    (∀ t, initFinish s = .error (.ended t) → Failed t) := by
  have h : Restores (do initTxRing; initRxRing; initEngines : M Unit) :=
    .bind restores_initTxRing fun _ => .bind restores_initRxRing fun _ => restores_initEngines
  have e : initFinish = (do initTxRing; initRxRing; initEngines : M Unit) >>= fun _ =>
      update fun s => { s with sw := .idle, initPhase := .done } := by
    unfold initFinish
    simp only [bind_assoc]
  rw [e]
  constructor
  · intro t ht
    rw [bind_apply] at ht
    split at ht
    · next a u hu =>
      cases ht
      have hc := (h s).1 a u hu
      exact ⟨rfl, rfl, hc.2.1, hc.2.2.1, hc.2.2.2⟩
    · cases ht
  · intro t ht
    rw [bind_apply] at ht
    split at ht
    · cases ht
    · next x hx => cases ht; exact (h s).2 t hx

/-- S3 returns with the control as it was, or ends in failure, or holds INIT. -/
theorem awaitReset_returns (n : Nat) : ∀ s,
    (∀ a t, awaitReset n s = .ok (a, t) → SameControl s t) ∧
    (∀ t, awaitReset n s = .error (.ended t) → Failed t ∨ (t.sw = .initHold ∧ t.locks = s.locks)) := by
  induction n with
  | zero =>
    intro s
    exact ⟨fun _ t e => (by cases e), fun t e => (by cases e; exact .inr ⟨rfl, rfl⟩)⟩
  | succ n ih =>
    intro s
    unfold awaitReset
    simp only [bind_apply, get_apply, ite_apply]
    have hp := restores_point s
    split
    · next a u hu =>
      have h1 := hp.1 a u hu
      split
      · exact ⟨fun a t e => h1.trans ((ih u).1 a t e), fun t e => by
          rcases (ih u).2 t e with h | h
          · exact .inl h
          · exact .inr ⟨h.1, h.2.trans h1.2.1⟩⟩
      · exact ⟨fun _ t e => (by cases e; exact h1), fun t e => (by cases e)⟩
    · next x hx =>
      exact ⟨fun _ t e => (by cases e), fun t e => (by cases e; exact .inl (hp.2 _ hx))⟩

theorem initBody_returns (s : State) :
    (∀ t, initBody s = .ok ((), t) → t.sw = .idle ∧ t.locks = s.locks) ∧
    (∀ t, initBody s = .error (.ended t) → Failed t ∨ (t.sw = .initHold ∧ t.locks = s.locks)) := by
  have hs : Restores initStart :=
    .bind (restores_regWrite _ _) fun _ => .bind (restores_regRead _) fun _ => restores_ctrlAssertReset _
  unfold initBody
  simp only [bind_apply, get_apply]
  split
  · next a u hu =>
    have h1 := (hs s).1 a u hu
    split
    · next b v hv =>
      have h2 := (awaitReset_returns _ u).1 b v hv
      have h3 := initFinish_returns v
      exact ⟨fun t e => ⟨(h3.1 t e).1, (h3.1 t e).2.2.1.trans (h2.2.1.trans h1.2.1)⟩,
        fun t e => .inl (h3.2 t e)⟩
    · next x hx =>
      refine ⟨fun t e => (by cases e), fun t e => ?_⟩
      cases e
      rcases (awaitReset_returns _ u).2 t hx with h | h
      · exact .inl h
      · exact .inr ⟨h.1, h.2.trans h1.2.1⟩
  · next x hx =>
    exact ⟨fun t e => (by cases e), fun t e => (by cases e; exact .inl ((hs s).2 t hx))⟩

end Sys2Proof.Machine
end

