-- ==== Sys2Proof/Laws/Calls.lean ====
section
/-! SUPPORT. How operations start: outside calls and internal calls, evaluated, and an operation's outcome from
the outcome of its body. -/

namespace Sys2Proof.Machine

/-- An outside call runs its body where software is idle and INIT is complete. -/
theorem fromOutside_apply (m : M Unit) (s : State) :
    fromOutside m s =
      if s.sw = .idle then
        if s.initPhase = .done then m s else .error (.refused .beforeInit)
      else .error (.refused .softwareBusy) := by
  simp only [fromOutside, bind_apply, get_apply, require_apply]
  by_cases h1 : s.sw = .idle <;> by_cases h2 : s.initPhase = .done <;> simp [h1, h2]

/-- An internal call runs its body where the sequencer stands at its place. -/
theorem internally_apply (p : SwSeq → Bool) (m : M Unit) (s : State) :
    internally p m s = if p s.sw = true then m s else .error (.refused .internalOperation) := by
  simp only [internally, bind_apply, get_apply, require_apply]
  by_cases h : p s.sw = true <;> simp [h]

/-- The outcome of an operation while the block runs. -/
theorem exec_running {s : State} (h : Running s) (i : Instr) :
    exec i s = match malformed s.cfg i with
      | some w => .refused (.malformedOperands w)
      | none => outcomeOf (bodyOf i s) := by
  cases hm : malformed s.cfg i <;> simp only [exec_eq, runOp, h.1, h.2, hm]

theorem exec_of_body {s : State} {i : Instr} (h : Running s) (hw : malformed s.cfg i = none) :
    exec i s = outcomeOf (bodyOf i s) := by
  rw [exec_running h, hw]

/-- A next state of an operation is what its body returned or ended with. -/
theorem exec_next {i : Instr} {s t : State} (h : exec i s = .next t) :
    Running s ∧ malformed s.cfg i = none ∧ (bodyOf i s = .ok ((), t) ∨ bodyOf i s = .error (.ended t)) := by
  rw [exec_eq] at h
  obtain ⟨h1, h2, h3, h4⟩ := runOp_next h
  exact ⟨⟨h1, h2⟩, h3, h4⟩

theorem Ready.running {s : State} (h : Ready s) : Running s := ⟨h.halted, h.modelFault⟩

theorem ReadyAt.running {p : SwSeq} {s : State} (h : ReadyAt p s) : Running s := ⟨h.halted, h.modelFault⟩

/-- An outside operation in a ready state runs its body. -/
theorem Ready.fromOutside {s : State} (h : Ready s) (m : M Unit) : fromOutside m s = m s := by
  rw [fromOutside_apply, if_pos h.sw, if_pos h.initPhase]

/-! ### The answer at the end of an operation -/

/-- The state with one more answer to software. -/
def answered (r : OpResult) (s : State) : State := { s with results := s.results ++ [r] }

theorem byteAt_answered (r : OpResult) (s : State) (c : Nat) : byteAt (answered r s) c = byteAt s c := rfl
theorem txd_answered (r : OpResult) (s : State) (i : Nat) : txd (answered r s) i = txd s i := rfl
theorem rxd_answered (r : OpResult) (s : State) (i : Nat) : rxd (answered r s) i = rxd s i := rfl
theorem ownerOf_answered (r : OpResult) (s : State) (b : Addr) : ownerOf (answered r s) b = ownerOf s b := rfl

/-- An answer leaves the conditions on a state alone. -/
theorem Ready.answered {r : OpResult} {s : State} (h : Ready s) : Ready (answered r s) :=
  ⟨h.halted, h.modelFault, h.initPhase, h.sw, h.locks, h.sched⟩

theorem RingsInside.answered {r : OpResult} {s : State} (h : RingsInside s) : RingsInside (answered r s) :=
  ⟨h.1, h.2⟩

/-- An operation that answers a result code, from its body. -/
theorem answer_code_ok {m : M ResultCode} {s t : State} {r : ResultCode} (h : m s = .ok (r, t)) :
    (do let r ← m; answer (.code r) : M Unit) s = .ok ((), answered (.code r) t) := by
  simp only [bind_apply, h, answer_apply]
  rfl

/-- An operation of an outside caller that answers a result code, in a ready state. -/
theorem exec_code_ready {s t : State} (hr : Ready s) {i : Instr} {m : M ResultCode} {r : ResultCode}
    (hw : malformed s.cfg i = none) (hb : bodyOf i = Sys2Proof.Machine.fromOutside (do let r ← m; answer (.code r)))
    (h : m s = .ok (r, t)) : exec i s = .next (answered (.code r) t) := by
  rw [exec_of_body hr.running hw, hb, hr.fromOutside, answer_code_ok h]
  rfl

end Sys2Proof.Machine
end

