-- ==== Sys2Proof/Laws/Quiet.lean ====
section
/-! SUPPORT. What each shared operation does where no device event is scheduled at its accesses (`sched = []`):
one equation per operation, which proofs about whole operations cite instead of unfolding it. -/

namespace Sys2Proof.Machine

/-! ### Memory written in several pieces -/

theorem memPutBytes_append (xs ys : List Byte) : ∀ (m : List Host.Cell) (a : Nat),
    memPutBytes m a (xs ++ ys) = memPutBytes (memPutBytes m a xs) (a + xs.length) ys := by
  induction xs with
  | nil => intro m a; simp [memPutBytes]
  | cons x xs ih =>
    intro m a
    simp only [List.cons_append, memPutBytes, ih, List.length_cons]
    congr 1
    omega

/-- The memory after field writes at offsets of a base. -/
def putFields (m : List Host.Cell) (base : Nat) : List (Nat × List Byte) → List Host.Cell
  | [] => m
  | (off, bs) :: fs => putFields (memPutBytes m (base + off) bs) base fs

/-- A write of INIT's S10, as it reaches what the device is sure to see (log 48). -/
def placed (p : Params) (f : List Host.Cell → List Host.Cell) (m : List Host.Cell) : List Host.Cell :=
  match p.rxInitView with
  | .written => f m
  | .fenced => m

theorem placed_fenced {p : Params} (h : p.rxInitView = .fenced) (f : List Host.Cell → List Host.Cell)
    (m : List Host.Cell) : placed p f m = m := by simp [placed, h]

theorem placed_written {p : Params} (h : p.rxInitView ≠ .fenced) (f : List Host.Cell → List Host.Cell)
    (m : List Host.Cell) : placed p f m = f m := by
  unfold placed
  cases e : p.rxInitView with
  | written => rfl
  | fenced => exact absurd e h

/-- Fields that stand one behind the other from `off` on. -/
def contiguous : Nat → List (Nat × List Byte) → Prop
  | _, [] => True
  | off, (o, bs) :: fs => o = off ∧ contiguous (off + bs.length) fs

/-- Contiguous field writes are one write of the fields' bytes. -/
theorem putFields_contiguous (base : Nat) (fs : List (Nat × List Byte)) : ∀ (m : List Host.Cell) (off : Nat),
    contiguous off fs → putFields m base fs = memPutBytes m (base + off) (fs.map Prod.snd).flatten := by
  induction fs with
  | nil => intro m off _; simp [putFields, memPutBytes]
  | cons f fs ih =>
    obtain ⟨o, bs⟩ := f
    rintro m off ⟨rfl, h⟩
    rw [putFields, ih _ _ h]
    simp [memPutBytes_append, Nat.add_assoc]

/-- The bytes of a state whose memory alone is new. -/
theorem byteAt_withMem (s : State) (m : List Host.Cell) (c : Nat) :
    byteAt { s with mem := m } c =
      match memGet m c with
      | some b => b
      | none => Config.freshByte (epochAt s c) c := rfl

/-- A byte is what its cell holds. -/
theorem byteAt_of_memGet {s : State} {c : Nat} {b : Byte} (h : memGet s.mem c = some b) : byteAt s c = b := by
  simp [byteAt, h]

/-! ### Accesses -/

section
variable {s : State} (hs : s.sched = [])
include hs

theorem point_quiet : point s = .ok ((), s) := by simp [point, hs]

theorem fence_quiet : fence s = .ok ((), fenceState s) := by simp [fence, point_quiet hs]

theorem bufRead_quiet {who : Owner} {b : Addr} {off n : Nat} (ho : ownsRange s who (b.toNat + off) n = true)
    (hf : b.toNat + off + n ≤ addrSpace) :
    bufRead who b off n s = .ok (bytesAt s (b.toNat + off) n, s) := by
  simp [bufRead, point_quiet hs, ho, memRead_apply, hf]

theorem bufWrite_quiet {who : Owner} {b : Addr} {off : Nat} {bs : List Byte}
    (ho : ownsRange s who (b.toNat + off) bs.length = true) (hf : b.toNat + off + bs.length ≤ addrSpace) :
    bufWrite who b off bs s = .ok ((), { s with mem := memPutBytes s.mem (b.toNat + off) bs }) := by
  simp [bufWrite, point_quiet hs, ho, memWrite_apply, hf]

theorem txdWrite_quiet {i off : Nat} {bs : List Byte} (hi : i < s.cfg.nTx) (hd : devOwnsTx s i = false)
    (hf : txdAddr s i + off + bs.length ≤ addrSpace) :
    txdWrite i off bs s = .ok ((), { s with mem := memPutBytes s.mem (txdAddr s i + off) bs }) := by
  simp [txdWrite, point_quiet hs, hd, txSlotFault_none hi, memWrite_apply, hf]

theorem rxdWrite_quiet {i off : Nat} {bs : List Byte} (hd : devOwnsRx s i = false)
    (hf : rxdAddr s i + off + bs.length ≤ addrSpace) :
    rxdWrite i off bs s = .ok ((), { s with mem := memPutBytes s.mem (rxdAddr s i + off) bs }) := by
  simp [rxdWrite, point_quiet hs, hd, memWrite_apply, hf]

theorem rxdPlace_quiet {i off : Nat} {bs : List Byte} (hd : devOwnsRx s i = false)
    (hf : rxdAddr s i + off + bs.length ≤ addrSpace) :
    rxdPlace i off bs s = .ok ((), { s with
      mem := memPutBytes s.mem (rxdAddr s i + off) bs
      fenced := placed s.cfg (fun m => memPutBytes m (rxdAddr s i + off) bs) s.fenced }) := by
  simp only [rxdPlace, bind_apply, point_quiet hs, get_apply, hd, placed]
  cases s.cfg.rxInitView <;> simp [dmaWrite_apply, memWrite_apply, hf, dmaPut]

theorem txdPoll_quiet {i : Nat} (hi : i < s.cfg.nTx) (hf : txdAddr s i + offStatus + 1 ≤ addrSpace) :
    txdPoll i s = .ok (bytesAt s (txdAddr s i + offStatus) 1, s) := by
  simp [txdPoll, point_quiet hs, txSlotFault_none hi, memRead_apply, hf]

theorem rxdPoll_quiet {i : Nat} (hf : rxdAddr s i + offStatus + 1 ≤ addrSpace) :
    rxdPoll i s = .ok (bytesAt s (rxdAddr s i + offStatus) 1, s) := by
  simp [rxdPoll, point_quiet hs, memRead_apply, hf]

theorem rxdRead_quiet {i off n : Nat} (hd : devOwnsRx s i = false) (hf : rxdAddr s i + off + n ≤ addrSpace) :
    rxdRead i off n s = .ok (bytesAt s (rxdAddr s i + off) n, s) := by
  simp [rxdRead, point_quiet hs, hd, memRead_apply, hf]

/-- A register without reserved bits and without a read side effect answers its value. -/
theorem regRead_quiet {name : RegName} (hn : name ≠ .icr) (hr : reservedMask s.cfg name = 0) :
    regRead name s = .ok (regValue s.cfg s.dev name, s) := by
  simp [regRead, point_quiet hs, hn, hr]

/-- A read of ICR answers it and clears it. -/
theorem regRead_icr_quiet : regRead .icr s = .ok (s.dev.icr, setDev { s.dev with icr := 0 } s) := by
  simp [regRead, point_quiet hs]

/-- A register with reserved bits answers its value with a free value in those bits. -/
theorem regRead_reserved_quiet {name : RegName} (hn : name ≠ .icr) (hr : reservedMask s.cfg name ≠ 0) :
    ∃ r l, regRead name s = .ok ((regValue s.cfg s.dev name &&& ~~~reservedMask s.cfg name) |||
      (r &&& reservedMask s.cfg name), { s with drawAns := l, draws := s.draws + 1 }) := by
  obtain ⟨r, l, h⟩ := draw_spec 32 s
  refine ⟨r, l, ?_⟩
  simp only [regRead, bind_apply, point_quiet hs, get_apply, if_neg hn, if_neg hr, h, pure_apply]

/-- A register write that is not refused takes its effect on the device. -/
theorem regStore_quiet {name : RegName} {v : Word} {f : Params → DevRegs → DevRegs}
    (hr : regWriteRefusal s name v = none) : regStore name v f s = .ok ((), setDev (f s.cfg s.dev) s) := by
  simp [regStore, point_quiet hs, hr]

/-- REG_WRITE of a value it does not refuse. -/
theorem regWrite_quiet {name : RegName} {v : Word} (hr : regWriteRefusal s name v = none) :
    regWrite name v s = .ok ((), setDev (writeReg s.cfg name v s.dev) s) := regStore_quiet hs hr

theorem ctrlAssertReset_quiet (v : Word) :
    ctrlAssertReset v s = .ok ((), setDev (writeCtrl v true s.dev) s) := by
  simp [ctrlAssertReset, point_quiet hs]

/-- Alloc where the allocator answers a region it may give. -/
theorem alloc_quiet_some {who : Owner} {b : Addr} {s' : State} (ha : nextAllocAnswer s = (some b, s'))
    (hb : allocOk s b = true) : alloc who s = .ok (some b, allocState b who s') := by
  simp [alloc, point_quiet hs, ha, hb]

/-- Alloc where the allocator answers FAIL. -/
theorem alloc_quiet_none {who : Owner} {s' : State} (ha : nextAllocAnswer s = (none, s')) :
    alloc who s = .ok (none, s') := by
  simp [alloc, point_quiet hs, ha]

theorem release_quiet {who : Owner} {b : Addr} (hf : releaseFault s who b = none) :
    release who b s = .ok ((), releaseState b s) := by
  simp [release, point_quiet hs, hf]

/-- A component that is neither the transmit path nor the device releases its buffer. -/
theorem release_own_quiet {who : Owner} {b : Addr} (ho : ownerOf s b = who)
    (hw : who ≠ .device ∧ who ≠ .txPath := by decide) : release who b s = .ok ((), releaseState b s) :=
  release_quiet hs (by simp [releaseFault, ho, hw.1, hw.2])

end

/-- The transmit path's release of a buffer that an outstanding slot carries is refused (spec/20_memory.md R112). -/
theorem releaseFault_txHolds {s : State} {who : Owner} {b : Addr} (ho : ownerOf s b = .txPath)
    (ht : txHolds s b = true) : releaseFault s who b = some .ownershipViolation := by
  simp [releaseFault, ho, ht]

/-- Field writes into a buffer that `who` owns. -/
theorem bufWriteFields_quiet {who : Owner} {b : Addr} (fs : List (Nat × List Byte)) :
    ∀ {s : State}, s.sched = [] →
      (∀ f ∈ fs, ownsRange s who (b.toNat + f.1) f.2.length = true ∧
        b.toNat + f.1 + f.2.length ≤ addrSpace) →
      bufWriteFields who b fs s = .ok ((), { s with mem := putFields s.mem b.toNat fs }) := by
  induction fs with
  | nil => intro s _ _; rfl
  | cons f fs ih =>
    obtain ⟨off, bs⟩ := f
    intro s hs h
    have h1 := h (off, bs) (by simp)
    rw [bufWriteFields, bind_apply, bufWrite_quiet hs h1.1 h1.2]
    simp only
    rw [ih (s := { s with mem := memPutBytes s.mem (b.toNat + off) bs }) hs
      fun f hf => h f (List.mem_cons_of_mem _ hf)]
    rfl

/-- Field writes into a transmit descriptor that is software's. -/
theorem txdWriteFields_quiet {i : Nat} (fs : List (Nat × List Byte)) :
    ∀ {s : State}, s.sched = [] → i < s.cfg.nTx → devOwnsTx s i = false →
      (∀ f ∈ fs, txdAddr s i + f.1 + f.2.length ≤ addrSpace) →
      descWriteFields (txdWrite i) fs s = .ok ((), { s with mem := putFields s.mem (txdAddr s i) fs }) := by
  induction fs with
  | nil => intro s _ _ _ _; rfl
  | cons f fs ih =>
    obtain ⟨off, bs⟩ := f
    intro s hs hi hd h
    rw [descWriteFields, bind_apply, txdWrite_quiet hs hi hd (h (off, bs) (by simp))]
    simp only
    rw [ih (s := { s with mem := memPutBytes s.mem (txdAddr s i + off) bs }) hs hi hd
      fun f hf => h f (List.mem_cons_of_mem _ hf)]
    rfl

/-- INIT's field writes into a receive descriptor that is software's. -/
theorem rxdPlaceFields_quiet {i : Nat} (fs : List (Nat × List Byte)) :
    ∀ {s : State}, s.sched = [] → devOwnsRx s i = false →
      (∀ f ∈ fs, rxdAddr s i + f.1 + f.2.length ≤ addrSpace) →
      descWriteFields (rxdPlace i) fs s = .ok ((), { s with
        mem := putFields s.mem (rxdAddr s i) fs
        fenced := placed s.cfg (fun m => putFields m (rxdAddr s i) fs) s.fenced }) := by
  induction fs with
  | nil =>
    intro s _ _ _
    unfold placed
    cases s.cfg.rxInitView <;> rfl
  | cons f fs ih =>
    obtain ⟨off, bs⟩ := f
    intro s hs hd h
    rw [descWriteFields, bind_apply, rxdPlace_quiet hs hd (h (off, bs) (by simp))]
    simp only
    rw [ih (s := { s with
      mem := memPutBytes s.mem (rxdAddr s i + off) bs
      fenced := placed s.cfg (fun m => memPutBytes m (rxdAddr s i + off) bs) s.fenced })
      hs hd fun f hf => h f (List.mem_cons_of_mem _ hf)]
    simp only [placed]
    cases s.cfg.rxInitView <;> rfl

/-- A whole transmit descriptor, written field by field. -/
theorem txDescFields_quiet {s : State} {i : Nat} (d : TxDesc) (hs : s.sched = []) (hi : i < s.cfg.nTx)
    (hd : devOwnsTx s i = false) (hf : txdAddr s i + 16 ≤ addrSpace) :
    descWriteFields (txdWrite i) (txDescFields d) s =
      .ok ((), { s with mem := memPutBytes s.mem (txdAddr s i) (txDescBytes d) }) := by
  rw [txdWriteFields_quiet _ hs hi hd (by
    simp only [txDescFields, List.forall_mem_cons, leBytes_length, List.length_singleton, offAddr, offLength, offCso,
      offCmd, offStatus, offCss, offSpecial, List.not_mem_nil, false_implies, implies_true, and_true]
    omega)]
  rw [putFields_contiguous _ _ _ 0 (by
    simp [contiguous, txDescFields, leBytes_length, offAddr, offLength, offCso, offCmd, offStatus, offCss, offSpecial])]
  simp [txDescFields, txDescBytes]

/-- A whole receive descriptor of INIT's, written field by field. -/
theorem rxDescFields_quiet {s : State} {i : Nat} (d : RxDesc) (hs : s.sched = []) (hd : devOwnsRx s i = false)
    (hf : rxdAddr s i + 16 ≤ addrSpace) :
    descWriteFields (rxdPlace i) (rxDescFields d) s = .ok ((), { s with
      mem := memPutBytes s.mem (rxdAddr s i) (rxDescBytes d)
      fenced := placed s.cfg (fun m => memPutBytes m (rxdAddr s i) (rxDescBytes d)) s.fenced }) := by
  have hc : contiguous 0 (rxDescFields d) := by
    simp [contiguous, rxDescFields, leBytes_length, offAddr, offLength, offCsum, offErrors, offStatus, offSpecial]
  rw [rxdPlaceFields_quiet _ hs hd (by
    simp only [rxDescFields, List.forall_mem_cons, leBytes_length, List.length_singleton, offAddr, offLength, offCsum,
      offErrors, offStatus, offSpecial, List.not_mem_nil, false_implies, implies_true, and_true]
    omega)]
  simp only [putFields_contiguous _ _ _ 0 hc]
  simp [rxDescFields, rxDescBytes]

/-- `with_lock` where the lock is free and the body gives it back. -/
theorem withLock_ok {α : Type} {l : Lock} {m : M α} {s t : State} {a : α} (hl : l ∉ s.locks)
    (hm : m { s with locks := l :: s.locks } = .ok (a, t)) (ht : t.locks = l :: s.locks) :
    withLock l m s = .ok (a, { t with locks := s.locks }) := by
  simp [withLock, acquire_apply, hl, hm, ht]

/-- A lock is taken and given back around a body that ends the step. -/
theorem withLock_error {α : Type} {l : Lock} {m : M α} {s : State} {e : Stop} (hl : l ∉ s.locks)
    (hm : m { s with locks := l :: s.locks } = .error e) : withLock l m s = .error e := by
  simp [withLock, acquire_apply, hl, hm]

theorem callFrom_ok {α : Type} {p : SwSeq} {m : M α} {s t : State} {a : α}
    (hm : m { s with sw := p } = .ok (a, t)) : callFrom p m s = .ok (a, { t with sw := s.sw }) := by
  simp [callFrom, hm]

theorem callFrom_error {α : Type} {p : SwSeq} {m : M α} {s : State} {e : Stop}
    (hm : m { s with sw := p } = .error e) : callFrom p m s = .error e := by
  simp [callFrom, hm]

/-! ### Ownership -/

/-- A buffer that is not the receive path's is its recorded owner's. -/
theorem ownerNow_of_ne {s : State} {r : Buf} (h : r.owner ≠ .rxPath) : ownerNow s r = r.owner := by
  simp [ownerNow, h]

/-- Which buffers the device's receive slots hold depends on the cursors and the owner records alone. -/
theorem deviceHolds_congr {s t : State} (hc : t.cfg = s.cfg) (hh : t.dev.rdh = s.dev.rdh)
    (ht : t.dev.rdt = s.dev.rdt) (ho : t.rxOwner = s.rxOwner) (x : Addr) : deviceHolds t x = deviceHolds s x := by
  simp only [deviceHolds, devOwnsRx, hc, hh, ht, ho]

/-- Who owns a recorded buffer depends on the receive cursors and the receive owner records alone. -/
theorem ownerNow_congr {s t : State} (hc : t.cfg = s.cfg) (hh : t.dev.rdh = s.dev.rdh) (ht : t.dev.rdt = s.dev.rdt)
    (ho : t.rxOwner = s.rxOwner) (r : Buf) : ownerNow t r = ownerNow s r := by
  simp only [ownerNow, deviceHolds_congr hc hh ht ho]

/-- The ownership map depends on the records, the receive cursors and the receive owner records alone. -/
theorem ownerOf_congr {s t : State} (hb : t.bufs = s.bufs) (hc : t.cfg = s.cfg) (hh : t.dev.rdh = s.dev.rdh)
    (ht : t.dev.rdt = s.dev.rdt) (ho : t.rxOwner = s.rxOwner) (x : Addr) : ownerOf t x = ownerOf s x := by
  simp only [ownerOf, hb, ownerNow_congr hc hh ht ho]

/-- The ownership map from the record and the receive ring (spec/00_scope.md R24, spec/42_receive.md R305). -/
theorem ownerOf_eq (s : State) (x : Addr) :
    ownerOf s x = if recordedOwner s x = .rxPath ∧ deviceHolds s x = true then .device else recordedOwner s x := by
  unfold ownerOf recordedOwner
  cases hx : s.bufs.find? (fun r => r.base == x) with
  | none => simp
  | some r =>
    have hb : r.base = x := by simpa using List.find?_some hx
    simp only [ownerNow, hb]

/-- The record found for a buffer after a change of owner. -/
theorem find_setOwner (s : State) (b x : Addr) (o : Owner) :
    (setOwner b o s).bufs.find? (fun r => r.base == x) =
      (s.bufs.find? (fun r => r.base == x)).map fun r => if r.base = b then { r with owner := o } else r := by
  rw [setOwner_bufs, List.find?_map]
  congr 2
  funext r
  simp only [Function.comp]
  split <;> rfl

theorem find_record_none {s : State} {b : Addr} (h : s.bufs.find? (fun r => r.base == b) = none) :
    ¬ ∃ r ∈ s.bufs, r.base = b := by
  rintro ⟨r, hr, hb⟩
  rw [List.find?_eq_none] at h
  exact absurd hb (by simpa using h r hr)

/-- The record of a buffer after a change of owner. -/
theorem recordedOwner_setOwner (s : State) (b x : Addr) (o : Owner) (h : ∃ r ∈ s.bufs, r.base = b) :
    recordedOwner (setOwner b o s) x = if x = b then o else recordedOwner s x := by
  unfold recordedOwner
  rw [find_setOwner]
  cases hx : s.bufs.find? (fun r => r.base == x) with
  | none =>
    by_cases hb : x = b
    · exact absurd h (find_record_none (hb ▸ hx))
    · simp [hb]
  | some r =>
    have hr : r.base = x := by simpa using List.find?_some hx
    by_cases hb : x = b <;> simp [hb, hr]

/-- The owner of a buffer after a change of owner to another than the receive path. -/
theorem ownerOf_setOwner (s : State) (b x : Addr) (o : Owner) (h : ∃ r ∈ s.bufs, r.base = b) (ho : o ≠ .rxPath) :
    ownerOf (setOwner b o s) x = if x = b then o else ownerOf s x := by
  unfold ownerOf
  rw [find_setOwner]
  cases hx : s.bufs.find? (fun r => r.base == x) with
  | none =>
    by_cases hb : x = b
    · exact absurd h (find_record_none (hb ▸ hx))
    · simp [hb]
  | some r =>
    have hr : r.base = x := by simpa using List.find?_some hx
    by_cases hb : x = b
    · simp [hb, hr, ownerNow_of_ne, ho]
    · simp only [Option.map_some, hr, hb, if_false]
      exact ownerNow_congr rfl rfl rfl rfl r

/-- A buffer of the receive path that a slot of the device's holds is the device's. -/
theorem ownerOf_device {s : State} {b : Addr} {i : Nat} (hr : recordedOwner s b = .rxPath)
    (hd : devOwnsRx s i = true) (ho : s.rxOwner[i]? = some b) : ownerOf s b = .device := by
  have hh : deviceHolds s b = true := by
    rw [deviceHolds, List.any_eq_true]
    have hi : i < s.cfg.nRx := by
      simp only [devOwnsRx, cyclicMem, Bool.and_eq_true, decide_eq_true_eq] at hd
      exact hd.1
    exact ⟨i, List.mem_range.2 hi, by simp [hd, ho]⟩
  rw [ownerOf_eq, if_pos ⟨hr, hh⟩]

/-- A buffer of the receive path that no slot of the device's holds is the receive path's. -/
theorem ownerOf_rxPath {s : State} {b : Addr} (hr : recordedOwner s b = .rxPath)
    (hd : ∀ i < s.cfg.nRx, devOwnsRx s i = true → s.rxOwner[i]? ≠ some b) : ownerOf s b = .rxPath := by
  have hh : deviceHolds s b = false := by
    rw [deviceHolds, List.any_eq_false]
    intro i hi
    simp only [Bool.and_eq_true, beq_iff_eq, not_and]
    exact hd i (List.mem_range.1 hi)
  rw [ownerOf_eq, hh, hr]
  rfl

/-- A buffer with an owner other than the allocator has a record. -/
theorem exists_record {s : State} {b : Addr} (h : ownerOf s b ≠ .allocator) : ∃ r ∈ s.bufs, r.base = b := by
  unfold ownerOf at h
  cases hx : s.bufs.find? (fun r => r.base == b) with
  | none => rw [hx] at h; exact absurd rfl h
  | some r =>
    exact ⟨r, List.mem_of_find?_eq_some hx, by simpa using List.find?_some hx⟩

/-- The owner of a buffer after a release of an owned one. -/
theorem ownerOf_releaseState {s : State} {b : Addr} (h : ownerOf s b ≠ .allocator) (x : Addr) :
    ownerOf (releaseState b s) x = if x = b then .allocator else ownerOf s x :=
  (ownerOf_congr (s := setOwner b .allocator s) rfl rfl rfl rfl rfl x).trans
    (ownerOf_setOwner s b x .allocator (exists_record h) (by simp))

/-- An owned buffer is owned throughout. -/
theorem ownsRange_of_ownerOf {s : State} {b : Addr} {who : Owner} {a n : Nat} (h : ownerOf s b = who)
    (hw : who ≠ .allocator) (h1 : b.toNat ≤ a) (h2 : a + n ≤ b.toNat + s.cfg.bufSize) :
    ownsRange s who a n = true := by
  unfold ownerOf at h
  cases hx : s.bufs.find? (fun r => r.base == b) with
  | none => rw [hx] at h; exact absurd h.symm hw
  | some r =>
    rw [hx] at h
    have hr : r.base = b := by simpa using List.find?_some hx
    rw [ownsRange, List.any_eq_true]
    exact ⟨r, List.mem_of_find?_eq_some hx, by simp [hr, h1, h2]; exact h⟩

/-- An owned buffer lies inside the address space. -/
theorem BufsApart.fits {s : State} (h : BufsApart s) {b : Addr} (ho : ownerOf s b ≠ .allocator) :
    b.toNat + s.cfg.bufSize ≤ addrSpace := by
  obtain ⟨r, hr, rfl⟩ := exists_record ho
  exact h.inside r hr

end Sys2Proof.Machine
end

