-- ==== Sys2Proof/Laws/Alloc.lean ====
section
/-! SUPPORT. What an allocation leaves: the ownership map, the bytes outside the new buffer, and the buffers kept
apart. -/

namespace Sys2Proof.Machine

/-- The conjuncts of `allocOk`. -/
structure AllocOk (s : State) (b : Addr) : Prop where
  aligned : b.toNat % s.cfg.bufSize = 0
  inside : b.toNat + s.cfg.bufSize ≤ addrSpace
  free : ∀ r ∈ s.bufs, r.owner = .allocator ∨ overlaps b.toNat s.cfg.bufSize r.base.toNat s.cfg.bufSize = false
  phase : s.initPhase ≠ .notIssued
  offTx : overlaps b.toNat s.cfg.bufSize s.txRingBase.toNat (s.cfg.nTx * descSize) = false
  offRx : overlaps b.toNat s.cfg.bufSize s.rxRingBase.toNat (s.cfg.nRx * descSize) = false

theorem allocOk_iff (s : State) (b : Addr) : allocOk s b = true ↔ AllocOk s b := by
  simp only [allocOk, Bool.and_eq_true, decide_eq_true_eq, List.all_eq_true, Bool.or_eq_true, Bool.not_eq_true']
  constructor
  · rintro ⟨⟨⟨⟨⟨h1, h2⟩, h3⟩, h4⟩, h5⟩, h6⟩
    exact ⟨h1, h2, h3, h4, h5, h6⟩
  · rintro ⟨h1, h2, h3, h4, h5, h6⟩
    exact ⟨⟨⟨⟨⟨h1, h2⟩, h3⟩, h4⟩, h5⟩, h6⟩

/-- What depends on the buffers, the parameters and the rings alone. -/
theorem AllocOk.congr {s t : State} {b : Addr} (h : AllocOk s b) (h1 : t.cfg = s.cfg) (h2 : t.bufs = s.bufs)
    (h3 : t.initPhase = s.initPhase) (h4 : t.txRingBase = s.txRingBase) (h5 : t.rxRingBase = s.rxRingBase) :
    AllocOk t b := by
  obtain ⟨a1, a2, a3, a4, a5, a6⟩ := h
  constructor
  · rw [h1]; exact a1
  · rw [h1]; exact a2
  · rw [h1, h2]; exact a3
  · rw [h3]; exact a4
  · rw [h1, h4]; exact a5
  · rw [h1, h5]; exact a6

theorem BufsApart.congr {s t : State} (h : BufsApart s) (h1 : t.cfg = s.cfg) (h2 : t.bufs = s.bufs) :
    BufsApart t := by
  obtain ⟨a1, a2, a3⟩ := h
  constructor
  · rw [h1, h2]; exact a1
  · rw [h1, h2]; exact a2
  · rw [h1, h2]; exact a3

theorem BufsApart.setOwner {s : State} (h : BufsApart s) (b : Addr) (o : Owner) : BufsApart (setOwner b o s) := by
  have hb : ∀ r ∈ (Machine.setOwner b o s).bufs, ∃ q ∈ s.bufs, r.base = q.base := by
    intro r hr
    obtain ⟨q, hq, rfl⟩ := List.mem_map.1 hr
    exact ⟨q, hq, by split <;> rfl⟩
  constructor
  · intro r hr
    obtain ⟨q, hq, e⟩ := hb r hr
    rw [e]; exact h.aligned q hq
  · intro r hr
    obtain ⟨q, hq, e⟩ := hb r hr
    rw [e]; exact h.inside q hq
  · rw [setOwner_bufs, List.pairwise_map]
    have e : ∀ r : Buf, (if r.base = b then { r with owner := o } else r).base = r.base := by
      intro r; split <;> rfl
    simpa only [e, setOwner_cfg] using h.apart

/-- Aligned buffers that share a byte are one buffer. -/
theorem base_eq_of_overlaps {n a b : Nat} (ha : a % n = 0) (hb : b % n = 0)
    (h : overlaps a n b n = true) : a = b := by
  simp only [overlaps, Bool.and_eq_true, decide_eq_true_eq] at h
  obtain ⟨i, rfl⟩ := Nat.dvd_of_mod_eq_zero ha
  obtain ⟨j, rfl⟩ := Nat.dvd_of_mod_eq_zero hb
  have h1 : i < j + 1 := by
    apply Nat.lt_of_mul_lt_mul_left (a := n)
    rw [Nat.mul_add]; omega
  have h2 : j < i + 1 := by
    apply Nat.lt_of_mul_lt_mul_left (a := n)
    rw [Nat.mul_add]; omega
  have : i = j := by omega
  rw [this]

theorem overlaps_self {n a : Nat} (hn : 0 < n) : overlaps a n a n = true := by
  simp only [overlaps, Bool.and_eq_true, decide_eq_true_eq]
  omega

/-- A filter that keeps what is sought changes no search. -/
theorem find?_filter_keep {α : Type} (p q : α → Bool) (l : List α) (h : ∀ x ∈ l, p x = true → q x = true) :
    (l.filter q).find? p = l.find? p := by
  induction l with
  | nil => rfl
  | cons x l ih =>
    have ih := ih fun y hy => h y (List.mem_cons_of_mem _ hy)
    by_cases hp : p x = true
    · simp [h x (by simp) hp, hp]
    · by_cases hq : q x = true <;> simp [hp, hq, ih]

section
variable {s : State} {b : Addr} {who : Owner} (h : BufsApart s) (hn : 0 < s.cfg.bufSize) (ha : AllocOk s b)
include h hn ha

omit hn in
theorem BufsApart.allocState : BufsApart (allocState b who s) := by
  constructor
  · intro r hr
    simp only [allocState_bufs, List.mem_append, List.mem_filter, List.mem_singleton] at hr
    rcases hr with hr | rfl
    · exact h.aligned r hr.1
    · exact ha.aligned
  · intro r hr
    simp only [allocState_bufs, List.mem_append, List.mem_filter, List.mem_singleton] at hr
    rcases hr with hr | rfl
    · exact h.inside r hr.1
    · exact ha.inside
  · simp only [allocState_bufs, allocState_cfg, List.pairwise_append]
    refine ⟨h.apart.sublist List.filter_sublist, by simp, ?_⟩
    intro r hr q hq
    simp only [List.mem_filter, List.mem_singleton, Bool.not_eq_true'] at hr hq
    subst hq
    have := overlaps_false hr.2
    rw [overlaps_eq_false]
    simp only
    omega

/-- The record found for a buffer after an allocation: the new one for the new buffer, every other as before. -/
theorem find_allocState (x : Addr) :
    (Machine.allocState b who s).bufs.find? (fun r => r.base == x) =
      if x = b then some ⟨b, who, s.draws + 1⟩ else s.bufs.find? (fun r => r.base == x) := by
  rw [allocState_bufs, List.find?_append]
  by_cases hx : x = b
  · subst hx
    rw [if_pos rfl]
    have : (s.bufs.filter fun r => !overlaps x.toNat s.cfg.bufSize r.base.toNat s.cfg.bufSize).find?
        (fun r => r.base == x) = none := by
      rw [List.find?_eq_none]
      intro r hr e
      simp only [beq_iff_eq] at e
      simp only [List.mem_filter, Bool.not_eq_true'] at hr
      rw [e, overlaps_self hn] at hr
      exact absurd hr.2 (by simp)
    rw [this]
    simp
  · rw [if_neg hx, find?_filter_keep _ _ _ fun r hr e => ?_]
    swap
    · rw [Bool.not_eq_true']
      by_contra hc
      have := base_eq_of_overlaps ha.aligned (h.aligned r hr) (by simpa using hc)
      simp only [beq_iff_eq] at e
      exact hx (by rw [← e]; exact (BitVec.eq_of_toNat_eq this).symm)
    have hb : (b == x) = false := by simpa using fun e : b = x => hx e.symm
    cases s.bufs.find? (fun r => r.base == x) <;> simp [hb]

/-- The new buffer is recorded as given to `who`, every other buffer as before. -/
theorem recordedOwner_allocState (x : Addr) :
    recordedOwner (Machine.allocState b who s) x = if x = b then who else recordedOwner s x := by
  unfold recordedOwner
  rw [find_allocState h hn ha]
  by_cases hx : x = b <;> simp [hx]

/-- The new buffer is its owner's, every other buffer its owner's as before. -/
theorem ownerOf_allocState (hw : who ≠ .rxPath) (x : Addr) :
    ownerOf (Machine.allocState b who s) x = if x = b then who else ownerOf s x := by
  unfold ownerOf
  rw [find_allocState h hn ha]
  by_cases hx : x = b
  · simp [hx, ownerNow_of_ne, hw]
  · simp only [hx, if_false]
    cases s.bufs.find? (fun r => r.base == x) with
    | none => rfl
    | some r => exact ownerNow_congr rfl rfl rfl rfl r

omit hn in
/-- A byte outside the new buffer keeps its allocation. -/
theorem epochAt_allocState {c : Nat} (hc : c < b.toNat ∨ b.toNat + s.cfg.bufSize ≤ c) :
    epochAt (Machine.allocState b who s) c = epochAt s c := by
  unfold epochAt bufAt
  rw [allocState_bufs, allocState_cfg, List.find?_append, find?_filter_keep _ _ _ fun r hr e => ?_]
  swap
  · rw [Bool.not_eq_true']
    by_contra hx
    have := base_eq_of_overlaps ha.aligned (h.aligned r hr) (by simpa using hx)
    simp only [Bool.and_eq_true, decide_eq_true_eq] at e
    omega
  have hnew : (decide (b.toNat ≤ c) && decide (c < b.toNat + s.cfg.bufSize)) = false := by
    simp only [Bool.and_eq_false_iff, decide_eq_false_iff_not]; omega
  cases s.bufs.find? (fun r => decide (r.base.toNat ≤ c) && decide (c < r.base.toNat + s.cfg.bufSize)) <;>
    simp [hnew]

omit hn in
/-- A byte outside the new buffer reads as before. -/
theorem byteAt_allocState {c : Nat} (hc : c < b.toNat ∨ b.toNat + s.cfg.bufSize ≤ c) :
    byteAt (Machine.allocState b who s) c = byteAt s c := by
  refine byteAt_congr ?_ (epochAt_allocState h ha hc)
  rw [allocState_mem, memGet_memClear, if_neg (by omega)]

end

end Sys2Proof.Machine
end

