-- ==== Sys2Proof/Laws/Checksum.lean ====
section
/-! SUPPORT. The checksum's arithmetic: the accumulator against the unbounded sum, and the two folds. -/

namespace Sys2Proof.Machine

theorem wordSum_bound (bs : List Byte) : wordSum bs ≤ bs.length / 2 * 65535 + bs.length % 2 * 65280 := by
  induction bs using wordSum.induct with
  | case1 => simp [wordSum]
  | case2 b =>
    have := b.isLt
    simp only [wordSum, List.length_singleton]
    omega
  | case3 a b bs ih =>
    have := a.isLt
    have := b.isLt
    simp only [wordSum, List.length_cons]
    omega

/-- The value of a big-endian word. -/
theorem word_toNat (a b : Byte) : ((a.setWidth 32 <<< 8) ||| b.setWidth 32 : Word).toNat = a.toNat * 256 + b.toNat := by
  have ha := a.isLt
  have hb := b.isLt
  have h : ((a.setWidth 32 <<< 8) ||| b.setWidth 32 : Word) = (a.setWidth 32 <<< 8) + b.setWidth 32 := by
    symm
    apply BitVec.add_eq_or_of_and_eq_zero
    apply BitVec.eq_of_getLsbD_eq
    intro i hi
    by_cases h8 : i < 8
    · simp [h8]
    · simp [BitVec.getLsbD_of_ge b i (by omega)]
  rw [h, BitVec.toNat_add, BitVec.toNat_shiftLeft, BitVec.toNat_setWidth, BitVec.toNat_setWidth, Nat.shiftLeft_eq]
  omega

/-- The accumulator holds the unbounded sum while that is below 2^32. -/
theorem cksumAcc_toNat (bs : List Byte) : ∀ s : Word, s.toNat + wordSum bs < 2 ^ 32 →
    (cksumAcc s bs).toNat = s.toNat + wordSum bs := by
  induction bs using wordSum.induct with
  | case1 => intro s _; simp [cksumAcc, wordSum]
  | case2 b =>
    intro s h
    have := b.isLt
    simp only [wordSum] at h ⊢
    simp only [cksumAcc, BitVec.toNat_add, BitVec.toNat_shiftLeft, BitVec.toNat_setWidth, Nat.shiftLeft_eq]
    omega
  | case3 a b bs ih =>
    intro s h
    simp only [wordSum] at h ⊢
    have hw := word_toNat a b
    have hs : (s + ((a.setWidth 32 <<< 8) ||| b.setWidth 32)).toNat = s.toNat + (a.toNat * 256 + b.toNat) := by
      rw [BitVec.toNat_add, hw]
      omega
    rw [cksumAcc, ih _ (by rw [hs]; omega), hs]
    omega

/-- One fold, as numbers. -/
theorem cksumFold_toNat (s : Word) : (cksumFold s).toNat = s.toNat % 65536 + s.toNat / 65536 := by
  have := s.isLt
  have h1 : (s &&& 0xFFFF).toNat = s.toNat % 65536 := by
    rw [BitVec.toNat_and]
    exact Nat.and_two_pow_sub_one_eq_mod s.toNat 16
  have h2 : (s >>> 16).toNat = s.toNat / 65536 := by
    rw [BitVec.toNat_ushiftRight, Nat.shiftRight_eq_div_pow]
  rw [cksumFold, BitVec.toNat_add, h1, h2]
  omega

/-- Two folds give the one's-complement sum. -/
theorem cksumFold_twice (s : Word) : (cksumFold (cksumFold s)).toNat = onesSum s.toNat := by
  have := s.isLt
  rw [cksumFold_toNat, cksumFold_toNat]
  unfold onesSum
  split <;> omega

theorem onesSum_le (n : Nat) : onesSum n ≤ 65535 := by
  unfold onesSum
  split <;> omega

/-- The result as a number. -/
theorem cksum_toNat {bs : List Byte} (h : bs.length ≤ 65535) :
    (cksum bs).toNat = 65535 - onesSum (wordSum bs) := by
  have hb := wordSum_bound bs
  have hacc : (cksumAcc 0 bs).toNat = wordSum bs := by
    rw [cksumAcc_toNat bs 0 (by simp; omega)]
    simp
  have h1 := onesSum_le (wordSum bs)
  unfold cksum
  rw [BitVec.toNat_not, BitVec.toNat_setWidth, cksumFold_twice, hacc]
  omega

theorem wordSum_eq_zero (bs : List Byte) : wordSum bs = 0 ↔ ∀ b ∈ bs, b = 0 := by
  induction bs using wordSum.induct with
  | case1 => simp [wordSum]
  | case2 b =>
    have h : b.toNat = 0 ↔ b = 0 := by rw [← BitVec.toNat_inj]; rfl
    simp [wordSum, h]
  | case3 a b bs ih =>
    have h1 : a.toNat = 0 ↔ a = 0 := by rw [← BitVec.toNat_inj]; rfl
    have h2 : b.toNat = 0 ↔ b = 0 := by rw [← BitVec.toNat_inj]; rfl
    simp [wordSum, ih, h1, h2, and_assoc]

/-- Words sum up over an even split. -/
theorem wordSum_append (pre post : List Byte) (h : pre.length % 2 = 0) :
    wordSum (pre ++ post) = wordSum pre + wordSum post := by
  induction pre using wordSum.induct with
  | case1 => simp [wordSum]
  | case2 b => simp at h
  | case3 a b bs ih =>
    simp only [List.length_cons] at h
    simp only [List.cons_append, wordSum, ih (by omega)]
    omega

theorem wordSum_be16Bytes (v : Half) : wordSum (be16Bytes v) = v.toNat := by
  have := v.isLt
  simp [wordSum, be16Bytes, BitVec.extractLsb'_toNat, Nat.shiftRight_eq_div_pow]
  omega

/-! ### What an outside caller may read -/

/-- No byte of the region is in a descriptor the device owns. -/
theorem touchesDevSlot_eq_false (s : State) (a n : Nat) : touchesDevSlot s a n = false ↔
    (s.initPhase ≠ .notIssued → (∀ i, devOwnsTx s i = true → overlaps a n (txdAddr s i) 16 = false) ∧
      ∀ i, devOwnsRx s i = true → overlaps a n (rxdAddr s i) 16 = false) := by
  have h1 : ∀ i, devOwnsTx s i = true → i < s.cfg.nTx := fun i h => by simp [devOwnsTx] at h; exact h.1
  have h2 : ∀ i, devOwnsRx s i = true → i < s.cfg.nRx := fun i h => by simp [devOwnsRx, cyclicMem] at h; exact h.1
  simp only [touchesDevSlot, Bool.and_eq_false_iff, decide_eq_false_iff_not, Bool.or_eq_false_iff, List.any_eq_false,
    List.mem_range, Bool.and_eq_true, not_and, Bool.not_eq_true]
  constructor
  · rintro (h | ⟨ht, hx⟩) hp
    · exact absurd hp h
    · exact ⟨fun i hi => ht i (h1 i hi) hi, fun i hi => hx i (h2 i hi) hi⟩
  · intro h
    by_cases hp : s.initPhase ≠ .notIssued
    · exact .inr ⟨fun i _ hi => (h hp).1 i hi, fun i _ hi => (h hp).2 i hi⟩
    · exact .inl hp

/-- An outside caller's read is no model fault exactly where the bytes are the caller's to read. -/
theorem callerReadFault_none_iff (s : State) {a n : Nat} (hn : n ≠ 0) :
    callerReadFault s a n = none ↔ CallerReads s a n := by
  have ho : ∀ o, callersOwn o = true ↔ o = .caller ∨ ∃ q, o = .portq q := by intro o; cases o <;> simp [callersOwn]
  have hb : (s.bufs.find? (fun r => overlaps a n r.base.toNat s.cfg.bufSize && !callersOwn r.owner) = none) ↔
      ∀ r ∈ s.bufs, overlaps a n r.base.toNat s.cfg.bufSize = true →
        r.owner = .caller ∨ ∃ q, r.owner = .portq q := by
    simp [List.find?_eq_none, ho]
  unfold callerReadFault foreignFault
  rw [if_neg hn]
  have ht := touchesDevSlot_eq_false s a n
  by_cases hd : touchesDevSlot s a n = true
  · rw [if_pos hd]
    simp only [reduceCtorEq, false_iff]
    intro h
    rw [ht.2 fun hp => ⟨h.txSlots hp, h.rxSlots hp⟩] at hd
    exact absurd hd (by simp)
  · rw [if_neg hd]
    rw [Bool.not_eq_true] at hd
    constructor
    · intro h
      refine ⟨fun hp => (ht.1 hd hp).1, fun hp => (ht.1 hd hp).2, hb.1 ?_⟩
      split at h
      · exact absurd h (by simp)
      · assumption
    · intro h
      rw [hb.2 h.buffers]

/-- A read that touches a descriptor the device owns is an OWNERSHIP_VIOLATION. -/
theorem callerReadFault_slot {s : State} {a n : Nat} (hn : n ≠ 0) (h : touchesDevSlot s a n = true) :
    callerReadFault s a n = some .ownershipViolation := by simp [callerReadFault, foreignFault, hn, h]

/-- CKSUM of memory the caller may read answers and changes nothing. -/
theorem cksumMem_quiet {s : State} (hs : s.sched = []) {a n : Nat} (h : n = 0 ∨ CallerReads s a n)
    (hf : a + n ≤ addrSpace) :
    cksumMem a n s = .ok (cksum (bytesAt s a n), s) := by
  have : callerReadFault s a n = none := by
    by_cases hn : n = 0
    · simp [callerReadFault, foreignFault, hn]
    · exact (callerReadFault_none_iff s hn).2 (h.resolve_left hn)
  simp [cksumMem, point_quiet hs, this, memRead_apply, hf]

/-- CKSUM of memory that is not the caller's to read records the fault alone. -/
theorem cksumMem_fault {s : State} (hs : s.sched = []) {a n : Nat} {f : ModelFault}
    (h : callerReadFault s a n = some f) :
    cksumMem a n s = .error (.ended { s with modelFault := some f }) := by
  simp [cksumMem, point_quiet hs, h]

end Sys2Proof.Machine
end

