-- ==== Sys2Proof/Laws/Cyclic.lean ====
section
/-! SUPPORT. Cyclic intervals of a ring (spec/20_memory.md R104): their length and their members, and how they
grow and shrink when a cursor moves on. -/

namespace Sys2Proof.Machine

/-- The distance of two cursors, without a remainder. -/
theorem cyclicLen_eq {n a b : Nat} (ha : a < n) (hb : b < n) :
    cyclicLen n a b = if a ≤ b then b - a else b + n - a := by
  unfold cyclicLen
  rw [if_pos hb, Nat.mod_eq_of_lt ha]
  split
  · rw [show b + (n - a) = (b - a) + n by omega, Nat.add_mod_right, Nat.mod_eq_of_lt (by omega)]
  · rw [Nat.mod_eq_of_lt (by omega)]
    omega

theorem cyclicLen_lt {n a b : Nat} (hb : b < n) : cyclicLen n a b < n := by
  rw [cyclicLen, if_pos hb]
  exact Nat.mod_lt _ (by omega)

/-- To a tail past the ring's end every slot is in the interval. -/
theorem cyclicLen_past {n a b : Nat} (hb : n ≤ b) : cyclicLen n a b = n := if_neg (by omega)

@[simp] theorem cyclicLen_self {n a : Nat} (ha : a < n) : cyclicLen n a a = 0 := by
  rw [cyclicLen_eq ha ha]; simp

theorem cyclicLen_eq_zero {n a b : Nat} (ha : a < n) (hb : b < n) : cyclicLen n a b = 0 ↔ a = b := by
  rw [cyclicLen_eq ha hb]
  split <;> omega

theorem succ_mod {n a : Nat} (ha : a < n) : (a + 1) % n = if a + 1 = n then 0 else a + 1 := by
  split
  · next h => rw [h, Nat.mod_self]
  · rw [Nat.mod_eq_of_lt (by omega)]

theorem succ_mod_lt {n a : Nat} (ha : a < n) : (a + 1) % n < n := Nat.mod_lt _ (by omega)

/-- Membership, without remainders. -/
theorem cyclicMem_iff {n a b i : Nat} (hi : i < n) :
    cyclicMem n a b i = true ↔ cyclicLen n a i < cyclicLen n a b := by
  simp [cyclicMem, hi]

/-- The tail is not in its ring's interval. -/
theorem not_cyclicMem_tail {n a b : Nat} : cyclicMem n a b b = false := by
  simp [cyclicMem]

/-- The head is in the interval where the cursors differ. -/
theorem cyclicMem_head {n a b : Nat} (ha : a < n) (hb : b < n) (h : a ≠ b) : cyclicMem n a b a = true := by
  rw [cyclicMem_iff ha, cyclicLen_self ha]
  exact Nat.pos_of_ne_zero fun e => h ((cyclicLen_eq_zero ha hb).1 e)

/-- The tail moves on: the interval gains the old tail and nothing else. -/
theorem cyclicMem_succ_tail {n a b i : Nat} (ha : a < n) (hb : b < n) (hi : i < n) (h : (b + 1) % n ≠ a) :
    cyclicMem n a ((b + 1) % n) i = true ↔ cyclicMem n a b i = true ∨ i = b := by
  have hs := succ_mod_lt hb
  rw [cyclicMem_iff hi, cyclicMem_iff hi, cyclicLen_eq ha hs, cyclicLen_eq ha hb, cyclicLen_eq ha hi]
  rw [succ_mod hb] at h ⊢
  repeat' split at h
  all_goals repeat' split
  all_goals omega

/-- The head moves on: the interval loses the old head and nothing else. -/
theorem cyclicMem_succ_head {n a b i : Nat} (ha : a < n) (hb : b < n) (hi : i < n) (h : a ≠ b) :
    cyclicMem n ((a + 1) % n) b i = true ↔ cyclicMem n a b i = true ∧ i ≠ a := by
  have hs := succ_mod_lt ha
  rw [cyclicMem_iff hi, cyclicMem_iff hi, cyclicLen_eq hs hi, cyclicLen_eq hs hb, cyclicLen_eq ha hb,
    cyclicLen_eq ha hi]
  rw [succ_mod ha]
  repeat' split
  all_goals omega

/-- The interval's length after the tail moves on. -/
theorem cyclicLen_succ_tail {n a b : Nat} (ha : a < n) (hb : b < n) (h : (b + 1) % n ≠ a) :
    cyclicLen n a ((b + 1) % n) = cyclicLen n a b + 1 := by
  have hs := succ_mod_lt hb
  rw [cyclicLen_eq ha hs, cyclicLen_eq ha hb]
  rw [succ_mod hb] at h ⊢
  repeat' split at h
  all_goals repeat' split
  all_goals omega

/-- The interval's length after the head moves on. -/
theorem cyclicLen_succ_head {n a b : Nat} (ha : a < n) (hb : b < n) (h : a ≠ b) :
    cyclicLen n ((a + 1) % n) b = cyclicLen n a b - 1 := by
  have hs := succ_mod_lt ha
  rw [cyclicLen_eq hs hb, cyclicLen_eq ha hb, succ_mod ha]
  repeat' split
  all_goals omega

/-- Every slot but the tail is in the interval where the tail stands just behind the head. -/
theorem cyclicMem_full {n a b i : Nat} (ha : a < n) (hb : b < n) (hi : i < n) (h : (b + 1) % n = a) :
    cyclicMem n a b i = true ↔ i ≠ b := by
  rw [cyclicMem_iff hi, cyclicLen_eq ha hi, cyclicLen_eq ha hb]
  rw [succ_mod hb] at h
  repeat' split at h
  all_goals repeat' split
  all_goals omega

/-- The distance to the slot `k` further on. -/
theorem cyclicLen_add {n a k : Nat} (ha : a < n) (hk : k < n) : cyclicLen n a ((a + k) % n) = k := by
  rw [cyclicLen_eq ha (Nat.mod_lt _ (by omega))]
  by_cases h : a + k < n
  · rw [Nat.mod_eq_of_lt h, if_pos (by omega)]; omega
  · rw [Nat.mod_eq_sub_mod (by omega), Nat.mod_eq_of_lt (by omega), if_neg (by omega)]; omega

/-- The distance to a slot from `k` slots further on. -/
theorem cyclicLen_advance {n a b k : Nat} (ha : a < n) (hb : b < n) (hk : k ≤ cyclicLen n a b) :
    cyclicLen n ((a + k) % n) b = cyclicLen n a b - k := by
  have h1 := cyclicLen_eq ha hb
  have h2 := cyclicLen_eq (Nat.mod_lt (a + k) (by omega : 0 < n)) hb
  have h3 := cyclicLen_lt (a := a) hb
  have h4 : (a + k) % n = if a + k < n then a + k else a + k - n := by
    split
    · exact Nat.mod_eq_of_lt (by assumption)
    · rw [Nat.mod_eq_sub_mod (by omega), Nat.mod_eq_of_lt (by omega)]
  rw [h2, h4]
  rw [h1] at hk h3 ⊢
  split_ifs at * <;> omega

/-- Slots at different distances are different. -/
theorem add_mod_ne {n a i j : Nat} (ha : a < n) (hi : i < n) (hj : j < n) (h : i ≠ j) :
    (a + i) % n ≠ (a + j) % n := fun e =>
  h (by rw [← cyclicLen_add ha hi, e, cyclicLen_add ha hj])

end Sys2Proof.Machine
end

