-- ==== Sys2Proof/Laws/Decode.lean ====
section
/-! SUPPORT. Lemmas of the decoder: register offsets name one register, an access decodes exactly where R102
admits it, and an opcode names one operation. -/

namespace Sys2Proof

theorem RegName.mem_all (n : RegName) : n ∈ RegName.all := by
  cases n <;> simp [RegName.all, RegName.scalars]

/-- The offsets R8 admits are 4-aligned, inside a 32-bit window, and each names its register. -/
theorem regOfOffset_off {ro : RegOff} (h : ro.wf = true) (n : RegName) :
    regOfOffset ro (ro.off n) = some n ∧ ro.off n % 4 = 0 ∧ ro.off n < 2 ^ 32 := by
  have hmem := n.mem_all
  simp only [RegOff.wf, Bool.and_eq_true, List.all_eq_true, decide_eq_true_eq, beq_iff_eq] at h
  refine ⟨?_, h.1 n hmem⟩
  unfold regOfOffset
  cases hf : RegName.all.find? (fun m => ro.off m == ro.off n) with
  | none =>
    rw [List.find?_eq_none] at hf
    exact absurd (hf n hmem) (by simp)
  | some m =>
    have h1 := List.find?_some hf
    have h2 := List.mem_of_find?_eq_some hf
    rw [List.inj_on_of_nodup_map h.2 h2 hmem (by simpa using h1)]

/-- A register access decodes exactly where R102 admits it. -/
theorem decodeAccess_ok {ro : RegOff} (h : ro.wf = true) (off : Word) (w : AccessWidth) (n : RegName) :
    decodeAccess ro off w = .ok n ↔ w = .word32 ∧ off.toNat % 4 = 0 ∧ off.toNat = ro.off n := by
  unfold decodeAccess
  by_cases h1 : w = .word32
  · by_cases h2 : off.toNat % 4 = 0
    · simp only [h1, h2, ne_eq, not_true_eq_false, if_false, true_and]
      constructor
      · intro e
        split at e
        · next m hm =>
          cases e
          have := List.find?_some hm
          exact (by simpa using this : ro.off n = off.toNat).symm
        · cases e
      · intro e
        rw [e, (regOfOffset_off h n).1]
    · simp [h1, h2]
  · simp [h1]

/-- An opcode's code names it. -/
theorem opcodeOf_code (o : Opcode) : opcodeOf o.code = some o := by
  cases o <;> rfl

/-- The code that names an operation is its opcode's. -/
theorem eq_code_of_opcodeOf {n : Nat} {o : Opcode} (h : opcodeOf n = some o) : n = o.code := by
  unfold opcodeOf at h
  split at h <;> cases h <;> rfl

/-- What the ports decode to is an operation of the opcode. -/
theorem opcode_of_decodeOperands {ro : RegOff} {p : Ports} {o : Opcode} {i : Instr}
    (h : decodeOperands ro p o = .ok i) : i.opcode = o := by
  cases o <;> simp only [decodeOperands] at h
  all_goals first
    | (cases h; rfl)
    | (split at h <;> cases h <;> rfl)

end Sys2Proof
end

