-- ==== Sys2Proof/Laws/Transmit.lean ====
section
/-! SUPPORT. TX_SUBMIT where no device event is scheduled at its accesses: its steps and the whole operation, for
any owner of the buffer (the outside caller, the framer, the demultiplexer). -/

namespace Sys2Proof.Machine

/-- The descriptor TX_SUBMIT writes (spec/41_transmit.md R250 T4). -/
def submitted (buf : Addr) (len : Half) : TxDesc := ⟨buf, len, 0, 0x09, 0, 0, 0⟩

/-- The memory after T4's field writes at a descriptor's address. -/
def fillMem (m : List Host.Cell) (a : Nat) (buf : Addr) (len : Half) : List Host.Cell :=
  let m := memPutBytes m (a + offAddr) (leBytes 8 buf.toNat)
  let m := memPutBytes m (a + offLength) (leBytes 2 len.toNat)
  let m := memPutBytes m (a + offCso) [0]
  let m := memPutBytes m (a + offCss) [0]
  let m := memPutBytes m (a + offSpecial) (leBytes 2 0)
  let m := memPutBytes m (a + offCmd) [bitRs ||| bitTxEop]
  memPutBytes m (a + offStatus) [0x00]

/-- T4's field writes leave the descriptor's bytes, whole, and nothing else. -/
theorem memGet_fillMem (m : List Host.Cell) (a : Nat) (buf : Addr) (len : Half) (c : Nat) :
    memGet (fillMem m a buf len) c =
      if a ≤ c ∧ c < a + 16 then (txDescBytes (submitted buf len))[c - a]? else memGet m c := by
  simp only [fillMem, memGet_memPutBytes, leBytes_length, List.length_cons, List.length_nil, offAddr, offLength,
    offCso, offCss, offSpecial, offCmd, offStatus]
  by_cases h : a ≤ c ∧ c < a + 16
  · rw [if_pos h]
    obtain ⟨j, rfl⟩ := Nat.exists_eq_add_of_le h.1
    have hj : j < 16 := by omega
    clear h
    interval_cases j <;>
      simp [txDescBytes, submitted, leBytes, bitRs, bitTxEop]
  · rw [if_neg h]
    repeat rw [if_neg (by omega)]

/-- T3, evaluated: the slot's earlier buffer, the transmit path's and no outstanding slot's, is released. -/
def releaseOldState (i : Nat) (s : State) : State :=
  match s.txOwner.getD i none with
  | some old => releaseState old s
  | none => s

theorem releaseOld_quiet {s : State} (hs : s.sched = []) {i : Nat}
    (ho : ∀ old, s.txOwner.getD i none = some old → ownerOf s old = .txPath ∧ txHolds s old = false) :
    releaseOld i s = .ok ((), releaseOldState i s) := by
  unfold releaseOld releaseOldState
  simp only [bind_apply, get_apply]
  cases h : s.txOwner.getD i none with
  | none => rfl
  | some old => exact release_quiet hs (by simp [releaseFault, (ho old h).1, (ho old h).2])

theorem txOutstanding_congr {s t : State} (hc : t.cfg = s.cfg) (hd : t.dev = s.dev) :
    txOutstanding t = txOutstanding s := by
  unfold txOutstanding
  rw [hc, hd]

theorem devOwnsTx_congr {s t : State} (hc : t.cfg = s.cfg) (hd : t.dev = s.dev) (i : Nat) :
    devOwnsTx t i = devOwnsTx s i := by
  simp only [devOwnsTx, txOutstanding_congr hc hd, hc, hd]

theorem devOwnsRx_congr {s t : State} (hc : t.cfg = s.cfg) (hd : t.dev = s.dev) (i : Nat) :
    devOwnsRx t i = devOwnsRx s i := by
  simp [devOwnsRx, hc, hd]

/-- Which bytes are in slots of the device's depends on the parameters and the device alone. -/
theorem inDeviceSlot_congr {s t : State} (hc : t.cfg = s.cfg) (hd : t.dev = s.dev) :
    inDeviceSlot t = inDeviceSlot s := by
  funext c
  simp only [inDeviceSlot, hd, devOwnsTx_congr hc hd, devOwnsRx_congr hc hd]

/-- T4, evaluated. -/
theorem fillTxSlot_quiet {s : State} (hs : s.sched = []) {i : Nat} (buf : Addr) (len : Half)
    (hi : i < s.cfg.nTx) (hd : devOwnsTx s i = false) (hf : txdAddr s i + 16 ≤ addrSpace) :
    fillTxSlot i buf len s = .ok ((), { setOwner buf .txPath s with
      txOwner := s.txOwner.set i (some buf), mem := fillMem s.mem (txdAddr s i) buf len }) := by
  have w : ∀ (u : State) (off : Nat) (bs : List Byte), u.sched = [] → u.cfg = s.cfg → u.dev = s.dev →
      u.txRingBase = s.txRingBase → off + bs.length ≤ 16 →
      txdWrite i off bs u = .ok ((), { u with mem := memPutBytes u.mem (txdAddr s i + off) bs }) := by
    intro u off bs h1 h2 h3 h4 h5
    have ha : txdAddr u i = txdAddr s i := by simp [txdAddr, h4]
    rw [txdWrite_quiet h1 (by rw [h2]; exact hi) (by rw [devOwnsTx_congr h2 h3, hd]) (by rw [ha]; omega), ha]
  unfold fillTxSlot
  simp only [bind_apply, update_apply]
  rw [w _ _ _ (by exact hs) (by rfl) (by rfl) (by rfl) (by simp [offAddr])]
  simp only
  rw [w _ _ _ (by exact hs) (by rfl) (by rfl) (by rfl) (by simp [offLength])]
  simp only
  rw [w _ _ _ (by exact hs) (by rfl) (by rfl) (by rfl) (by simp [offCso])]
  simp only
  rw [w _ _ _ (by exact hs) (by rfl) (by rfl) (by rfl) (by simp [offCss])]
  simp only
  rw [w _ _ _ (by exact hs) (by rfl) (by rfl) (by rfl) (by simp [offSpecial])]
  simp only
  rw [w _ _ _ (by exact hs) (by rfl) (by rfl) (by rfl) (by simp [offCmd])]
  simp only
  rw [w _ _ _ (by exact hs) (by rfl) (by rfl) (by rfl) (by simp [offStatus])]
  rfl

/-- A change of the device that leaves the interrupt cause and mask alone raises no edge. -/
theorem setDev_sameIrq (d : DevRegs) (s : State) (h1 : d.icr = s.dev.icr) (h2 : d.ims = s.dev.ims) :
    setDev d s = { s with dev := d } := by
  have : (s.irqHeld || (!irqLine s.dev && irqLine d)) = s.irqHeld := by
    simp [irqLine, h1, h2]
  simp [setDev, this]

/-- The device after T5. -/
def publishedDev (p : Params) (i : Nat) (d : DevRegs) : DevRegs :=
  writeTail (BitVec.ofNat 32 ((i + 1) % p.nTx)) p d

/-- T5, evaluated. -/
theorem publishTx_quiet {s : State} (hs : s.sched = []) {i : Nat} (hn : 0 < s.cfg.nTx)
    (hl : s.dev.tdlen.toNat = s.cfg.nTx * 16) :
    publishTx i s = .ok ((), { fenceState s with dev := publishedDev s.cfg i s.dev }) := by
  have hr : regWriteRefusal (fenceState s) .tdt (BitVec.ofNat 32 ((i + 1) % s.cfg.nTx)) = none := by
    have h1 : (i + 1) % s.cfg.nTx < s.cfg.nTx := Nat.mod_lt _ hn
    have h2 : (BitVec.ofNat 32 ((i + 1) % s.cfg.nTx)).toNat = (i + 1) % s.cfg.nTx := by
      rw [BitVec.toNat_ofNat, Nat.mod_eq_of_lt (by omega)]
    simp only [regWriteRefusal, reservedMask, descSize, fenceState_dev, hl, h2]
    rw [if_neg (by simp), if_pos (by omega)]
  unfold publishTx
  simp only [bind_apply, fence_quiet hs, get_apply, fenceState_cfg]
  rw [regStore_quiet (by exact hs) hr, setDev_sameIrq _ _ (by rfl) (by rfl)]
  rfl

/-- T1 to T5 at a slot that is not free: `Full`, nothing written. -/
theorem submitBody_full_quiet {s : State} (hs : s.sched = []) {buf : Addr} {len : Half}
    (ht : s.dev.tdt.toNat < s.cfg.nTx) (hf : txdAddr s s.dev.tdt.toNat + 16 ≤ addrSpace)
    (hdd : hasBit (txd s s.dev.tdt.toNat).status bitDD = false) :
    submitBody buf len s = .ok (.full, s) := by
  unfold submitBody
  simp only [bind_apply]
  rw [regRead_quiet hs (by decide) rfl]
  simp only [regValue]
  rw [txdPoll_quiet hs ht (by simp only [offStatus]; omega)]
  rw [txd_status] at hdd
  exact congrFun (if_pos (show _ = false from hdd)) _

/-- TX_SUBMIT of a buffer `who` owns into a slot that is not free: `Full`, nothing written. -/
theorem txSubmit_full_quiet {s : State} (hs : s.sched = []) {who : Owner} {buf : Addr} {len : Half}
    (hlk : Lock.tx ∉ s.locks) (ho : ownerOf s buf = who) (h1 : 1 ≤ len.toNat) (h2 : len.toNat ≤ s.cfg.bufSize)
    (ht : s.dev.tdt.toNat < s.cfg.nTx) (hf : txdAddr s s.dev.tdt.toNat + 16 ≤ addrSpace)
    (hdd : hasBit (txd s s.dev.tdt.toNat).status bitDD = false) :
    txSubmitOp who buf len s = .ok (.full, s) := by
  unfold txSubmitOp
  simp only [bind_apply, get_apply, ho, h1, h2, and_self, decide_true, require_of_true]
  rw [withLock_ok hlk (submitBody_full_quiet (by exact hs) ht hf hdd) rfl]

/-- The state after a TX_SUBMIT that answers `Ok`. -/
def submitState (buf : Addr) (len : Half) (s : State) : State :=
  { setOwner buf .txPath (releaseOldState s.dev.tdt.toNat s) with
    txOwner := s.txOwner.set s.dev.tdt.toNat (some buf)
    mem := fillMem s.mem (txdAddr s s.dev.tdt.toNat) buf len
    fenced := memKeep (inDeviceSlot s) s.fenced (fillMem s.mem (txdAddr s s.dev.tdt.toNat) buf len)
    dev := publishedDev s.cfg s.dev.tdt.toNat s.dev }

/-- What a release of the slot's earlier buffer leaves as it was. -/
theorem releaseOldState_same (i : Nat) (s : State) :
    (releaseOldState i s).sched = s.sched ∧ (releaseOldState i s).cfg = s.cfg ∧
    (releaseOldState i s).dev = s.dev ∧ (releaseOldState i s).txRingBase = s.txRingBase ∧
    (releaseOldState i s).mem = s.mem ∧ (releaseOldState i s).txOwner = s.txOwner ∧
    (releaseOldState i s).locks = s.locks ∧ (releaseOldState i s).fenced = s.fenced := by
  unfold releaseOldState
  split <;> exact ⟨rfl, rfl, rfl, rfl, rfl, rfl, rfl, rfl⟩

theorem txHolds_congr {s t : State} (hc : t.cfg = s.cfg) (hd : t.dev = s.dev) (ho : t.txOwner = s.txOwner) (b : Addr) :
    txHolds t b = txHolds s b := by
  simp only [txHolds, devOwnsTx_congr hc hd, hc, ho]

/-- T1 to T5 at a free slot: `Ok`. -/
theorem submitBody_ok_quiet {s : State} (hs : s.sched = []) {buf : Addr} {len : Half}
    (ht : s.dev.tdt.toNat < s.cfg.nTx) (hf : txdAddr s s.dev.tdt.toNat + 16 ≤ addrSpace)
    (hdd : hasBit (txd s s.dev.tdt.toNat).status bitDD = true)
    (hd : devOwnsTx s s.dev.tdt.toNat = false)
    (hold : ∀ old, s.txOwner.getD s.dev.tdt.toNat none = some old → ownerOf s old = .txPath ∧ txHolds s old = false)
    (hn : 0 < s.cfg.nTx) (hl : s.dev.tdlen.toNat = s.cfg.nTx * 16) :
    submitBody buf len s = .ok (.ok, submitState buf len s) := by
  unfold submitBody
  simp only [bind_apply]
  rw [regRead_quiet hs (by decide) rfl]
  simp only [regValue]
  rw [txdPoll_quiet hs ht (by simp only [offStatus]; omega)]
  rw [txd_status] at hdd
  refine (congrFun (if_neg (show ¬ _ = false from fun e => ?_)) _).trans ?_
  · have e' : hasBit (byteAt s (txdAddr s s.dev.tdt.toNat + offStatus)) bitDD = false := e
    rw [hdd] at e'
    cases e'
  · simp only [bind_apply]
    rw [releaseOld_quiet hs hold]
    obtain ⟨e1, e2, e3, e4, e5, e6, -, e8⟩ := releaseOldState_same s.dev.tdt.toNat s
    have ha : txdAddr (releaseOldState s.dev.tdt.toNat s) s.dev.tdt.toNat = txdAddr s s.dev.tdt.toNat := by
      simp [txdAddr, e4]
    simp only
    rw [fillTxSlot_quiet (e1.trans hs) buf len (by rw [e2]; exact ht) (by rw [devOwnsTx_congr e2 e3, hd])
      (by rw [ha]; exact hf)]
    simp only [ha]
    rw [publishTx_quiet (by exact e1.trans hs) (by simpa [e2] using hn) (by simpa [e2, e3] using hl)]
    simp only [pure_apply, submitState, fenceState, setOwner_cfg, setOwner_dev, setOwner_fenced, e2, e3, e5, e6, e8]
    rfl

/-- TX_SUBMIT of a buffer `who` owns into a free slot: `Ok`. -/
theorem txSubmit_ok_quiet {s : State} (hs : s.sched = []) {who : Owner} {buf : Addr} {len : Half}
    (hlk : Lock.tx ∉ s.locks) (ho : ownerOf s buf = who) (h1 : 1 ≤ len.toNat) (h2 : len.toNat ≤ s.cfg.bufSize)
    (ht : s.dev.tdt.toNat < s.cfg.nTx) (hf : txdAddr s s.dev.tdt.toNat + 16 ≤ addrSpace)
    (hdd : hasBit (txd s s.dev.tdt.toNat).status bitDD = true)
    (hd : devOwnsTx s s.dev.tdt.toNat = false)
    (hold : ∀ old, s.txOwner.getD s.dev.tdt.toNat none = some old → ownerOf s old = .txPath ∧ txHolds s old = false)
    (hn : 0 < s.cfg.nTx) (hl : s.dev.tdlen.toNat = s.cfg.nTx * 16) :
    txSubmitOp who buf len s = .ok (.ok, submitState buf len s) := by
  unfold txSubmitOp
  simp only [bind_apply, get_apply, ho, h1, h2, and_self, decide_true, require_of_true]
  have hb : submitBody buf len { s with locks := .tx :: s.locks } =
      .ok (.ok, submitState buf len { s with locks := .tx :: s.locks }) :=
    submitBody_ok_quiet (by exact hs) ht (by exact hf) (by exact hdd)
      ((devOwnsTx_congr (by rfl) (by rfl) _).trans hd) (by exact hold) hn hl
  have hl : (submitState buf len { s with locks := .tx :: s.locks }).locks = .tx :: s.locks :=
    (releaseOldState_same _ _).2.2.2.2.2.2.1
  rw [withLock_ok hlk hb hl]
  unfold submitState releaseOldState
  cases s.txOwner.getD s.dev.tdt.toNat none <;> rfl

/-! ### What a submission leaves in memory and in the ownership map -/

theorem epochAt_submitState (buf : Addr) (len : Half) (s : State) (c : Nat) :
    epochAt (submitState buf len s) c = epochAt s c := by
  have h : epochAt (submitState buf len s) c = epochAt (releaseOldState s.dev.tdt.toNat s) c :=
    epochAt_setOwner (releaseOldState s.dev.tdt.toNat s) buf .txPath c
  rw [h]
  unfold releaseOldState
  split
  · exact epochAt_releaseState _ _ _
  · rfl

/-- A submission leaves every byte outside its descriptor alone. -/
theorem byteAt_submitState_outside (buf : Addr) (len : Half) (s : State) (c : Nat)
    (h : c < txdAddr s s.dev.tdt.toNat ∨ txdAddr s s.dev.tdt.toNat + 16 ≤ c) :
    byteAt (submitState buf len s) c = byteAt s c := by
  refine byteAt_congr ?_ (epochAt_submitState buf len s c)
  have hm : (submitState buf len s).mem = fillMem s.mem (txdAddr s s.dev.tdt.toNat) buf len := rfl
  rw [hm, memGet_fillMem, if_neg (by omega)]

theorem bytesAt_submitState (buf : Addr) (len : Half) (s : State) :
    bytesAt (submitState buf len s) (txdAddr s s.dev.tdt.toNat) 16 = txDescBytes (submitted buf len) := by
  have h := bytesAt_eq_of (s := submitState buf len s) (a := txdAddr s s.dev.tdt.toNat)
    (bs := txDescBytes (submitted buf len)) fun j hj => by
      apply byteAt_of_memGet
      have hm : (submitState buf len s).mem = fillMem s.mem (txdAddr s s.dev.tdt.toNat) buf len := rfl
      have hj' : j < 16 := by simpa using hj
      rw [hm, memGet_fillMem, if_pos (by omega), Nat.add_sub_cancel_left, List.getElem?_eq_getElem hj]
  rwa [txDescBytes_length] at h

theorem txdAddr_submitState (buf : Addr) (len : Half) (s : State) (i : Nat) :
    txdAddr (submitState buf len s) i = txdAddr s i := by
  unfold txdAddr
  rw [show (submitState buf len s).txRingBase = s.txRingBase from (releaseOldState_same _ s).2.2.2.1]

/-- The slot submitted holds the descriptor, whole. -/
theorem txd_submitState (buf : Addr) (len : Half) (s : State) :
    txd (submitState buf len s) s.dev.tdt.toNat = submitted buf len := by
  apply txd_of_bytes
  rw [txdAddr_submitState]
  exact bytesAt_submitState buf len s

/-- Every other slot's descriptor is as it was. -/
theorem txd_submitState_ne (buf : Addr) (len : Half) (s : State) {i : Nat} (h : i ≠ s.dev.tdt.toNat) :
    txd (submitState buf len s) i = txd s i := by
  unfold txd
  rw [txdAddr_submitState]
  congr 1
  apply bytesAt_congr
  intro c h1 h2
  apply byteAt_submitState_outside
  simp only [txdAddr, descSize] at *
  omega

/-- All that software has written outside the device's slots is before the fence of T5. -/
theorem submitState_fenced (buf : Addr) (len : Half) (s : State) :
    (submitState buf len s).fenced = memKeep (inDeviceSlot s) s.fenced (submitState buf len s).mem := rfl

theorem submitState_results (buf : Addr) (len : Half) (s : State) :
    (submitState buf len s).results = s.results := by
  unfold submitState releaseOldState
  split <;> rfl

/-- A submission leaves the run, INIT's phase, the sequencer, the locks, the schedule and the rings alone. -/
theorem submitState_same (buf : Addr) (len : Half) (s : State) :
    (submitState buf len s).cfg = s.cfg ∧ (submitState buf len s).halted = s.halted ∧
    (submitState buf len s).modelFault = s.modelFault ∧ (submitState buf len s).initPhase = s.initPhase ∧
    (submitState buf len s).sw = s.sw ∧ (submitState buf len s).locks = s.locks ∧
    (submitState buf len s).sched = s.sched ∧ (submitState buf len s).txRingBase = s.txRingBase ∧
    (submitState buf len s).rxRingBase = s.rxRingBase ∧ (submitState buf len s).rxOwner = s.rxOwner := by
  unfold submitState releaseOldState
  cases s.txOwner.getD s.dev.tdt.toNat none <;> exact ⟨rfl, rfl, rfl, rfl, rfl, rfl, rfl, rfl, rfl, rfl⟩

theorem Ready.submitState {s : State} (h : Ready s) (buf : Addr) (len : Half) :
    Ready (submitState buf len s) := by
  obtain ⟨-, e1, e2, e3, e4, e5, e6, -⟩ := submitState_same buf len s
  exact ⟨e1.trans h.halted, e2.trans h.modelFault, e3.trans h.initPhase, e4.trans h.sw, e5.trans h.locks,
    e6.trans h.sched⟩

theorem RingsInside.submitState {s : State} (h : RingsInside s) (buf : Addr) (len : Half) :
    RingsInside (submitState buf len s) := by
  obtain ⟨e0, -, -, -, -, -, -, e7, e8, -⟩ := submitState_same buf len s
  unfold RingsInside
  rw [e0, e7, e8]
  exact h

/-- A record stays a record when a buffer changes owner. -/
theorem record_setOwner {s : State} {b x : Addr} {o : Owner} (h : ∃ r ∈ s.bufs, r.base = b) :
    ∃ r ∈ (setOwner x o s).bufs, r.base = b := by
  obtain ⟨r, hr, hb⟩ := h
  exact ⟨_, List.mem_map_of_mem hr, by split <;> exact hb⟩

/-- What the receive ring's ownership depends on is as before a submission. -/
theorem submitState_receive (buf : Addr) (len : Half) (s : State) :
    (submitState buf len s).cfg = s.cfg ∧ (submitState buf len s).dev.rdh = s.dev.rdh ∧
    (submitState buf len s).dev.rdt = s.dev.rdt ∧ (submitState buf len s).rxOwner = s.rxOwner ∧
    (submitState buf len s).bufs = (setOwner buf .txPath (releaseOldState s.dev.tdt.toNat s)).bufs := by
  obtain ⟨e, -, -, -, -, -, -, -, -, e'⟩ := submitState_same buf len s
  exact ⟨e, rfl, rfl, e', rfl⟩

/-- A release of the slot's earlier buffer leaves the receive ring's owner records alone. -/
theorem releaseOldState_rxOwner (i : Nat) (s : State) : (releaseOldState i s).rxOwner = s.rxOwner := by
  unfold releaseOldState
  split <;> rfl

/-- The ownership map after a submission: the buffer is the transmit path's, the slot's earlier buffer the
allocator's, every other as it was. -/
theorem ownerOf_submitState {buf : Addr} {len : Half} {s : State} (hb : ownerOf s buf ≠ .allocator)
    (hold : ∀ old, s.txOwner.getD s.dev.tdt.toNat none = some old → ownerOf s old = .txPath) (x : Addr) :
    ownerOf (submitState buf len s) x =
      if x = buf then .txPath
      else if s.txOwner.getD s.dev.tdt.toNat none = some x then .allocator else ownerOf s x := by
  have h0 : ownerOf (submitState buf len s) x =
      ownerOf (setOwner buf .txPath (releaseOldState s.dev.tdt.toNat s)) x := by
    obtain ⟨h1, h2, h3, h4, h5⟩ := submitState_receive buf len s
    obtain ⟨-, e1, e2, -⟩ := releaseOldState_same s.dev.tdt.toNat s
    refine ownerOf_congr h5 ?_ ?_ ?_ ?_ x
    · rw [h1, setOwner_cfg, e1]
    · rw [h2, setOwner_dev, e2]
    · rw [h3, setOwner_dev, e2]
    · rw [h4, setOwner_rxOwner, releaseOldState_rxOwner]
  have hrec := exists_record hb
  rw [h0, ownerOf_setOwner _ _ _ _ ?_ (by simp)]
  · split
    · rfl
    · unfold releaseOldState
      cases ho : s.txOwner.getD s.dev.tdt.toNat none with
      | none => simp
      | some old =>
        simp only [Option.some.injEq]
        rw [ownerOf_releaseState (by rw [hold old ho]; decide)]
        simp only [eq_comm]
  · unfold releaseOldState
    split
    · exact record_setOwner hrec
    · exact hrec

end Sys2Proof.Machine
end

