-- ==== Sys2Proof/Laws/Fresh.lean ====
section
/-! SUPPORT. A fresh buffer from its allocation over its writes to its submission: the path ARP_RX and UDP_TX
share, where no device event is scheduled. -/

namespace Sys2Proof.Machine

/-- `u` is `s` with the buffer `r` allocated and recorded as given to `who`. -/
structure Given (r : Addr) (who : Owner) (s u : State) : Prop where
  ok : AllocOk s r
  records : ∀ x, recordedOwner u x = if x = r then who else recordedOwner s x
  apart : BufsApart u
  same : ∀ c, (c < r.toNat ∨ r.toNat + s.cfg.bufSize ≤ c) → byteAt u c = byteAt s c
  fenced : ∀ c, (c < r.toNat ∨ r.toNat + s.cfg.bufSize ≤ c) → memGet u.fenced c = memGet s.fenced c
  state : u = { s with mem := u.mem, fenced := u.fenced, bufs := u.bufs, draws := u.draws, allocAns := s.allocAns.tail,
                       copyAns := u.copyAns, events := s.events ++ [.allocated r] }

/-- `u` is `s` with the buffer `r` allocated to `who` and perhaps written. -/
structure Fresh (r : Addr) (who : Owner) (s u : State) : Prop where
  ok : AllocOk s r
  owners : ∀ x, ownerOf u x = if x = r then who else ownerOf s x
  apart : BufsApart u
  same : ∀ c, (c < r.toNat ∨ r.toNat + s.cfg.bufSize ≤ c) → byteAt u c = byteAt s c
  fenced : ∀ c, (c < r.toNat ∨ r.toNat + s.cfg.bufSize ≤ c) → memGet u.fenced c = memGet s.fenced c
  state : u = { s with mem := u.mem, fenced := u.fenced, bufs := u.bufs, draws := u.draws, allocAns := s.allocAns.tail,
                       copyAns := u.copyAns, events := s.events ++ [.allocated r] }

section
variable {r : Addr} {who : Owner} {s u : State}

theorem Fresh.cfg (h : Fresh r who s u) : u.cfg = s.cfg := by rw [h.state]
theorem Fresh.dev (h : Fresh r who s u) : u.dev = s.dev := by rw [h.state]
theorem Fresh.txOwner (h : Fresh r who s u) : u.txOwner = s.txOwner := by rw [h.state]
theorem Fresh.sched (h : Fresh r who s u) : u.sched = s.sched := by rw [h.state]
theorem Fresh.locks (h : Fresh r who s u) : u.locks = s.locks := by rw [h.state]
theorem Fresh.txRingBase (h : Fresh r who s u) : u.txRingBase = s.txRingBase := by rw [h.state]

theorem Fresh.ownsRange (h : Fresh r who s u) (hw : who ≠ .allocator) {off n : Nat} (hn : off + n ≤ s.cfg.bufSize) :
    ownsRange u who (r.toNat + off) n = true :=
  ownsRange_of_ownerOf ((h.owners r).trans (if_pos rfl)) hw (by omega) (by rw [h.cfg]; omega)

/-- An owned buffer is not the fresh one. -/
theorem AllocOk.ne {b : Addr} (h : AllocOk s r) (hn : 0 < s.cfg.bufSize) (hb : ownerOf s b ≠ .allocator) : b ≠ r := by
  rintro rfl
  unfold ownerOf at hb
  cases hx : s.bufs.find? (fun q => q.base == b) with
  | none => rw [hx] at hb; exact hb rfl
  | some q =>
    rw [hx] at hb
    have hq : q.base = b := by simpa using List.find?_some hx
    rcases h.free q (List.mem_of_find?_eq_some hx) with h1 | h1
    · exact hb ((ownerNow_of_ne (by rw [h1]; simp)).trans h1)
    · rw [hq, overlaps_self hn] at h1
      exact absurd h1 (by simp)

/-- An owned buffer shares no byte with the fresh one. -/
theorem AllocOk.apart {b : Addr} (h : AllocOk s r) (hb : ownerOf s b ≠ .allocator) :
    overlaps r.toNat s.cfg.bufSize b.toNat s.cfg.bufSize = false := by
  unfold ownerOf at hb
  cases hx : s.bufs.find? (fun q => q.base == b) with
  | none => rw [hx] at hb; exact absurd rfl hb
  | some q =>
    rw [hx] at hb
    have hq : q.base = b := by simpa using List.find?_some hx
    rcases h.free q (List.mem_of_find?_eq_some hx) with h1 | h1
    · exact absurd ((ownerNow_of_ne (by rw [h1]; simp)).trans h1) hb
    · rwa [hq] at h1

/-- Alloc where the allocator's next answer is a region it may give. -/
theorem alloc_given (hs : s.sched = []) (hap : BufsApart s) (hn : 0 < s.cfg.bufSize)
    (ha : (nextAllocAnswer s).1 = some r) (hok : allocOk s r = true) :
    ∃ u, alloc who s = .ok (some r, u) ∧ Given r who s u ∧ u.copyAns = s.copyAns ∧
      ∀ c, r.toNat ≤ c → c < r.toNat + s.cfg.bufSize → memGet u.mem c = none := by
  obtain ⟨a, l, n, e⟩ := nextAllocAnswer_spec s
  have ha' : a = some r := by rw [e] at ha; exact ha
  subst ha'
  have hA := (allocOk_iff s r).1 hok
  have hA' : AllocOk { s with allocAns := l, draws := n } r := hA.congr rfl rfl rfl rfl rfl
  have hap' : BufsApart { s with allocAns := l, draws := n } := hap.congr rfl rfl
  have hl : l = s.allocAns.tail := by
    have h := congrArg (fun p => p.2.allocAns) e
    rw [← show _ = l from h]
    unfold nextAllocAnswer
    cases s.allocAns <;> rfl
  refine ⟨_, alloc_quiet_some hs e hok, ⟨hA, ?_, hap'.allocState hA', ?_, ?_, by rw [← hl]; rfl⟩, rfl, ?_⟩
  · intro x
    exact recordedOwner_allocState hap' hn hA' x
  · intro c hc
    exact byteAt_allocState hap' hA' hc
  · intro c hc
    rw [allocState_fenced]
    exact (memGet_memClear _ _ _ _).trans (if_neg (by simp only; omega))
  · intro c h1 h2
    rw [allocState_mem, memGet_memClear, if_pos ⟨h1, h2⟩]

/-- The same for an owner other than the receive path, whose buffers are no one else's. -/
theorem alloc_fresh (hs : s.sched = []) (hw : who ≠ .rxPath) (hap : BufsApart s) (hn : 0 < s.cfg.bufSize)
    (ha : (nextAllocAnswer s).1 = some r) (hok : allocOk s r = true) :
    ∃ u, alloc who s = .ok (some r, u) ∧ Fresh r who s u ∧ u.copyAns = s.copyAns ∧
      ∀ c, r.toNat ≤ c → c < r.toNat + s.cfg.bufSize → memGet u.mem c = none := by
  obtain ⟨u, h1, h2, h3, h4⟩ := alloc_given (who := who) hs hap hn ha hok
  refine ⟨u, h1, ⟨h2.ok, fun x => ?_, h2.apart, h2.same, h2.fenced, h2.state⟩, h3, h4⟩
  have hd : deviceHolds u x = deviceHolds s x := by rw [h2.state]; rfl
  rw [ownerOf_eq, ownerOf_eq, h2.records, hd]
  by_cases hx : x = r <;> simp [hx, hw]

/-- Alloc where the allocator answers FAIL. -/
theorem alloc_fails (hs : s.sched = []) (ha : (nextAllocAnswer s).1 = none) :
    ∃ n, alloc who s = .ok (none, { s with allocAns := s.allocAns.tail, draws := n }) := by
  obtain ⟨a, l, n, e⟩ := nextAllocAnswer_spec s
  have ha' : a = none := by rw [e] at ha; exact ha
  subst ha'
  have hl : l = s.allocAns.tail := by
    have h := congrArg (fun p => p.2.allocAns) e
    rw [← show _ = l from h]
    unfold nextAllocAnswer
    cases s.allocAns <;> rfl
  exact ⟨n, by rw [alloc_quiet_none hs e, hl]⟩

/-- A write into the fresh buffer. -/
theorem Fresh.wrote {v : State} {off : Nat} {bs : List Byte} (h : Fresh r who s u)
    (hn : off + bs.length ≤ s.cfg.bufSize) (hv : v = { u with mem := memPutBytes u.mem (r.toNat + off) bs }) :
    Wrote (r.toNat + off) bs u v ∧ Fresh r who s v := by
  have hw : Wrote (r.toNat + off) bs u v := ⟨by rw [hv], by rw [hv], by rw [hv]⟩
  refine ⟨hw, ⟨h.ok, ?_, h.apart.congr (by rw [hv]) (by rw [hv]), ?_, ?_, ?_⟩⟩
  · intro x
    rw [← h.owners]
    exact ownerOf_congr hw.bufs hw.cfg (by rw [hv]) (by rw [hv]) (by rw [hv]) x
  · intro c hc
    rw [hw.byteAt_outside (by omega), h.same c hc]
  · intro c hc
    rw [← h.fenced c hc, hv]
  · have key : ∀ m1 m2 f1 b1 d1 c1,
        u = { s with mem := m1, fenced := f1, bufs := b1, draws := d1, allocAns := s.allocAns.tail, copyAns := c1,
                     events := s.events ++ [.allocated r] } → v = { u with mem := m2 } →
        v = { s with mem := v.mem, fenced := v.fenced, bufs := v.bufs, draws := v.draws, allocAns := s.allocAns.tail, copyAns := v.copyAns,
                     events := s.events ++ [.allocated r] } := by
      intro m1 m2 f1 b1 d1 c1 e1 e2
      rw [e2, e1]
    exact key _ _ _ _ _ _ h.state hv

theorem Fresh.bufWrite (h : Fresh r who s u) (hs : s.sched = []) (hw : who ≠ .allocator) {off : Nat}
    {bs : List Byte} (hn : off + bs.length ≤ s.cfg.bufSize) :
    ∃ v, bufWrite who r off bs u = .ok ((), v) ∧ Wrote (r.toNat + off) bs u v ∧ Fresh r who s v ∧
      v.copyAns = u.copyAns := by
  have hfit := h.ok.inside
  obtain ⟨h1, h2⟩ := h.wrote hn rfl
  exact ⟨_, bufWrite_quiet (h.sched.trans hs) (h.ownsRange hw hn) (by omega), h1, h2, rfl⟩

theorem contiguous_bounds {n : Nat} (fs : List (Nat × List Byte)) : ∀ {off : Nat}, contiguous off fs →
    off + (fs.map Prod.snd).flatten.length ≤ n → ∀ f ∈ fs, f.1 + f.2.length ≤ n := by
  induction fs with
  | nil => intro off _ _ f hf; simp at hf
  | cons g fs ih =>
    obtain ⟨o, bs⟩ := g
    rintro off ⟨rfl, hc⟩ hn f hf
    simp only [List.map_cons, List.flatten_cons, List.length_append] at hn
    rcases List.mem_cons.1 hf with rfl | hf
    · simp only; omega
    · exact ih hc (by omega) f hf

/-- Contiguous field writes into the fresh buffer. -/
theorem Fresh.bufWriteFields (h : Fresh r who s u) (hs : s.sched = []) (hw : who ≠ .allocator) {off : Nat}
    {fs : List (Nat × List Byte)} (hc : contiguous off fs)
    (hn : off + (fs.map Prod.snd).flatten.length ≤ s.cfg.bufSize) :
    ∃ v, bufWriteFields who r fs u = .ok ((), v) ∧ Wrote (r.toNat + off) (fs.map Prod.snd).flatten u v ∧
      Fresh r who s v ∧ v.copyAns = u.copyAns := by
  have hfit := h.ok.inside
  obtain ⟨h1, h2⟩ := h.wrote hn rfl
  refine ⟨_, ?_, h1, h2, rfl⟩
  rw [bufWriteFields_quiet fs (h.sched.trans hs) fun f hf => ?_, putFields_contiguous _ _ _ _ hc]
  have := contiguous_bounds (off := off) fs hc hn f hf
  exact ⟨h.ownsRange hw this, by omega⟩

/-- The slot at TDT reads as before the allocation. -/
theorem Fresh.txd (h : Fresh r who s u) {i : Nat} (hi : i < s.cfg.nTx) :
    txd u i = Machine.txd s i := by
  refine txd_congr (by simp [txdAddr, h.txRingBase]) fun c c1 c2 => h.same c ?_
  have := overlaps_false h.ok.offTx
  simp only [txdAddr, descSize] at *
  omega

/-- The fresh buffer lies off the transmit ring's slots. -/
theorem Fresh.offRing (h : Fresh r who s u) :
    s.txRingBase.toNat + s.cfg.nTx * 16 ≤ r.toNat ∨ r.toNat + s.cfg.bufSize ≤ s.txRingBase.toNat := by
  have := overlaps_false h.ok.offTx
  simp only [descSize] at this
  exact this

theorem Fresh.old (h : Fresh r who s u) (hr : SubmitReady s) (hsl : SlotReady s) :
    ∀ o, u.txOwner.getD u.dev.tdt.toNat none = some o →
      ownerOf u o = .txPath ∧ txHolds u o = false := by
  intro o ho
  rw [h.txOwner, h.dev] at ho
  obtain ⟨h1, h2⟩ := hsl.old o ho
  have hb := hr.sizes.buf
  rw [h.owners, if_neg (h.ok.ne (by omega) (by rw [h1]; decide)), h1, txHolds_congr h.cfg h.dev h.txOwner]
  exact ⟨rfl, h2⟩

/-- The fresh buffer is submitted into a slot whose DD is set. -/
theorem Fresh.submit_ok (h : Fresh r who s u) (hr : SubmitReady s) (hsl : SlotReady s) {len : Half}
    (h1 : 1 ≤ len.toNat) (h2 : len.toNat ≤ s.cfg.bufSize) :
    txSubmitOp who r len u = .ok (.ok, submitState r len u) := by
  have ht := hr.tail
  have hf : txdAddr u u.dev.tdt.toNat + 16 ≤ addrSpace := by
    have := hr.rings.1
    simp only [txdAddr, descSize, h.txRingBase, h.dev] at *
    omega
  refine txSubmit_ok_quiet (h.sched.trans hr.sched) (by rw [h.locks]; exact hr.locks)
    ((h.owners r).trans (if_pos rfl)) h1 (by rw [h.cfg]; exact h2) (by rw [h.cfg, h.dev]; exact ht) hf ?_ ?_ (h.old hr hsl) (by rw [h.cfg]; omega)
    (by rw [h.cfg, h.dev]; exact hr.tdlen)
  · rw [h.dev, h.txd ht]; exact hsl.done
  · rw [devOwnsTx_congr h.cfg h.dev, h.dev]; exact hsl.slot

/-- The fresh buffer is turned away where the slot's DD is clear. -/
theorem Fresh.submit_full (h : Fresh r who s u) (hr : SubmitReady s) {len : Half}
    (h1 : 1 ≤ len.toNat) (h2 : len.toNat ≤ s.cfg.bufSize)
    (hdd : hasBit (Machine.txd s s.dev.tdt.toNat).status bitDD = false) :
    txSubmitOp who r len u = .ok (.full, u) := by
  have ht := hr.tail
  have hf : txdAddr u u.dev.tdt.toNat + 16 ≤ addrSpace := by
    have := hr.rings.1
    simp only [txdAddr, descSize, h.txRingBase, h.dev] at *
    omega
  refine txSubmit_full_quiet (h.sched.trans hr.sched) (by rw [h.locks]; exact hr.locks)
    ((h.owners r).trans (if_pos rfl)) h1 (by rw [h.cfg]; exact h2) (by rw [h.cfg, h.dev]; exact ht) hf ?_
  rw [h.dev, h.txd ht]; exact hdd

/-- What the submission of the fresh buffer leaves, seen from the state before the allocation. -/
theorem Fresh.submitted (h : Fresh r who s u) (hr : SubmitReady s) (hsl : SlotReady s) (hw : who ≠ .allocator) (len : Half) :
    (∀ x, ownerOf (submitState r len u) x = if x = r then .txPath
      else if s.txOwner.getD s.dev.tdt.toNat none = some x then .allocator else ownerOf s x) ∧
    Machine.txd (submitState r len u) s.dev.tdt.toNat = ⟨r, len, 0, 0x09, 0, 0, 0⟩ ∧
    (∀ c, (c < r.toNat ∨ r.toNat + s.cfg.bufSize ≤ c) →
      (c < txdAddr s s.dev.tdt.toNat ∨ txdAddr s s.dev.tdt.toNat + 16 ≤ c) →
      byteAt (submitState r len u) c = byteAt s c) ∧
    (∀ n, n ≤ s.cfg.bufSize → bytesAt (submitState r len u) r.toNat n = bytesAt u r.toNat n) := by
  have ha : txdAddr u u.dev.tdt.toNat = txdAddr s s.dev.tdt.toNat := by simp [txdAddr, h.txRingBase, h.dev]
  have ht := hr.tail
  refine ⟨?_, ?_, ?_, ?_⟩
  · intro x
    rw [ownerOf_submitState (by rw [h.owners, if_pos rfl]; exact hw) fun o ho => (h.old hr hsl o ho).1, h.txOwner, h.dev, h.owners]
    by_cases e : x = r
    · rw [if_pos e, if_pos e]
    · rw [if_neg e, if_neg e, if_neg e]
  · rw [← h.dev]
    exact txd_submitState r len u
  · intro c c1 c2
    rw [byteAt_submitState_outside _ _ _ _ (by rw [ha]; exact c2), h.same c c1]
  · intro n hn
    apply bytesAt_congr
    intro c c1 c2
    apply byteAt_submitState_outside
    have := h.offRing
    rw [ha]
    simp only [txdAddr, descSize] at *
    omega

/-! ### In the terms of the claims -/

/-- The fresh buffer's submission, whole. -/
theorem Fresh.submittedFresh (h : Fresh r who s u) (hr : SubmitReady s) (hsl : SlotReady s) (hw : who ≠ .allocator) (len : Half) :
    SubmittedFresh s r len [] (submitState r len u) := by
  obtain ⟨h1, h2, h3, -⟩ := h.submitted hr hsl hw len
  refine ⟨h2, ?_, h3, ?_, ?_, ?_⟩
  · intro x
    rw [h1]
    simp
  · have e : (submitState r len u).txOwner = u.txOwner.set u.dev.tdt.toNat (some r) := rfl
    rw [e, h.txOwner, h.dev]
  · intro c
    rw [submitState_fenced, memGet_memKeep, inDeviceSlot_congr h.cfg h.dev]
    exact ⟨fun e => by simp [e], fun e hc => by simpa [e] using h.fenced c hc⟩
  · have e : (submitState r len u).dev = publishedDev u.cfg u.dev.tdt.toNat u.dev := rfl
    rw [e, h.cfg, h.dev]
    unfold publishedDev writeTail
    cases s.cfg.wrapMode <;> simp

/-- Everything else after the submission. -/
theorem Fresh.submitState_state (h : Fresh r who s u) (len : Half) :
    submitState r len u = { s with
      mem := (submitState r len u).mem, fenced := (submitState r len u).fenced
      bufs := (submitState r len u).bufs, draws := u.draws
      allocAns := s.allocAns.tail, copyAns := u.copyAns, txOwner := (submitState r len u).txOwner
      dev := (submitState r len u).dev
      events := s.events ++ .allocated r :: (s.txOwner.getD s.dev.tdt.toNat none).toList.map Event.released } := by
  have key : ∀ m f b d c, u = { s with mem := m, fenced := f, bufs := b, draws := d, allocAns := s.allocAns.tail,
                                       copyAns := c, events := s.events ++ [.allocated r] } →
      submitState r len u = { s with
        mem := (submitState r len u).mem, fenced := (submitState r len u).fenced
        bufs := (submitState r len u).bufs, draws := d
        allocAns := s.allocAns.tail, copyAns := c, txOwner := (submitState r len u).txOwner
        dev := (submitState r len u).dev
        events := s.events ++ .allocated r :: (s.txOwner.getD s.dev.tdt.toNat none).toList.map Event.released } := by
    rintro m f b d c rfl
    unfold submitState releaseOldState
    cases s.txOwner.getD s.dev.tdt.toNat none with
    | none => rfl
    | some o => simp [releaseState, setOwner]
  exact key _ _ _ _ _ h.state

/-- One more buffer released after the submission. -/
theorem SubmittedFresh.release {len : Half} {l : List Addr} {t : State} (h : SubmittedFresh s r len l t) {b : Addr}
    (hb : ownerOf t b ≠ .allocator) (hn : b ≠ r) : SubmittedFresh s r len (b :: l) (releaseState b t) := by
  refine ⟨?_, ?_, ?_, h.txOwner, h.seen, h.dev⟩
  · rw [← h.slot]
    exact txd_congr rfl fun c _ _ => byteAt_releaseState _ _ _
  · intro x
    rw [ownerOf_releaseState hb, h.owners]
    by_cases hx : x = b
    · subst hx
      simp [hn]
    · simp [hx]
  · intro c c1 c2
    rw [byteAt_releaseState]
    exact h.same c c1 c2

/-- The fresh buffer given back. -/
theorem Fresh.givenBack (h : Fresh r who s u) (hw : who ≠ .allocator) : GivenBack s r [] (releaseState r u) := by
  refine ⟨?_, ?_⟩
  · intro x
    rw [ownerOf_releaseState (by rw [h.owners, if_pos rfl]; exact hw), h.owners]
    by_cases hx : x = r <;> simp [hx]
  · intro c hc
    rw [byteAt_releaseState]
    exact h.same c hc

theorem GivenBack.release {l : List Addr} {t : State} (h : GivenBack s r l t) {b : Addr}
    (hb : ownerOf t b ≠ .allocator) : GivenBack s r (b :: l) (releaseState b t) := by
  refine ⟨?_, ?_⟩
  · intro x
    rw [ownerOf_releaseState hb, h.owners]
    by_cases hx : x = b
    · simp [hx]
    · simp [hx]
  · intro c hc
    rw [byteAt_releaseState]
    exact h.same c hc

end

end Sys2Proof.Machine
end

