-- ==== Sys2Proof/Laws/Demux.lean ====
section
/-! SUPPORT. The demultiplexer's pieces where no device event is scheduled: reads of a held buffer, the type test,
the release that ends a drop, the port lookup, and the end of an internal operation. -/

namespace Sys2Proof.Machine

section
variable {s : State} {who : Owner} {b : Addr}

/-! ### Reads of a held buffer -/

theorem Holds.congr {t : State} (h : Holds s who b) (h1 : t.cfg = s.cfg) (h2 : ownerOf t b = ownerOf s b) :
    Holds t who b := by
  obtain ⟨a1, a2, a3⟩ := h
  constructor
  · rw [h2]; exact a1
  · rw [h1]; exact a2
  · rw [h1]; exact a3

theorem Holds.bufRead (h : Holds s who b) (hs : s.sched = []) (hw : who ≠ .allocator) {off n : Nat}
    (hn : off + n ≤ s.cfg.bufSize) : bufRead who b off n s = .ok (bytesAt s (b.toNat + off) n, s) := by
  have := h.inside
  exact bufRead_quiet hs (ownsRange_of_ownerOf h.owner hw (by omega) (by omega)) (by omega)

@[simp] theorem byteOf_bytesAt_one (s : State) (a : Nat) : byteOf (bytesAt s a 1) = byteAt s a := rfl

/-- The low four bits of a byte, as a number. -/
theorem and_0F_toNat (v : Byte) : (v &&& 0x0F).toNat = v.toNat % 16 := by
  rw [BitVec.toNat_and]
  exact Nat.and_two_pow_sub_one_eq_mod v.toNat 4

theorem udpOffset_eq (v : Byte) : udpOffset v = 14 + 4 * (v.toNat % 16) := by
  rw [udpOffset, and_0F_toNat, ethHdr]

theorem udpOffset_le (v : Byte) : udpOffset v ≤ 74 := by
  rw [udpOffset_eq]
  omega

/-- The type test reads the type field where the length admits it. -/
theorem Holds.typeIs (h : Holds s .demux b) (hs : s.sched = []) (len : Half) (n : Nat) (ty : Half) :
    typeIs b len n ty s = .ok (decide (n ≤ len.toNat ∧ frameType s b = ty), s) := by
  have := h.size
  unfold Machine.typeIs
  by_cases hn : n ≤ len.toNat
  · simp only [hn, if_true, bind_apply, h.bufRead hs (by decide) (off := 12) (n := 2) (by omega), pure_apply,
      true_and]
    rfl
  · simp [hn]

/-! ### The port-queue collaborator -/

theorem mem_boundQueues {port : Half} {q : Nat} :
    q ∈ boundQueues s port ↔ ∃ e, BoundTo s port q e := by
  unfold boundQueues BoundTo
  split
  · next h => simp [h]
  · next h =>
    simp only [List.mem_filter, List.mem_range, decide_eq_true_eq, Option.map_eq_some_iff]
    constructor
    · rintro ⟨-, e, h1, h2⟩
      exact ⟨e, h, h1, h2⟩
    · rintro ⟨e, -, h1, h2⟩
      exact ⟨(List.getElem?_eq_some_iff.1 h1).1, e, h1, h2⟩

theorem portLookup_none (hs : s.sched = []) {port : Half} (h : ∀ q e, ¬ BoundTo s port q e) :
    portLookup port s = .ok (none, s) := by
  have hb : boundQueues s port = [] := by
    rw [List.eq_nil_iff_forall_not_mem]
    intro q hq
    obtain ⟨e, he⟩ := mem_boundQueues.1 hq
    exact h q e he
  simp [portLookup, point_quiet hs, hb]

/-- The lookup answers some bound queue, using up free values where it has a choice. -/
theorem portLookup_some (hs : s.sched = []) {port : Half} (h : ∃ q e, BoundTo s port q e) :
    ∃ q e l n, BoundTo s port q e ∧ portLookup port s = .ok (some q, { s with drawAns := l, draws := n }) := by
  obtain ⟨q0, e0, h0⟩ := h
  have hm : q0 ∈ boundQueues s port := mem_boundQueues.2 ⟨e0, h0⟩
  simp only [portLookup, bind_apply, point_quiet hs, get_apply]
  cases hb : boundQueues s port with
  | nil => rw [hb] at hm; cases hm
  | cons q qs =>
    cases qs with
    | nil =>
      obtain ⟨e, he⟩ := mem_boundQueues.1 (show q ∈ boundQueues s port by rw [hb]; simp)
      exact ⟨q, e, s.drawAns, s.draws, he, rfl⟩
    | cons q' qs =>
      obtain ⟨v, l, hd⟩ := draw_spec 64 s
      simp only [bind_apply, hd, pure_apply]
      have hlt : v.toNat % (q :: q' :: qs).length < (q :: q' :: qs).length := Nat.mod_lt _ (by simp)
      obtain ⟨e, he⟩ := mem_boundQueues.1 (show
        (q :: q' :: qs).getD (v.toNat % (q :: q' :: qs).length) q ∈ boundQueues s port by
          rw [hb, List.getD_eq_getElem _ _ hlt]; exact List.getElem_mem hlt)
      exact ⟨_, e, l, s.draws + 1, he, rfl⟩

/-! ### The ends of an operation -/

/-- A call from a running state ends as the called operation does, back at the caller's position. -/
theorem outcomeOf_callFrom {m : M Unit} (hm : Restores m) {p : SwSeq} (h : Running s) :
    outcomeOf (callFrom p m s) = comeBack s.sw (outcomeOf (m { s with sw := p })) := by
  have hr := hm { s with sw := p }
  cases hx : m { s with sw := p } with
  | ok r =>
    obtain ⟨⟨⟩, t⟩ := r
    obtain ⟨-, -, h3, h4⟩ := hr.1 _ _ hx
    rw [callFrom_ok hx]
    simp only [outcomeOf_ok, comeBack, backTo]
    rw [if_pos ⟨h3.trans h.1, h4.trans h.2⟩]
  | error e =>
    rw [callFrom_error hx]
    cases e with
    | ended t =>
      simp only [outcomeOf_ended, comeBack, backTo]
      rw [if_neg]
      rintro ⟨h1, h2⟩
      rcases hr.2 _ hx with h3 | h3
      · exact h3 h1
      · exact h3 h2
    | fault f => rfl
    | refused r => rfl

/-! ### Internal operations at their places -/

theorem exec_classify {i k : Nat} {len : Half} (h : ReadyAt (.drainRD3 i k) s) :
    exec (.classify b len) s = outcomeOf (classifyOp b len s) := by
  rw [exec_of_body h.running rfl]
  simp only [bodyOf, internally_apply, h.sw, if_true]

theorem exec_arpRx {len : Half} (h : Running s) (hw : s.sw = .classifyC1) :
    exec (.arpRx b len) s = outcomeOf (arpRxOp b len s) := by
  rw [exec_of_body h rfl]
  simp only [bodyOf, internally_apply, hw, decide_true, if_true]

theorem exec_ipRx {len : Half} (h : Running s) (hw : s.sw = .classifyC2) :
    exec (.ipRx b len) s = outcomeOf (ipRxOp b len s) := by
  rw [exec_of_body h rfl]
  simp only [bodyOf, internally_apply, hw, decide_true, if_true]

theorem exec_rxDrain (h : Running s) (hw : s.sw = .irqI2) :
    exec .rxDrain s = outcomeOf (rxDrainOp s) := by
  rw [exec_of_body h rfl]
  simp only [bodyOf, internally_apply, hw, decide_true, if_true]

/-- A drop: the event, then the release of the buffer. -/
theorem drop_quiet (hs : s.sched = []) (ho : ownerOf s b = who) (r : DropReason)
    (hw : who ≠ .device ∧ who ≠ .txPath := by decide) :
    (do emit (.dropped r); release who b : M Unit) s =
      .ok ((), releaseState b { s with events := s.events ++ [.dropped r] }) := by
  simp only [bind_apply, emit_apply]
  exact release_own_quiet (by exact hs) (by exact ho) hw

end

end Sys2Proof.Machine
end

