-- ==== Sys2Proof/Laws/DeviceTx.lean ====
section
/-! SUPPORT. DEV_TX_STEP evaluated, and what it leaves in memory. -/

namespace Sys2Proof.Machine

/-- The state after DEV_TX_STEP has sent `frame`: DD is set at TDH where RS asks for it, and TDH has moved on. -/
def txDoneState (frame : List Byte) (s : State) : State :=
  { (if hasBit (txd s s.dev.tdh.toNat).cmd bitRs then
      dmaPut (txdAddr s s.dev.tdh.toNat + offStatus) [(txd s s.dev.tdh.toNat).status ||| bitDD] s
    else s) with
    dev := advanceTdh s.cfg s.dev
    events := s.events ++ [.wireTx frame] }

/-- The device finds the transmit ring where INIT put it. -/
theorem TxRingSet.devAddr {s : State} (h : TxRingSet s) (i : Nat) : devTxdAddr s.dev i = txdAddr s i := by
  simp [devTxdAddr, txdAddr, h.base]

section
variable {s : State} (he : txStepEnabled s = true) (hreg : TxRingSet s)
  (hsee : DeviceSees s (txdAddr s s.dev.tdh.toNat) 16)
  (hmay : touchesSoftware s (txdAddr s s.dev.tdh.toNat) descSize = false)
include he hreg hsee hmay

/-- DEV_TX_STEP reads the descriptor at TDH as software wrote it (spec/20_memory.md R107). -/
theorem devTxStepOp_read (hf : txdAddr s s.dev.tdh.toNat + 16 ≤ addrSpace) :
    devTxStepOp s = (do
      require (hasBit (txd s s.dev.tdh.toNat).cmd bitTxEop && !hasBit (txd s s.dev.tdh.toNat).cmd bitDext)
        .txDescriptorForm
      if devReads s (txd s s.dev.tdh.toNat).addr.toNat (txd s s.dev.tdh.toNat).length.toNat then
        let frame ← dmaRead (txd s s.dev.tdh.toNat).addr.toNat (txd s s.dev.tdh.toNat).length.toNat
        emit (.wireTx frame)
        whenever (hasBit (txd s s.dev.tdh.toNat).cmd bitRs)
          (dmaWrite (txdAddr s s.dev.tdh.toNat + offStatus) [(txd s s.dev.tdh.toNat).status ||| bitDD])
        update fun s => setDev (advanceTdh s.cfg s.dev) s
      else raiseModelFault .ownershipViolation : M Unit) s := by
  have hr : descRead (txdAddr s s.dev.tdh.toNat) descSize s =
      .ok (bytesAt s (txdAddr s s.dev.tdh.toNat) descSize, s) := by
    rw [descRead_apply, if_pos (show _ + descSize ≤ _ from hf), hsee.bytesAt (n := descSize)]
  have ht : takeDescriptor (txdAddr s s.dev.tdh.toNat) s = .ok ((), s) := by
    rw [takeDescriptor_apply, hmay]; rfl
  unfold devTxStepOp
  simp only [bind_apply, get_apply, he, require_of_true, hreg.devAddr, ht, hr]
  rfl

/-- DEV_TX_STEP up to its check of the descriptor. -/
theorem devTxStepOp_form (hf : txdAddr s s.dev.tdh.toNat + 16 ≤ addrSpace)
    (hd : hasBit (txd s s.dev.tdh.toNat).cmd bitTxEop = false ∨ hasBit (txd s s.dev.tdh.toNat).cmd bitDext = true) :
    devTxStepOp s = .error (.refused .txDescriptorForm) := by
  rw [devTxStepOp_read he hreg hsee hmay hf]
  rcases hd with h | h <;> simp [h]

/-- DEV_TX_STEP once it has read the frame. -/
theorem devTxStepOp_sent (hf : txdAddr s s.dev.tdh.toNat + 16 ≤ addrSpace)
    (h1 : hasBit (txd s s.dev.tdh.toNat).cmd bitTxEop = true)
    (h2 : hasBit (txd s s.dev.tdh.toNat).cmd bitDext = false)
    (ho : devReads s (txd s s.dev.tdh.toNat).addr.toNat (txd s s.dev.tdh.toNat).length.toNat = true)
    {frame : List Byte} {l : List (BitVec 64)} {k : Nat}
    (hr : dmaRead (txd s s.dev.tdh.toNat).addr.toNat (txd s s.dev.tdh.toNat).length.toNat s =
      .ok (frame, { s with drawAns := l, draws := k })) :
    devTxStepOp s = .ok ((), txDoneState frame { s with drawAns := l, draws := k }) := by
  rw [devTxStepOp_read he hreg hsee hmay hf]
  simp only [h1, h2, Bool.not_false, Bool.and_self, bind_apply, require_of_true, ho, if_true, hr, emit_apply,
    whenever_apply, dmaWrite_apply, List.length_singleton]
  rw [if_pos (show txdAddr s s.dev.tdh.toNat + offStatus + 1 ≤ addrSpace by simp only [offStatus]; omega)]
  have hirq : ∀ u : State, u.dev = s.dev →
      setDev (advanceTdh s.cfg s.dev) u = { u with dev := advanceTdh s.cfg s.dev } := by
    intro u e1
    rw [setDev_sameIrq _ _ (by rw [e1]; rfl) (by rw [e1]; rfl)]
  have ht : txd { s with drawAns := l, draws := k } s.dev.tdh.toNat = txd s s.dev.tdh.toNat := rfl
  unfold txDoneState
  simp only [ht]
  by_cases hrs : hasBit (txd s s.dev.tdh.toNat).cmd bitRs = true
  · simp only [hrs, if_true, update_apply, dmaPut_cfg, dmaPut_dev]
    rw [hirq _ (by rfl)]
    rfl
  · simp only [hrs, if_false, Bool.false_eq_true, update_apply]
    rw [hirq _ (by rfl)]

/-- DEV_TX_STEP of a descriptor whose buffer an outstanding slot carries, all of it before the last FENCE. -/
theorem devTxStepOp_ok (hf : txdAddr s s.dev.tdh.toNat + 16 ≤ addrSpace)
    (h1 : hasBit (txd s s.dev.tdh.toNat).cmd bitTxEop = true)
    (h2 : hasBit (txd s s.dev.tdh.toNat).cmd bitDext = false)
    (ho : devReads s (txd s s.dev.tdh.toNat).addr.toNat (txd s s.dev.tdh.toNat).length.toNat = true)
    (hb : (txd s s.dev.tdh.toNat).addr.toNat + (txd s s.dev.tdh.toNat).length.toNat ≤ addrSpace)
    (hfr : DeviceSees s (txd s s.dev.tdh.toNat).addr.toNat (txd s s.dev.tdh.toNat).length.toNat) :
    devTxStepOp s = .ok ((), txDoneState (bytesAt s (txd s s.dev.tdh.toNat).addr.toNat
      (txd s s.dev.tdh.toNat).length.toNat) s) :=
  devTxStepOp_sent he hreg hsee hmay hf h1 h2 ho (l := s.drawAns) (k := s.draws) (by
    rw [dmaRead_seen ((seenByDevice_iff _ _ _).2 hfr), memRead_apply, if_pos hb])

omit hsee hmay in
/-- A descriptor that is not the device's is an OWNERSHIP_VIOLATION. -/
theorem devTxStepOp_foreign (h : touchesSoftware s (txdAddr s s.dev.tdh.toNat) descSize = true) :
    devTxStepOp s = .error (.ended { s with modelFault := some .ownershipViolation }) := by
  unfold devTxStepOp
  simp only [bind_apply, get_apply, he, require_of_true, hreg.devAddr, takeDescriptor_apply, h, if_true]

omit he hmay in
/-- DEV_TX_STEP's next state is this one for some frame, or it records a model fault. -/
theorem devTxStepOp_cases {t : State} (hf : txdAddr s s.dev.tdh.toNat + 16 ≤ addrSpace)
    (h : devTxStepOp s = .ok ((), t) ∨ devTxStepOp s = .error (.ended t)) :
    txStepEnabled s = true ∧
      ((∃ frame l k, t = txDoneState frame { s with drawAns := l, draws := k }) ∨
        t = { s with modelFault := some .ownershipViolation }) := by
  by_cases he : txStepEnabled s = true
  · refine ⟨he, ?_⟩
    by_cases hmay : touchesSoftware s (txdAddr s s.dev.tdh.toNat) descSize = true
    · rw [devTxStepOp_foreign he hreg hmay] at h
      rcases h with h | h <;> cases h
      exact .inr rfl
    rw [Bool.not_eq_true] at hmay
    by_cases hd : hasBit (txd s s.dev.tdh.toNat).cmd bitTxEop = false ∨
        hasBit (txd s s.dev.tdh.toNat).cmd bitDext = true
    · rw [devTxStepOp_form he hreg hsee hmay hf hd] at h
      rcases h with h | h <;> cases h
    · have h1 : hasBit (txd s s.dev.tdh.toNat).cmd bitTxEop = true := by
        by_contra hc; exact hd (.inl (by simpa using hc))
      have h2 : hasBit (txd s s.dev.tdh.toNat).cmd bitDext = false := by
        by_contra hc; exact hd (.inr (by simpa using hc))
      by_cases ho : devReads s (txd s s.dev.tdh.toNat).addr.toNat
          (txd s s.dev.tdh.toNat).length.toNat = true
      · rcases dmaRead_cases (txd s s.dev.tdh.toNat).addr.toNat (txd s s.dev.tdh.toNat).length.toNat s with
          ⟨-, frame, l, k, -, -, hr⟩ | ⟨f, hr⟩
        · rw [devTxStepOp_sent he hreg hsee hmay hf h1 h2 ho hr] at h
          rcases h with h | h <;> cases h
          exact .inl ⟨frame, l, k, rfl⟩
        · exfalso
          rw [devTxStepOp_read he hreg hsee hmay hf] at h
          simp only [h1, h2, Bool.not_false, Bool.and_self, bind_apply, require_of_true, ho, if_true, hr] at h
          rcases h with h | h <;> cases h
      · right
        rw [devTxStepOp_read he hreg hsee hmay hf] at h
        simp only [h1, h2, Bool.not_false, Bool.and_self, bind_apply, require_of_true, ho] at h
        rcases h with h | h <;> cases h
        rfl
  · exfalso
    unfold devTxStepOp at h
    simp only [bind_apply, get_apply, he, require_of_false] at h
    rcases h with h | h <;> cases h

end

/-! ### What it leaves in memory -/

/-- The fields DEV_TX_STEP leaves alone. -/
theorem txDoneState_same (frame : List Byte) (s : State) :
    (txDoneState frame s).cfg = s.cfg ∧ (txDoneState frame s).bufs = s.bufs ∧
    (txDoneState frame s).txRingBase = s.txRingBase ∧ (txDoneState frame s).rxRingBase = s.rxRingBase ∧
    (txDoneState frame s).txOwner = s.txOwner ∧ (txDoneState frame s).rxOwner = s.rxOwner ∧
    (txDoneState frame s).modelFault = s.modelFault ∧ (txDoneState frame s).halted = s.halted ∧
    (txDoneState frame s).initPhase = s.initPhase ∧ (txDoneState frame s).sched = s.sched := by
  unfold txDoneState
  split <;> exact ⟨rfl, rfl, rfl, rfl, rfl, rfl, rfl, rfl, rfl, rfl⟩

theorem txdAddr_txDoneState (frame : List Byte) (s : State) (i : Nat) :
    txdAddr (txDoneState frame s) i = txdAddr s i := by
  simp only [txdAddr, (txDoneState_same frame s).2.2.1]

theorem byteAt_txDoneState_outside (frame : List Byte) (s : State) {c : Nat}
    (h : c ≠ txdAddr s s.dev.tdh.toNat + 12) : byteAt (txDoneState frame s) c = byteAt s c := by
  have hb : byteAt (txDoneState frame s) c = byteAt (if hasBit (txd s s.dev.tdh.toNat).cmd bitRs then
      dmaPut (txdAddr s s.dev.tdh.toNat + offStatus) [(txd s s.dev.tdh.toNat).status ||| bitDD] s
    else s) c := rfl
  rw [hb]
  split
  · rw [byteAt_dmaPut, if_neg (by simp [offStatus]; omega)]
  · rfl

theorem byteAt_txDoneState_status (frame : List Byte) (s : State) :
    byteAt (txDoneState frame s) (txdAddr s s.dev.tdh.toNat + 12) =
      if hasBit (txd s s.dev.tdh.toNat).cmd bitRs then (txd s s.dev.tdh.toNat).status ||| bitDD
      else (txd s s.dev.tdh.toNat).status := by
  have hb : ∀ c, byteAt (txDoneState frame s) c = byteAt (if hasBit (txd s s.dev.tdh.toNat).cmd bitRs then
      dmaPut (txdAddr s s.dev.tdh.toNat + offStatus) [(txd s s.dev.tdh.toNat).status ||| bitDD] s
    else s) c := fun _ => rfl
  rw [hb]
  split
  · rw [byteAt_dmaPut, if_pos (by simp [offStatus])]
    simp [offStatus]
  · rw [txd_status]
    rfl

/-- What the device saw it still sees. -/
theorem DeviceSees.txDoneState {s : State} {a n : Nat} (h : DeviceSees s a n) (frame : List Byte) :
    DeviceSees (txDoneState frame s) a n := by
  refine DeviceSees.congr (s := if hasBit (txd s s.dev.tdh.toNat).cmd bitRs then
      Machine.dmaPut (txdAddr s s.dev.tdh.toNat + offStatus) [(txd s s.dev.tdh.toNat).status ||| bitDD] s
    else s) ?_ rfl rfl
  split
  · exact h.dmaPut _ _
  · exact h

/-- Every other slot's descriptor is as it was. -/
theorem txd_txDoneState_ne (frame : List Byte) (s : State) {i : Nat} (h : i ≠ s.dev.tdh.toNat) : txd (txDoneState frame s) i = txd s i := by
  have ha := txdAddr_txDoneState frame s i
  unfold txd
  rw [ha]
  congr 1
  apply bytesAt_congr
  intro c h1 h2
  apply byteAt_txDoneState_outside
  simp only [txdAddr, descSize] at *
  omega

/-- The slot at TDH keeps every field but its status. -/
theorem txd_txDoneState_head (frame : List Byte) (s : State) :
    txd (txDoneState frame s) s.dev.tdh.toNat =
      { txd s s.dev.tdh.toNat with
        status := if hasBit (txd s s.dev.tdh.toNat).cmd bitRs then (txd s s.dev.tdh.toNat).status ||| bitDD
          else (txd s s.dev.tdh.toNat).status } := by
  have ha := txdAddr_txDoneState frame s s.dev.tdh.toNat
  have hpart : ∀ j k, j + k ≤ 12 ∨ 13 ≤ j → bytesAt (txDoneState frame s) (txdAddr s s.dev.tdh.toNat + j) k =
      bytesAt s (txdAddr s s.dev.tdh.toNat + j) k := by
    intro j k hj
    apply bytesAt_congr
    intro c h1 h2
    apply byteAt_txDoneState_outside
    omega
  have hbyte : ∀ j, j ≠ 12 → byteAt (txDoneState frame s) (txdAddr s s.dev.tdh.toNat + j) =
      byteAt s (txdAddr s s.dev.tdh.toNat + j) := by
    intro j hj
    apply byteAt_txDoneState_outside
    omega
  rw [← byteAt_txDoneState_status frame]
  unfold txd txDescOf descSize
  rw [ha]
  simp only [TxDesc.mk.injEq]
  refine ⟨?_, ?_, ?_, ?_, ?_, ?_, ?_⟩
  · rw [bytesAt_take _ _ _ _ (by omega), bytesAt_take _ _ _ _ (by omega)]
    have := hpart 0 8 (by omega)
    simp only [Nat.add_zero] at this
    rw [this]
  · rw [bytesAt_slice _ _ _ _ _ (by omega), bytesAt_slice _ _ _ _ _ (by omega), hpart _ _ (by omega)]
  · rw [bytesAt_getD _ _ _ _ (by omega), bytesAt_getD _ _ _ _ (by omega), hbyte _ (by omega)]
  · rw [bytesAt_getD _ _ _ _ (by omega), bytesAt_getD _ _ _ _ (by omega), hbyte _ (by omega)]
  · rw [bytesAt_getD _ _ _ _ (by omega)]
  · rw [bytesAt_getD _ _ _ _ (by omega), bytesAt_getD _ _ _ _ (by omega), hbyte _ (by omega)]
  · rw [bytesAt_slice _ _ _ _ _ (by omega), bytesAt_slice _ _ _ _ _ (by omega), hpart _ _ (by omega)]

end Sys2Proof.Machine
end

