-- ==== Sys2Proof/Laws/DeviceRx.lean ====
section
/-! SUPPORT. DEV_RX_FRAME evaluated: one turn of its loop, what a turn leaves in memory, and the loop. -/

namespace Sys2Proof.Machine

/-! ### The write-back -/

/-- The memory after the write-back of `d` (its address field is not written). -/
def writeBackMem (m : List Host.Cell) (a : Nat) (d : RxDesc) : List Host.Cell :=
  let m := memPutBytes m (a + offLength) (leBytes 2 d.length.toNat)
  let m := memPutBytes m (a + offCsum) (leBytes 2 d.csum.toNat)
  let m := memPutBytes m (a + offErrors) [d.errors]
  let m := memPutBytes m (a + offSpecial) (leBytes 2 d.special.toNat)
  memPutBytes m (a + offStatus) [d.status]

theorem memGet_writeBackMem (m : List Host.Cell) (a : Nat) (d : RxDesc) (c : Nat) :
    memGet (writeBackMem m a d) c =
      if a + 8 ≤ c ∧ c < a + 16 then (rxDescBytes d)[c - a]? else memGet m c := by
  simp only [writeBackMem, memGet_memPutBytes, leBytes_length, List.length_cons, List.length_nil, offLength,
    offCsum, offStatus, offErrors, offSpecial]
  by_cases h : a + 8 ≤ c ∧ c < a + 16
  · rw [if_pos h]
    obtain ⟨j, rfl⟩ := Nat.exists_eq_add_of_le h.1
    have hj : j < 8 := by omega
    clear h
    interval_cases j <;> simp [Nat.add_assoc, rxDescBytes, leBytes]
  · rw [if_neg h]
    repeat rw [if_neg (by omega)]

/-- The status byte a write-back gives: DD, EOP on the last chunk, free values in the other bits. -/
def doneStatus (last : Bool) (other : Byte) : Byte :=
  bitDD ||| (if last then bitRxEop else 0) ||| (other &&& 0xFC)

theorem doneStatus_dd (last : Bool) (other : Byte) : hasBit (doneStatus last other) bitDD = true := by
  cases last <;> revert other <;> decide

theorem doneStatus_eop (last : Bool) (other : Byte) : hasBit (doneStatus last other) bitRxEop = last := by
  cases last <;> revert other <;> decide

/-- The write-back, evaluated. -/
theorem writeBack_ok {s : State} {slot len : Nat} (last : Bool) (hl : len < 65536) (hf : slot + 16 ≤ addrSpace) :
    ∃ (d : RxDesc) (other : Byte) (l : List (BitVec 64)), d.length = BitVec.ofNat 16 len ∧
      d.status = doneStatus last other ∧
      writeBack slot len last s = .ok ((), { s with
        mem := writeBackMem s.mem slot d, fenced := writeBackMem s.fenced slot d
        drawAns := l, draws := s.draws + 4 }) := by
  unfold writeBack
  obtain ⟨csum, l1, h1⟩ := draw_spec 16 s
  obtain ⟨errors, l2, h2⟩ := draw_spec 8 { s with drawAns := l1, draws := s.draws + 1 }
  obtain ⟨special, l3, h3⟩ := draw_spec 16 { s with drawAns := l2, draws := s.draws + 2 }
  obtain ⟨other, l4, h4⟩ := draw_spec 8 { s with drawAns := l3, draws := s.draws + 3 }
  have e2 : draw 8 { s with drawAns := l1, draws := s.draws + 1 } =
      .ok (errors, { s with drawAns := l2, draws := s.draws + 2 }) := h2
  have e3 : draw 16 { s with drawAns := l2, draws := s.draws + 2 } =
      .ok (special, { s with drawAns := l3, draws := s.draws + 3 }) := h3
  have e4 : draw 8 { s with drawAns := l3, draws := s.draws + 3 } =
      .ok (other, { s with drawAns := l4, draws := s.draws + 4 }) := h4
  refine ⟨⟨0, BitVec.ofNat 16 len, csum, doneStatus last other, errors, special⟩, other, l4, rfl, rfl, ?_⟩
  simp only [bind_apply, h1, e2, e3, e4, dmaWrite_apply, leBytes_length, List.length_singleton, offLength, offCsum,
    offErrors, offSpecial, offStatus]
  rw [if_pos (by omega)]
  simp only
  rw [if_pos (by omega)]
  simp only
  rw [if_pos (by omega)]
  simp only
  rw [if_pos (by omega)]
  simp only
  rw [if_pos (by omega)]
  simp only [dmaPut, writeBackMem, offLength, offCsum, offErrors, offSpecial, offStatus, BitVec.toNat_ofNat,
    Nat.mod_eq_of_lt (show len < 2 ^ 16 from hl)]
  rfl

/-- The write-back of a descriptor that does not lie whole inside the address space. -/
theorem writeBack_outside {s : State} {slot len : Nat} (last : Bool) (hf : addrSpace < slot + 16) :
    ∃ f, writeBack slot len last s = .error (.fault f) := by
  unfold writeBack
  obtain ⟨csum, l1, h1⟩ := draw_spec 16 s
  obtain ⟨errors, l2, h2⟩ := draw_spec 8 { s with drawAns := l1, draws := s.draws + 1 }
  obtain ⟨special, l3, h3⟩ := draw_spec 16 { s with drawAns := l2, draws := s.draws + 2 }
  obtain ⟨other, l4, h4⟩ := draw_spec 8 { s with drawAns := l3, draws := s.draws + 3 }
  have e2 : draw 8 { s with drawAns := l1, draws := s.draws + 1 } =
      .ok (errors, { s with drawAns := l2, draws := s.draws + 2 }) := h2
  have e3 : draw 16 { s with drawAns := l2, draws := s.draws + 2 } =
      .ok (special, { s with drawAns := l3, draws := s.draws + 3 }) := h3
  have e4 : draw 8 { s with drawAns := l3, draws := s.draws + 3 } =
      .ok (other, { s with drawAns := l4, draws := s.draws + 4 }) := h4
  simp only [bind_apply, h1, e2, e3, e4, dmaWrite_apply, leBytes_length, List.length_singleton, offLength, offCsum,
    offErrors, offSpecial, offStatus]
  by_cases c1 : slot + 8 + 2 ≤ addrSpace
  swap
  · rw [if_neg c1]; exact ⟨_, rfl⟩
  rw [if_pos c1]
  simp only
  by_cases c2 : slot + 10 + 2 ≤ addrSpace
  swap
  · rw [if_neg c2]; exact ⟨_, rfl⟩
  rw [if_pos c2]
  simp only
  by_cases c3 : slot + 13 + 1 ≤ addrSpace
  swap
  · rw [if_neg c3]; exact ⟨_, rfl⟩
  rw [if_pos c3]
  simp only
  rw [if_neg (by omega)]
  exact ⟨_, rfl⟩

/-! ### One turn of the loop -/

/-- What one turn of the loop makes of a state: `chunk` goes into the buffer of the slot at RDH, its descriptor
is written back as `d`. -/
structure RxTurn (chunk : List Byte) (left : Nat) (last : Bool) (s u : State) : Prop where
  mem : ∃ (d : RxDesc) (other : Byte), d.length = BitVec.ofNat 16 chunk.length ∧ d.status = doneStatus last other ∧
    u.mem = writeBackMem (memPutBytes s.mem (rxd s s.dev.rdh.toNat).addr.toNat chunk)
      (rxdAddr s s.dev.rdh.toNat) d ∧
    u.fenced = writeBackMem (memPutBytes s.fenced (rxd s s.dev.rdh.toNat).addr.toNat chunk)
      (rxdAddr s s.dev.rdh.toNat) d
  state : u = setDev (advanceRdh s.cfg left s.dev)
    { s with mem := u.mem, fenced := u.fenced, drawAns := u.drawAns, draws := s.draws + 4 }

theorem leNat_lt (bs : List Byte) : leNat bs < 256 ^ bs.length := by
  induction bs with
  | nil => simp [leNat]
  | cons b bs ih =>
    have := b.isLt
    simp only [leNat, List.length_cons, Nat.pow_succ]
    omega

/-- The address field of a receive descriptor. -/
theorem rxd_addr_toNat (s : State) (i : Nat) :
    (rxd s i).addr.toNat = leNat (bytesAt s (rxdAddr s i + offAddr) 8) := by
  have h : (rxd s i).addr = BitVec.ofNat 64 (leNat ((bytesAt s (rxdAddr s i) 16).take 8)) := rfl
  rw [h, bytesAt_take _ _ _ _ (by omega), BitVec.toNat_ofNat]
  have := leNat_lt (bytesAt s (rxdAddr s i) 8)
  rw [bytesAt_length] at this
  exact Nat.mod_eq_of_lt (by simpa using this)

/-- The device finds the receive ring where INIT put it. -/
theorem RxRingSet.devAddr {s : State} (h : RxRingSet s) (i : Nat) : devRxdAddr s.dev i = rxdAddr s i := by
  simp [devRxdAddr, rxdAddr, h.base]

/-- The device reads the address field of the slot at RDH as software wrote it (spec/20_memory.md R108). -/
theorem rxLoop_read {s : State} (fuel : Nat) (rest : List Byte) (hne : s.dev.rdh ≠ s.dev.rdt) (hreg : RxRingSet s)
    (hmay : touchesSoftware s (rxdAddr s s.dev.rdh.toNat) descSize = false)
    (hsee : DeviceSees s (rxdAddr s s.dev.rdh.toNat) 8) (hf : rxdAddr s s.dev.rdh.toNat + 8 ≤ addrSpace) :
    rxLoop (fuel + 1) rest s = (if ownsRange s .device (rxd s s.dev.rdh.toNat).addr.toNat
        (rest.take s.cfg.rxBufSize).length then do
      dmaWrite (rxd s s.dev.rdh.toNat).addr.toNat (rest.take s.cfg.rxBufSize)
      writeBack (rxdAddr s s.dev.rdh.toNat) (rest.take s.cfg.rxBufSize).length
        (decide (rest.length ≤ s.cfg.rxBufSize))
      update fun t => setDev (advanceRdh t.cfg (rest.drop s.cfg.rxBufSize).length t.dev) t
      if decide (rest.length ≤ s.cfg.rxBufSize) then pure () else rxLoop fuel (rest.drop s.cfg.rxBufSize)
    else raiseModelFault .ownershipViolation : M Unit) s := by
  have hr : descRead (rxdAddr s s.dev.rdh.toNat + offAddr) 8 s =
      .ok (bytesAt s (rxdAddr s s.dev.rdh.toNat + offAddr) 8, s) := by
    have hs : DeviceSees s (rxdAddr s s.dev.rdh.toNat + offAddr) 8 := hsee
    rw [descRead_apply, if_pos (by simpa [offAddr] using hf), hs.bytesAt]
  have ht : takeDescriptor (rxdAddr s s.dev.rdh.toNat) s = .ok ((), s) := by
    rw [takeDescriptor_apply, hmay]; rfl
  conv_lhs => unfold rxLoop
  simp only [bind_apply, get_apply]
  rw [ite_apply, if_neg hne]
  simp only [bind_apply, hreg.devAddr, ht, hr]
  simp only [← rxd_addr_toNat]

/-- A descriptor that is not the device's is an OWNERSHIP_VIOLATION. -/
theorem rxLoop_foreign {s : State} (fuel : Nat) (rest : List Byte) (hne : s.dev.rdh ≠ s.dev.rdt) (hreg : RxRingSet s)
    (h : touchesSoftware s (rxdAddr s s.dev.rdh.toNat) descSize = true) :
    rxLoop (fuel + 1) rest s = .error (.ended { s with modelFault := some .ownershipViolation }) := by
  unfold rxLoop
  simp only [bind_apply, get_apply]
  rw [ite_apply, if_neg hne]
  simp only [bind_apply, hreg.devAddr, takeDescriptor_apply, h, if_true]

/-- A turn of the loop where the slot's buffer is the device's. -/
theorem rxLoop_turn {s : State} (fuel : Nat) (rest : List Byte) (hne : s.dev.rdh ≠ s.dev.rdt) (hreg : RxRingSet s)
    (hmay : touchesSoftware s (rxdAddr s s.dev.rdh.toNat) descSize = false)
    (hsee : DeviceSees s (rxdAddr s s.dev.rdh.toNat) 8)
    (hf : rxdAddr s s.dev.rdh.toNat + 16 ≤ addrSpace)
    (ho : ownsRange s .device (rxd s s.dev.rdh.toNat).addr.toNat (rest.take s.cfg.rxBufSize).length = true)
    (hb : (rxd s s.dev.rdh.toNat).addr.toNat + (rest.take s.cfg.rxBufSize).length ≤ addrSpace)
    (hl : (rest.take s.cfg.rxBufSize).length < 65536) :
    ∃ u, RxTurn (rest.take s.cfg.rxBufSize) (rest.drop s.cfg.rxBufSize).length
        (decide (rest.length ≤ s.cfg.rxBufSize)) s u ∧
      rxLoop (fuel + 1) rest s =
        if rest.length ≤ s.cfg.rxBufSize then .ok ((), u)
        else rxLoop fuel (rest.drop s.cfg.rxBufSize) u := by
  obtain ⟨d, other, l, h1, h2, h3⟩ := writeBack_ok
    (s := dmaPut (rxd s s.dev.rdh.toNat).addr.toNat (rest.take s.cfg.rxBufSize) s)
    (slot := rxdAddr s s.dev.rdh.toNat) (decide (rest.length ≤ s.cfg.rxBufSize)) hl hf
  refine ⟨setDev (advanceRdh s.cfg (rest.drop s.cfg.rxBufSize).length s.dev) { s with
    mem := writeBackMem (memPutBytes s.mem (rxd s s.dev.rdh.toNat).addr.toNat (rest.take s.cfg.rxBufSize))
      (rxdAddr s s.dev.rdh.toNat) d
    fenced := writeBackMem (memPutBytes s.fenced (rxd s s.dev.rdh.toNat).addr.toNat (rest.take s.cfg.rxBufSize))
      (rxdAddr s s.dev.rdh.toNat) d
    drawAns := l, draws := s.draws + 4 }, ⟨⟨d, other, h1, h2, rfl, rfl⟩, rfl⟩, ?_⟩
  rw [rxLoop_read fuel rest hne hreg hmay hsee (by omega)]
  simp only [ho, if_true, bind_apply, dmaWrite_apply, if_pos hb]
  rw [h3]
  simp only [update_apply]
  by_cases hc : rest.length ≤ s.cfg.rxBufSize
  · simp only [hc, decide_true, if_true, pure_apply]; rfl
  · simp only [hc, decide_false, if_false, Bool.false_eq_true]; rfl

/-! ### What a turn leaves in memory -/

section
variable {chunk : List Byte} {left : Nat} {last : Bool} {s u : State} (h : RxTurn chunk left last s u)
include h

theorem RxTurn.cfg : u.cfg = s.cfg := by rw [h.state]; rfl

theorem RxTurn.bufs : u.bufs = s.bufs := by rw [h.state]; rfl

theorem RxTurn.rxOwner : u.rxOwner = s.rxOwner := by rw [h.state]; rfl

theorem RxTurn.sees {a n : Nat} (hd : DeviceSees s a n) : DeviceSees u a n := by
  obtain ⟨d, other, -, -, hm, hf⟩ := h.mem
  intro c h1 h2
  rw [hm, hf, memGet_writeBackMem, memGet_writeBackMem, memGet_memPutBytes, memGet_memPutBytes, hd c h1 h2]

theorem RxTurn.rdt : u.dev.rdt = s.dev.rdt := by rw [h.state]; rfl

theorem RxTurn.rxRingBase : u.rxRingBase = s.rxRingBase := by rw [h.state]; rfl

theorem RxTurn.ringSet (hr : RxRingSet s) : RxRingSet u := by
  have h1 : u.dev.rdbah = s.dev.rdbah ∧ u.dev.rdbal = s.dev.rdbal ∧ u.dev.rdlen = s.dev.rdlen := by
    rw [h.state]; exact ⟨rfl, rfl, rfl⟩
  exact ⟨by rw [h1.1, h1.2.1, h.rxRingBase, hr.base], by rw [h1.2.2, h.cfg, hr.length]⟩

theorem RxTurn.rxdAddr (i : Nat) : rxdAddr u i = rxdAddr s i := by
  simp [Machine.rxdAddr, h.rxRingBase]

theorem RxTurn.epochAt (c : Nat) : epochAt u c = epochAt s c := by
  simp [Machine.epochAt, bufAt, h.cfg, h.bufs]

theorem RxTurn.byteAt_outside {c : Nat}
    (h1 : c < (rxd s s.dev.rdh.toNat).addr.toNat ∨ (rxd s s.dev.rdh.toNat).addr.toNat + chunk.length ≤ c)
    (h2 : c < Machine.rxdAddr s s.dev.rdh.toNat + 8 ∨ Machine.rxdAddr s s.dev.rdh.toNat + 16 ≤ c) :
    byteAt u c = byteAt s c := by
  obtain ⟨d, other, -, -, hm, -⟩ := h.mem
  refine byteAt_congr ?_ (h.epochAt c)
  rw [hm, memGet_writeBackMem, if_neg (by omega), memGet_memPutBytes, if_neg (by omega)]

/-- The chunk stands in the slot's buffer, where that is apart from the slot's descriptor. -/
theorem RxTurn.bytesAt_buffer
    (hd : overlaps (rxd s s.dev.rdh.toNat).addr.toNat chunk.length (Machine.rxdAddr s s.dev.rdh.toNat) 16 = false) :
    bytesAt u (rxd s s.dev.rdh.toNat).addr.toNat chunk.length = chunk := by
  obtain ⟨d, other, -, -, hm, -⟩ := h.mem
  apply bytesAt_eq_of
  intro j hj
  apply byteAt_of_memGet
  have := overlaps_false hd
  rw [hm, memGet_writeBackMem, if_neg (by omega), memGet_memPutBytes, if_pos (by omega), Nat.add_sub_cancel_left,
    List.getElem?_eq_getElem hj]

/-- The descriptor after its write-back, where the buffer is apart from it. -/
theorem RxTurn.descriptor
    (hd : overlaps (rxd s s.dev.rdh.toNat).addr.toNat chunk.length (Machine.rxdAddr s s.dev.rdh.toNat) 16 = false) :
    (rxd u s.dev.rdh.toNat).addr = (rxd s s.dev.rdh.toNat).addr ∧
    (rxd u s.dev.rdh.toNat).length = BitVec.ofNat 16 chunk.length ∧
    hasBit (rxd u s.dev.rdh.toNat).status bitDD = true ∧
    hasBit (rxd u s.dev.rdh.toNat).status bitRxEop = last := by
  have ho := overlaps_false hd
  obtain ⟨d, other, h1, h2, hm, -⟩ := h.mem
  have hby : ∀ j, 8 ≤ j → (hj : j < 16) →
      byteAt u (Machine.rxdAddr s s.dev.rdh.toNat + j) = (rxDescBytes d)[j]'(by simp; omega) := by
    intro j h8 hj
    apply byteAt_of_memGet
    rw [hm, memGet_writeBackMem, if_pos (by omega), Nat.add_sub_cancel_left, List.getElem?_eq_getElem (by simp; omega)]
  refine ⟨?_, ?_, ?_⟩
  · rw [rxd_addr, rxd_addr, h.rxdAddr, bytesAt_congr fun c c1 c2 => h.byteAt_outside (by omega) (by omega)]
  · rw [← h1, rxd_length, h.rxdAddr]
    have hlen : bytesAt u (Machine.rxdAddr s s.dev.rdh.toNat + 8) 2 = leBytes 2 d.length.toNat := by
      have := bytesAt_eq_of (s := u) (a := Machine.rxdAddr s s.dev.rdh.toNat + 8)
        (bs := leBytes 2 d.length.toNat) ?_
      · simpa using this
      · intro j hj
        have hj2 : j < 2 := by simpa using hj
        rw [Nat.add_assoc, hby (8 + j) (by omega) (by omega)]
        interval_cases j <;> simp [rxDescBytes]
    rw [hlen]
    exact ofNat_leNat_leBytes (n := 2) rfl d.length
  · have hst : (rxd u s.dev.rdh.toNat).status = doneStatus last other := by
      rw [rxd_status, h.rxdAddr, ← h2]
      exact (hby 12 (by omega) (by omega)).trans (by simp [rxDescBytes])
    rw [hst]
    exact ⟨doneStatus_dd _ _, doneStatus_eop _ _⟩

/-- Another slot's descriptor is as it was, where the buffer is apart from it. -/
theorem RxTurn.rxd_ne {i : Nat} (hi : i ≠ s.dev.rdh.toNat)
    (hd : overlaps (rxd s s.dev.rdh.toNat).addr.toNat chunk.length (Machine.rxdAddr s i) 16 = false) :
    rxd u i = rxd s i := by
  have ho := overlaps_false hd
  refine rxd_congr (h.rxdAddr i) fun c c1 c2 => h.byteAt_outside (by omega) ?_
  simp only [Machine.rxdAddr, descSize] at *
  omega

end

end Sys2Proof.Machine
end

