-- ==== Sys2Proof/Laws/DeviceRxLoop.lean ====
section
/-! SUPPORT. DEV_RX_FRAME's loop: what any number of turns makes of a state. -/

namespace Sys2Proof.Machine

theorem RxFilled.cfg {s t : State} {f : List Byte} {k : Nat} (h : RxFilled s f k t) : t.cfg = s.cfg := by
  rw [h.state]

theorem RxFilled.bufs {s t : State} {f : List Byte} {k : Nat} (h : RxFilled s f k t) : t.bufs = s.bufs := by
  rw [h.state]

theorem RxFilled.rxdAddr {s t : State} {f : List Byte} {k : Nat} (h : RxFilled s f k t) (i : Nat) :
    rxdAddr t i = rxdAddr s i := by
  have : t.rxRingBase = s.rxRingBase := by rw [h.state]
  simp [Machine.rxdAddr, this]

theorem RxFilled.rxOwner {s t : State} {f : List Byte} {k : Nat} (h : RxFilled s f k t) : t.rxOwner = s.rxOwner := by
  rw [h.state]

theorem RxFilled.ringSet {s t : State} {f : List Byte} {k : Nat} (h : RxFilled s f k t) (hr : RxRingSet s) :
    RxRingSet t := by
  have h1 : t.dev.rdbah = s.dev.rdbah ∧ t.dev.rdbal = s.dev.rdbal ∧ t.dev.rdlen = s.dev.rdlen ∧
      t.rxRingBase = s.rxRingBase := by
    rw [h.state]; exact ⟨rfl, rfl, rfl, rfl⟩
  exact ⟨by rw [h1.1, h1.2.1, h1.2.2.2, hr.base], by rw [h1.2.2.1, h.cfg, hr.length]⟩

theorem RxFilled.rdh {s t : State} {f : List Byte} {k : Nat} (h : RxFilled s f k t) :
    t.dev.rdh = BitVec.ofNat 32 ((s.dev.rdh.toNat + k) % s.cfg.nRx) := by
  rw [h.state]

/-- No turn leaves the state as it is. -/
theorem RxFilled.zero {s : State} (f : List Byte) (hh : s.dev.rdh.toNat < s.cfg.nRx) : RxFilled s f 0 s := by
  refine ⟨fun j hj => absurd hj (by omega), fun c _ => rfl, fun _ _ h => h, ?_⟩
  have h1 : BitVec.ofNat 32 (s.dev.rdh.toNat % s.cfg.nRx) = s.dev.rdh := by
    rw [Nat.mod_eq_of_lt hh]; simp
  have h2 : (s.irqHeld || (!irqLine s.dev && irqLine s.dev)) = s.irqHeld := by simp
  simp only [Nat.add_zero, Nat.mul_zero, if_true, h1, h2]

/-- A slot lies inside its ring. -/
theorem rxSlot_lt {s : State} (hh : s.dev.rdh.toNat < s.cfg.nRx) (j : Nat) : rxSlot s j < s.cfg.nRx :=
  Nat.mod_lt _ (by omega)

/-- A region off the ring is off each of its descriptors. -/
theorem offRing_slot {s : State} {a n i : Nat}
    (h : overlaps a n s.rxRingBase.toNat (s.cfg.nRx * descSize) = false) (hi : i < s.cfg.nRx) :
    a + n ≤ rxdAddr s i ∨ rxdAddr s i + 16 ≤ a := by
  have := overlaps_false h
  simp only [rxdAddr, descSize] at *
  omega

/-- A slot's buffer is off the ring. -/
theorem RxSlotsReady.offSlot {s : State} {k : Nat} (h : RxSlotsReady s k) {j : Nat} (hj : j < k) :
    overlaps (rxd s (rxSlot s j)).addr.toNat s.cfg.bufSize s.rxRingBase.toNat (s.cfg.nRx * descSize) = false := by
  have ho := h.owned j hj
  unfold recordedOwner at ho
  split at ho
  · next r hr =>
    have hb : r.base = (rxd s (rxSlot s j)).addr := by simpa using List.find?_some hr
    rw [← hb]
    exact h.offRing r (List.mem_of_find?_eq_some hr)
  · cases ho

/-- A receive slot of the device's, in a ring that no buffer and no transmit slot touches, is the device's to take. -/
theorem rxSlot_mayTouch {s : State} {i : Nat} (hi : i < s.cfg.nRx) (ho : devOwnsRx s i = true)
    (ht : overlaps s.txRingBase.toNat (s.cfg.nTx * descSize) s.rxRingBase.toNat (s.cfg.nRx * descSize) = false)
    (hb : ∀ r ∈ s.bufs, overlaps r.base.toNat s.cfg.bufSize s.rxRingBase.toNat (s.cfg.nRx * descSize) = false) :
    touchesSoftware s (rxdAddr s i) descSize = false := by
  refine (touchesSoftware_iff _ _).2 ⟨fun j hj hc => ?_, fun j hj hc => ?_, fun r hr hc => ?_⟩
  · have h1 := overlaps_false ht
    have h2 := overlaps_true hc
    simp only [rxdAddr, txdAddr, descSize] at h1 h2
    omega
  · have h2 := overlaps_true hc
    have hji : j = i := by
      simp only [rxdAddr, descSize] at h2
      omega
    rw [hji]; exact ho
  · have h1 := overlaps_false (hb r hr)
    have h2 := overlaps_true hc
    simp only [rxdAddr, descSize] at h1 h2
    omega

theorem chunkLen_le (p : Params) (n j : Nat) : chunkLen p n j ≤ p.rxBufSize := Nat.min_le_left _ _

/-- What the turns so far leave at the slots they have not reached. -/
theorem RxFilled.rxd_later {s t : State} {f : List Byte} {k : Nat} (h : RxFilled s f k t)
    {K : Nat} (hr : RxSlotsReady s K) (hk : k < K) (hb : s.cfg.rxBufSize ≤ s.cfg.bufSize)
    (hh : s.dev.rdh.toNat < s.cfg.nRx) (ht : s.dev.rdt.toNat < s.cfg.nRx) : rxd t (rxSlot s k) = rxd s (rxSlot s k) := by
  have hKn : K < s.cfg.nRx := lt_of_le_of_lt hr.free (cyclicLen_lt ht)
  refine rxd_congr (h.rxdAddr _) fun c c1 c2 => h.same c fun j hj => ⟨?_, ?_⟩
  · have h1 := offRing_slot (hr.offSlot (show j < K by omega)) (rxSlot_lt hh k)
    have h2 := chunkLen_le s.cfg f.length j
    omega
  · have hne : rxSlot s j ≠ rxSlot s k := add_mod_ne hh (by omega) (by omega) (by omega)
    simp only [Machine.rxdAddr, descSize] at *
    omega

/-- One more turn. -/
theorem RxFilled.succ {s t u : State} {f : List Byte} {k K : Nat} (h : RxFilled s f k t)
    (hr : RxSlotsReady s K) (hk : k < K) (hb : s.cfg.rxBufSize ≤ s.cfg.bufSize) (hb16 : s.cfg.bufSize < 65536)
    (hh : s.dev.rdh.toNat < s.cfg.nRx) (ht : s.dev.rdt.toNat < s.cfg.nRx) (hn : s.cfg.nRx < 2 ^ 32)
    (hu : RxTurn ((f.drop (k * s.cfg.rxBufSize)).take s.cfg.rxBufSize)
      ((f.drop (k * s.cfg.rxBufSize)).drop s.cfg.rxBufSize).length
      (decide ((f.drop (k * s.cfg.rxBufSize)).length ≤ s.cfg.rxBufSize)) t u)
    (hlt : k * s.cfg.rxBufSize < f.length) : RxFilled s f (k + 1) u := by
  have hKn : K < s.cfg.nRx := lt_of_le_of_lt hr.free (cyclicLen_lt ht)
  have hrdh : t.dev.rdh.toNat = rxSlot s k := by
    rw [h.rdh, BitVec.toNat_ofNat]
    exact Nat.mod_eq_of_lt (lt_trans (rxSlot_lt hh k) hn)
  have hlater := h.rxd_later hr hk hb hh ht
  have hclen : ((f.drop (k * s.cfg.rxBufSize)).take s.cfg.rxBufSize).length = chunkLen s.cfg f.length k := by
    simp [chunkLen]
  have hoff : ∀ i < s.cfg.nRx, overlaps (rxd t t.dev.rdh.toNat).addr.toNat
      ((f.drop (k * s.cfg.rxBufSize)).take s.cfg.rxBufSize).length (Machine.rxdAddr t i) 16 = false := by
    intro i hi
    have h1 := offRing_slot (hr.offSlot hk) hi
    have h2 := chunkLen_le s.cfg f.length k
    rw [hrdh, hlater, h.rxdAddr, hclen]
    simp only [overlaps, Bool.and_eq_false_iff, decide_eq_false_iff_not]
    omega
  have ticr : t.dev.icr = if k = 0 then s.dev.icr else s.dev.icr ||| icrRxdw := by rw [h.state]
  have tims : t.dev.ims = s.dev.ims := by rw [h.state]
  have uicr : u.dev.icr = t.dev.icr ||| icrRxdw := by rw [hu.state]; rfl
  have uims : u.dev.ims = t.dev.ims := by rw [hu.state]; rfl
  constructor
  · intro j hj
    by_cases hjk : j = k
    · subst hjk
      obtain ⟨d1, d2, d3, d4⟩ := hu.descriptor (hoff _ (by rw [hrdh]; exact rxSlot_lt hh j))
      have hbuf := hu.bytesAt_buffer (hoff _ (by rw [hrdh]; exact rxSlot_lt hh j))
      rw [hrdh] at d1 d2 d3 d4 hbuf
      rw [hlater] at d1 hbuf
      refine ⟨d1, ?_, d3, ?_, ?_⟩
      · rw [d2, BitVec.toNat_ofNat, hclen]
        have := chunkLen_le s.cfg f.length j
        exact Nat.mod_eq_of_lt (by omega)
      · rw [d4, List.length_drop]
        congr 1
        apply propext
        rw [Nat.succ_mul]
        omega
      · rw [← hclen]; exact hbuf
    · have hne : rxSlot s j ≠ rxSlot s k := add_mod_ne hh (by omega) (by omega) hjk
      rw [hu.rxd_ne (by rw [hrdh]; exact hne) (hoff _ (rxSlot_lt hh j))]
      obtain ⟨e1, e2, e3, e4, e5⟩ := h.slots j (by omega)
      refine ⟨e1, e2, e3, e4, ?_⟩
      rw [← e5]
      apply bytesAt_congr
      intro c c1 c2
      refine hu.byteAt_outside ?_ ?_
      · rw [hrdh, hlater, hclen]
        have h1 := overlaps_false (hr.apart j k (by omega) hk)
        have h2 := chunkLen_le s.cfg f.length j
        have h3 := chunkLen_le s.cfg f.length k
        omega
      · rw [hrdh, h.rxdAddr]
        have h1 := offRing_slot (hr.offSlot (show j < K by omega)) (rxSlot_lt hh k)
        have h2 := chunkLen_le s.cfg f.length j
        omega
  · intro c hc
    rw [hu.byteAt_outside, h.same c fun j hj => hc j (by omega)]
    · rw [hrdh, hlater, hclen]; exact (hc k (by omega)).1
    · rw [hrdh, h.rxdAddr]; exact (hc k (by omega)).2
  · exact fun a n hd => hu.sees (h.sees a n hd)
  · have hheld : (t.irqHeld || (!irqLine t.dev && irqLine u.dev)) =
        (s.irqHeld || (!irqLine s.dev && irqLine u.dev)) := by
      have e1 : t.irqHeld = (s.irqHeld || (!irqLine s.dev && irqLine t.dev)) :=
        congrArg State.irqHeld h.state
      rw [e1]
      by_cases hk0 : k = 0
      · have e2 : irqLine t.dev = irqLine s.dev := by simp [irqLine, ticr, tims, hk0]
        rw [e2]
        cases s.irqHeld <;> cases irqLine s.dev <;> simp
      · have e2 : irqLine u.dev = irqLine t.dev := by
          simp only [irqLine, uicr, uims, ticr, tims, if_neg hk0, BitVec.or_assoc, BitVec.or_self]
        rw [e2]
        cases s.irqHeld <;> cases irqLine s.dev <;> cases irqLine t.dev <;> simp
    have huheld : u.irqHeld = (s.irqHeld || (!irqLine s.dev && irqLine u.dev)) := by
      rw [← hheld]
      have : u.irqHeld = (t.irqHeld || (!irqLine t.dev && irqLine (advanceRdh t.cfg
          ((f.drop (k * s.cfg.rxBufSize)).drop s.cfg.rxBufSize).length t.dev))) := congrArg State.irqHeld hu.state
      have e : u.dev = advanceRdh t.cfg ((f.drop (k * s.cfg.rxBufSize)).drop s.cfg.rxBufSize).length t.dev :=
        congrArg State.dev hu.state
      rw [this, e]
    have hudev : u.dev = { s.dev with
        rdh := BitVec.ofNat 32 ((s.dev.rdh.toNat + (k + 1)) % s.cfg.nRx)
        icr := s.dev.icr ||| icrRxdw
        rxRemaining := f.length - (k + 1) * s.cfg.rxBufSize } := by
      have e : u.dev = advanceRdh t.cfg ((f.drop (k * s.cfg.rxBufSize)).drop s.cfg.rxBufSize).length t.dev :=
        congrArg State.dev hu.state
      have e1 : (t.dev.rdh.toNat + 1) % s.cfg.nRx = (s.dev.rdh.toNat + (k + 1)) % s.cfg.nRx := by
        rw [hrdh, rxSlot, Nat.mod_add_mod, Nat.add_assoc]
      have e2 : t.dev.icr ||| icrRxdw = s.dev.icr ||| icrRxdw := by
        rw [ticr]
        split
        · rfl
        · rw [BitVec.or_assoc, BitVec.or_self]
      have e3 : ((f.drop (k * s.cfg.rxBufSize)).drop s.cfg.rxBufSize).length =
          f.length - (k + 1) * s.cfg.rxBufSize := by
        rw [List.length_drop, List.length_drop, Nat.succ_mul]; omega
      rw [e, e3, advanceRdh, h.cfg, e1, e2]
      have e4 := congrArg State.dev h.state
      simp only at e4
      rw [e4]
    have key : ∀ (m1 m2 f1 f2 : List Host.Cell) (l1 l2 : List (BitVec 64)) (b1 : Bool) (d1 d2 : DevRegs),
        t = { s with mem := m1, fenced := f1, drawAns := l1, draws := s.draws + 4 * k, irqHeld := b1, dev := d1 } →
        u = setDev d2 { t with mem := m2, fenced := f2, drawAns := l2, draws := t.draws + 4 } →
        u = { s with mem := m2, fenced := f2, drawAns := l2, draws := s.draws + 4 * (k + 1), irqHeld := u.irqHeld,
                     dev := u.dev } := by
      intro m1 m2 f1 f2 l1 l2 b1 d1 d2 h1 h2
      rw [h1] at h2
      rw [h2]
      rfl
    have hfin := key _ _ _ _ _ _ _ _ _ h.state hu.state
    rw [hfin]
    simp only [hudev, huheld, Nat.succ_ne_zero, if_false]

/-- The loop takes one slot for each chunk, and is done once the whole frame is in. -/
theorem rxLoop_turns {s : State} {f : List Byte} (hb : s.cfg.rxBufSize ≤ s.cfg.bufSize)
    (hb16 : s.cfg.bufSize < 65536) (hh : s.dev.rdh.toNat < s.cfg.nRx)
    (ht : s.dev.rdt.toNat < s.cfg.nRx) (hn : s.cfg.nRx < 2 ^ 32)
    (hring : s.rxRingBase.toNat + s.cfg.nRx * descSize ≤ addrSpace) {K : Nat} (hr : RxSlotsReady s K) (fuel : Nat) :
    ∀ k, k ≤ K → k ≤ fuel → (∀ j < k, j * s.cfg.rxBufSize < f.length) →
      ∃ t, RxFilled s f k t ∧
        rxLoop fuel f s = if 0 < k ∧ f.length ≤ k * s.cfg.rxBufSize then .ok ((), t)
          else rxLoop (fuel - k) (f.drop (k * s.cfg.rxBufSize)) t := by
  have hKn : K < s.cfg.nRx := lt_of_le_of_lt hr.free (cyclicLen_lt ht)
  intro k
  induction k with
  | zero =>
    intro _ _ _
    exact ⟨s, RxFilled.zero f hh, by simp⟩
  | succ k ih =>
    intro hk hfuel hlen
    obtain ⟨t, hfill, heq⟩ := ih (by omega) (by omega) fun j hj => hlen j (by omega)
    have hlt := hlen k (by omega)
    rw [if_neg (by omega)] at heq
    have hrdh : t.dev.rdh.toNat = rxSlot s k := by
      rw [hfill.rdh, BitVec.toNat_ofNat]
      exact Nat.mod_eq_of_lt (lt_trans (rxSlot_lt hh k) hn)
    have hrdt : t.dev.rdt = s.dev.rdt := by rw [hfill.state]
    have hlater := hfill.rxd_later hr (by omega : k < K) hb hh ht
    have hne : t.dev.rdh ≠ t.dev.rdt := by
      intro e
      have e1 : rxSlot s k = s.dev.rdt.toNat := by rw [← hrdh, e, hrdt]
      have e2 := cyclicLen_add (n := s.cfg.nRx) (a := s.dev.rdh.toNat) (k := k) hh (by omega)
      unfold rxSlot at e1
      rw [e1] at e2
      have := hr.free
      omega
    have hcl : ((f.drop (k * s.cfg.rxBufSize)).take t.cfg.rxBufSize).length ≤ s.cfg.rxBufSize := by
      rw [hfill.cfg, List.length_take]; exact Nat.min_le_left _ _
    have hslot : devOwnsRx t (rxSlot s k) = true := by
      have e1 := hr.free
      have e2 := cyclicLen_advance (b := s.dev.rdt.toNat) hh ht (show k ≤ _ by omega)
      have e3 : rxSlot s k < s.cfg.nRx := rxSlot_lt hh k
      rw [devOwnsRx, hfill.cfg, hrdh, hrdt, cyclicMem_iff e3, cyclicLen_self e3, rxSlot, e2]
      omega
    have htake : touchesSoftware t (Machine.rxdAddr t t.dev.rdh.toNat) descSize = false := by
      rw [hrdh]
      have e : t.rxRingBase = s.rxRingBase ∧ t.txRingBase = s.txRingBase := by
        rw [hfill.state]; exact ⟨rfl, rfl⟩
      refine rxSlot_mayTouch (by rw [hfill.cfg]; exact rxSlot_lt hh k) hslot ?_ ?_
      · rw [e.1, e.2, hfill.cfg]; exact hr.offTx
      · rw [hfill.bufs, hfill.cfg, e.1]; exact hr.offRing
    have hown : ownerOf t (rxd s (rxSlot s k)).addr = .device := by
      refine ownerOf_device (i := rxSlot s k) ?_ hslot ?_
      · have := hr.owned k (by omega)
        unfold recordedOwner at *
        rw [hfill.bufs]; exact this
      · rw [hfill.rxOwner]; exact hr.record k (by omega)
    have hin := hr.inside k (by omega)
    obtain ⟨u, hu, hloop⟩ := rxLoop_turn (s := t) (fuel - (k + 1)) (f.drop (k * s.cfg.rxBufSize)) hne
      (hfill.ringSet hr.ring) htake (by
        rw [hrdh, hfill.rxdAddr]
        exact hfill.sees _ _ (hr.seen k (by omega)))
      (by
        rw [hrdh, hfill.rxdAddr]
        have := rxSlot_lt (s := s) hh k
        simp only [Machine.rxdAddr, descSize] at *
        omega)
      (by
        rw [hrdh, hlater]
        refine ownsRange_of_ownerOf hown (by decide) (le_refl _) ?_
        rw [hfill.cfg] at *
        omega)
      (by rw [hrdh, hlater]; omega)
      (by omega)
    rw [hfill.cfg] at hu hloop
    refine ⟨u, hfill.succ hr (by omega) hb hb16 hh ht hn hu hlt, ?_⟩
    have e1 : fuel - k = (fuel - (k + 1)) + 1 := by omega
    rw [heq, e1, hloop, List.length_drop, List.drop_drop]
    have e2 : f.length - k * s.cfg.rxBufSize ≤ s.cfg.rxBufSize ↔
        0 < k + 1 ∧ f.length ≤ (k + 1) * s.cfg.rxBufSize := by
      rw [Nat.succ_mul]; omega
    have e3 : k * s.cfg.rxBufSize + s.cfg.rxBufSize = (k + 1) * s.cfg.rxBufSize := by rw [Nat.succ_mul]
    simp only [e2, e3]

/-! ### Every end of the loop -/

/-- One round of the loop: it ends with memory as it was, or it is a turn. -/
theorem rxLoop_cases {s t : State} {fuel : Nat} {rest : List Byte} (hb16 : s.cfg.rxBufSize < 65536)
    (hreg : RxRingSet s) (hsee : s.dev.rdh ≠ s.dev.rdt → DeviceSees s (rxdAddr s s.dev.rdh.toNat) 8)
    (h : rxLoop (fuel + 1) rest s = .ok ((), t) ∨ rxLoop (fuel + 1) rest s = .error (.ended t)) :
    (t.mem = s.mem ∧ t.bufs = s.bufs ∧ t.cfg = s.cfg ∧ t.rxRingBase = s.rxRingBase ∧ t.rxOwner = s.rxOwner ∧
      t.dev.rdh = s.dev.rdh ∧ t.dev.rdt = s.dev.rdt ∧ t.fenced = s.fenced) ∨
    (s.dev.rdh ≠ s.dev.rdt ∧
      ownsRange s .device (rxd s s.dev.rdh.toNat).addr.toNat (rest.take s.cfg.rxBufSize).length = true ∧
      ∃ u, RxTurn (rest.take s.cfg.rxBufSize) (rest.drop s.cfg.rxBufSize).length
        (decide (rest.length ≤ s.cfg.rxBufSize)) s u ∧
      (t = u ∨ rxLoop fuel (rest.drop s.cfg.rxBufSize) u = .ok ((), t) ∨
        rxLoop fuel (rest.drop s.cfg.rxBufSize) u = .error (.ended t))) := by
  by_cases hne : s.dev.rdh = s.dev.rdt
  · left
    unfold rxLoop at h
    simp only [bind_apply, get_apply] at h
    rw [ite_apply, if_pos hne] at h
    simp only [bind_apply, update_apply, emit_apply] at h
    rcases h with h | h <;> cases h
    exact ⟨rfl, rfl, rfl, rfl, rfl, rfl, rfl, rfl⟩
  · have hlen : (rest.take s.cfg.rxBufSize).length < 65536 := by
      rw [List.length_take]; omega
    by_cases hmay : touchesSoftware s (rxdAddr s s.dev.rdh.toNat) descSize = true
    · left
      rw [rxLoop_foreign fuel rest hne hreg hmay] at h
      rcases h with h | h <;> cases h
      exact ⟨rfl, rfl, rfl, rfl, rfl, rfl, rfl, rfl⟩
    rw [Bool.not_eq_true] at hmay
    have hf8 : rxdAddr s s.dev.rdh.toNat + 8 ≤ addrSpace := by
      by_contra hc
      have ht : takeDescriptor (rxdAddr s s.dev.rdh.toNat) s = .ok ((), s) := by
        rw [takeDescriptor_apply, hmay]; rfl
      have hr : descRead (rxdAddr s s.dev.rdh.toNat + offAddr) 8 s = .error (.fault (.noSuchAddress
          (rxdAddr s s.dev.rdh.toNat + offAddr + 8 - 1))) := by
        rw [descRead_apply, if_neg (by simpa [offAddr] using hc)]
      unfold rxLoop at h
      simp only [bind_apply, get_apply] at h
      rw [ite_apply, if_neg hne] at h
      simp only [bind_apply, hreg.devAddr, ht, hr] at h
      rcases h with h | h <;> cases h
    by_cases ho : ownsRange s .device (rxd s s.dev.rdh.toNat).addr.toNat (rest.take s.cfg.rxBufSize).length = true
    · by_cases hb : (rxd s s.dev.rdh.toNat).addr.toNat + (rest.take s.cfg.rxBufSize).length ≤ addrSpace
      · right
        have hf : rxdAddr s s.dev.rdh.toNat + 16 ≤ addrSpace := by
          by_contra hc
          rw [rxLoop_read fuel rest hne hreg hmay (hsee hne) hf8] at h
          simp only [ho, if_true, bind_apply, dmaWrite_apply, if_pos hb] at h
          obtain ⟨f, e⟩ := writeBack_outside (s := dmaPut (rxd s s.dev.rdh.toNat).addr.toNat
            (rest.take s.cfg.rxBufSize) s) (slot := rxdAddr s s.dev.rdh.toNat)
            (len := (rest.take s.cfg.rxBufSize).length) (decide (rest.length ≤ s.cfg.rxBufSize)) (by omega)
          rw [e] at h
          rcases h with h | h <;> cases h
        obtain ⟨u, hu, hl⟩ := rxLoop_turn fuel rest hne hreg hmay (hsee hne) hf ho hb hlen
        refine ⟨hne, ho, u, hu, ?_⟩
        rw [hl] at h
        split at h
        · left
          rcases h with h | h <;> cases h
          rfl
        · exact .inr h
      · exfalso
        rw [rxLoop_read fuel rest hne hreg hmay (hsee hne) hf8] at h
        simp only [ho, if_true, bind_apply, dmaWrite_apply, if_neg hb] at h
        rcases h with h | h <;> cases h
    · left
      rw [rxLoop_read fuel rest hne hreg hmay (hsee hne) hf8] at h
      simp only [ho] at h
      rcases h with h | h <;> cases h
      exact ⟨rfl, rfl, rfl, rfl, rfl, rfl, rfl, rfl⟩

end Sys2Proof.Machine
end

