-- ==== Sys2Proof/Laws/Frames.lean ====
section
/-! SUPPORT. The frames ARP_RX and UDP_TX build: the ARP reply and the UDP frame in a fresh buffer. -/

namespace Sys2Proof.Machine

theorem arpReplyFields_contiguous (p : Params) : contiguous 6 (arpReplyFields p) := by
  simp [arpReplyFields, contiguous]

/-- The reply's bytes between the two copies of the querier's hardware address. -/
def arpReplyMiddle (p : Params) : List Byte :=
  p.localMac.bytes ++ [0x08, 0x06, 0x00, 0x01, 0x08, 0x00, 0x06, 0x04, 0x00, 0x02] ++ p.localMac.bytes ++
    be32Bytes p.localIp

theorem arpReplyMiddle_length (p : Params) : (arpReplyMiddle p).length = 26 := by simp [arpReplyMiddle]

theorem arpReplyFields_flatten (p : Params) : ((arpReplyFields p).map Prod.snd).flatten = arpReplyMiddle p := by
  have h1 : be16Bytes 1 = [0, 1] := by decide
  have h2 : be16Bytes 2 = [0, 2] := by decide
  have h3 : be16Bytes ethTypeArp = [0x08, 0x06] := by decide
  have h4 : be16Bytes ethTypeIp = [0x08, 0x00] := by decide
  simp only [arpReplyFields, arpReplyMiddle, h1, h2, h3, h4, List.map, List.flatten_cons, List.flatten_nil]
  simp

theorem arpReply_eq (p : Params) (x y : List Byte) : arpReply p x y = x ++ arpReplyMiddle p ++ x ++ y := by
  simp [arpReply, arpReplyMiddle]

/-- Reads of another owned buffer after the allocation. -/
theorem Fresh.bytesAt_other {r : Addr} {who : Owner} {s u : State} (h : Fresh r who s u) {b : Addr}
    (hb : ownerOf s b ≠ .allocator) {off n : Nat} (hn : off + n ≤ s.cfg.bufSize) :
    bytesAt u (b.toNat + off) n = bytesAt s (b.toNat + off) n := by
  have := overlaps_false (h.ok.apart hb)
  exact bytesAt_congr fun c c1 c2 => h.same c (by omega)

theorem Fresh.holds {r : Addr} {who o : Owner} {s u : State} (h : Fresh r who s u) {b : Addr} (hb : Holds s o b)
    (ho : o ≠ .allocator) : Holds u o b := by
  have := hb.size
  have hn : ownerOf s b ≠ .allocator := by rw [hb.owner]; exact ho
  exact hb.congr h.cfg (by rw [h.owners, if_neg (h.ok.ne (by omega) hn)])

theorem SubmitReady.congr {s t : State} (h : SubmitReady s) (h1 : t.sched = s.sched) (h2 : t.cfg = s.cfg)
    (h3 : t.txRingBase = s.txRingBase) (h4 : t.rxRingBase = s.rxRingBase) (h5 : t.bufs = s.bufs)
    (h7 : t.locks = s.locks) (h8 : t.dev = s.dev) :
    SubmitReady t := by
  obtain ⟨a1, a2, a3, a4, a6, a7, a8⟩ := h
  constructor
  · rw [h1]; exact a1
  · rw [h2]; exact a2
  · unfold RingsInside; rw [h2, h3, h4]; exact a3
  · exact a4.congr h2 h5
  · rw [h7]; exact a6
  · rw [h2, h8]; exact a7
  · rw [h2, h8]; exact a8

/-- A read in two parts. -/
theorem bytesAt_add (s : State) (a m n : Nat) : bytesAt s a (m + n) = bytesAt s a m ++ bytesAt s (a + m) n := by
  simp [bytesAt, List.range_add, Nat.add_assoc]

theorem Wrote.bytesAt_outside {a : Nat} {bs : List Byte} {s u : State} (h : Wrote a bs s u) {c n : Nat}
    (hc : c + n ≤ a ∨ a + bs.length ≤ c) : Machine.bytesAt u c n = Machine.bytesAt s c n :=
  bytesAt_congr fun _ _ _ => h.byteAt_outside (by omega)

/-- A2 to A4 of ARP_RX: the reply in its buffer. -/
theorem arp_built {s : State} {b r : Addr} (hr : SubmitReady s) (hb : Holds s .demux b)
    (ha : (nextAllocAnswer s).1 = some r) (hok : allocOk s r = true) :
    ∃ u v, alloc .demux s = .ok (some r, u) ∧ arpReplyBuild s.cfg b r u = .ok ((), v) ∧
      Fresh r .demux s v ∧ v.copyAns = s.copyAns ∧
      bytesAt v r.toNat 42 = arpReply s.cfg (bytesAt s (b.toNat + 6) 6) (bytesAt s (b.toNat + 28) 4) := by
  have hsz := hb.size
  have hnb : ownerOf s b ≠ .allocator := by rw [hb.owner]; decide
  obtain ⟨u, h1, h2, h3, -⟩ := alloc_fresh (who := .demux) hr.sched (by decide) hr.apart (by omega) ha hok
  have rd : ∀ {w : State}, Fresh r .demux s w → ∀ {off n : Nat}, off + n ≤ s.cfg.bufSize →
      Machine.bufRead .demux b off n w = .ok (bytesAt s (b.toNat + off) n, w) := by
    intro w hw off n hn
    rw [(hw.holds hb (by decide)).bufRead (hw.sched.trans hr.sched) (by decide) (by rw [hw.cfg]; omega),
      hw.bytesAt_other hnb (by omega)]
  have l1 := bytesAt_length s (b.toNat + 6) 6
  have l2 := bytesAt_length s (b.toNat + 28) 4
  obtain ⟨v1, e1, w1, f1, c1⟩ := h2.bufWrite hr.sched (by decide) (off := 0)
    (bs := bytesAt s (b.toNat + 6) 6) (by rw [l1]; omega)
  have lm : ((arpReplyFields s.cfg).map Prod.snd).flatten.length = 26 := by
    rw [arpReplyFields_flatten, arpReplyMiddle_length]
  obtain ⟨v2, e2, w2, f2, c2⟩ := f1.bufWriteFields hr.sched (by decide) (arpReplyFields_contiguous s.cfg)
    (by rw [lm]; omega)
  obtain ⟨v3, e3, w3, f3, c3⟩ := f2.bufWrite hr.sched (by decide) (off := 32)
    (bs := bytesAt s (b.toNat + 6) 6) (by rw [l1]; omega)
  obtain ⟨v4, e4, w4, f4, c4⟩ := f3.bufWrite hr.sched (by decide) (off := 38)
    (bs := bytesAt s (b.toNat + 28) 4) (by rw [l2]; omega)
  refine ⟨u, v4, h1, ?_, f4, c4.trans (c3.trans (c2.trans (c1.trans h3))), ?_⟩
  · simp only [arpReplyBuild, bind_apply, rd h2 (show 6 + 6 ≤ s.cfg.bufSize by omega), e1, e2,
      rd f2 (show 6 + 6 ≤ s.cfg.bufSize by omega), e3, rd f3 (show 28 + 4 ≤ s.cfg.bufSize by omega), e4]
  · have b1 := w1.bytesAt
    have b2 := w2.bytesAt
    have b3 := w3.bytesAt
    have b4 := w4.bytesAt
    rw [l1, Nat.add_zero] at b1
    rw [lm, arpReplyFields_flatten] at b2
    rw [l1] at b3
    rw [l2] at b4
    rw [arpReply_eq, show 42 = 6 + 26 + 6 + 4 from rfl, bytesAt_add, bytesAt_add, bytesAt_add,
      w4.bytesAt_outside (by omega), w4.bytesAt_outside (by omega), w4.bytesAt_outside (by omega),
      w3.bytesAt_outside (by omega), w3.bytesAt_outside (by omega), w2.bytesAt_outside (by omega), b1, b2, b3, b4]

/-! ### The UDP frame -/

/-- The Ethernet header and the IPv4 header up to its checksum field. -/
def udpHead (p : Params) (plen : Nat) : List Byte :=
  p.peerMac.bytes ++ p.localMac.bytes ++ [0x08, 0x00, 0x45, 0x00] ++ be16Bytes (BitVec.ofNat 16 (28 + plen)) ++
    [0x00, 0x00, 0x00, 0x00, p.ipTxTtl, 0x11]

/-- The IPv4 header behind its checksum field. -/
def udpTail (p : Params) (dstIp : Word) : List Byte := be32Bytes p.localIp ++ be32Bytes dstIp

/-- The UDP header. -/
def udpPorts (sport dport : Half) (plen : Nat) : List Byte :=
  be16Bytes sport ++ be16Bytes dport ++ be16Bytes (BitVec.ofNat 16 (8 + plen)) ++ [0x00, 0x00]

theorem udpHead_length (p : Params) (plen : Nat) : (udpHead p plen).length = 24 := by simp [udpHead]
theorem udpTail_length (p : Params) (dstIp : Word) : (udpTail p dstIp).length = 8 := by simp [udpTail]
theorem udpPorts_length (sport dport : Half) (plen : Nat) : (udpPorts sport dport plen).length = 8 := by
  simp [udpPorts]

theorem udpIpHeader_eq (p : Params) (dstIp : Word) (plen : Nat) (c : List Byte) :
    udpIpHeader p dstIp plen c = (udpHead p plen).drop 14 ++ c ++ udpTail p dstIp := by
  simp [udpIpHeader, udpHead, udpTail, Mac.bytes]

theorem udpFrame_eq (p : Params) (sport : Half) (dstIp : Word) (dport : Half) (payload : List Byte) :
    udpFrame p sport dstIp dport payload =
      udpHead p payload.length ++ be16Bytes (cksum (udpIpHeader p dstIp payload.length [0x00, 0x00])) ++
        udpTail p dstIp ++ udpPorts sport dport payload.length ++ payload := by
  simp [udpFrame, udpIpHeader, udpHead, udpTail, udpPorts]

theorem udpTxFields_contiguous (p : Params) (dstIp : Word) (plen : Nat) :
    contiguous 0 (udpTxFields p dstIp plen) := by
  simp [udpTxFields, contiguous]

theorem udpTxFields_flatten (p : Params) (dstIp : Word) (plen : Nat) :
    ((udpTxFields p dstIp plen).map Prod.snd).flatten = udpHead p plen ++ [0x00, 0x00] ++ udpTail p dstIp := by
  have h1 : be16Bytes ethTypeIp = [0x08, 0x00] := by decide
  have h2 : be16Bytes (0 : Half) = [0x00, 0x00] := by decide
  have h3 : ipProtoUdp = 0x11 := by decide
  simp only [udpTxFields, udpHead, udpTail, h1, h2, h3, List.map, List.flatten_cons, List.flatten_nil, Nat.reduceAdd]
  simp

theorem udpHeaderFields_contiguous (sport dport : Half) (plen : Nat) :
    contiguous 34 (udpHeaderFields sport dport plen) := by
  simp [udpHeaderFields, contiguous]

theorem udpHeaderFields_flatten (sport dport : Half) (plen : Nat) :
    ((udpHeaderFields sport dport plen).map Prod.snd).flatten = udpPorts sport dport plen := by
  have h2 : be16Bytes (0 : Half) = [0x00, 0x00] := by decide
  simp only [udpHeaderFields, udpPorts, h2, List.map, List.flatten_cons, List.flatten_nil]
  simp

theorem Fresh.withCopyAns {r : Addr} {who : Owner} {s u : State} (h : Fresh r who s u) (l : List Bool) :
    Fresh r who s { u with copyAns := l } := by
  obtain ⟨a1, a2, a3, a4, a5, a6⟩ := h
  refine ⟨a1, fun x => (ownerOf_congr (s := u) rfl rfl rfl rfl rfl x).trans (a2 x), ⟨a3.aligned, a3.inside, a3.apart⟩,
    a4, a5, ?_⟩
  have key : ∀ m f b d c, u = { s with mem := m, fenced := f, bufs := b, draws := d, allocAns := s.allocAns.tail,
                                       copyAns := c, events := s.events ++ [.allocated r] } →
      ({ u with copyAns := l } : State) = { s with
        mem := u.mem, fenced := u.fenced, bufs := u.bufs, draws := u.draws, allocAns := s.allocAns.tail, copyAns := l
        events := s.events ++ [.allocated r] } := by
    rintro m f b d c rfl
    rfl
  exact key _ _ _ _ _ a6

section
variable {s : State} {r : Addr}

/-- F2 to F5 of UDP_TX: the headers in the frame's buffer. -/
theorem udp_headers (hr : SubmitReady s) (ha : (nextAllocAnswer s).1 = some r) (hok : allocOk s r = true)
    (sport : Half) (dstIp : Word) (dport : Half) (plen : Nat) :
    ∃ u v w x c, alloc .framer s = .ok (some r, u) ∧
      bufWriteFields .framer r (udpTxFields s.cfg dstIp plen) u = .ok ((), v) ∧
      cksumBuf .framer r 14 20 v = .ok (c, v) ∧
      bufWrite .framer r 24 (be16Bytes c) v = .ok ((), w) ∧
      bufWriteFields .framer r (udpHeaderFields sport dport plen) w = .ok ((), x) ∧
      Fresh r .framer s x ∧ x.copyAns = s.copyAns ∧
      bytesAt x r.toNat 42 = udpHead s.cfg plen ++ be16Bytes (cksum (udpIpHeader s.cfg dstIp plen [0x00, 0x00])) ++
        udpTail s.cfg dstIp ++ udpPorts sport dport plen := by
  have hsz := hr.sizes.buf
  obtain ⟨u, h1, h2, h3, -⟩ := alloc_fresh (who := .framer) hr.sched (by decide) hr.apart (by omega) ha hok
  have hfit := h2.ok.inside
  have l1 : ((udpTxFields s.cfg dstIp plen).map Prod.snd).flatten.length = 34 := by
    rw [udpTxFields_flatten]
    simp [udpHead_length, udpTail_length]
  obtain ⟨v, b1, b2, b3, b4⟩ := h2.bufWriteFields hr.sched (by decide) (udpTxFields_contiguous s.cfg dstIp plen)
    (by rw [l1]; omega)
  have hv := b2.bytesAt
  rw [l1, udpTxFields_flatten] at hv
  have hc : cksumBuf .framer r 14 20 v = .ok (cksum (udpIpHeader s.cfg dstIp plen [0x00, 0x00]), v) := by
    have e : bytesAt v (r.toNat + 14) 20 = udpIpHeader s.cfg dstIp plen [0x00, 0x00] := by
      rw [← bytesAt_slice v (r.toNat + 0) 34 14 20 (by omega), hv, udpIpHeader_eq, List.append_assoc,
        List.drop_append_of_le_length (by rw [udpHead_length]; omega)]
      rw [List.take_of_length_le (by simp [udpHead_length, udpTail_length]), List.append_assoc]
    simp only [cksumBuf, bind_apply, bufRead_quiet (b3.sched.trans hr.sched)
      (b3.ownsRange (by decide) (show 14 + 20 ≤ s.cfg.bufSize by omega))
      (show r.toNat + 14 + 20 ≤ addrSpace by omega), e, pure_apply]
  obtain ⟨w, c1, c2, c3, c4⟩ := b3.bufWrite hr.sched (by decide) (off := 24)
    (bs := be16Bytes (cksum (udpIpHeader s.cfg dstIp plen [0x00, 0x00]))) (by simp; omega)
  have l2 : ((udpHeaderFields sport dport plen).map Prod.snd).flatten.length = 8 := by
    rw [udpHeaderFields_flatten, udpPorts_length]
  obtain ⟨x, d1, d2, d3, d4⟩ := c3.bufWriteFields hr.sched (by decide) (udpHeaderFields_contiguous sport dport plen)
    (by rw [l2]; omega)
  refine ⟨u, v, w, x, _, h1, b1, hc, c1, d1, d3, d4.trans (c4.trans (b4.trans h3)), ?_⟩
  have hx := d2.bytesAt
  have hw := c2.bytesAt
  rw [l2, udpHeaderFields_flatten] at hx
  rw [be16Bytes_length] at hw
  have lw := be16Bytes_length (cksum (udpIpHeader s.cfg dstIp plen [0x00, 0x00]))
  rw [show 42 = 24 + 2 + 8 + 8 from rfl, bytesAt_add, bytesAt_add, bytesAt_add]
  congr 1
  · congr 1
    · congr 1
      · rw [d2.bytesAt_outside (by omega), c2.bytesAt_outside (by omega), ← bytesAt_take v r.toNat 34 24 (by omega)]
        rw [Nat.add_zero] at hv
        rw [hv, List.append_assoc, List.take_append_of_le_length (by rw [udpHead_length]),
          List.take_of_length_le (by rw [udpHead_length])]
      · rw [d2.bytesAt_outside (by omega)]
        exact hw
    · rw [d2.bytesAt_outside (by omega), c2.bytesAt_outside (by omega),
        ← bytesAt_slice v r.toNat 34 (24 + 2) 8 (by omega)]
      rw [Nat.add_zero] at hv
      rw [hv, drop_append_ge _ _ (by simp [udpHead_length])]
      rw [List.take_of_length_le (by simp [udpTail_length])]
      simp [udpHead_length]

/-- F6 of UDP_TX where CopyIn succeeds. -/
theorem copyIn_ok {x : State} (h : Fresh r .framer s x) (hs : s.sched = []) {payload : List Byte}
    (hn : 42 + payload.length ≤ s.cfg.bufSize) (hc : x.copyAns.head? = some true) :
    ∃ y, copyIn r 42 payload x = .ok (true, y) ∧ Wrote (r.toNat + 42) payload x y ∧ Fresh r .framer s y ∧
      y.copyAns = x.copyAns.tail := by
  have hfit := h.ok.inside
  obtain ⟨l, hl⟩ : ∃ l, x.copyAns = true :: l := by
    cases hx : x.copyAns with
    | nil => rw [hx] at hc; cases hc
    | cons a l =>
      rw [hx] at hc
      cases hc
      exact ⟨l, rfl⟩
  have h' := h.withCopyAns l
  obtain ⟨h1, h2⟩ := h'.wrote (off := 42) (bs := payload) hn rfl
  have ha : nextCopyAnswer x = (true, { x with copyAns := l }) := by simp [nextCopyAnswer, hl]
  refine ⟨_, ?_, ⟨h1.mem, h1.bufs, h1.cfg⟩, h2, by rw [hl]; rfl⟩
  simp only [copyIn, bind_apply, point_quiet (h.sched.trans hs), get_apply, ha, update_apply, if_true,
    h.ownsRange (by decide) hn, memWrite_apply, show r.toNat + 42 + payload.length ≤ addrSpace by omega, pure_apply]

/-- F6 of UDP_TX where CopyIn fails. -/
theorem copyIn_fail {x : State} (h : Fresh r .framer s x) (hs : s.sched = []) {payload : List Byte}
    (hc : x.copyAns.head? = some false) :
    copyIn r 42 payload x = .ok (false, { x with copyAns := x.copyAns.tail }) := by
  cases hx : x.copyAns with
  | nil => rw [hx] at hc; cases hc
  | cons a l =>
    rw [hx] at hc
    cases hc
    have ha : nextCopyAnswer x = (false, { x with copyAns := l }) := by simp [nextCopyAnswer, hx]
    simp [copyIn, point_quiet (h.sched.trans hs), ha]

end

end Sys2Proof.Machine
end

