-- ==== Sys2Proof/Laws/InitRings.lean ====
section
/-! SUPPORT. INIT's rings: the slots of S6 and S10 written one after another. -/

namespace Sys2Proof.Machine

/-! ### The transmit ring -/

/-- The descriptor S6 writes. -/
def idleTx : TxDesc := ⟨0, 0, 0, 0, 0x01, 0, 0⟩

/-- What S6 makes of a state once `n` slots are done. -/
structure TxSlots (n : Nat) (s t : State) : Prop where
  slot : ∀ i < n, txd t i = idleTx
  owner : ∀ i, t.txOwner[i]? = if i < n then (s.txOwner[i]?).map fun _ => none else s.txOwner[i]?
  same : ∀ c, (c < s.txRingBase.toNat ∨ s.txRingBase.toNat + n * 16 ≤ c) → byteAt t c = byteAt s c
  sees : ∀ c, (c < s.txRingBase.toNat ∨ s.txRingBase.toNat + n * 16 ≤ c) → memGet s.mem c = memGet s.fenced c →
    memGet t.mem c = memGet t.fenced c
  state : t = { s with mem := t.mem, txOwner := t.txOwner }

theorem devOwnsTx_reset {s : State} (h : s.dev.tdh = 0 ∧ s.dev.tdt = 0 ∧ s.dev.txCount = 0) (i : Nat) :
    devOwnsTx s i = false := by
  obtain ⟨h1, h2, h3⟩ := h
  have : txOutstanding s = 0 := by
    unfold txOutstanding
    rw [h1, h2, h3]
    cases s.cfg.wrapMode with
    | idle => simp [cyclicLen]
    | sendAll => rfl
  simp [devOwnsTx, this]

theorem devOwnsRx_reset {s : State} (h : s.dev.rdh = 0 ∧ s.dev.rdt = 0) (i : Nat) : devOwnsRx s i = false := by
  simp only [devOwnsRx, cyclicMem, h.1, h.2, Bool.and_eq_false_iff, decide_eq_false_iff_not]
  refine Decidable.or_iff_not_imp_left.2 fun hi => ?_
  have hi : i < s.cfg.nRx := Decidable.not_not.1 hi
  simp [cyclicLen, Nat.zero_lt_of_lt hi]

/-- One slot of S6. -/
theorem initTxSlot_quiet {s : State} {i : Nat} (hs : s.sched = []) (hi : i < s.cfg.nTx)
    (hd : s.dev.tdh = 0 ∧ s.dev.tdt = 0 ∧ s.dev.txCount = 0) (hf : txdAddr s i + 16 ≤ addrSpace) :
    ∃ u, initTxSlot i s = .ok ((), u) ∧ Wrote (txdAddr s i) (txDescBytes idleTx) s u ∧
      u = { s with mem := u.mem, txOwner := s.txOwner.set i none } := by
  obtain ⟨m, hm⟩ : ∃ m, m = memPutBytes s.mem (txdAddr s i) (txDescBytes idleTx) := ⟨_, rfl⟩
  refine ⟨{ s with mem := m, txOwner := s.txOwner.set i none }, ?_, ⟨hm, rfl, rfl⟩, rfl⟩
  unfold initTxSlot
  simp only [bind_apply]
  have he : (⟨0, 0, 0, 0, bitDD, 0, 0⟩ : TxDesc) = idleTx := rfl
  rw [he, txDescFields_quiet idleTx hs hi (devOwnsTx_reset hd i) hf, ← hm]
  rfl

theorem initTxSlots {s : State} (hs : s.sched = [])
    (hd : s.dev.tdh = 0 ∧ s.dev.tdt = 0 ∧ s.dev.txCount = 0) (n : Nat)
    (hn : n ≤ s.cfg.nTx) (hf : s.txRingBase.toNat + n * 16 ≤ addrSpace) :
    ∃ t, forUpTo initTxSlot n s = .ok ((), t) ∧ TxSlots n s t := by
  induction n with
  | zero =>
    exact ⟨s, rfl, fun i hi => absurd hi (by omega), fun i => by simp, fun c _ => rfl, fun c _ h => h, rfl⟩
  | succ n ih =>
    obtain ⟨t, ht, h⟩ := ih (by omega) (by omega)
    have hcfg : t.cfg = s.cfg := by rw [h.state]
    have hb : t.txRingBase = s.txRingBase := by rw [h.state]
    have ha : txdAddr t n = s.txRingBase.toNat + 16 * n := by simp [txdAddr, descSize, hb]
    have hts : t.sched = [] := by rw [h.state]; exact hs
    have htd : t.dev = s.dev := by rw [h.state]
    obtain ⟨u, hu, hw, hst⟩ := initTxSlot_quiet (i := n) hts (by rw [hcfg]; omega) (by rw [htd]; exact hd) (by rw [ha]; omega)
    have hub : u.txRingBase = t.txRingBase := by rw [hst]
    have huo : u.txOwner = t.txOwner.set n none := by rw [hst]
    refine ⟨u, by rw [forUpTo, bind_apply, ht]; exact hu, ?_, ?_, ?_, ?_, ?_⟩
    · intro i hi
      by_cases e : i = n
      · subst e
        apply txd_of_bytes
        have := hw.bytesAt
        rw [txDescBytes_length] at this
        simpa [txdAddr, hub] using this
      · rw [← h.slot i (by omega)]
        refine txd_congr (by simp [txdAddr, hub]) fun c c1 c2 => ?_
        refine hw.byteAt_outside ?_
        rw [txDescBytes_length]
        simp only [txdAddr, descSize] at *
        omega
    · intro i
      rw [huo, List.getElem?_set, h.owner]
      by_cases e : n = i
      · subst e
        have hlen : t.txOwner.length = s.txOwner.length := by
          by_contra hne
          rcases Nat.lt_or_gt_of_ne hne with hlt | hlt
          · have := h.owner t.txOwner.length
            rw [List.getElem?_eq_none (le_refl _), List.getElem?_eq_getElem hlt] at this
            split at this <;> simp at this
          · have := h.owner s.txOwner.length
            rw [List.getElem?_eq_none (le_refl s.txOwner.length), List.getElem?_eq_getElem hlt] at this
            split at this <;> simp at this
        rw [if_pos rfl, hlen, if_pos (show n < n + 1 by omega)]
        by_cases hl : n < s.txOwner.length
        · rw [if_pos hl, List.getElem?_eq_getElem hl]; rfl
        · rw [if_neg hl, List.getElem?_eq_none (by omega)]; rfl
      · rw [if_neg e]
        by_cases hi : i < n
        · rw [if_pos hi, if_pos (by omega)]
        · rw [if_neg hi, if_neg (by omega)]
    · intro c hc
      rw [← h.same c (by omega)]
      refine hw.byteAt_outside ?_
      rw [txDescBytes_length, ha]
      omega
    · intro c hc hsee
      rw [hw.mem, memGet_memPutBytes, if_neg (by rw [txDescBytes_length, ha]; omega), h.sees c (by omega) hsee, hst]
    · have key : ∀ m1 m2 o1 o2, t = { s with mem := m1, txOwner := o1 } →
          u = { t with mem := m2, txOwner := o2 } → u = { s with mem := m2, txOwner := o2 } := by
        intro m1 m2 o1 o2 e1 e2
        rw [e2, e1]
      have := key _ _ _ _ h.state hst
      rwa [← huo] at this

/-! ### The receive ring -/

/-- The descriptor S10 writes. -/
def freshRx (b : Addr) : RxDesc := ⟨b, 0, 0, 0, 0, 0⟩

/-- One slot of S10. -/
theorem initRxSlot_quiet {s : State} {i : Nat} {b : Addr} {rest : List (Option Addr)} (hs : s.sched = [])
    (hd : s.dev.rdh = 0 ∧ s.dev.rdt = 0) (hf : rxdAddr s i + 16 ≤ addrSpace) (ha : s.allocAns = some b :: rest)
    (hb : allocOk s b = true) :
    ∃ u, initRxSlot i s = .ok ((), u) ∧ Wrote (rxdAddr s i) (rxDescBytes (freshRx b)) (allocState b .rxPath s) u ∧
      (∀ c, (s.cfg.rxInitView = .fenced → c < rxdAddr s i ∨ rxdAddr s i + 16 ≤ c) →
        memGet s.mem c = memGet s.fenced c → memGet u.mem c = memGet u.fenced c) ∧
      (s.cfg.rxInitView = .fenced → ∀ c, (c < b.toNat ∨ b.toNat + s.cfg.bufSize ≤ c) →
        memGet u.fenced c = memGet s.fenced c) ∧
      u = { s with mem := u.mem, fenced := u.fenced, bufs := u.bufs, rxOwner := s.rxOwner.set i b, allocAns := rest,
                   draws := s.draws + 1, events := s.events ++ [.allocated b] } := by
  obtain ⟨m, hm⟩ : ∃ m, m = memPutBytes (memClear s.mem b.toNat s.cfg.bufSize) (rxdAddr s i)
    (rxDescBytes (freshRx b)) := ⟨_, rfl⟩
  obtain ⟨f, hf'⟩ : ∃ f, f = placed s.cfg (fun m => memPutBytes m (rxdAddr s i) (rxDescBytes (freshRx b)))
    (memClear s.fenced b.toNat s.cfg.bufSize) := ⟨_, rfl⟩
  refine ⟨{ allocState b .rxPath { s with allocAns := rest } with rxOwner := s.rxOwner.set i b, mem := m, fenced := f },
    ?_, ⟨hm, rfl, rfl⟩, fun c ho hc => ?_, fun h c ho => ?_, rfl⟩
  rotate_left
  · show memGet m c = memGet f c
    rw [hm, hf', memGet_memPutBytes]
    by_cases h : s.cfg.rxInitView = .fenced
    · have := ho h
      rw [placed_fenced h, if_neg (by rw [rxDescBytes_length]; omega), memGet_memClear, memGet_memClear, hc]
    · rw [placed_written h, memGet_memPutBytes, memGet_memClear, memGet_memClear, hc]
  · show memGet f c = _
    rw [hf', placed_fenced h, memGet_memClear, if_neg (by omega)]
  unfold initRxSlot
  simp only [bind_apply]
  rw [alloc_quiet_some hs (s' := { s with allocAns := rest }) (by simp [nextAllocAnswer, ha]) hb]
  simp only [bind_apply, update_apply]
  have hw := rxDescFields_quiet
    (s := { allocState b .rxPath { s with allocAns := rest } with rxOwner := s.rxOwner.set i b }) (freshRx b)
    (by exact hs) (devOwnsRx_reset (by exact hd) i) (by exact hf)
  have ha : rxdAddr { allocState b .rxPath { s with allocAns := rest } with rxOwner := s.rxOwner.set i b } i =
    rxdAddr s i := rfl
  have hmem : ({ allocState b .rxPath { s with allocAns := rest } with
    rxOwner := s.rxOwner.set i b } : State).mem = memClear s.mem b.toNat s.cfg.bufSize := rfl
  have hfen : ({ allocState b .rxPath { s with allocAns := rest } with
    rxOwner := s.rxOwner.set i b } : State).fenced = memClear s.fenced b.toNat s.cfg.bufSize := rfl
  have hcfg : ({ allocState b .rxPath { s with allocAns := rest } with
    rxOwner := s.rxOwner.set i b } : State).cfg = s.cfg := rfl
  rw [ha, hmem, hfen, hcfg, ← hm, ← hf'] at hw
  have he : (⟨b, 0, 0, 0, 0, 0⟩ : RxDesc) = freshRx b := rfl
  rw [he]
  exact hw

/-- What S10 makes of a state once the first `n` of the buffers `bs` are in their slots. -/
structure RxSlots (n : Nat) (bs : List Addr) (rest : List (Option Addr)) (s t : State) : Prop where
  slot : ∀ (i : Nat) (h : i < bs.length), i < n → rxd t i = freshRx bs[i]
  length : t.rxOwner.length = s.rxOwner.length
  owner : ∀ (i : Nat) (h : i < bs.length), i < n → i < s.rxOwner.length → t.rxOwner[i]? = some bs[i]
  owners : ∀ x, recordedOwner t x = if x ∈ bs.take n then .rxPath else recordedOwner s x
  apart : BufsApart t
  records : ∀ r ∈ t.bufs, r ∈ s.bufs ∨ r.base ∈ bs.take n
  same : ∀ c, (c < s.rxRingBase.toNat ∨ s.rxRingBase.toNat + n * 16 ≤ c) →
    (∀ b ∈ bs.take n, c < b.toNat ∨ b.toNat + s.cfg.bufSize ≤ c) → byteAt t c = byteAt s c
  sees : ∀ c, (s.cfg.rxInitView = .fenced → c < s.rxRingBase.toNat ∨ s.rxRingBase.toNat + n * 16 ≤ c) →
    memGet s.mem c = memGet s.fenced c → memGet t.mem c = memGet t.fenced c
  unseen : s.cfg.rxInitView = .fenced → ∀ c, (∀ b ∈ bs.take n, c < b.toNat ∨ b.toNat + s.cfg.bufSize ≤ c) →
    memGet t.fenced c = memGet s.fenced c
  state : t = { s with
    mem := t.mem, fenced := t.fenced, bufs := t.bufs, rxOwner := t.rxOwner
    allocAns := (bs.drop n).map some ++ rest
    draws := s.draws + n, events := s.events ++ (bs.take n).map Event.allocated }

theorem initRxSlots {s : State} {bs : List Addr} {rest : List (Option Addr)} (hs : s.sched = [])
    (hph : s.initPhase = .running)
    (hd : s.dev.rdh = 0 ∧ s.dev.rdt = 0) (hn : 0 < s.cfg.bufSize)
    (ha : s.allocAns = bs.map some ++ rest) (hap : BufsApart s)
    (hfb : FreshBuffers s s.txRingBase s.rxRingBase bs)
    (hbs : bs.length ≤ s.cfg.nRx) (hf : s.rxRingBase.toNat + s.cfg.nRx * 16 ≤ addrSpace) (n : Nat)
    (hnb : n ≤ bs.length) :
    ∃ t, forUpTo initRxSlot n s = .ok ((), t) ∧ RxSlots n bs rest s t := by
  induction n with
  | zero =>
    refine ⟨s, rfl, fun i _ hi => absurd hi (by omega), rfl, fun i _ hi => absurd hi (by omega), by simp, hap,
      fun r hr => .inl hr, fun c _ _ => rfl, fun c _ h => h, fun _ c _ => rfl, ?_⟩
    simp [← ha]
  | succ n ih =>
    obtain ⟨t, ht, h⟩ := ih (by omega)
    have hn' : n < bs.length := by omega
    have hcfg : t.cfg = s.cfg := by rw [h.state]
    have hrb : t.rxRingBase = s.rxRingBase := by rw [h.state]
    have htb : t.txRingBase = s.txRingBase := by rw [h.state]
    have hip : t.initPhase = s.initPhase := by rw [h.state]
    have hdev : t.dev = s.dev := by rw [h.state]
    have hts : t.sched = [] := by rw [h.state]; exact hs
    have ha' : rxdAddr t n = s.rxRingBase.toNat + 16 * n := by simp [rxdAddr, descSize, hrb]
    have hans : t.allocAns = some bs[n] :: ((bs.drop (n + 1)).map some ++ rest) := by
      rw [h.state, List.drop_eq_getElem_cons hn']; rfl
    have hmem : bs[n] ∈ bs := List.getElem_mem hn'
    have hnot : bs[n] ∉ bs.take n := by
      intro hm
      obtain ⟨j, hj, e⟩ := List.mem_iff_getElem.1 hm
      rw [List.length_take] at hj
      rw [List.getElem_take] at e
      have := (List.Nodup.getElem_inj_iff hfb.distinct (hi := by omega) (hj := hn')).1 e
      omega
    have hok : AllocOk t bs[n] := by
      refine ⟨?_, ?_, ?_, by rw [hip, hph]; simp, ?_, ?_⟩
      · rw [hcfg]; exact hfb.aligned _ hmem
      · rw [hcfg]; exact hfb.inside _ hmem
      · intro r hr
        rw [hcfg]
        rcases h.records r hr with hr | hr
        · exact hfb.free _ hmem r hr
        · right
          by_contra hc
          have hrm := List.mem_of_mem_take hr
          have := base_eq_of_overlaps (hfb.aligned _ hmem) (hfb.aligned _ hrm) (by simpa using hc)
          exact hnot (by rw [BitVec.eq_of_toNat_eq this]; exact hr)
      · rw [hcfg, htb]; exact hfb.offTx _ hmem
      · rw [hcfg, hrb]; exact hfb.offRx _ hmem
    have hn2 : 0 < t.cfg.bufSize := by rw [hcfg]; exact hn
    obtain ⟨u, hu, hw, hsee, hold, hst⟩ := initRxSlot_quiet (i := n) hts (by rw [hdev]; exact hd) (by rw [ha']; omega) hans
      ((allocOk_iff _ _).2 hok)
    have hub : u.rxRingBase = t.rxRingBase := by rw [hst]
    have huo : u.rxOwner = t.rxOwner.set n bs[n] := by rw [hst]
    have hbuf : u.bufs = (allocState bs[n] .rxPath t).bufs := hw.bufs
    have hucfg : u.cfg = t.cfg := by rw [hst]
    have htake : bs.take (n + 1) = bs.take n ++ [bs[n]] := by rw [List.take_add_one, List.getElem?_eq_getElem hn']; rfl
    have hbyte : ∀ c, (c < rxdAddr t n ∨ rxdAddr t n + 16 ≤ c) →
        (c < bs[n].toNat ∨ bs[n].toNat + s.cfg.bufSize ≤ c) → byteAt u c = byteAt t c := by
      intro c c1 c2
      rw [hw.byteAt_outside (by rw [rxDescBytes_length]; omega)]
      exact byteAt_allocState h.apart hok (by rw [hcfg]; exact c2)
    have hoff := overlaps_false (hfb.offRx _ hmem)
    refine ⟨u, by rw [forUpTo, bind_apply, ht]; exact hu, ?_, ?_, ?_, ?_, ?_, ?_, ?_, ?_, ?_, ?_⟩
    · intro i hi hin
      by_cases e : i = n
      · subst e
        apply rxd_of_bytes
        have := hw.bytesAt
        rw [rxDescBytes_length] at this
        have ea : rxdAddr u i = rxdAddr t i := by simp [rxdAddr, hub]
        rw [ea]; exact this
      · rw [← h.slot i hi (by omega)]
        refine rxd_congr (by simp [rxdAddr, hub]) fun c c1 c2 => hbyte c ?_ ?_
        · simp only [rxdAddr, descSize] at *; omega
        · simp only [rxdAddr, descSize, hrb] at *; omega
    · rw [huo, List.length_set, h.length]
    · intro i hi hin hil
      rw [huo, List.getElem?_set]
      by_cases e : n = i
      · subst e
        rw [if_pos rfl, if_pos (by rw [h.length]; exact hil)]
      · rw [if_neg e]; exact h.owner i hi (by omega) hil
    · intro x
      have h1 : recordedOwner u x = recordedOwner (allocState bs[n] .rxPath t) x := by unfold recordedOwner; rw [hbuf]
      rw [h1, recordedOwner_allocState h.apart hn2 hok, h.owners, htake]
      by_cases e : x = bs[n]
      · rw [if_pos e, if_pos (by rw [e]; exact List.mem_append_right _ (List.mem_singleton_self _))]
      · rw [if_neg e]
        simp only [List.mem_append, List.mem_singleton, e, or_false]
    · exact BufsApart.congr (h.apart.allocState hok) (by rw [hucfg]; rfl) hbuf
    · intro r hr
      rw [hbuf, allocState_bufs, List.mem_append] at hr
      rw [htake]
      rcases hr with hr | hr
      · rcases h.records r (List.mem_filter.1 hr).1 with h1 | h1
        · exact .inl h1
        · exact .inr (List.mem_append_left _ h1)
      · simp only [List.mem_singleton] at hr
        subst hr
        exact .inr (List.mem_append_right _ (List.mem_singleton_self _))
    · intro c c1 c2
      rw [hbyte c (by rw [ha']; omega) (c2 _ (by rw [htake]; exact List.mem_append_right _ (List.mem_singleton_self _)))]
      exact h.same c (by omega) fun b hb => c2 b (by rw [htake]; exact List.mem_append_left _ hb)
    · intro c ho hc
      rw [hcfg] at hsee
      exact hsee c (fun e => by have := ho e; rw [ha']; omega) (h.sees c (fun e => by have := ho e; omega) hc)
    · intro e c hc
      rw [htake] at hc
      rw [hcfg] at hold
      rw [hold e c (hc _ (List.mem_append_right _ (List.mem_singleton_self _))),
        h.unseen e c fun b hb => hc b (List.mem_append_left _ hb)]
    · have key : ∀ m1 m2 f1 f2 o1 o2 b1 b2, t = { s with
            mem := m1, fenced := f1, bufs := b1, rxOwner := o1, allocAns := (bs.drop n).map some ++ rest
            draws := s.draws + n, events := s.events ++ (bs.take n).map Event.allocated } →
          u = { t with mem := m2, fenced := f2, bufs := b2, rxOwner := o2, allocAns := (bs.drop (n + 1)).map some ++ rest,
                       draws := t.draws + 1, events := t.events ++ [.allocated bs[n]] } →
          u = { s with
            mem := m2, fenced := f2, bufs := b2, rxOwner := o2, allocAns := (bs.drop (n + 1)).map some ++ rest
            draws := s.draws + (n + 1), events := s.events ++ (bs.take (n + 1)).map Event.allocated } := by
        intro m1 m2 f1 f2 o1 o2 b1 b2 e1 e2
        have ev : s.events ++ (bs.take n).map Event.allocated ++ [.allocated bs[n]] =
            s.events ++ (bs.take (n + 1)).map Event.allocated := by
          rw [htake, List.map_append, List.append_assoc]
          rfl
        rw [e2, e1]
        simp only [ev, Nat.add_assoc]
      have := key _ _ _ _ _ _ _ _ h.state hst
      rwa [← huo] at this

end Sys2Proof.Machine
end

