-- ==== Sys2Proof/Laws/Init.lean ====
section
/-! SUPPORT. INIT's register writes, and INIT from the end of the device reset on. -/

namespace Sys2Proof.Machine

/-! ### Register writes while no interrupt cause is set -/

/-- The state with other device registers. -/
def withDev (d : DevRegs) (s : State) : State := { s with dev := d }

@[simp] theorem withDev_dev (d : DevRegs) (s : State) : (withDev d s).dev = d := rfl
@[simp] theorem withDev_cfg (d : DevRegs) (s : State) : (withDev d s).cfg = s.cfg := rfl
@[simp] theorem withDev_sched (d : DevRegs) (s : State) : (withDev d s).sched = s.sched := rfl
@[simp] theorem withDev_initPhase (d : DevRegs) (s : State) : (withDev d s).initPhase = s.initPhase := rfl
@[simp] theorem withDev_bufs (d : DevRegs) (s : State) : (withDev d s).bufs = s.bufs := rfl
@[simp] theorem withDev_mem (d : DevRegs) (s : State) : (withDev d s).mem = s.mem := rfl
@[simp] theorem withDev_txRingBase (d : DevRegs) (s : State) : (withDev d s).txRingBase = s.txRingBase := rfl
@[simp] theorem withDev_rxRingBase (d : DevRegs) (s : State) : (withDev d s).rxRingBase = s.rxRingBase := rfl
@[simp] theorem withDev_allocAns (d : DevRegs) (s : State) : (withDev d s).allocAns = s.allocAns := rfl
@[simp] theorem withDev_withDev (d e : DevRegs) (s : State) : withDev d (withDev e s) = withDev d s := rfl
theorem withDev_self (s : State) : withDev s.dev s = s := rfl

theorem setDev_noCause {d : DevRegs} (h : d.icr = 0) (s : State) : setDev d s = withDev d s := by
  have : (s.irqHeld || (!irqLine s.dev && irqLine d)) = s.irqHeld := by simp [irqLine, h]
  simp [setDev, withDev, this]

/-- A register write that leaves no interrupt cause. -/
theorem regWrite_noCause {d : DevRegs} {s : State} {n : RegName} {v : Word} (hs : s.sched = [])
    (hr : regWriteRefusal (withDev d s) n v = none) (hi : (writeReg s.cfg n v d).icr = 0) :
    regWrite n v (withDev d s) = .ok ((), withDev (writeReg s.cfg n v d) s) := by
  rw [regWrite_quiet (by exact hs) hr, setDev_noCause (by exact hi)]
  simp only [writeReg]
  rfl

theorem refusal_tdh {s : State} {v : Word} (hp : s.initPhase ≠ .done)
    (h : v.toNat < s.dev.tdlen.toNat / descSize) : regWriteRefusal s .tdh v = none := by
  unfold regWriteRefusal
  rw [if_neg (by simp [reservedMask])]
  simp only
  rw [if_neg hp, if_pos h]

theorem refusal_tdt {s : State} {v : Word} (h : v.toNat < s.dev.tdlen.toNat / descSize) :
    regWriteRefusal s .tdt v = none := by
  unfold regWriteRefusal
  rw [if_neg (by simp [reservedMask])]
  simp only
  rw [if_pos h]

theorem refusal_rdh {s : State} {v : Word} (hp : s.initPhase ≠ .done)
    (h : v.toNat < s.dev.rdlen.toNat / descSize) : regWriteRefusal s .rdh v = none := by
  unfold regWriteRefusal
  rw [if_neg (by simp [reservedMask])]
  simp only
  rw [if_neg hp, if_pos h]

theorem refusal_rdt {s : State} {v : Word} (h : v.toNat < s.dev.rdlen.toNat / descSize) :
    regWriteRefusal s .rdt v = none := by
  unfold regWriteRefusal
  rw [if_neg (by simp [reservedMask])]
  simp only
  rw [if_pos h]

/-- The device registers S8 and S9 leave. -/
def txRegs (p : Params) (tb : Addr) (d : DevRegs) : DevRegs :=
  { d with
    tdbal := tb.extractLsb' 0 32, tdbah := tb.extractLsb' 32 32, tdlen := BitVec.ofNat 32 (p.nTx * descSize)
    tdh := 0, tdt := 0 }

/-- S9's write of TDT makes no slot outstanding. -/
theorem writeTdt_zero {p : Params} {d : DevRegs} (hh : d.tdh = 0) (hc : d.txCount = 0) :
    writeTdt p 0 d = { d with tdt := 0 } := by
  cases hw : p.wrapMode <;> simp [writeTdt, hw, hh, hc, cyclicLen]

/-- S7 to S9. -/
theorem initTxRegs {s : State} {d : DevRegs} (hs : s.sched = []) (hi : d.icr = 0) (hc : d.txCount = 0)
    (hp : s.initPhase ≠ .done) (hn : 1 ≤ s.cfg.nTx ∧ s.cfg.nTx * 16 < 2 ^ 32) (tb : Addr) :
    (do regWrite .tdbal (tb.extractLsb' 0 32)
        regWrite .tdbah (tb.extractLsb' 32 32)
        regWrite .tdlen (BitVec.ofNat 32 (s.cfg.nTx * descSize))
        regWrite .tdh 0
        regWrite .tdt 0 : M Unit) (withDev d s) = .ok ((), withDev (txRegs s.cfg tb d) s) := by
  have hl : (BitVec.ofNat 32 (s.cfg.nTx * descSize)).toNat / descSize = s.cfg.nTx := by
    rw [BitVec.toNat_ofNat, Nat.mod_eq_of_lt (by simp only [descSize]; omega)]
    simp [descSize]
  have hpos : (0 : Word).toNat < (BitVec.ofNat 32 (s.cfg.nTx * descSize)).toNat / descSize := by
    rw [hl]; exact hn.1
  rw [bind_apply, regWrite_noCause hs (by simp [regWriteRefusal, reservedMask]) (by exact hi)]
  simp only [writeReg]
  rw [bind_apply, regWrite_noCause hs (by simp [regWriteRefusal, reservedMask]) (by exact hi)]
  simp only [writeReg]
  rw [bind_apply, regWrite_noCause hs (by simp [regWriteRefusal, reservedMask]) (by exact hi)]
  simp only [writeReg]
  rw [bind_apply, regWrite_noCause hs (by exact refusal_tdh hp hpos) (by exact hi)]
  simp only [writeReg]
  rw [regWrite_noCause hs (by exact refusal_tdt hpos) (by exact hi)]
  simp only [writeReg]
  rw [writeTdt_zero rfl (by exact hc)]
  rfl

/-- The device registers S12 leaves. -/
def rxRegs (p : Params) (xb : Addr) (d : DevRegs) : DevRegs :=
  { d with
    rdbal := xb.extractLsb' 0 32, rdbah := xb.extractLsb' 32 32, rdlen := BitVec.ofNat 32 (p.nRx * descSize)
    rdh := 0, rdt := BitVec.ofNat 32 (p.nRx - 1) }

/-- S12. -/
theorem initRxRegs {s : State} {d : DevRegs} (hs : s.sched = []) (hi : d.icr = 0) (hp : s.initPhase ≠ .done)
    (hn : 1 ≤ s.cfg.nRx ∧ s.cfg.nRx * 16 < 2 ^ 32) (xb : Addr) :
    (do regWrite .rdbal (xb.extractLsb' 0 32)
        regWrite .rdbah (xb.extractLsb' 32 32)
        regWrite .rdlen (BitVec.ofNat 32 (s.cfg.nRx * descSize))
        regWrite .rdh 0
        regWrite .rdt (BitVec.ofNat 32 (s.cfg.nRx - 1)) : M Unit) (withDev d s) =
      .ok ((), withDev (rxRegs s.cfg xb d) s) := by
  have hl : (BitVec.ofNat 32 (s.cfg.nRx * descSize)).toNat / descSize = s.cfg.nRx := by
    rw [BitVec.toNat_ofNat, Nat.mod_eq_of_lt (by simp only [descSize]; omega)]
    simp [descSize]
  have ht : (BitVec.ofNat 32 (s.cfg.nRx - 1)).toNat < s.cfg.nRx := by
    rw [BitVec.toNat_ofNat, Nat.mod_eq_of_lt (by omega)]; omega
  have hpos : (0 : Word).toNat < (BitVec.ofNat 32 (s.cfg.nRx * descSize)).toNat / descSize := by
    rw [hl]; exact hn.1
  rw [bind_apply, regWrite_noCause hs (by simp [regWriteRefusal, reservedMask]) (by exact hi)]
  simp only [writeReg]
  rw [bind_apply, regWrite_noCause hs (by simp [regWriteRefusal, reservedMask]) (by exact hi)]
  simp only [writeReg]
  rw [bind_apply, regWrite_noCause hs (by simp [regWriteRefusal, reservedMask]) (by exact hi)]
  simp only [writeReg]
  rw [bind_apply, regWrite_noCause hs (by exact refusal_rdh hp hpos) (by exact hi)]
  simp only [writeReg]
  have ht' : (BitVec.ofNat 32 (s.cfg.nRx - 1)).toNat < (BitVec.ofNat 32 (s.cfg.nRx * descSize)).toNat / descSize := by
    rw [hl]; exact ht
  rw [regWrite_noCause hs (by exact refusal_rdt ht') (by exact hi)]
  simp only [writeReg]
  rfl

/-- S13's table: the entries below `n` are 0. -/
theorem initMtas {s : State} {d : DevRegs} (hs : s.sched = []) (hi : d.icr = 0) (n : Nat) :
    ∃ m : Vector Word 128, forUpTo initMta n (withDev d s) = .ok ((), withDev { d with mta := m } s) ∧
      ∀ (j : Nat) (h : j < 128), j < n → m[j] = 0 := by
  induction n with
  | zero => exact ⟨d.mta, rfl, fun j _ hj => absurd hj (by omega)⟩
  | succ n ih =>
    obtain ⟨m, hm, hz⟩ := ih
    by_cases h : n < 128
    · refine ⟨m.set n 0 h, ?_, ?_⟩
      · rw [forUpTo, bind_apply, hm]
        simp only [initMta, dif_pos h]
        rw [regWrite_noCause hs (by simp [regWriteRefusal, reservedMask]) (by exact hi)]
        simp only [writeReg]
      · intro j hj hjn
        by_cases e : n = j
        · subst e; simp
        · rw [Vector.getElem_set_ne _ _ e]
          exact hz j hj (by omega)
    · refine ⟨m, ?_, fun j hj _ => hz j hj (by omega)⟩
      rw [forUpTo, bind_apply, hm]
      simp only [initMta, dif_neg h]
      rfl

/-- The device registers S13 to S17 leave, with the multicast table `m`. -/
def engineRegs (p : Params) (m : Vector Word 128) (d : DevRegs) : DevRegs :=
  { d with
    ral0 := ral0Of p.localMac, rah0 := rah0Of p.localMac, mta := m, tctl := tctlInit, tipg := tipgInit
    rctl := rctlInit, rdtr := 0, radv := 0, ims := d.ims ||| icrRxdw }

theorem rah0Of_reserved (m : Mac) : rah0Of m &&& 0x7FFF0000 = 0 := by
  obtain ⟨b0, b1, b2, b3, b4, b5⟩ := m
  simp only [rah0Of]
  apply BitVec.eq_of_getLsbD_eq
  intro i hi
  simp only [BitVec.getLsbD_and, BitVec.getLsbD_append]
  interval_cases i <;> simp

theorem refusal_rah0 {s : State} {m : Mac} : regWriteRefusal s .rah0 (rah0Of m) = none := by
  unfold regWriteRefusal
  rw [if_neg (by
    rintro ⟨-, h⟩
    exact h (rah0Of_reserved m))]

/-- S13 to S17. -/
theorem initEngines_ok {s : State} {d : DevRegs} (hs : s.sched = []) (hi : d.icr = 0) :
    ∃ m : Vector Word 128, (∀ (j : Nat) (h : j < 128), m[j] = 0) ∧
      initEngines (withDev d s) = .ok ((), withDev (engineRegs s.cfg m d) s) := by
  obtain ⟨m, hm, hz⟩ := initMtas (s := s)
    (d := { d with ral0 := ral0Of s.cfg.localMac, rah0 := rah0Of s.cfg.localMac }) hs hi 128
  refine ⟨m, fun j h => hz j h h, ?_⟩
  unfold initEngines
  simp only [bind_apply, get_apply, withDev_cfg]
  rw [regWrite_noCause hs (by simp [regWriteRefusal, reservedMask]) (by exact hi)]
  simp only [writeReg]
  rw [regWrite_noCause hs (by exact refusal_rah0) (by exact hi)]
  simp only [writeReg]
  rw [hm]
  simp only []
  rw [regWrite_noCause hs (by simp [regWriteRefusal, reservedMask, tctlInit]) (by exact hi)]
  simp only [writeReg]
  rw [regWrite_noCause hs (by simp [regWriteRefusal, reservedMask, tipgInit]) (by exact hi)]
  simp only [writeReg]
  rw [regWrite_noCause hs (by simp [regWriteRefusal, reservedMask, rctlInit]) (by exact hi)]
  simp only [writeReg]
  rw [regWrite_noCause hs (by simp [regWriteRefusal, reservedMask]) (by exact hi)]
  simp only [writeReg]
  rw [regWrite_noCause hs (by simp [regWriteRefusal, reservedMask]) (by exact hi)]
  simp only [writeReg]
  rw [regWrite_noCause hs (by simp [regWriteRefusal, reservedMask]) (by exact hi)]
  simp only [writeReg]
  rfl

end Sys2Proof.Machine
end

