-- ==== Sys2Proof/Laws/Drain.lean ====
section
/-! SUPPORT. The receive drain where no device event is scheduled: its turns, and one slot replenished. -/

namespace Sys2Proof.Machine

section
variable {s : State}

/-- One turn of the drain, by the slot's status (RD1, RD2). -/
theorem drainLoop_turn (hs : s.sched = []) {n left i done : Nat} (hf : rxdAddr s i + 16 ≤ addrSpace) :
    drainLoop n (left + 1) i done s =
      if hasBit (rxd s i).status bitDD = true then
        if hasBit (rxd s i).status bitRxEop = true then
          (do deliver i (n - (left + 1)); replenish i; drainLoop n left ((i + 1) % n) (done + 1) : M Nat) s
        else .error (.ended { s with
          halted := some .rxMultiDesc, fatalInfo := BitVec.ofNat 32 i, events := s.events ++ [.halt .rxMultiDesc] })
      else .ok (done, s) := by
  rw [drainLoop, bind_apply, rxdPoll_quiet hs (by simp only [offStatus]; omega), rxd_status]
  change (if hasBit (byteAt s (rxdAddr s i + offStatus)) bitDD = true then
    (if hasBit (byteAt s (rxdAddr s i + offStatus)) bitRxEop = true then
      (do deliver i (n - (left + 1)); replenish i; drainLoop n left ((i + 1) % n) (done + 1) : M Nat)
    else raiseFatal .rxMultiDesc i) else pure done) s = _
  cases hasBit (byteAt s (rxdAddr s i + offStatus)) bitDD <;>
    cases hasBit (byteAt s (rxdAddr s i + offStatus)) bitRxEop <;> rfl

/-- RD3 around CLASSIFY's own end. -/
theorem deliver_ok (hs : s.sched = []) {i k : Nat} {b : Addr} (hf : rxdAddr s i + 16 ≤ addrSpace)
    (hd : devOwnsRx s i = false)
    (hb : s.rxOwner.getD i 0 = b) {u : State}
    (hu : classifyOp b (rxd s i).length { setOwner b .demux s with sw := .drainRD3 i k } = .ok ((), u)) :
    deliver i k s = .ok ((), { u with sw := s.sw }) := by
  subst hb
  unfold deliver
  simp only [bind_apply, get_apply]
  rw [rxdRead_quiet hs hd (by simp only [offLength]; omega)]
  simp only [update_apply]
  rw [show BitVec.ofNat 16 (leNat (bytesAt s (rxdAddr s i + offLength) 2)) = (rxd s i).length from
    (rxd_length s i).symm, callFrom_ok hu]
  rfl

/-- RD4 where Alloc fails. -/
theorem replenish_fails (hs : s.sched = []) {i : Nat} (ha : (nextAllocAnswer s).1 = none) :
    ∃ n, replenish i s = .error (.ended { s with
      allocAns := s.allocAns.tail, draws := n
      halted := some .rxReplenishAlloc, fatalInfo := BitVec.ofNat 32 i
      events := s.events ++ [.halt .rxReplenishAlloc] }) := by
  obtain ⟨n, h⟩ := alloc_fails (who := .rxPath) hs ha
  refine ⟨n, ?_⟩
  unfold replenish
  simp only [bind_apply]
  rw [h]
  rfl

/-! ### One slot replenished -/

/-- A receive descriptor with a new address and a new status. -/
theorem rxd_addr_status {t : State} {i : Nat} {a : Addr} {v : Byte}
    (h1 : bytesAt t (rxdAddr t i) 8 = leBytes 8 a.toNat) (h2 : byteAt t (rxdAddr t i + 12) = v)
    (h3 : ∀ c, c < 16 → 8 ≤ c → c ≠ 12 → byteAt t (rxdAddr t i + c) = byteAt s (rxdAddr s i + c)) :
    rxd t i = { rxd s i with addr := a, status := v } := by
  have e : ∀ k n, 8 ≤ k → k + n ≤ 12 ∨ (13 ≤ k ∧ k + n ≤ 16) →
      ((bytesAt t (rxdAddr t i) 16).drop k).take n = ((bytesAt s (rxdAddr s i) 16).drop k).take n := by
    intro k n hk hn
    rw [bytesAt_slice _ _ _ _ _ (by omega), bytesAt_slice _ _ _ _ _ (by omega)]
    apply List.map_congr_left
    intro j hj
    have hj' : j < n := by simpa using hj
    rw [Nat.add_assoc, Nat.add_assoc]
    exact h3 (k + j) (by omega) (by omega) (by omega)
  unfold rxd rxDescOf descSize
  rw [RxDesc.mk.injEq]
  refine ⟨?_, ?_, ?_, ?_, ?_, ?_⟩
  · rw [bytesAt_take _ _ _ _ (by omega), h1]
    exact ofNat_leNat_leBytes (n := 8) rfl a
  · rw [e 8 2 (by omega) (by omega)]
  · rw [e 10 2 (by omega) (by omega)]
  · rw [bytesAt_getD _ _ _ _ (by omega), h2]
  · rw [bytesAt_getD _ _ _ _ (by omega), h3 13 (by omega) (by omega) (by omega)]
    exact (bytesAt_getD s _ 16 13 (by omega)).symm
  · rw [e 14 2 (by omega) (by omega)]

/-- RD4 and RD5 of a slot that is software's. -/
theorem replenish_ok (hs : s.sched = []) (hap : BufsApart s) (hz : SizesOk s.cfg) (hri : RingsInside s)
    {i : Nat} (hi : i < s.cfg.nRx) (hd : devOwnsRx s i = false)
    (hl : s.dev.rdlen.toNat = s.cfg.nRx * 16) {nb : Addr} (ha : (nextAllocAnswer s).1 = some nb)
    (hok : allocOk s nb = true) : ∃ t, replenish i s = .ok ((), t) ∧ Replenished s i nb t := by
  have hsz := hz.buf
  have hrx := hz.rx
  obtain ⟨u, h1, h2, h3, -⟩ := alloc_given (who := .rxPath) hs hap (by omega) ha hok
  have hus : u.sched = [] := by rw [h2.state]; exact hs
  have hoff : nb.toNat + s.cfg.bufSize ≤ s.rxRingBase.toNat ∨
      s.rxRingBase.toNat + s.cfg.nRx * descSize ≤ nb.toNat := by
    have := overlaps_false h2.ok.offRx
    omega
  obtain ⟨v, hv⟩ : ∃ v, v = { u with rxOwner := u.rxOwner.set i nb } := ⟨_, rfl⟩
  have hva : rxdAddr v i = rxdAddr s i := by rw [hv, h2.state]; rfl
  have hvs : v.sched = [] := by rw [hv]; exact hus
  have hvd : devOwnsRx v i = false := by rw [hv, h2.state]; exact hd
  have hin := hri.2
  simp only [descSize] at hin
  have hra : rxdAddr s i = s.rxRingBase.toNat + 16 * i := rfl
  have hfit : rxdAddr s i + 16 ≤ addrSpace := by omega
  obtain ⟨w, hw⟩ : ∃ w, w = { v with mem := memPutBytes v.mem (rxdAddr v i + offAddr) (leBytes 8 nb.toNat) } := ⟨_, rfl⟩
  have e1 : rxdWrite i offAddr (leBytes 8 nb.toNat) v = .ok ((), w) := by
    rw [hw]
    exact rxdWrite_quiet hvs hvd (by rw [hva]; simp only [offAddr, leBytes_length]; omega)
  have hwv : Wrote (rxdAddr v i + offAddr) (leBytes 8 nb.toNat) v w := ⟨by rw [hw], by rw [hw], by rw [hw]⟩
  have hwa : rxdAddr w i = rxdAddr s i := by rw [hw]; exact hva
  have hws : w.sched = [] := by rw [hw]; exact hvs
  have hwd : devOwnsRx w i = false := by rw [hw]; exact hvd
  obtain ⟨x, hx⟩ : ∃ x, x = { w with mem := memPutBytes w.mem (rxdAddr w i + offStatus) [0x00] } := ⟨_, rfl⟩
  obtain ⟨z, hzx⟩ : ∃ z, z = fenceState x := ⟨_, rfl⟩
  have e2 : rxdWrite i offStatus [0x00] w = .ok ((), x) := by
    rw [hx]
    exact rxdWrite_quiet hws hwd (by rw [hwa]; simp only [offStatus, List.length_singleton]; omega)
  have hxw : Wrote (rxdAddr w i + offStatus) [0x00] w x := ⟨by rw [hx], by rw [hx], by rw [hx]⟩
  have hxs : x.sched = [] := by rw [hx]; exact hws
  have hxl : x.dev.rdlen = s.dev.rdlen := by rw [hx, hw, hv, h2.state]
  have hid : (BitVec.ofNat 32 i).toNat = i := by rw [BitVec.toNat_ofNat, Nat.mod_eq_of_lt (by omega)]
  have e3 : regWrite .rdt (BitVec.ofNat 32 i) z =
      .ok ((), { z with dev := { z.dev with rdt := BitVec.ofNat 32 i } }) := by
    rw [hzx, regWrite_quiet (by exact hxs)
      (refusal_rdt (by rw [fenceState_dev, hxl, hl, hid]; simp only [descSize]; omega))]
    simp only [writeReg]
    rw [setDev_sameIrq _ (fenceState x) (by rfl) (by rfl)]
  obtain ⟨t, ht⟩ : ∃ t, t = { z with dev := { z.dev with rdt := BitVec.ofNat 32 i } } := ⟨_, rfl⟩
  have hby : ∀ c, byteAt t c = byteAt x c := by intro c; rw [ht, hzx]; rfl
  have hvu : ∀ c, byteAt v c = byteAt u c := by intro c; rw [hv]; rfl
  have hta : rxdAddr t i = rxdAddr s i := by rw [ht, hzx, hx]; exact hwa
  rw [hva] at hwv
  rw [hwa] at hxw
  simp only [offAddr, offStatus, Nat.add_zero] at hwv hxw
  have hby8 : ∀ c, (c < rxdAddr s i ∨ rxdAddr s i + 8 ≤ c) → c ≠ rxdAddr s i + 12 → byteAt t c = byteAt u c := by
    intro c c1 c2
    rw [hby, hxw.byteAt_outside (by simp only [List.length_singleton]; omega),
      hwv.byteAt_outside (by simp only [leBytes_length]; omega), hvu]
  refine ⟨t, ?_, ?_, ?_, ?_, ?_, hoff, ?_, ?_⟩
  · unfold replenish
    simp only [bind_apply]
    rw [h1]
    simp only [bind_apply, update_apply]
    rw [← hv, e1]
    simp only
    rw [e2]
    simp only [fence_quiet hxs]
    rw [← hzx, e3, ← ht]
  · refine rxd_addr_status ?_ ?_ ?_
    · rw [hta]
      have h : bytesAt w (rxdAddr s i) 8 = leBytes 8 nb.toNat := by
        have := hwv.bytesAt
        rwa [leBytes_length] at this
      rw [← h]
      apply bytesAt_congr
      intro c c1 c2
      rw [hby, hxw.byteAt_outside (by omega)]
    · rw [hta, hby]
      have h := hxw.bytesAt
      simpa [bytesAt] using h
    · intro c c1 c2 c3
      rw [hta, hby8 _ (by omega) (by omega)]
      exact h2.same _ (by simp only [descSize] at hoff; omega)
  · intro y
    have h : recordedOwner t y = recordedOwner u y := by
      unfold recordedOwner
      rw [show t.bufs = u.bufs by rw [ht, hzx, hx, hw, hv]; rfl]
    rw [h, h2.records]
  · exact h2.apart.congr (by rw [ht, hzx, hx, hw, hv]; rfl) (by rw [ht, hzx, hx, hw, hv]; rfl)
  · intro c c1 c2
    rw [hby8 _ (by omega) (by omega)]
    exact h2.same c c1
  · intro c
    have hin : inDeviceSlot x = inDeviceSlot s := inDeviceSlot_congr (by rw [hx, hw, hv, h2.state]) (by rw [hx, hw, hv, h2.state])
    have e1 : t.mem = x.mem ∧ t.fenced = memKeep (inDeviceSlot s) x.fenced x.mem := by
      rw [ht, hzx, ← hin]; exact ⟨rfl, rfl⟩
    have e2 : x.fenced = u.fenced := by rw [hx, hw, hv]
    rw [e1.1, e1.2, memGet_memKeep]
    exact ⟨fun e => by simp [e], fun e hc => by simpa [e, e2] using h2.fenced c hc⟩
  · have key : ∀ m f b d c m1 m2, u = { s with
          mem := m, fenced := f, bufs := b, draws := d, allocAns := s.allocAns.tail, copyAns := c
          events := s.events ++ [.allocated nb] } → c = s.copyAns →
        w = { v with mem := m1 } → x = { w with mem := m2 } →
        t = { s with
          mem := t.mem, fenced := t.fenced, bufs := t.bufs, draws := t.draws, allocAns := s.allocAns.tail
          rxOwner := s.rxOwner.set i nb
          dev := { s.dev with rdt := BitVec.ofNat 32 i }, events := s.events ++ [.allocated nb] } := by
      intro m f b d c m1 m2 k1 k2 k3 k4
      rw [ht, hzx, k4, k3, hv, k1, k2]
      rfl
    exact key _ _ _ _ _ _ _ h2.state h3 hw hx

end

/-! ### A frame dropped, and the drain around its loop -/

/-- CLASSIFY's drop, as an equation. -/
theorem classify_drop {s : State} (hs : s.sched = []) {b : Addr} {len : Half} (hb : Holds s .demux b)
    (h1 : ¬ (42 ≤ len.toNat ∧ frameType s b = 0x0806)) (h2 : ¬ (34 ≤ len.toNat ∧ frameType s b = 0x0800)) :
    classifyOp b len s = .ok ((), releaseState b { s with events := s.events ++ [.dropped .unrecognized] }) := by
  unfold classifyOp
  simp only [bind_apply]
  rw [hb.typeIs hs, decide_eq_false (by exact h1)]
  simp only [Bool.false_eq_true, if_false, bind_apply]
  rw [hb.typeIs hs, decide_eq_false (by exact h2)]
  simp only [Bool.false_eq_true, if_false]
  rw [drop_quiet hs hb.owner]

/-- What a delivered frame leaves that CLASSIFY drops. -/
def droppedState (b : Addr) (s : State) : State :=
  { setOwner b .allocator s with events := s.events ++ [.dropped .unrecognized, .released b] }

theorem droppedState_eq (b : Addr) (s : State) :
    releaseState b { setOwner b .demux s with events := s.events ++ [.dropped .unrecognized] } = droppedState b s := by
  simp only [droppedState, releaseState, setOwner, List.map_map, List.append_assoc, List.singleton_append]
  congr 2
  funext r
  simp only [Function.comp]
  by_cases h : r.base = b <;> simp [h]

theorem ownerOf_droppedState {s : State} {b : Addr} (h : ownerOf s b ≠ .allocator) (x : Addr) :
    ownerOf (droppedState b s) x = if x = b then .allocator else ownerOf s x :=
  ownerOf_setOwner s b x .allocator (exists_record h) (by simp)

theorem recordedOwner_droppedState {s : State} {b : Addr} (h : ownerOf s b ≠ .allocator) (x : Addr) :
    recordedOwner (droppedState b s) x = if x = b then .allocator else recordedOwner s x :=
  recordedOwner_setOwner s b x .allocator (exists_record h)

theorem byteAt_droppedState (b : Addr) (s : State) (c : Nat) : byteAt (droppedState b s) c = byteAt s c :=
  byteAt_setOwner s b .allocator c

theorem rxd_droppedState (b : Addr) (s : State) (i : Nat) : rxd (droppedState b s) i = rxd s i :=
  rxd_congr rfl fun c _ _ => byteAt_droppedState b s c

/-- RD3 of a frame CLASSIFY does not recognize. -/
theorem deliver_dropped {s : State} (hs : s.sched = []) {i k : Nat} {b : Addr} {o : Owner}
    (hf : rxdAddr s i + 16 ≤ addrSpace)
    (hd : devOwnsRx s i = false) (hb : s.rxOwner.getD i 0 = b) (hh : Holds s o b) (ho : o ≠ .allocator)
    (h1 : ¬ (42 ≤ (rxd s i).length.toNat ∧ frameType s b = 0x0806))
    (h2 : ¬ (34 ≤ (rxd s i).length.toNat ∧ frameType s b = 0x0800)) :
    deliver i k s = .ok ((), droppedState b s) := by
  have hr := exists_record (s := s) (b := b) (by rw [hh.owner]; exact ho)
  have hft : ∀ p, frameType { setOwner b .demux s with sw := p } b = frameType s b := by
    intro p
    unfold frameType
    congr 1
    exact bytesAt_congr fun c _ _ => byteAt_setOwner s b .demux c
  have hh' : Holds { setOwner b .demux s with sw := .drainRD3 i k } .demux b :=
    ⟨(ownerOf_setOwner s b b .demux hr (by simp)).trans (if_pos rfl), hh.size, hh.inside⟩
  rw [deliver_ok hs hf hd hb (classify_drop (by exact hs) hh' (by rw [hft]; exact h1) (by rw [hft]; exact h2))]
  rw [← droppedState_eq]
  rfl

/-- RD0 and RD6 around the loop. -/
theorem rxDrain_ok {s t : State} {n : Nat} (hs : s.sched = []) (hl : Lock.rx ∉ s.locks)
    (h : drainLoop s.cfg.nRx s.cfg.nRx ((s.dev.rdt.toNat + 1) % s.cfg.nRx) 0 { s with locks := .rx :: s.locks } =
      .ok (n, t)) (hlt : t.locks = .rx :: s.locks) :
    rxDrainOp s = .ok ((), { t with
      locks := s.locks, events := if 0 < n then t.events ++ [.diag (.rxProcessed n)] else t.events }) := by
  unfold rxDrainOp
  refine (withLock_ok hl (t := { t with
    events := if 0 < n then t.events ++ [.diag (.rxProcessed n)] else t.events }) ?_ hlt).trans rfl
  simp only [bind_apply]
  rw [regRead_quiet (by exact hs) (by decide) rfl]
  simp only [get_apply]
  rw [show (regValue s.cfg s.dev RegName.rdt) = s.dev.rdt from rfl, h]
  simp only [whenever_apply, decide_eq_true_eq]
  by_cases hn : 0 < n
  · simp [hn]
  · simp [hn]

theorem rxDrain_error {s : State} {e : Stop} (hs : s.sched = []) (hl : Lock.rx ∉ s.locks)
    (h : drainLoop s.cfg.nRx s.cfg.nRx ((s.dev.rdt.toNat + 1) % s.cfg.nRx) 0 { s with locks := .rx :: s.locks } =
      .error e) : rxDrainOp s = .error e := by
  unfold rxDrainOp
  refine withLock_error hl ?_
  simp only [bind_apply]
  rw [regRead_quiet (by exact hs) (by decide) rfl]
  simp only [get_apply]
  rw [show (regValue s.cfg s.dev RegName.rdt) = s.dev.rdt from rfl, h]

/-- The drain where the slot after the reserved one is not filled. -/
theorem rxDrain_empty {s : State} (hs : s.sched = []) (hl : Lock.rx ∉ s.locks) (hz : SizesOk s.cfg)
    (hri : RingsInside s) (hdd : hasBit (rxd s ((s.dev.rdt.toNat + 1) % s.cfg.nRx)).status bitDD = false) :
    rxDrainOp s = .ok ((), s) := by
  have hrx := hz.rx
  have hin := hri.2
  have hi : (s.dev.rdt.toNat + 1) % s.cfg.nRx < s.cfg.nRx := Nat.mod_lt _ (by omega)
  refine (rxDrain_ok hs hl (n := 0) (t := { s with locks := .rx :: s.locks }) ?_ rfl).trans rfl
  obtain ⟨m, hm⟩ : ∃ m, s.cfg.nRx = m + 1 := ⟨s.cfg.nRx - 1, by omega⟩
  have := drainLoop_turn (s := { s with locks := .rx :: s.locks }) hs (n := s.cfg.nRx) (left := m) (done := 0)
    (i := (s.dev.rdt.toNat + 1) % s.cfg.nRx) (by simp only [rxdAddr, descSize] at *; omega)
  rw [← hm] at this
  rw [this]
  refine if_neg ?_
  rw [show rxd { s with locks := .rx :: s.locks } _ = rxd s _ from rfl, hdd]
  decide

end Sys2Proof.Machine
end

