-- ==== Sys2Proof/Laws/InitWhole.lean ====
section
/-! SUPPORT. INIT evaluated: S1 to S3, S4 to S17, and the states both leave. -/

namespace Sys2Proof.Machine

theorem rxd_withDev (d : DevRegs) (s : State) (i : Nat) : rxd (withDev d s) i = rxd s i := rfl
theorem txd_withDev (d : DevRegs) (s : State) (i : Nat) : txd (withDev d s) i = txd s i := rfl
theorem byteAt_withDev (d : DevRegs) (s : State) (c : Nat) : byteAt (withDev d s) c = byteAt s c := rfl
theorem recordedOwner_withDev (d : DevRegs) (s : State) (b : Addr) :
    recordedOwner (withDev d s) b = recordedOwner s b := rfl

theorem checkAlign_ok {s : State} {n info : Nat} (h : n * descSize % s.cfg.ringAlign = 0) :
    checkAlign n info s = .ok ((), s) := by
  simp [checkAlign, h]

theorem checkAlign_fatal {s : State} {n info : Nat} (h : n * descSize % s.cfg.ringAlign ≠ 0) :
    checkAlign n info s = .error (.ended { s with
      halted := some .ringMisaligned, fatalInfo := BitVec.ofNat 32 info, events := s.events ++ [.halt .ringMisaligned] }) := by
  simp [checkAlign, h]

/-- The device registers S4 leaves. -/
def maskedRegs (d : DevRegs) : DevRegs := { d with ims := d.ims &&& ~~~0xFFFFFFFF }

/-- The state S6 starts from: the interrupts masked, the memory fenced (S4, S5). -/
def ringsStart (s : State) : State := fenceState (withDev (maskedRegs s.dev) s)

/-- With no slot the device's, the fence of S5 leaves nothing unseen. -/
theorem ringsStart_sees {s : State} (h : ResetDone s.dev) (c : Nat) :
    memGet (ringsStart s).mem c = memGet (ringsStart s).fenced c := by
  refine DeviceSees.fence (s := withDev (maskedRegs s.dev) s) (a := c) (n := 1) (fun x _ _ hx => ?_) c (le_refl _)
    (Nat.lt_succ_self _)
  simp only [inDeviceSlot, devOwnsTx_reset (s := withDev (maskedRegs s.dev) s) (by exact h.tx),
    devOwnsRx_reset (s := withDev (maskedRegs s.dev) s) (by exact h.rx), Bool.and_false, Bool.or_false,
    Bool.false_eq_true] at hx

theorem initTxRing_start {s : State} (hs : s.sched = []) (hi : s.dev.icr = 0) :
    regWrite .imc 0xFFFFFFFF s = .ok ((), withDev (maskedRegs s.dev) s) := by
  have h := regWrite_noCause (d := s.dev) (s := s) (n := .imc) (v := 0xFFFFFFFF) hs
    (by simp [regWriteRefusal, reservedMask]) (by exact hi)
  exact h

/-- S4 to S9. -/
theorem initTxRing_ok {s : State} {bs : List Addr} {rest : List (Option Addr)} (h : InitReady s bs rest)
    (hal : s.cfg.nTx * 16 % s.cfg.ringAlign = 0) :
    ∃ u, TxSlots s.cfg.nTx (ringsStart s) u ∧
      initTxRing s = .ok ((), withDev (txRegs s.cfg s.txRingBase (maskedRegs s.dev)) u) := by
  obtain ⟨u, hu, ht⟩ := initTxSlots (s := ringsStart s) h.sched h.dev.tx s.cfg.nTx (le_refl _) h.rings.tx
  refine ⟨u, ht, ?_⟩
  have hud : u.dev = maskedRegs s.dev := by rw [ht.state]; rfl
  have huc : u.cfg = s.cfg := by rw [ht.state]; rfl
  have hus : u.sched = [] := by rw [ht.state]; exact h.sched
  have hup : u.initPhase ≠ .done := by
    have : u.initPhase = s.initPhase := by rw [ht.state]; rfl
    rw [this, h.phase]; decide
  change forUpTo initTxSlot s.cfg.nTx (fenceState (withDev (maskedRegs s.dev) s)) = _ at hu
  unfold initTxRing
  rw [bind_apply, get_apply]
  simp only
  rw [bind_apply, initTxRing_start h.sched h.dev.icr]
  simp only
  rw [bind_apply, fence_quiet (by exact h.sched)]
  simp only
  rw [bind_apply, hu]
  simp only
  rw [bind_apply, checkAlign_ok (by rw [huc]; exact hal)]
  simp only
  have hr := initTxRegs (s := u) (d := maskedRegs s.dev) hus h.dev.icr h.dev.tx.2.2 hup
    (by rw [huc]; exact h.sizes.tx) s.txRingBase
  rw [huc] at hr
  have he : withDev (maskedRegs s.dev) u = u := by rw [← hud]; rfl
  rw [he] at hr
  exact hr

/-- S4 to S7 where the transmit ring's size is misaligned. -/
theorem initTxRing_fatal {s : State} {bs : List Addr} {rest : List (Option Addr)} (h : InitReady s bs rest)
    (hal : s.cfg.nTx * 16 % s.cfg.ringAlign ≠ 0) :
    ∃ u, TxSlots s.cfg.nTx (ringsStart s) u ∧
      initTxRing s = .error (.ended { u with
        halted := some .ringMisaligned, fatalInfo := 0, events := u.events ++ [.halt .ringMisaligned] }) := by
  obtain ⟨u, hu, ht⟩ := initTxSlots (s := ringsStart s) h.sched h.dev.tx s.cfg.nTx (le_refl _) h.rings.tx
  refine ⟨u, ht, ?_⟩
  have huc : u.cfg = s.cfg := by rw [ht.state]; rfl
  change forUpTo initTxSlot s.cfg.nTx (fenceState (withDev (maskedRegs s.dev) s)) = _ at hu
  unfold initTxRing
  rw [bind_apply, get_apply]
  simp only
  rw [bind_apply, initTxRing_start h.sched h.dev.icr]
  simp only
  rw [bind_apply, fence_quiet (by exact h.sched)]
  simp only
  rw [bind_apply, hu]
  simp only
  rw [bind_apply, checkAlign_fatal (by rw [huc]; exact hal)]
  rfl

/-- The state S10 starts from is ready for the receive ring. -/
theorem initRx_ready {s u : State} {bs : List Addr} {rest : List (Option Addr)} (h : InitReady s bs rest)
    (ht : TxSlots s.cfg.nTx (ringsStart s) u) (d : DevRegs)
    (hd : d.rdh = 0 ∧ d.rdt = 0) (n : Nat) (hn : n ≤ bs.length) :
    ∃ t, forUpTo initRxSlot n (withDev d u) = .ok ((), t) ∧ RxSlots n bs rest (withDev d u) t := by
  have huc : u.cfg = s.cfg := by rw [ht.state]; rfl
  have hub : u.bufs = s.bufs := by rw [ht.state]; rfl
  have hutb : u.txRingBase = s.txRingBase := by rw [ht.state]; rfl
  have hurb : u.rxRingBase = s.rxRingBase := by rw [ht.state]; rfl
  have hus : u.sched = [] := by rw [ht.state]; exact h.sched
  have hua : u.allocAns = bs.map some ++ rest := by rw [ht.state]; exact h.answers
  have hfb : FreshBuffers (withDev d u) u.txRingBase u.rxRingBase bs := by
    obtain ⟨f1, f2, f3, f4, f5, f6⟩ := h.fresh
    constructor
    · rw [withDev_cfg, huc]; exact f1
    · rw [withDev_cfg, huc]; exact f2
    · rw [withDev_cfg, withDev_bufs, huc, hub]; exact f3
    · rw [withDev_cfg, huc, hutb]; exact f4
    · rw [withDev_cfg, huc, hurb]; exact f5
    · exact f6
  have hbp := h.sizes.buf
  exact initRxSlots (s := withDev d u) hus (by rw [withDev_initPhase, ht.state]; exact h.phase) hd (by rw [withDev_cfg, huc]; omega) hua
    (h.apart.congr huc hub) hfb (by rw [withDev_cfg, huc]; exact h.count)
    (by rw [withDev_rxRingBase, withDev_cfg, hurb, huc]; exact h.rings.rx) n hn

/-- S10 to S12. -/
theorem initRxRing_ok {s u : State} {bs : List Addr} {rest : List (Option Addr)} (h : InitReady s bs rest)
    (ht : TxSlots s.cfg.nTx (ringsStart s) u) (d : DevRegs)
    (hd : d.rdh = 0 ∧ d.rdt = 0) (hi : d.icr = 0) (hal : s.cfg.nRx * 16 % s.cfg.ringAlign = 0)
    (hc : bs.length = s.cfg.nRx) :
    ∃ t, RxSlots s.cfg.nRx bs rest (withDev d u) t ∧
      initRxRing (withDev d u) = .ok ((), withDev (rxRegs s.cfg s.rxRingBase d) t) := by
  have huc : u.cfg = s.cfg := by rw [ht.state]; rfl
  have hup : u.initPhase = s.initPhase := by rw [ht.state]; rfl
  have hurb : u.rxRingBase = s.rxRingBase := by rw [ht.state]; rfl
  obtain ⟨t, he, hr⟩ := initRx_ready h ht d hd s.cfg.nRx (by rw [hc])
  have htd : t.dev = d := by rw [hr.state]; rfl
  refine ⟨t, hr, ?_⟩
  have htc : t.cfg = s.cfg := by rw [hr.state]; exact huc
  have hts : t.sched = [] := by
    have : u.sched = s.sched := by rw [ht.state]; rfl
    rw [hr.state]; exact this.trans h.sched
  have htp : t.initPhase ≠ .done := by
    have : t.initPhase = u.initPhase := by rw [hr.state]; rfl
    rw [this, hup, h.phase]; decide
  unfold initRxRing
  rw [bind_apply, get_apply]
  simp only [withDev_cfg, withDev_rxRingBase, huc, hurb]
  rw [bind_apply, he]
  simp only
  rw [bind_apply, checkAlign_ok (by rw [htc]; exact hal)]
  simp only
  have hregs := initRxRegs (s := t) (d := d) hts hi htp (by rw [htc]; exact h.sizes.rx) s.rxRingBase
  rw [htc] at hregs
  have hself : withDev d t = t := by rw [← htd]; rfl
  rw [hself] at hregs
  exact hregs

/-- S10 where Alloc fails after the buffers `bs`. -/
theorem initRxRing_allocFails {s u : State} {bs : List Addr} {rest : List (Option Addr)}
    (h : InitReady s bs (none :: rest)) (ht : TxSlots s.cfg.nTx (ringsStart s) u) (d : DevRegs)
    (hd : d.rdh = 0 ∧ d.rdt = 0) (hlt : bs.length < s.cfg.nRx) :
    ∃ t w, RxSlots bs.length bs (none :: rest) (withDev d u) t ∧
      initRxRing (withDev d u) = .error (.ended w) ∧ w.halted = some .rxInitAlloc ∧
      w.fatalInfo = BitVec.ofNat 32 bs.length ∧ w.events = t.events ++ [.halt .rxInitAlloc] ∧ w.dev = d ∧
      w.rxOwner = t.rxOwner ∧ (∀ i, rxd w i = rxd t i) := by
  have huc : u.cfg = s.cfg := by rw [ht.state]; rfl
  have hurb : u.rxRingBase = s.rxRingBase := by rw [ht.state]; rfl
  obtain ⟨t, he, hr⟩ := initRx_ready h ht d hd bs.length (le_refl _)
  have htd : t.dev = d := by rw [hr.state]; rfl
  have hts : t.sched = [] := by
    have : u.sched = s.sched := by rw [ht.state]; rfl
    rw [hr.state]; exact this.trans h.sched
  have hans : t.allocAns = none :: rest := by rw [hr.state]; simp
  have hslot : initRxSlot bs.length t = .error (.ended { t with
      allocAns := rest, halted := some .rxInitAlloc, fatalInfo := BitVec.ofNat 32 bs.length
      events := t.events ++ [.halt .rxInitAlloc] }) := by
    unfold initRxSlot
    rw [bind_apply, alloc_quiet_none hts (s' := { t with allocAns := rest }) (by simp [nextAllocAnswer, hans])]
    rfl
  have hall : ∀ k, forUpTo initRxSlot (bs.length + 1 + k) (withDev d u) = .error (.ended { t with
      allocAns := rest, halted := some .rxInitAlloc, fatalInfo := BitVec.ofNat 32 bs.length
      events := t.events ++ [.halt .rxInitAlloc] }) := by
    intro k
    induction k with
    | zero => rw [Nat.add_zero, forUpTo, bind_apply, he]; exact hslot
    | succ k ih => rw [← Nat.add_assoc, forUpTo, bind_apply, ih]
  obtain ⟨k, hk⟩ := Nat.exists_eq_add_of_lt hlt
  refine ⟨t, { t with
    allocAns := rest, halted := some .rxInitAlloc, fatalInfo := BitVec.ofNat 32 bs.length
    events := t.events ++ [.halt .rxInitAlloc] }, hr, ?_, rfl, rfl, rfl, htd, rfl, fun i => rfl⟩
  unfold initRxRing
  rw [bind_apply, get_apply]
  simp only [withDev_cfg, withDev_rxRingBase, huc, hurb]
  rw [bind_apply, hk, show bs.length + k + 1 = bs.length + 1 + k by omega, hall]

/-- S10 and S11 where the receive ring's size is misaligned. -/
theorem initRxRing_fatal {s u : State} {bs : List Addr} {rest : List (Option Addr)} (h : InitReady s bs rest)
    (ht : TxSlots s.cfg.nTx (ringsStart s) u) (d : DevRegs)
    (hd : d.rdh = 0 ∧ d.rdt = 0) (hal : s.cfg.nRx * 16 % s.cfg.ringAlign ≠ 0) (hc : bs.length = s.cfg.nRx) :
    ∃ t, RxSlots s.cfg.nRx bs rest (withDev d u) t ∧
      initRxRing (withDev d u) = .error (.ended { t with
        halted := some .ringMisaligned, fatalInfo := 1, events := t.events ++ [.halt .ringMisaligned] }) := by
  have huc : u.cfg = s.cfg := by rw [ht.state]; rfl
  have hurb : u.rxRingBase = s.rxRingBase := by rw [ht.state]; rfl
  obtain ⟨t, he, hr⟩ := initRx_ready h ht d hd s.cfg.nRx (by rw [hc])
  refine ⟨t, hr, ?_⟩
  have htc : t.cfg = s.cfg := by rw [hr.state]; exact huc
  unfold initRxRing
  rw [bind_apply, get_apply]
  simp only [withDev_cfg, withDev_rxRingBase, huc, hurb]
  rw [bind_apply, he]
  simp only
  rw [bind_apply, checkAlign_fatal (by rw [htc]; exact hal)]
  rfl

/-- The registers S4 to S17 leave. -/
theorem initRegisters_ok (p : Params) (tb xb : Addr) (d : DevRegs) (m : Vector Word 128) (hp : SizesOk p)
    (hd : ResetDone d) (hm : ∀ (j : Nat) (h : j < 128), m[j] = 0) :
    InitRegisters p tb xb (engineRegs p m (rxRegs p xb (txRegs p tb (maskedRegs d)))) := by
  have h1 := hp.tx
  have h2 := hp.rx
  constructor
  · refine ⟨hd.icr, ?_⟩
    simp [engineRegs, rxRegs, txRegs, maskedRegs, hd.ims, icrRxdw]
  · refine ⟨rfl, rfl, ?_, rfl, rfl⟩
    show (BitVec.ofNat 32 (p.nTx * 16)).toNat = _
    rw [BitVec.toNat_ofNat, Nat.mod_eq_of_lt h1.2]
  · refine ⟨rfl, rfl, ?_, rfl, ?_⟩
    · show (BitVec.ofNat 32 (p.nRx * 16)).toNat = _
      rw [BitVec.toNat_ofNat, Nat.mod_eq_of_lt h2.2]
    · show (BitVec.ofNat 32 (p.nRx - 1)).toNat = _
      rw [BitVec.toNat_ofNat, Nat.mod_eq_of_lt (by omega)]
  · refine ⟨?_, ?_, hm⟩
    · show (ral0Of p.localMac).toNat = _
      simp only [ral0Of, BitVec.toNat_append]
      have := p.localMac.b0.isLt
      have := p.localMac.b1.isLt
      have := p.localMac.b2.isLt
      simp only [Nat.shiftLeft_eq]
      rw [← Nat.shiftLeft_eq, ← Nat.shiftLeft_eq, ← Nat.shiftLeft_eq]
      rw [← Nat.shiftLeft_add_eq_or_of_lt (by omega), ← Nat.shiftLeft_add_eq_or_of_lt (by omega),
        ← Nat.shiftLeft_add_eq_or_of_lt (by omega)]
      simp only [Nat.shiftLeft_eq]
      omega
    · show (rah0Of p.localMac).toNat = _
      simp only [rah0Of, BitVec.toNat_append]
      have := p.localMac.b4.isLt
      have := p.localMac.b5.isLt
      rw [← Nat.shiftLeft_add_eq_or_of_lt (by omega), ← Nat.shiftLeft_add_eq_or_of_lt (by omega)]
      simp only [Nat.shiftLeft_eq]
      simp
      omega
  · exact ⟨rfl, rfl, rfl, rfl, rfl⟩
  · exact ⟨hd.done.1, hd.done.2, hd.tx.2.2⟩

/-- The receive ring from slot 0 up to the reserved last slot: its buffers are the device's but for the last
(spec/10_state.md R47). -/
theorem ownerOf_handed {t : State} {bs : List Addr} (hn : bs.length = t.cfg.nRx) (h0 : t.dev.rdh = 0)
    (h1 : t.dev.rdt.toNat = t.cfg.nRx - 1) (hd : bs.Nodup)
    (ho : ∀ (i : Nat) (h : i < bs.length), t.rxOwner[i]? = some bs[i])
    (hr : ∀ b ∈ bs, recordedOwner t b = .rxPath) (i : Nat) (hi : i < bs.length) :
    ownerOf t bs[i] = if i + 1 < t.cfg.nRx then .device else .rxPath := by
  have hdev : ∀ j < t.cfg.nRx, devOwnsRx t j = true ↔ j + 1 < t.cfg.nRx := by
    intro j hj
    rw [devOwnsRx, cyclicMem_iff hj, h0, h1, show (0 : Word).toNat = 0 from rfl,
      cyclicLen_eq (by omega) hj, cyclicLen_eq (by omega) (by omega), if_pos (by omega), if_pos (by omega)]
    omega
  have hrec := hr _ (List.getElem_mem hi)
  by_cases hl : i + 1 < t.cfg.nRx
  · rw [if_pos hl]
    exact ownerOf_device hrec ((hdev i (by omega)).2 hl) (ho i hi)
  · rw [if_neg hl]
    refine ownerOf_rxPath hrec fun j hj hdj he => ?_
    have hj1 := (hdev j hj).1 hdj
    rw [ho j (by omega)] at he
    have := (List.Nodup.getElem_inj_iff hd (hi := by omega) (hj := hi)).1 (Option.some.inj he)
    omega

/-- INIT from S4 to its end. -/
theorem initFinish_ok {s : State} {bs : List Addr} {rest : List (Option Addr)} (h : InitReady s bs rest)
    (hal : s.cfg.nTx * 16 % s.cfg.ringAlign = 0) (hal' : s.cfg.nRx * 16 % s.cfg.ringAlign = 0)
    (hc : bs.length = s.cfg.nRx) :
    ∃ t, initFinish s = .ok ((), t) ∧ AfterInit s s.registerBase s.txRingBase s.rxRingBase bs rest t := by
  obtain ⟨u, ht, e1⟩ := initTxRing_ok h hal
  obtain ⟨w, hr, e2⟩ := initRxRing_ok h ht (txRegs s.cfg s.txRingBase (maskedRegs s.dev)) h.dev.rx h.dev.icr hal' hc
  have hus : u.sched = s.sched := by rw [ht.state]; rfl
  have hws : w.sched = [] := by rw [hr.state]; exact hus.trans h.sched
  have huc : u.cfg = s.cfg := by rw [ht.state]; rfl
  have hwc : w.cfg = s.cfg := by rw [hr.state]; exact huc
  obtain ⟨m, hm, e3⟩ := initEngines_ok (s := w)
    (d := rxRegs s.cfg s.rxRingBase (txRegs s.cfg s.txRingBase (maskedRegs s.dev))) hws h.dev.icr
  rw [hwc] at e3
  have hregs := initRegisters_ok s.cfg s.txRingBase s.rxRingBase s.dev m h.sizes h.dev hm
  obtain ⟨D, hD⟩ : ∃ D, D = engineRegs s.cfg m (rxRegs s.cfg s.rxRingBase (txRegs s.cfg s.txRingBase (maskedRegs s.dev))) :=
    ⟨_, rfl⟩
  rw [← hD] at e3 hregs
  refine ⟨{ withDev D w with sw := .idle, initPhase := .done }, ?_, ?_⟩
  · unfold initFinish
    rw [bind_apply, e1]
    simp only
    rw [bind_apply, e2]
    simp only
    rw [bind_apply, e3]
    rfl
  · have hub : u.bufs = s.bufs := by rw [ht.state]; rfl
    have hwxb : w.rxRingBase = s.rxRingBase := by
      have : u.rxRingBase = s.rxRingBase := by rw [ht.state]; rfl
      rw [hr.state]; exact this
    have hwtb : w.txRingBase = s.txRingBase := by
      have : u.txRingBase = s.txRingBase := by rw [ht.state]; rfl
      rw [hr.state]; exact this
    have huxb : u.rxRingBase = s.rxRingBase := by rw [ht.state]; rfl
    have hutb : u.txRingBase = s.txRingBase := by rw [ht.state]; rfl
    have hsame : ∀ c, (c < s.rxRingBase.toNat ∨ s.rxRingBase.toNat + s.cfg.nRx * 16 ≤ c) →
        (∀ b ∈ bs, c < b.toNat ∨ b.toNat + s.cfg.bufSize ≤ c) → byteAt w c = byteAt u c := by
      intro c c1 c2
      refine hr.same c (by rw [withDev_rxRingBase, huxb]; exact c1) fun b hb => ?_
      rw [withDev_cfg, huc]
      exact c2 b (List.mem_of_mem_take hb)
    have hring := overlaps_false h.rings.apart
    have hwto : w.txOwner = u.txOwner := by rw [hr.state]; rfl
    have htake : bs.take s.cfg.nRx = bs := by rw [← hc, List.take_length]
    have hxo : ∀ (i : Nat) (h : i < bs.length), w.rxOwner[i]? = some bs[i] := by
      intro i hi
      have hu2 : u.rxOwner = s.rxOwner := by rw [ht.state]; rfl
      refine hr.owner i hi (by omega) ?_
      show i < u.rxOwner.length
      rw [hu2, h.owners.2]; omega
    have hown : ∀ x, recordedOwner w x = if x ∈ bs then .rxPath else recordedOwner s x := by
      intro x
      rw [hr.owners, htake, recordedOwner_withDev, recordedOwner, hub]
      rfl
    constructor
    · exact hregs
    · intro i hi
      constructor
      · rw [show (⟨0, 0, 0, 0, 0x01, 0, 0⟩ : TxDesc) = idleTx from rfl, ← ht.slot i hi]
        refine txd_congr (by simp only [txdAddr]; rw [hutb]; exact congrArg (fun a : Addr => a.toNat + descSize * i) hwtb) fun c c1 c2 => ?_
        have ha : txdAddr u i = s.txRingBase.toNat + 16 * i := by simp [txdAddr, descSize, hutb]
        refine hsame c ?_ fun b hb => ?_
        · omega
        · have := overlaps_false (h.fresh.offTx b hb)
          omega
      · show w.txOwner[i]? = _
        have hlen := h.owners.1
        rw [hwto, ht.owner, if_pos hi]
        have : i < (ringsStart s).txOwner.length := by
          show i < s.txOwner.length
          rw [hlen]; exact hi
        rw [List.getElem?_eq_getElem this]; rfl
    · exact fun i hi => ⟨hr.slot i hi (by omega), hxo i hi⟩
    · exact hown
    · have := ownerOf_handed (t := { withDev D w with sw := .idle, initPhase := .done })
        (hc.trans (congrArg Params.nRx hwc).symm)
        hregs.rxRing.2.2.2.1 (hregs.rxRing.2.2.2.2.trans (congrArg (fun p : Params => p.nRx - 1) hwc).symm)
        h.fresh.distinct hxo fun b hb => (hown b).trans (if_pos hb)
      rw [show ({ withDev D w with sw := .idle, initPhase := .done } : State).cfg = s.cfg from hwc] at this
      exact this
    · intro a n ho hx c h1 h2
      refine hr.sees c ?_ (ht.sees c (by show c < s.txRingBase.toNat ∨ s.txRingBase.toNat + s.cfg.nTx * 16 ≤ c; omega) ?_)
      · rw [withDev_cfg, huc, withDev_rxRingBase, huxb]
        exact fun e => by have := hx e; omega
      · exact ringsStart_sees h.dev c
    · intro e c h1 h2
      have hf : memGet w.fenced c = memGet u.fenced c := by
        refine hr.unseen (by rw [withDev_cfg, huc]; exact e) c fun b hb => ?_
        have := overlaps_false (h.fresh.offRx b (List.mem_of_mem_take hb))
        rw [withDev_cfg, huc]
        omega
      have hu : u.fenced = (ringsStart s).fenced := by rw [ht.state]
      show memGet w.fenced c = _
      rw [hf, hu, ← ringsStart_sees h.dev c]
      rfl
    · intro c c1 c2 c3
      show byteAt w c = _
      rw [hsame c c2 c3]
      exact ht.same c c1
    · have key : ∀ (m1 m2 f2 : List Host.Cell) o1 b2 o2,
          u = { ringsStart s with mem := m1, txOwner := o1 } →
          w = { withDev (txRegs s.cfg s.txRingBase (maskedRegs s.dev)) u with
            mem := m2, fenced := f2, bufs := b2, rxOwner := o2, allocAns := (bs.drop s.cfg.nRx).map some ++ rest
            draws := (withDev (txRegs s.cfg s.txRingBase (maskedRegs s.dev)) u).draws + s.cfg.nRx
            events := (withDev (txRegs s.cfg s.txRingBase (maskedRegs s.dev)) u).events ++
              (bs.take s.cfg.nRx).map Event.allocated } →
          ({ withDev D w with sw := .idle, initPhase := .done } : State) = { s with
            mem := w.mem, fenced := w.fenced, dev := D, bufs := w.bufs, txOwner := w.txOwner, rxOwner := w.rxOwner
            draws := w.draws, drawAns := w.drawAns
            registerBase := s.registerBase, txRingBase := s.txRingBase, rxRingBase := s.rxRingBase
            allocAns := rest, events := s.events ++ bs.map Event.allocated, initPhase := .done, sw := .idle
            sched := [] } := by
        intro m1 m2 f2 o1 b2 o2 e1 e2
        have hd : bs.drop s.cfg.nRx = [] := by rw [← hc, List.drop_length]
        rw [htake, hd] at e2
        rw [e2, e1, ← h.sched]
        rfl
      exact key _ _ _ _ _ _ ht.state hr.state

/-! ### S1 to S3 -/

/-- A point with no event scheduled at it. -/
theorem point_skip {s : State} {rest : List (List DevEvent)} (h : s.sched = [] :: rest) :
    point s = .ok ((), { s with sched := rest }) := by
  simp [point, h, runDevices]

/-- The device registers S1 and S2 leave; `v` is CTRL's other bits. -/
def resetStarted (v : Word) (d : DevRegs) : DevRegs :=
  { d with ims := d.ims &&& ~~~0xFFFFFFFF, ctrlOther := v, ctrlRst := true, resetPending := true }

theorem setDev_noMask {d : DevRegs} (h : d.ims = 0) (s : State) : setDev d s = withDev d s := by
  have : (s.irqHeld || (!irqLine s.dev && irqLine d)) = s.irqHeld := by simp [irqLine, h]
  simp [setDev, withDev, this]

/-- A read of CTRL answers some value and may use up a draw. -/
theorem regRead_ctrl {s u : State} (hp : point s = .ok ((), u)) :
    ∃ v l n, regRead .ctrl s = .ok (v, { u with drawAns := l, draws := n }) := by
  unfold regRead
  simp only [bind_apply, hp, get_apply]
  rw [ite_apply, if_neg (by decide), ite_apply]
  by_cases h : reservedMask u.cfg .ctrl = 0
  · rw [if_pos h]
    exact ⟨_, u.drawAns, u.draws, rfl⟩
  · rw [if_neg h]
    obtain ⟨r, l, e⟩ := draw_spec 32 u
    simp only [bind_apply, e]
    exact ⟨_, l, u.draws + 1, rfl⟩

/-- S1 and S2, whatever events the schedule holds after them. -/
theorem initStart_skip {s : State} {rest : List (List DevEvent)} (h : s.sched = [] :: [] :: [] :: rest) :
    ∃ v l n, initStart s = .ok ((), { withDev (resetStarted v s.dev) s with
      sched := rest, drawAns := l, draws := n }) := by
  have h1 : regWrite .imc 0xFFFFFFFF s = .ok ((), withDev { s.dev with ims := s.dev.ims &&& ~~~0xFFFFFFFF }
      { s with sched := [] :: [] :: rest }) := by
    unfold regWrite regStore
    simp only [bind_apply, point_skip h, get_apply]
    have : regWriteRefusal { s with sched := [] :: [] :: rest } .imc 0xFFFFFFFF = none := by
      simp [regWriteRefusal, reservedMask]
    simp only [this, update_apply]
    rw [setDev_noMask (by simp [writeReg])]
    rfl
  obtain ⟨v, l, n, h2⟩ := regRead_ctrl (s := withDev { s.dev with ims := s.dev.ims &&& ~~~0xFFFFFFFF }
    { s with sched := [] :: [] :: rest }) (point_skip (rest := [] :: rest) rfl)
  refine ⟨v, l, n, ?_⟩
  unfold initStart
  rw [bind_apply, h1]
  simp only
  rw [bind_apply, h2]
  simp only
  unfold ctrlAssertReset
  rw [bind_apply, point_skip (rest := rest) rfl]
  simp only [update_apply]
  rw [setDev_noMask (by simp [writeCtrl, withDev])]
  simp only [withDev, writeCtrl, resetStarted, Bool.or_true]

theorem initStart_quiet {s : State} (h : s.sched = []) :
    ∃ v l n, initStart s = .ok ((), { withDev (resetStarted v s.dev) s with drawAns := l, draws := n }) := by
  have h1 : regWrite .imc 0xFFFFFFFF s = .ok ((), withDev { s.dev with ims := s.dev.ims &&& ~~~0xFFFFFFFF } s) := by
    rw [regWrite_quiet h (by simp [regWriteRefusal, reservedMask]), setDev_noMask (by simp [writeReg])]
    rfl
  obtain ⟨v, l, n, h2⟩ := regRead_ctrl (s := withDev { s.dev with ims := s.dev.ims &&& ~~~0xFFFFFFFF } s)
    (point_quiet (by exact h))
  refine ⟨v, l, n, ?_⟩
  unfold initStart
  rw [bind_apply, h1]
  simp only
  rw [bind_apply, h2]
  simp only
  rw [ctrlAssertReset_quiet (by exact h), setDev_noMask (by simp [writeCtrl, withDev])]
  simp only [withDev, writeCtrl, resetStarted, Bool.or_true]

/-- The poll of S3 with no event scheduled: INIT is held. -/
theorem awaitReset_quiet {s : State} (h : s.sched = []) (hr : s.dev.ctrlRst = true) :
    awaitReset 1 s = .error (.ended { s with sw := .initHold }) := by
  simp [awaitReset, point_quiet h, hr]

/-- S3: the device completes its reset at the poll after `polls` that find it pending. -/
theorem awaitReset_polls {later : List (List DevEvent)} {polls : Nat} : ∀ {s : State} {fuel : Nat},
    s.sched = List.replicate polls [] ++ [.reset] :: later → s.dev.ctrlRst = true → s.dev.resetPending = true →
    polls < fuel → awaitReset fuel s = .ok ((), { withDev (resetDev s.draws s.dev) s with
      sched := later, draws := s.draws + resetDraws }) := by
  induction polls with
  | zero =>
    intro s fuel h _ hp hf
    obtain ⟨k, rfl⟩ : ∃ k, fuel = k + 1 := ⟨fuel - 1, by omega⟩
    have hd : devResetOp { s with sched := later } = .ok ((), { withDev (resetDev s.draws s.dev) s with
        sched := later, draws := s.draws + resetDraws }) := by
      unfold devResetOp
      simp only [bind_apply, get_apply, hp, require_of_true, update_apply]
      rw [setDev_noMask (by rfl)]
      rfl
    have hpt : point s = .ok ((), { withDev (resetDev s.draws s.dev) s with
        sched := later, draws := s.draws + resetDraws }) := by
      unfold point
      rw [h]
      simp only [List.replicate_zero, List.nil_append, runDevices, bind_apply, tryDevice, devEvent, hd, pure_apply]
    unfold awaitReset
    simp only [bind_apply, hpt, get_apply]
    rfl
  | succ polls ih =>
    intro s fuel h hr hp hf
    obtain ⟨k, rfl⟩ : ∃ k, fuel = k + 1 := ⟨fuel - 1, by omega⟩
    rw [List.replicate_succ, List.cons_append] at h
    unfold awaitReset
    rw [bind_apply, point_skip h]
    simp only [bind_apply, get_apply, hr, if_true]
    rw [ih (s := { s with sched := List.replicate polls [] ++ [.reset] :: later }) rfl hr hp (by omega)]
    rfl

theorem resetDev_done (n : Nat) (d : DevRegs) : ResetDone (resetDev n d) :=
  ⟨rfl, rfl, ⟨rfl, rfl, rfl⟩, ⟨rfl, rfl⟩, ⟨rfl, rfl⟩⟩

end Sys2Proof.Machine
end

