-- ==== Sys2Proof/Laws/PerInstr.lean ====
section
/-! SUPPORT. The per-instruction family: every operation's command word is legal by R153 and R156 and names
that operation. -/

namespace Sys2Proof.Laws.OpcodeFits

/-- Bits 31:8 of the operation's command word are 0, and bits 7:0 name the operation. -/
def Statement (i : Instr) : Prop :=
  (encodeWord i).toNat / 256 = 0 ∧ opcodeOf ((encodeWord i).toNat % 256) = some i.opcode

theorem holds (i : Instr) : Statement i := by
  unfold Statement encodeWord
  generalize i.opcode = o
  cases o <;> decide

theorem init (rb tb xb : Addr) : Statement (.init rb tb xb) := holds _
theorem txSubmit (buf : Addr) (len : Half) : Statement (.txSubmit buf len) := holds _
theorem irq : Statement .irq := holds _
theorem rxDrain : Statement .rxDrain := holds _
theorem classify (buf : Addr) (len : Half) : Statement (.classify buf len) := holds _
theorem arpRx (buf : Addr) (len : Half) : Statement (.arpRx buf len) := holds _
theorem ipRx (buf : Addr) (len : Half) : Statement (.ipRx buf len) := holds _
theorem udpPayload (buf : Addr) (len : Half) (maxLen : BitVec 64) :
    Statement (.udpPayload buf len maxLen) := holds _
theorem udpTx (sport : Half) (dstIp : Word) (dport : Half) (payload : List Byte) :
    Statement (.udpTx sport dstIp dport payload) := holds _
theorem cksum (src : CksumSrc) : Statement (.cksum src) := holds _
theorem regRead (name : RegName) : Statement (.regRead name) := holds _
theorem regWrite (name : RegName) (value : Word) : Statement (.regWrite name value) := holds _
theorem devReset : Statement .devReset := holds _
theorem devTxStep : Statement .devTxStep := holds _
theorem devRxFrame (frame : List Byte) : Statement (.devRxFrame frame) := holds _

end Sys2Proof.Laws.OpcodeFits
end

