-- ==== Sys2Proof/Laws/Rings.lean ====
section
/-! SUPPORT. What the rings keep while an operation runs: the two ring invariants with one slot left open, and the
updates that keep them. -/

namespace Sys2Proof.Machine

/-! ### The invariants with an open slot -/

/-- The transmit ring invariant; where `hole`, the slot at TDT may be half filled. -/
structure TxHalf (hole : Bool) (s : State) : Prop where
  count : txOutstanding s = cyclicLen s.cfg.nTx s.dev.tdh.toNat s.dev.tdt.toNat
  busy : ∀ i < s.cfg.nTx, cyclicMem s.cfg.nTx s.dev.tdh.toNat s.dev.tdt.toNat i = true →
    hasBit (txd s i).status bitDD = false ∧ s.txOwner[i]? = some (some (txd s i).addr) ∧ (txd s i).cmd = 0x09 ∧
      DeviceSees s (txdAddr s i) 16
  idle : ∀ i < s.cfg.nTx, cyclicMem s.cfg.nTx s.dev.tdh.toNat s.dev.tdt.toNat i = false →
    (hole = true → i ≠ s.dev.tdt.toNat) → hasBit (txd s i).status bitDD = true

/-- The receive ring invariant; where `hole`, the slot after the reserved one may be half replenished. -/
structure RxHalf (hole : Bool) (s : State) : Prop where
  free : ∀ i < s.cfg.nRx, cyclicMem s.cfg.nRx s.dev.rdh.toNat s.dev.rdt.toNat i = true →
    hasBit (rxd s i).status bitDD = false ∧ s.rxOwner[i]? = some (rxd s i).addr ∧ DeviceSees s (rxdAddr s i) 8
  filled : ∀ i < s.cfg.nRx,
    cyclicMem s.cfg.nRx ((s.dev.rdt.toNat + 1) % s.cfg.nRx) s.dev.rdh.toNat i = true →
    (hole = true → i ≠ (s.dev.rdt.toNat + 1) % s.cfg.nRx) → hasBit (rxd s i).status bitDD = true
  reserved : hasBit (rxd s s.dev.rdt.toNat).status bitDD = false ∧
    s.rxOwner[s.dev.rdt.toNat]? = some (rxd s s.dev.rdt.toNat).addr ∧ DeviceSees s (rxdAddr s s.dev.rdt.toNat) 8

/-- The guarded rings, with the transmit invariant where `a` and the receive invariant where `b`. -/
structure RingsMid (a e b e' : Bool) (s : State) : Prop where
  guard : RingsGuarded s
  tx : a = true → TxHalf e s
  rx : b = true → RxHalf e' s

theorem txRingInv_iff {s : State} (h : RingsGuarded s) : TxRingInv s ↔ TxHalf false s := by
  constructor
  · intro k
    refine ⟨k.count, fun i hi hm => ⟨(k.done i hi).1 hm, (k.owned i hi hm).1, (k.owned i hi hm).2, k.seen i hi hm⟩,
      fun i hi hm _ => ?_⟩
    by_contra hc
    have := (k.done i hi).2 (by simpa using hc)
    rw [hm] at this
    cases this
  · intro k
    refine ⟨h.txCursors.1, h.txCursors.2, k.count, fun i hi => ⟨fun hm => (k.busy i hi hm).1, fun hd => ?_⟩,
      fun i hi hm => ⟨(k.busy i hi hm).2.1, (k.busy i hi hm).2.2.1⟩, fun i hi hm => (k.busy i hi hm).2.2.2⟩
    by_contra hc
    have := k.idle i hi (by simpa using hc) (by simp)
    rw [hd] at this
    cases this

theorem rxRingInv_iff {s : State} (h : RingsGuarded s) : RxRingInv s ↔ RxHalf false s := by
  constructor
  · intro k
    exact ⟨fun i hi hm => ⟨(k.free i hi hm).1, (k.free i hi hm).2, k.seen i hi (.inl hm)⟩,
      fun i hi hm _ => k.filled i hi hm, k.reserved.1, k.reserved.2, k.seen _ k.tail (.inr rfl)⟩
  · intro k
    refine ⟨h.rxCursors.1, h.rxCursors.2, fun i hi hm => ⟨(k.free i hi hm).1, (k.free i hi hm).2.1⟩,
      fun i hi hm => k.filled i hi hm (by simp), ⟨k.reserved.1, k.reserved.2.1⟩, ?_⟩
    rintro i hi (hm | rfl)
    · exact (k.free i hi hm).2.2
    · exact k.reserved.2.2

/-! ### What a piece of an operation leaves of the rings -/

/-- What stays of both rings: their places, and, of the transmit ring, its owners, the tail and the slot at the tail,
with no more slots outstanding; of the receive ring, its owners, the tail and the slots that are not the device's. -/
structure RingFrame (a b : Bool) (s t : State) : Prop where
  cfg : t.cfg = s.cfg
  txBase : t.txRingBase = s.txRingBase
  rxBase : t.rxRingBase = s.rxRingBase
  arp : s.arpSeen = true → t.arpSeen = true
  tx : a = true → t.txOwner = s.txOwner ∧ t.dev.tdt = s.dev.tdt ∧
    cyclicLen s.cfg.nTx t.dev.tdh.toNat t.dev.tdt.toNat ≤ cyclicLen s.cfg.nTx s.dev.tdh.toNat s.dev.tdt.toNat ∧
    (∀ j < 16, byteAt t (txdAddr s s.dev.tdt.toNat + j) = byteAt s (txdAddr s s.dev.tdt.toNat + j)) ∧
    (DeviceSees s (txdAddr s s.dev.tdt.toNat) 16 → DeviceSees t (txdAddr s s.dev.tdt.toNat) 16)
  rx : b = true → t.rxOwner = s.rxOwner ∧ t.dev.rdt = s.dev.rdt ∧
    (∀ i < s.cfg.nRx, cyclicMem s.cfg.nRx t.dev.rdh.toNat t.dev.rdt.toNat i = true →
      cyclicMem s.cfg.nRx s.dev.rdh.toNat s.dev.rdt.toNat i = true) ∧
    (∀ i < s.cfg.nRx, cyclicMem s.cfg.nRx s.dev.rdh.toNat s.dev.rdt.toNat i = false →
      ∀ j < 16, byteAt t (rxdAddr s i + j) = byteAt s (rxdAddr s i + j)) ∧
    ∀ i < s.cfg.nRx, DeviceSees s (rxdAddr s i) 8 → DeviceSees t (rxdAddr s i) 8

theorem RingFrame.refl (a b : Bool) (s : State) : RingFrame a b s s :=
  ⟨rfl, rfl, rfl, id, fun _ => ⟨rfl, rfl, le_refl _, fun _ _ => rfl, id⟩,
    fun _ => ⟨rfl, rfl, fun _ _ h => h, fun _ _ _ _ _ => rfl, fun _ _ h => h⟩⟩

theorem RingFrame.trans {a b : Bool} {s t u : State} (h : RingFrame a b s t) (k : RingFrame a b t u) :
    RingFrame a b s u := by
  refine ⟨k.cfg.trans h.cfg, k.txBase.trans h.txBase, k.rxBase.trans h.rxBase, k.arp ∘ h.arp, fun ha => ?_,
    fun hb => ?_⟩
  · obtain ⟨h1, h2, h3, h4, h5⟩ := h.tx ha
    obtain ⟨k1, k2, k3, k4, k5⟩ := k.tx ha
    have hadr : txdAddr t s.dev.tdt.toNat = txdAddr s s.dev.tdt.toNat := by simp [txdAddr, h.txBase]
    rw [h2, hadr] at k4 k5
    rw [h.cfg] at k3
    exact ⟨k1.trans h1, k2.trans h2, le_trans k3 h3, fun j hj => (k4 j hj).trans (h4 j hj), k5 ∘ h5⟩
  · obtain ⟨h1, h2, h3, h4, h5⟩ := h.rx hb
    obtain ⟨k1, k2, k3, k4, k5⟩ := k.rx hb
    rw [h.cfg] at k3 k4 k5
    have hadr : ∀ i, rxdAddr t i = rxdAddr s i := fun i => by simp [rxdAddr, h.rxBase]
    refine ⟨k1.trans h1, k2.trans h2, fun i hi hm => h3 i hi (k3 i hi hm), fun i hi hm j hj => ?_,
      fun i hi hs => by have := k5 i hi (by rw [hadr]; exact h5 i hi hs); rwa [hadr] at this⟩
    have hadr := hadr i
    rw [← hadr, k4 i hi ?_ j hj, hadr, h4 i hi hm j hj]
    by_contra hc
    rw [h3 i hi (by simpa using hc)] at hm
    cases hm

/-- The frame without its transmit half. -/
theorem RingFrame.noTx {a b : Bool} {s t : State} (h : RingFrame a b s t) : RingFrame false b s t :=
  ⟨h.cfg, h.txBase, h.rxBase, h.arp, nofun, h.rx⟩

/-- What stays of both rings, the wrap state with IDLE among it. -/
structure RingKept (a b : Bool) (s t : State) : Prop extends RingFrame a b s t where
  dead : TxDead s → TxDead t

theorem RingKept.refl (a b : Bool) (s : State) : RingKept a b s s := ⟨.refl a b s, id⟩

theorem RingKept.trans {a b : Bool} {s t u : State} (h : RingKept a b s t) (k : RingKept a b t u) : RingKept a b s u :=
  ⟨h.toRingFrame.trans k.toRingFrame, k.dead ∘ h.dead⟩

theorem RingKept.noTx {a b : Bool} {s t : State} (h : RingKept a b s t) : RingKept false b s t :=
  ⟨h.toRingFrame.noTx, h.dead⟩

/-! ### Updates the rings do not notice -/

/-- The device registers the rings depend on. -/
def ringRegs (d : DevRegs) : (Word × Word × Word × Word × Nat) × (Word × Word × Word × Word × Word × Word) × Bool :=
  ((d.tdh, d.tdt, d.rdh, d.rdt, d.txCount), (d.tdbal, d.tdbah, d.tdlen, d.rdbal, d.rdbah, d.rdlen), d.resetPending)

/-- An address on one of the rings. -/
def onRing (s : State) (c : Nat) : Prop :=
  (s.txRingBase.toNat ≤ c ∧ c < s.txRingBase.toNat + s.cfg.nTx * 16) ∨
    (s.rxRingBase.toNat ≤ c ∧ c < s.rxRingBase.toNat + s.cfg.nRx * 16)

/-- The regions off both rings. -/
def offRings (s : State) (a : Nat) : Prop :=
  overlaps a s.cfg.bufSize s.txRingBase.toNat (s.cfg.nTx * 16) = false ∧
    overlaps a s.cfg.bufSize s.rxRingBase.toNat (s.cfg.nRx * 16) = false

/-- `t` is `s` as far as the rings go. -/
structure RingSame (s t : State) : Prop where
  cfg : t.cfg = s.cfg
  txBase : t.txRingBase = s.txRingBase
  rxBase : t.rxRingBase = s.rxRingBase
  txOwner : t.txOwner = s.txOwner
  rxOwner : t.rxOwner = s.rxOwner
  regs : ringRegs t.dev = ringRegs s.dev
  arp : s.arpSeen = true → t.arpSeen = true
  byte : ∀ c, onRing s c → byteAt t c = byteAt s c
  sees : ∀ c, onRing s c → memGet s.mem c = memGet s.fenced c → memGet t.mem c = memGet t.fenced c
  bufs : ∀ r ∈ t.bufs, offRings s r.base.toNat

theorem txSlot_onRing {s : State} {i c : Nat} (hi : i < s.cfg.nTx) (h1 : txdAddr s i ≤ c) (h2 : c < txdAddr s i + 16) :
    onRing s c := by
  left
  simp only [txdAddr, descSize] at h1 h2
  omega

theorem rxSlot_onRing {s : State} {i c : Nat} (hi : i < s.cfg.nRx) (h1 : rxdAddr s i ≤ c) (h2 : c < rxdAddr s i + 16) :
    onRing s c := by
  right
  simp only [rxdAddr, descSize] at h1 h2
  omega

section
variable {s t : State} (k : RingSame s t)
include k

theorem RingSame.txd {i : Nat} (hi : i < s.cfg.nTx) : txd t i = txd s i :=
  txd_congr (by simp [txdAddr, k.txBase]) fun c h1 h2 => k.byte c (txSlot_onRing hi h1 h2)

theorem RingSame.rxd {i : Nat} (hi : i < s.cfg.nRx) : rxd t i = rxd s i :=
  rxd_congr (by simp [rxdAddr, k.rxBase]) fun c h1 h2 => k.byte c (rxSlot_onRing hi h1 h2)

theorem RingSame.deviceSees {i : Nat} (hi : i < s.cfg.nTx) (h : DeviceSees s (txdAddr s i) 16) :
    DeviceSees t (txdAddr s i) 16 := fun c h1 h2 => k.sees c (txSlot_onRing hi h1 h2) (h c h1 h2)

theorem RingSame.deviceSeesRx {i : Nat} (hi : i < s.cfg.nRx) (h : DeviceSees s (rxdAddr s i) 8) :
    DeviceSees t (rxdAddr s i) 8 := fun c h1 h2 => k.sees c (rxSlot_onRing hi h1 (by omega)) (h c h1 h2)

theorem RingSame.guarded (h : RingsGuarded s) : RingsGuarded t := by
  obtain ⟨g1, g2, g3, g4, g5, g6, g7, g8, g9⟩ := h
  have e := k.regs
  simp only [ringRegs, Prod.mk.injEq] at e
  obtain ⟨⟨e1, e2, e3, e4, -⟩, ⟨e6, e7, e8, e9, e10, e11⟩, e12⟩ := e
  constructor
  · rw [k.cfg]; exact g1
  · rw [k.cfg, k.txBase, k.rxBase]; exact g2
  · exact ⟨by rw [e6, e7, k.txBase]; exact g3.base, by rw [e8, k.cfg]; exact g3.length⟩
  · exact ⟨by rw [e9, e10, k.rxBase]; exact g4.base, by rw [e11, k.cfg]; exact g4.length⟩
  · rw [e1, e2, k.cfg]; exact g5
  · rw [e3, e4, k.cfg]; exact g6
  · simp only [OwnersSized, k.txOwner, k.rxOwner, k.cfg]; exact g7
  · rw [k.cfg, k.txBase, k.rxBase]; exact k.bufs
  · rw [e12]; exact g9

theorem RingSame.mid {a e b e' : Bool} (h : RingsMid a e b e' s) : RingsMid a e b e' t ∧ RingKept a b s t := by
  have er := k.regs
  simp only [ringRegs, Prod.mk.injEq] at er
  obtain ⟨⟨e1, e2, e3, e4, e5⟩, -, -⟩ := er
  refine ⟨⟨k.guarded h.guard, fun ha => ?_, fun hb => ?_⟩, ⟨⟨k.cfg, k.txBase, k.rxBase, k.arp, fun ha => ?_, fun hb => ?_⟩,
    fun hd => ⟨by rw [k.cfg]; exact hd.mode, by rw [e1, e2]; exact hd.empty, ?_⟩⟩⟩
  · obtain ⟨h1, h2, h3⟩ := h.tx ha
    constructor
    · rw [k.cfg, e1, e2, ← h1]; simp only [txOutstanding, k.cfg, e1, e2, e5]
    · rw [k.cfg, e1, e2, k.txOwner]
      intro i hi hm
      have ea : txdAddr t i = txdAddr s i := by simp [txdAddr, k.txBase]
      rw [k.txd hi, ea]
      obtain ⟨b1, b2, b3, b4⟩ := h2 i hi hm
      exact ⟨b1, b2, b3, k.deviceSees hi b4⟩
    · rw [k.cfg, e1, e2]
      intro i hi hm hx
      rw [k.txd hi]
      exact h3 i hi hm hx
  · obtain ⟨h1, h2, h3⟩ := h.rx hb
    constructor
    · rw [k.cfg, e3, e4, k.rxOwner]
      intro i hi hm
      rw [k.rxd hi, show rxdAddr t i = rxdAddr s i by simp [rxdAddr, k.rxBase]]
      obtain ⟨b1, b2, b3⟩ := h1 i hi hm
      exact ⟨b1, b2, k.deviceSeesRx hi b3⟩
    · rw [k.cfg, e3, e4]
      intro i hi hm hx
      rw [k.rxd hi]
      exact h2 i hi hm hx
    · rw [e4, k.rxOwner, k.rxd h.guard.rxCursors.2, show ∀ i, rxdAddr t i = rxdAddr s i from
        fun i => by simp [rxdAddr, k.rxBase]]
      exact ⟨h3.1, h3.2.1, k.deviceSeesRx h.guard.rxCursors.2 h3.2.2⟩
  · rw [e1, e2]
    exact ⟨k.txOwner, rfl, le_refl _, fun j hj => k.byte _ (txSlot_onRing h.guard.txCursors.2 (by omega) (by omega)),
      k.deviceSees h.guard.txCursors.2⟩
  · rw [e3, e4]
    exact ⟨k.rxOwner, rfl, fun _ _ hm => hm,
      fun i hi _ j hj => k.byte _ (rxSlot_onRing hi (by omega) (by omega)), fun i hi => k.deviceSeesRx hi⟩
  · rw [k.cfg]
    intro i hi
    rw [k.txd hi]
    exact hd.clear i hi

end

/-- An update of fields the rings do not depend on. -/
theorem RingSame.of_eq {s t : State} (h : ∀ r ∈ s.bufs, offRings s r.base.toNat) (h1 : t.cfg = s.cfg)
    (h2 : t.txRingBase = s.txRingBase) (h3 : t.rxRingBase = s.rxRingBase) (h4 : t.txOwner = s.txOwner)
    (h5 : t.rxOwner = s.rxOwner) (h6 : ringRegs t.dev = ringRegs s.dev) (h7 : s.arpSeen = true → t.arpSeen = true)
    (h8 : t.mem = s.mem) (h9 : t.fenced = s.fenced ∨ t.fenced = memKeep (inDeviceSlot s) s.fenced s.mem)
    (h10 : t.bufs = s.bufs) : RingSame s t := by
  refine ⟨h1, h2, h3, h4, h5, h6, h7, fun c _ => byteAt_congr (by rw [h8]) (by simp [epochAt, bufAt, h10, h1]),
    fun c _ hc => ?_, by rw [h10]; exact h⟩
  rcases h9 with h9 | h9
  · rw [h8, h9]; exact hc
  · rw [h8, h9, memGet_memKeep]
    split
    · exact hc
    · rfl

/-- A write off the rings. -/
theorem RingSame.of_put {s : State} (h : ∀ r ∈ s.bufs, offRings s r.base.toNat) {a : Nat} {bs : List Byte}
    (ha : ∀ c, onRing s c → c < a ∨ a + bs.length ≤ c) : RingSame s { s with mem := memPutBytes s.mem a bs } := by
  refine ⟨rfl, rfl, rfl, rfl, rfl, rfl, id, fun c hc => byteAt_memPutBytes_outside s a bs c (ha c hc),
    fun c hc hs => ?_, h⟩
  show memGet (memPutBytes s.mem a bs) c = memGet s.fenced c
  rw [memGet_memPutBytes, if_neg (by have := ha c hc; omega), hs]

/-- A device write off the rings. -/
theorem RingSame.of_dma {s : State} (h : ∀ r ∈ s.bufs, offRings s r.base.toNat) {a : Nat} {bs : List Byte}
    (ha : ∀ c, onRing s c → c < a ∨ a + bs.length ≤ c) : RingSame s (dmaPut a bs s) := by
  refine ⟨rfl, rfl, rfl, rfl, rfl, rfl, id, fun c hc => ?_, fun c hc hs => ?_, h⟩
  · rw [byteAt_dmaPut, if_neg (by have := ha c hc; omega)]
  · rw [dmaPut_mem, dmaPut_fenced, memGet_memPutBytes, memGet_memPutBytes, hs]

/-- What lies in an owned buffer lies off the rings. -/
theorem RingsGuarded.owned_off {s : State} (h : RingsGuarded s) {who : Owner} {a n : Nat}
    (ho : ownsRange s who a n = true) : ∀ c, onRing s c → c < a ∨ a + n ≤ c := by
  rw [ownsRange, List.any_eq_true] at ho
  obtain ⟨r, hr, h2⟩ := ho
  simp only [Bool.and_eq_true, decide_eq_true_eq] at h2
  obtain ⟨o1, o2⟩ := h.bufs r hr
  have o1 := overlaps_false o1
  have o2 := overlaps_false o2
  have h3 := h2.1.2
  have h4 := h2.2
  clear h2
  rintro c (⟨c1, c2⟩ | ⟨c1, c2⟩) <;> omega

/-- A transmit slot that is software's lies in no slot of the device's. -/
theorem RingsGuarded.txSlot_mine {s : State} (h : RingsGuarded s) {i : Nat} (hi : i < s.cfg.nTx)
    (hd : devOwnsTx s i = false) {c : Nat} (h1 : txdAddr s i ≤ c) (h2 : c < txdAddr s i + 16) :
    inDeviceSlot s c = false := by
  have hr := overlaps_false h.rings.apart
  have e0 := h.tx.devAddr 0
  have e1 := h.rx.devAddr 0
  simp only [inDeviceSlot, e0, e1, Bool.or_eq_false_iff, Bool.and_eq_false_iff, decide_eq_false_iff_not, not_le]
  simp only [txdAddr, rxdAddr, descSize, Nat.mul_zero, Nat.add_zero] at *
  refine ⟨.inr ?_, ?_⟩
  · rwa [show (c - s.txRingBase.toNat) / 16 = i by omega]
  · by_cases hc : s.rxRingBase.toNat ≤ c
    · right
      simp only [devOwnsRx, cyclicMem, Bool.and_eq_false_iff, decide_eq_false_iff_not]
      exact .inl (by omega)
    · exact .inl (by omega)

/-- A receive slot that is software's lies in no slot of the device's. -/
theorem RingsGuarded.rxSlot_mine {s : State} (h : RingsGuarded s) {i : Nat} (hi : i < s.cfg.nRx)
    (hd : devOwnsRx s i = false) {c : Nat} (h1 : rxdAddr s i ≤ c) (h2 : c < rxdAddr s i + 16) :
    inDeviceSlot s c = false := by
  have hr := overlaps_false h.rings.apart
  have e0 := h.tx.devAddr 0
  have e1 := h.rx.devAddr 0
  simp only [inDeviceSlot, e0, e1, Bool.or_eq_false_iff, Bool.and_eq_false_iff, decide_eq_false_iff_not, not_le]
  simp only [txdAddr, rxdAddr, descSize, Nat.mul_zero, Nat.add_zero] at *
  refine ⟨?_, .inr ?_⟩
  · by_cases hc : s.txRingBase.toNat ≤ c
    · right
      simp only [devOwnsTx, Bool.and_eq_false_iff, decide_eq_false_iff_not]
      exact .inl (by omega)
    · exact .inl (by omega)
  · rwa [show (c - s.rxRingBase.toNat) / 16 = i by omega]

/-- A byte off every buffer reads the same after an allocation elsewhere. -/
theorem RingSame.of_alloc {s : State} (h : ∀ r ∈ s.bufs, offRings s r.base.toNat) {b : Addr} {who : Owner}
    (hb : allocOk s b = true) : RingSame s (allocState b who s) := by
  have ok := (allocOk_iff s b).1 hb
  have hoff : offRings s b.toNat := ⟨ok.offTx, ok.offRx⟩
  have hout : ∀ c, onRing s c → ∀ x, offRings s x → ¬ (x ≤ c ∧ c < x + s.cfg.bufSize) := by
    rintro c hc x ⟨x1, x2⟩ ⟨y1, y2⟩
    have x1 := overlaps_false x1
    have x2 := overlaps_false x2
    rcases hc with ⟨c1, c2⟩ | ⟨c1, c2⟩ <;> omega
  have hbuf : ∀ (u : State), u.cfg = s.cfg → (∀ r ∈ u.bufs, offRings s r.base.toNat) → ∀ c, onRing s c →
      epochAt u c = 0 := by
    intro u hc hu c ho
    have : bufAt u c = none := by
      unfold bufAt
      rw [List.find?_eq_none]
      intro r hr
      have := hout c ho _ (hu r hr)
      rw [hc]
      simpa using this
    simp [epochAt, this]
  have hnew : ∀ r ∈ (allocState b who s).bufs, offRings s r.base.toNat := by
    intro r hr
    rw [allocState_bufs, List.mem_append] at hr
    rcases hr with hr | hr
    · exact h r (List.mem_filter.1 hr).1
    · simp only [List.mem_singleton] at hr
      subst hr
      exact hoff
  refine ⟨rfl, rfl, rfl, rfl, rfl, rfl, id, fun c hc => byteAt_congr ?_ ?_, fun c hc hs => ?_, hnew⟩
  · rw [allocState_mem, memGet_memClear, if_neg (hout c hc _ hoff)]
  · rw [hbuf s rfl h c hc, hbuf (allocState b who s) rfl hnew c hc]
  · rw [allocState_mem, allocState_fenced, memGet_memClear, memGet_memClear, if_neg (hout c hc _ hoff),
      if_neg (hout c hc _ hoff), hs]

/-- A change of owner. -/
theorem RingSame.of_owner {s : State} (h : ∀ r ∈ s.bufs, offRings s r.base.toNat) (b : Addr) (o : Owner) :
    RingSame s (setOwner b o s) := by
  refine ⟨rfl, rfl, rfl, rfl, rfl, rfl, id, fun c _ => byteAt_setOwner s b o c, fun c _ hs => hs, ?_⟩
  intro r hr
  rw [setOwner_bufs] at hr
  obtain ⟨q, hq, rfl⟩ := List.mem_map.1 hr
  have : (if q.base = b then { q with owner := o } else q).base = q.base := by split <;> rfl
  rw [this]
  exact h q hq

/-! ### The device's events -/

/-- The receive engine writes a descriptor back and moves on. -/
theorem RingsMid.rxWriteBack {a e b e' : Bool} {s : State} (h : RingsMid a e b e' s) (hne : s.dev.rdh ≠ s.dev.rdt)
    {d : RxDesc} (hd : hasBit d.status bitDD = true) (left : Nat) (l : List (BitVec 64)) (n : Nat) :
    RingsMid a e b e' (setDev (advanceRdh s.cfg left s.dev) { s with
      mem := writeBackMem s.mem (rxdAddr s s.dev.rdh.toNat) d
      fenced := writeBackMem s.fenced (rxdAddr s s.dev.rdh.toNat) d, drawAns := l, draws := n }) ∧
    RingKept a b s (setDev (advanceRdh s.cfg left s.dev) { s with
      mem := writeBackMem s.mem (rxdAddr s s.dev.rdh.toNat) d
      fenced := writeBackMem s.fenced (rxdAddr s s.dev.rdh.toNat) d, drawAns := l, draws := n }) := by
  obtain ⟨t, ht⟩ : ∃ t, t = setDev (advanceRdh s.cfg left s.dev) { s with
      mem := writeBackMem s.mem (rxdAddr s s.dev.rdh.toNat) d
      fenced := writeBackMem s.fenced (rxdAddr s s.dev.rdh.toNat) d, drawAns := l, draws := n } := ⟨_, rfl⟩
  rw [← ht]
  have g := h.guard
  obtain ⟨hh, hr⟩ := g.rxCursors
  have hneN : s.dev.rdh.toNat ≠ s.dev.rdt.toNat := fun e => hne (BitVec.eq_of_toNat_eq e)
  have c1 : t.cfg = s.cfg := by rw [ht]; rfl
  have c2 : t.txRingBase = s.txRingBase := by rw [ht]; rfl
  have c3 : t.rxRingBase = s.rxRingBase := by rw [ht]; rfl
  have c4 : t.txOwner = s.txOwner := by rw [ht]; rfl
  have c5 : t.rxOwner = s.rxOwner := by rw [ht]; rfl
  have c6 : t.bufs = s.bufs := by rw [ht]; rfl
  have c7 : t.dev = advanceRdh s.cfg left s.dev := by rw [ht]; rfl
  have c8 : t.mem = writeBackMem s.mem (rxdAddr s s.dev.rdh.toNat) d := by rw [ht]; rfl
  have c9 : t.fenced = writeBackMem s.fenced (rxdAddr s s.dev.rdh.toNat) d := by rw [ht]; rfl
  have c10 : t.arpSeen = s.arpSeen := by rw [ht]; rfl
  clear ht
  have r1 : t.dev.rdh.toNat = (s.dev.rdh.toNat + 1) % s.cfg.nRx := by
    have := g.sizes.rx
    have hlt := succ_mod_lt hh
    rw [c7, show (advanceRdh s.cfg left s.dev).rdh = BitVec.ofNat 32 ((s.dev.rdh.toNat + 1) % s.cfg.nRx) from rfl,
      BitVec.toNat_ofNat, Nat.mod_eq_of_lt (by omega)]
  have r2 : t.dev.rdt = s.dev.rdt := by rw [c7]; rfl
  have r3 : t.dev.tdh = s.dev.tdh ∧ t.dev.tdt = s.dev.tdt ∧ t.dev.txCount = s.dev.txCount := by
    rw [c7]; exact ⟨rfl, rfl, rfl⟩
  have hep : ∀ c, epochAt t c = epochAt s c := by intro c; simp [epochAt, bufAt, c1, c6]
  have hby : ∀ c, (c < rxdAddr s s.dev.rdh.toNat + 8 ∨ rxdAddr s s.dev.rdh.toNat + 16 ≤ c) → byteAt t c = byteAt s c := by
    intro c hc
    exact byteAt_congr (by rw [c8, memGet_writeBackMem, if_neg (by omega)]) (hep c)
  have hxa : ∀ i, rxdAddr t i = rxdAddr s i := by intro i; simp [rxdAddr, c3]
  have hrx : ∀ i, i ≠ s.dev.rdh.toNat → rxd t i = rxd s i := by
    intro i hi
    refine rxd_congr (hxa i) fun c h1 h2 => hby c ?_
    simp only [rxdAddr, descSize] at *
    omega
  have hdd : hasBit (rxd t s.dev.rdh.toNat).status bitDD = true := by
    rw [rxd_status, hxa, ← hd]
    congr 1
    refine byteAt_of_memGet ?_
    rw [c8, memGet_writeBackMem, if_pos (by simp only [offStatus]; omega)]
    simp [offStatus, rxDescBytes, leBytes]
  have hring := overlaps_false g.rings.apart
  have htx : ∀ i < s.cfg.nTx, txd t i = txd s i := by
    intro i hi
    refine txd_congr (by simp [txdAddr, c2]) fun c h1 h2 => hby c ?_
    simp only [rxdAddr, txdAddr, descSize] at *
    omega
  have hta : ∀ i, txdAddr t i = txdAddr s i := by intro i; simp [txdAddr, c2]
  have hsee : ∀ a n, DeviceSees s a n → DeviceSees t a n := by
    intro a n hs c h1 h2
    rw [c8, c9, memGet_writeBackMem, memGet_writeBackMem, hs c h1 h2]
  refine ⟨⟨⟨?_, ?_, ?_, ?_, ?_, ?_, ?_, ?_, ?_⟩, fun ha => ?_, fun hb => ?_⟩,
    ⟨c1, c2, c3, fun x => c10.trans x, fun ha => ?_, fun hb => ?_⟩,
    fun hd => ⟨by rw [c1]; exact hd.mode, by rw [r3.1, r3.2.1]; exact hd.empty, fun i hi => ?_⟩⟩
  · rw [c1]; exact g.sizes
  · rw [c1, c2, c3]; exact g.rings
  · exact ⟨by rw [c7, c2]; exact g.tx.base, by rw [c7, c1]; exact g.tx.length⟩
  · exact ⟨by rw [c7, c3]; exact g.rx.base, by rw [c7, c1]; exact g.rx.length⟩
  · rw [r3.1, r3.2.1, c1]; exact g.txCursors
  · rw [r1, r2, c1]; exact ⟨succ_mod_lt hh, hr⟩
  · simp only [OwnersSized, c4, c5, c1]; exact g.owners
  · rw [c6, c1, c2, c3]; exact g.bufs
  · rw [c7]; exact g.noReset
  · obtain ⟨k1, k2, k3⟩ := h.tx ha
    constructor
    · rw [c1, r3.1, r3.2.1, ← k1]; simp only [txOutstanding, c1, r3.1, r3.2.1, r3.2.2]
    · rw [c1, r3.1, r3.2.1, c4]
      intro i hi hm
      rw [htx i hi, hta]
      obtain ⟨b1, b2, b3, b4⟩ := k2 i hi hm
      exact ⟨b1, b2, b3, hsee _ _ b4⟩
    · rw [c1, r3.1, r3.2.1]
      intro i hi hm hx
      rw [htx i hi]
      exact k3 i hi hm hx
  · obtain ⟨k1, k2, k3⟩ := h.rx hb
    constructor
    · rw [c1, r1, r2, c5]
      intro i hi hm
      obtain ⟨m1, m2⟩ := (cyclicMem_succ_head hh hr hi hneN).1 hm
      rw [hrx i m2, hxa]
      obtain ⟨b1, b2, b3⟩ := k1 i hi m1
      exact ⟨b1, b2, hsee _ _ b3⟩
    · rw [c1, r1, r2]
      intro i hi hm hx
      by_cases hie : i = s.dev.rdh.toNat
      · rw [hie]; exact hdd
      · rw [hrx i hie]
        refine k2 i hi ?_ hx
        have hcur : (s.dev.rdh.toNat + 1) % s.cfg.nRx ≠ (s.dev.rdt.toNat + 1) % s.cfg.nRx := by
          intro hc
          rw [succ_mod hh, succ_mod hr] at hc
          split at hc <;> split at hc <;> omega
        rcases (cyclicMem_succ_tail (succ_mod_lt hr) hh hi hcur).1 hm with hm | hm
        · exact hm
        · exact absurd hm hie
    · rw [r2, c5, hrx _ (Ne.symm hneN), hxa]
      exact ⟨k3.1, k3.2.1, hsee _ _ k3.2.2⟩
  · rw [r3.1, r3.2.1]
    refine ⟨c4, rfl, le_refl _, fun j hj => hby _ ?_, hsee _ _⟩
    have := g.txCursors.2
    simp only [rxdAddr, txdAddr, descSize] at *
    omega
  · rw [r1, r2]
    refine ⟨c5, rfl, fun i hi hm => ((cyclicMem_succ_head hh hr hi hneN).1 hm).1, fun i hi hm j hj => hby _ ?_,
      fun i _ => hsee _ _⟩
    have hc : i ≠ s.dev.rdh.toNat := by
      intro hc
      rw [hc, cyclicMem_head hh hr hneN] at hm
      cases hm
    simp only [rxdAddr, descSize] at *
    omega
  · rw [c1] at hi
    rw [htx i hi]
    exact hd.clear i hi

/-- The state after DEV_TX_STEP of the descriptor `d` at TDH, as it read it. -/
def txStepped (d : TxDesc) (frame : List Byte) (l : List (BitVec 64)) (n : Nat) (s : State) : State :=
  { (if hasBit d.cmd bitRs then dmaPut (txdAddr s s.dev.tdh.toNat + offStatus) [d.status ||| bitDD] s else s) with
    dev := advanceTdh s.cfg s.dev, events := s.events ++ [.wireTx frame], drawAns := l, draws := n }

/-- What DEV_TX_STEP makes of a state whose ring registers name the ring: the descriptor it acts on is the one at TDH,
where the device sees it. -/
theorem devTxStepOp_stepped {s t : State} (hreg : TxRingSet s) (h : devTxStepOp s = .ok ((), t)) :
    txStepEnabled s = true ∧ ∃ d frame l n, t = txStepped d frame l n s ∧
      (DeviceSees s (txdAddr s s.dev.tdh.toNat) 16 → d = txd s s.dev.tdh.toNat) := by
  unfold devTxStepOp at h
  simp only [bind_apply, get_apply, require_apply] at h
  by_cases he : txStepEnabled s = true
  swap
  · simp [he] at h
  refine ⟨he, ?_⟩
  simp only [he, if_true, hreg.devAddr, takeDescriptor_apply, descRead_apply] at h
  by_cases hmay : touchesSoftware s (txdAddr s s.dev.tdh.toNat) descSize = true
  · rw [if_pos hmay] at h; cases h
  rw [if_neg hmay] at h
  by_cases hfit : txdAddr s s.dev.tdh.toNat + descSize ≤ addrSpace
  swap
  · simp only [if_neg hfit] at h; cases h
  simp only [if_pos hfit] at h
  obtain ⟨bs, hbs⟩ : ∃ bs, bs = bytesAt (atFence s) (txdAddr s s.dev.tdh.toNat) descSize := ⟨_, rfl⟩
  have hsee : DeviceSees s (txdAddr s s.dev.tdh.toNat) 16 → txDescOf bs = txd s s.dev.tdh.toNat := by
    intro hs
    rw [hbs, DeviceSees.bytesAt (n := descSize) hs]
    rfl
  rw [← hbs] at h
  obtain ⟨d, hd⟩ : ∃ d, d = txDescOf bs := ⟨_, rfl⟩
  rw [← hd] at h hsee
  split at h
  swap
  · cases h
  next hq =>
  split at hq
  swap
  · cases hq
  cases hq
  rw [ite_apply] at h
  split at h
  swap
  · cases h
  simp only [bind_apply] at h
  rcases dmaRead_cases d.addr.toNat d.length.toNat s with
    ⟨-, frame, l', k', -, -, e'⟩ | ⟨f, e'⟩
  swap
  · rw [e'] at h; cases h
  rw [e'] at h
  simp only [emit_apply, whenever_apply, dmaWrite_apply, update_apply] at h
  refine ⟨d, frame, l', k', ?_, hsee⟩
  have hirq : ∀ u : State, u.dev = s.dev →
      setDev (advanceTdh s.cfg s.dev) u = { u with dev := advanceTdh s.cfg s.dev } := by
    intro u e1
    rw [setDev_sameIrq _ _ (by rw [e1]; rfl) (by rw [e1]; rfl)]
  unfold txStepped
  by_cases hrs : hasBit d.cmd bitRs = true
  · simp only [hrs, if_true] at h ⊢
    split at h
    · next hx =>
      split at hx
      · cases hx
        cases h
        rw [dmaPut_cfg, dmaPut_dev, hirq _ (by rfl)]
        rfl
      · cases hx
    · cases h
  · simp only [hrs, if_false, Bool.false_eq_true] at h ⊢
    cases h
    exact hirq _ (by rfl)

/-- In the wrap state with IDLE the device has no work (spec/41_transmit.md R256). -/
theorem TxDead.noWork {s : State} (h : TxDead s) : txStepEnabled s ≠ true := by
  simp [txStepEnabled, txWork, h.mode, h.empty]

/-- DEV_TX_STEP keeps what the rings keep. -/
theorem RingsMid.txStep {a e b e' : Bool} {s t : State} (h : RingsMid a e b e' s) (ht : devTxStepOp s = .ok ((), t)) :
    RingsMid a e b e' t ∧ RingKept a b s t := by
  have g := h.guard
  obtain ⟨he, d, frame, l, n, ht, hdes⟩ := devTxStepOp_stepped g.tx ht
  obtain ⟨hh, hr⟩ := g.txCursors
  obtain ⟨w, hw⟩ : ∃ w, w = txStepped d frame l n s := ⟨_, rfl⟩
  rw [← hw] at ht
  have hc : t.cfg = s.cfg ∧ t.txRingBase = s.txRingBase ∧ t.rxRingBase = s.rxRingBase ∧ t.txOwner = s.txOwner ∧
      t.rxOwner = s.rxOwner ∧ t.bufs = s.bufs ∧ t.arpSeen = s.arpSeen ∧ t.dev = advanceTdh s.cfg s.dev := by
    rw [ht, hw]
    unfold txStepped
    split <;> exact ⟨rfl, rfl, rfl, rfl, rfl, rfl, rfl, rfl⟩
  obtain ⟨c1, c2, c3, c4, c5, c6, c7, c8⟩ := hc
  have hby : ∀ c, c ≠ txdAddr s s.dev.tdh.toNat + 12 → byteAt t c = byteAt s c := by
    intro c hc
    have hb : byteAt t c = byteAt (if hasBit d.cmd bitRs then
        dmaPut (txdAddr s s.dev.tdh.toNat + offStatus) [d.status ||| bitDD] s else s) c := by rw [ht, hw]; rfl
    rw [hb]
    split
    · rw [byteAt_dmaPut, if_neg (by simp [offStatus]; omega)]
    · rfl
  have hst : hasBit d.cmd bitRs = true → byteAt t (txdAddr s s.dev.tdh.toNat + 12) = d.status ||| bitDD := by
    intro hrs
    have hb : ∀ c, byteAt t c = byteAt (if hasBit d.cmd bitRs then
        dmaPut (txdAddr s s.dev.tdh.toNat + offStatus) [d.status ||| bitDD] s else s) c := by
      intro c; rw [ht, hw]; rfl
    rw [hb, if_pos hrs, byteAt_dmaPut, if_pos (by simp [offStatus])]
    simp [offStatus]
  have hsee : ∀ a n, DeviceSees s a n → DeviceSees t a n := by
    intro a n hs
    rw [ht, hw]
    refine DeviceSees.congr (s := if hasBit d.cmd bitRs then
        dmaPut (txdAddr s s.dev.tdh.toNat + offStatus) [d.status ||| bitDD] s else s) ?_ rfl rfl
    split
    · exact hs.dmaPut _ _
    · exact hs
  clear hw ht
  have r1 : t.dev.tdh.toNat = (s.dev.tdh.toNat + 1) % s.cfg.nTx := by
    have := g.sizes.tx
    have hlt := succ_mod_lt hh
    rw [c8, show (advanceTdh s.cfg s.dev).tdh = BitVec.ofNat 32 ((s.dev.tdh.toNat + 1) % s.cfg.nTx) from rfl,
      BitVec.toNat_ofNat, Nat.mod_eq_of_lt (by omega)]
  have r2 : t.dev.tdt = s.dev.tdt ∧ t.dev.rdh = s.dev.rdh ∧ t.dev.rdt = s.dev.rdt := by
    rw [c8]; exact ⟨rfl, rfl, rfl⟩
  have hta : ∀ i, txdAddr t i = txdAddr s i := by intro i; simp [txdAddr, c2]
  have htx : ∀ i, i ≠ s.dev.tdh.toNat → txd t i = txd s i := by
    intro i hi
    refine txd_congr (hta i) fun c h1 h2 => hby c ?_
    simp only [txdAddr, descSize] at *
    omega
  have hring := overlaps_false g.rings.apart
  have hxa : ∀ i, rxdAddr t i = rxdAddr s i := by intro i; simp [rxdAddr, c3]
  have hrx : ∀ i < s.cfg.nRx, rxd t i = rxd s i := by
    intro i hi
    refine rxd_congr (by simp [rxdAddr, c3]) fun c h1 h2 => hby c ?_
    simp only [rxdAddr, txdAddr, descSize] at *
    omega
  have hne : a = true → s.dev.tdh.toNat ≠ s.dev.tdt.toNat := by
    intro ha hq
    have hcount := (h.tx ha).count
    have hwork : txWork s = true := by
      simp only [txStepEnabled, Bool.and_eq_true] at he
      exact he.2
    unfold txWork at hwork
    unfold txOutstanding at hcount
    rw [hq, cyclicLen_self hr] at hcount
    cases hm : s.cfg.wrapMode <;> simp only [hm] at hwork hcount
    · rw [bne_iff_ne] at hwork
      exact hwork (BitVec.eq_of_toNat_eq hq)
    · rw [hcount] at hwork
      cases hwork
  refine ⟨⟨⟨?_, ?_, ?_, ?_, ?_, ?_, ?_, ?_, ?_⟩, fun ha => ?_, fun hb => ?_⟩,
    ⟨c1, c2, c3, fun x => c7.trans x, fun ha => ?_, fun hb => ?_⟩, fun hd => absurd he (hd.noWork)⟩
  · rw [c1]; exact g.sizes
  · rw [c1, c2, c3]; exact g.rings
  · exact ⟨by rw [c8, c2]; exact g.tx.base, by rw [c8, c1]; exact g.tx.length⟩
  · exact ⟨by rw [c8, c3]; exact g.rx.base, by rw [c8, c1]; exact g.rx.length⟩
  · rw [r1, r2.1, c1]; exact ⟨succ_mod_lt hh, hr⟩
  · rw [r2.2.1, r2.2.2, c1]; exact g.rxCursors
  · simp only [OwnersSized, c4, c5, c1]; exact g.owners
  · rw [c6, c1, c2, c3]; exact g.bufs
  · rw [c8]; exact g.noReset
  · obtain ⟨k1, k2, k3⟩ := h.tx ha
    have hneN := hne ha
    obtain ⟨b1, b2, b3, b4⟩ := k2 _ hh (cyclicMem_head hh hr hneN)
    have hdt := hdes b4
    have hdd : hasBit (txd t s.dev.tdh.toNat).status bitDD = true := by
      rw [txd_status, hta]
      have := hst (by rw [hdt, b3]; decide)
      rw [show txdAddr s s.dev.tdh.toNat + offStatus = txdAddr s s.dev.tdh.toNat + 12 from rfl, this]
      generalize d.status = v
      revert v
      decide
    constructor
    · rw [c1, r1, r2.1, cyclicLen_succ_head hh hr hneN, ← k1]
      simp only [txOutstanding, c1, r1, r2.1]
      cases hm : s.cfg.wrapMode
      · simp only [cyclicLen_succ_head hh hr hneN]
      · simp only [c8, advanceTdh, hm]
    · rw [c1, r1, r2.1, c4]
      intro i hi hm
      obtain ⟨m1, m2⟩ := (cyclicMem_succ_head hh hr hi hneN).1 hm
      rw [htx i m2, hta]
      obtain ⟨b1, b2, b3, b4⟩ := k2 i hi m1
      exact ⟨b1, b2, b3, hsee _ _ b4⟩
    · rw [c1, r1, r2.1]
      intro i hi hm hx
      by_cases hie : i = s.dev.tdh.toNat
      · rw [hie]; exact hdd
      · rw [htx i hie]
        refine k3 i hi ?_ hx
        by_contra hc
        rw [(cyclicMem_succ_head hh hr hi hneN).2 ⟨by simpa using hc, hie⟩] at hm
        cases hm
  · obtain ⟨k1, k2, k3⟩ := h.rx hb
    constructor
    · rw [c1, r2.2.1, r2.2.2, c5]
      intro i hi hm
      rw [hrx i hi, hxa]
      obtain ⟨b1, b2, b3⟩ := k1 i hi hm
      exact ⟨b1, b2, hsee _ _ b3⟩
    · rw [c1, r2.2.1, r2.2.2]
      intro i hi hm hx
      rw [hrx i hi]
      exact k2 i hi hm hx
    · rw [r2.2.2, c5, hrx _ g.rxCursors.2, hxa]; exact ⟨k3.1, k3.2.1, hsee _ _ k3.2.2⟩
  · rw [r1, r2.1]
    refine ⟨c4, rfl, by rw [cyclicLen_succ_head hh hr (hne ha)]; omega, fun j hj => hby _ ?_, hsee _ _⟩
    have := hne ha
    simp only [txdAddr, descSize] at *
    omega
  · rw [r2.2.1, r2.2.2]
    refine ⟨c5, rfl, fun _ _ hm => hm, fun i hi _ j hj => hby _ ?_, fun i _ => hsee _ _⟩
    simp only [rxdAddr, txdAddr, descSize] at *
    omega

/-! ### Pieces of an operation -/

/-- A piece of an operation keeps the rings, their open slots and what a frame names, where it goes on. -/
def KeepsRings {α : Type} (m : M α) : Prop := ∀ (a e b e' : Bool) (s : State) (x : α) (t : State),
  RingsMid a e b e' s → m s = .ok (x, t) → RingsMid a e b e' t ∧ RingKept a b s t

namespace KeepsRings

variable {α β : Type}

theorem pure (a : α) : KeepsRings (Pure.pure a : M α) := by
  intro _ _ _ _ s x t h e
  cases e
  exact ⟨h, .refl _ _ _⟩

theorem get : KeepsRings (MonadState.get : M State) := by
  intro _ _ _ _ s x t h e
  cases e
  exact ⟨h, .refl _ _ _⟩

theorem refuse (r : Refusal) : KeepsRings (Machine.refuse r : M α) := by
  intro _ _ _ _ s x t h e
  cases e

theorem fatal (c : FatalCause) (i : Nat) : KeepsRings (raiseFatal c i : M α) := by
  intro _ _ _ _ s x t h e
  cases e

theorem modelFault (f : ModelFault) : KeepsRings (raiseModelFault f : M α) := by
  intro _ _ _ _ s x t h e
  cases e

theorem bind {m : M α} {f : α → M β} (hm : KeepsRings m) (hf : ∀ x, KeepsRings (f x)) : KeepsRings (m >>= f) := by
  intro a e b e' s x t h k
  rw [bind_apply] at k
  split at k
  · next y u hu =>
    obtain ⟨h1, h2⟩ := hm a e b e' s y u h hu
    obtain ⟨k1, k2⟩ := hf y a e b e' u x t h1 k
    exact ⟨k1, h2.trans k2⟩
  · cases k

theorem ite {c : Prop} [Decidable c] {x y : M α} (hx : KeepsRings x) (hy : KeepsRings y) :
    KeepsRings (if c then x else y) := by split <;> assumption

theorem require (c : Bool) (r : Refusal) : KeepsRings (Machine.require c r) := by
  unfold Machine.require
  exact ite (pure _) (refuse r)

theorem whenever (c : Bool) {m : M Unit} (h : KeepsRings m) : KeepsRings (Machine.whenever c m) := by
  unfold Machine.whenever
  exact ite h (pure _)

theorem guardFault (f : Option ModelFault) {m : M α} (h : KeepsRings m) : KeepsRings (Machine.guardFault f m) := by
  cases f with
  | none => exact h
  | some f => exact .modelFault f

/-- An update the rings do not notice. -/
theorem update {f : State → State} (h : ∀ s, (∀ r ∈ s.bufs, offRings s r.base.toNat) → RingSame s (f s)) :
    KeepsRings (Machine.update f) := by
  intro _ _ _ _ s x t hs e
  cases e
  exact (h s hs.guard.bufs).mid hs

theorem emit (e : Event) : KeepsRings (Machine.emit e) :=
  update fun _ h => .of_eq h rfl rfl rfl rfl rfl rfl id rfl (.inl rfl) rfl

theorem answer (r : OpResult) : KeepsRings (Machine.answer r) :=
  update fun _ h => .of_eq h rfl rfl rfl rfl rfl rfl id rfl (.inl rfl) rfl

theorem draw (w : Nat) : KeepsRings (Machine.draw w) := by
  intro _ _ _ _ s x t hs e
  obtain ⟨v, l, h⟩ := draw_spec w s
  rw [h] at e
  cases e
  exact (RingSame.of_eq (t := { s with drawAns := l, draws := s.draws + 1 }) hs.guard.bufs rfl rfl rfl rfl rfl rfl id rfl
    (.inl rfl) rfl).mid hs

theorem memRead (a n : Nat) : KeepsRings (Machine.memRead a n) := by
  intro _ _ _ _ s x t hs e
  rw [memRead_apply] at e
  split at e
  · cases e; exact ⟨hs, .refl _ _ _⟩
  · cases e

end KeepsRings

/-- DEV_RX_FRAME's loop keeps the rings. -/
theorem keepsRings_rxLoop (fuel : Nat) : ∀ rest, KeepsRings (rxLoop fuel rest) := by
  induction fuel with
  | zero =>
    intro rest
    exact .update fun _ h => .of_eq h rfl rfl rfl rfl rfl rfl id rfl (.inl rfl) rfl
  | succ fuel ih =>
    intro rest a e b e' s x t hs k
    unfold rxLoop at k
    simp only [bind_apply, get_apply] at k
    rw [ite_apply] at k
    split at k
    · refine (?_ : KeepsRings _) a e b e' s x t hs k
      exact .bind (.update fun _ h => .of_eq h rfl rfl rfl rfl rfl rfl id rfl (.inl rfl) rfl) fun _ => .emit _
    · next hne =>
      simp only [bind_apply] at k
      have g := hs.guard
      have hra : devRxdAddr s.dev s.dev.rdh.toNat = rxdAddr s s.dev.rdh.toNat := g.rx.devAddr _
      simp only [hra, takeDescriptor_apply, descRead_apply] at k
      by_cases hmay : touchesSoftware s (rxdAddr s s.dev.rdh.toNat) descSize = true
      · rw [if_pos hmay] at k; cases k
      rw [if_neg hmay] at k
      by_cases hfit : rxdAddr s s.dev.rdh.toNat + offAddr + 8 ≤ addrSpace
      swap
      · simp only [if_neg hfit] at k; cases k
      simp only [if_pos hfit, ite_apply] at k
      obtain ⟨bs, hbs⟩ : ∃ bs, bs = bytesAt (atFence s) (rxdAddr s s.dev.rdh.toNat + offAddr) 8 := ⟨_, rfl⟩
      rw [← hbs] at k
      split at k
      swap
      · cases k
      next ho =>
      simp only [bind_apply, dmaWrite_apply] at k
      obtain ⟨h2, f2⟩ := (RingSame.of_dma hs.guard.bufs (hs.guard.owned_off ho)).mid hs
      split at k
      swap
      · cases k
      next hx =>
      split at hx
      swap
      · cases hx
      cases hx
      obtain ⟨s2, hs2⟩ : ∃ s2, s2 = dmaPut (leNat bs) (rest.take s.cfg.rxBufSize) s := ⟨_, rfl⟩
      rw [← hs2] at k h2 f2
      have hdev : s2.dev = s.dev := by rw [hs2]; rfl
      have hcfg : s2.cfg = s.cfg := by rw [hs2]; rfl
      have hxa : rxdAddr s s.dev.rdh.toNat = rxdAddr s2 s2.dev.rdh.toNat := by rw [hdev, hs2]; rfl
      have hfit : rxdAddr s2 s2.dev.rdh.toNat + 16 ≤ addrSpace := by
        have := g.rings.rx
        have := g.rxCursors.1
        rw [← hxa]
        simp only [rxdAddr, descSize]
        omega
      have hlen : (rest.take s.cfg.rxBufSize).length < 65536 := by
        have := g.sizes.buf
        have := g.sizes.rxBuf
        rw [List.length_take]
        omega
      obtain ⟨d, other, l2, -, hd2, hwb⟩ := writeBack_ok (s := s2) (slot := rxdAddr s2 s2.dev.rdh.toNat)
        (decide (rest.length ≤ s.cfg.rxBufSize)) hlen hfit
      rw [hxa, hwb] at k
      simp only [update_apply] at k
      obtain ⟨h3, f3⟩ := h2.rxWriteBack (by rw [hdev]; exact hne) (d := d) (by rw [hd2]; exact doneStatus_dd _ _)
        (rest.drop s.cfg.rxBufSize).length l2 (s2.draws + 4)
      have f := f2.trans f3
      split at k
      · cases k
        exact ⟨h3, f⟩
      · obtain ⟨k1, k2⟩ := ih _ a e b e' _ x t h3 k
        exact ⟨k1, f.trans k2⟩

theorem keepsRings_devEvent (ev : DevEvent) : KeepsRings (tryDevice ev) := by
  intro a e b e' s x t hs k
  unfold tryDevice at k
  split at k
  · cases k; exact ⟨hs, .refl _ _ _⟩
  · next r hr =>
    cases ev with
    | reset =>
      unfold devEvent devResetOp at k
      simp only [bind_apply, get_apply, hs.guard.noReset, require_of_false] at k
      cases k
    | txStep => exact hs.txStep k
    | rxFrame f =>
      refine (KeepsRings.bind (.require _ _) fun _ => .bind .get fun s => .bind (.require _ _) fun _ =>
        .ite (.emit _) (.ite (.emit _) (keepsRings_rxLoop _ _))) a e b e' s x t hs k

/-! ### Software's pieces that write neither ring -/

theorem keepsRings_runDevices (es : List DevEvent) : KeepsRings (runDevices es) := by
  induction es with
  | nil => exact .pure _
  | cons e es ih => exact .bind (keepsRings_devEvent e) fun _ => ih

theorem keepsRings_point : KeepsRings point := by
  intro a e b e' s x t h k
  unfold point at k
  split at k
  · cases k; exact ⟨h, .refl _ _ _⟩
  · next es rest _ =>
    obtain ⟨h1, f1⟩ := (RingSame.of_eq (t := { s with sched := rest }) h.guard.bufs rfl rfl rfl rfl rfl rfl id rfl
      (.inl rfl) rfl).mid h
    obtain ⟨h2, f2⟩ := keepsRings_runDevices es a e b e' _ x t h1 k
    exact ⟨h2, f1.trans f2⟩

/-- FENCE is the device's events at its access, then the refresh of what the device sees. -/
theorem fence_spec {s t : State} (h : fence s = .ok ((), t)) : ∃ u, point s = .ok ((), u) ∧ t = fenceState u := by
  unfold fence at h
  rw [bind_apply] at h
  split at h
  · next u hu => cases h; exact ⟨u, hu, rfl⟩
  · cases h

/-- FENCE. -/
theorem keepsRings_fence : KeepsRings fence :=
  .bind keepsRings_point fun _ => .update fun _ h => .of_eq h rfl rfl rfl rfl rfl rfl id rfl (.inr rfl) rfl

theorem keepsRings_bufRead (who : Owner) (b : Addr) (off n : Nat) : KeepsRings (bufRead who b off n) :=
  .bind keepsRings_point fun _ => .bind .get fun _ => .ite (.memRead _ _) (.modelFault _)

/-- A write into a buffer. -/
theorem keepsRings_bufWrite (who : Owner) (b : Addr) (off : Nat) (bs : List Byte) :
    KeepsRings (bufWrite who b off bs) := by
  refine .bind keepsRings_point fun _ => ?_
  intro a e b' e' s x t h k
  simp only [bind_apply, get_apply, ite_apply] at k
  split at k
  · next ho =>
    rw [memWrite_apply] at k
    split at k
    · cases k; exact (RingSame.of_put h.guard.bufs (h.guard.owned_off ho)).mid h
    · cases k
  · cases k

theorem keepsRings_bufWriteFields (who : Owner) (b : Addr) (fs : List (Nat × List Byte)) :
    KeepsRings (bufWriteFields who b fs) := by
  induction fs with
  | nil => exact .pure _
  | cons f fs ih => exact .bind (keepsRings_bufWrite _ _ _ _) fun _ => ih

theorem keepsRings_txdPoll (i : Nat) : KeepsRings (txdPoll i) :=
  .bind keepsRings_point fun _ => .bind .get fun _ => .guardFault _ (.memRead _ _)

theorem keepsRings_rxdPoll (i : Nat) : KeepsRings (rxdPoll i) :=
  .bind keepsRings_point fun _ => .bind .get fun _ => .memRead _ _

theorem keepsRings_rxdRead (i off n : Nat) : KeepsRings (rxdRead i off n) :=
  .bind keepsRings_point fun _ => .bind .get fun _ => .ite (.modelFault _) (.memRead _ _)

theorem keepsRings_regRead (n : RegName) : KeepsRings (regRead n) := by
  refine .bind keepsRings_point fun _ => .bind .get fun s => .ite ?_ (.ite (.pure _) (.bind (.draw _) fun _ => .pure _))
  exact .bind (.update fun _ h => .of_eq h rfl rfl rfl rfl rfl rfl id rfl (.inl rfl) rfl) fun _ => .pure _

/-- The acknowledge of the interrupt causes. -/
theorem keepsRings_ack (v : Word) : KeepsRings (regWrite .icr v) := by
  refine .bind keepsRings_point fun _ => .bind .get fun s => ?_
  split
  · exact .refuse _
  · exact .update fun _ h => .of_eq h rfl rfl rfl rfl rfl rfl id rfl (.inl rfl) rfl

theorem keepsRings_alloc (who : Owner) : KeepsRings (alloc who) := by
  refine .bind keepsRings_point fun _ => ?_
  intro a e b e' s x t h k
  simp only [bind_apply, get_apply] at k
  obtain ⟨r, l, n, hn⟩ := nextAllocAnswer_spec s
  rw [hn] at k
  obtain ⟨h1, f1⟩ := (RingSame.of_eq (t := { s with allocAns := l, draws := n }) h.guard.bufs rfl rfl rfl rfl rfl rfl id
    rfl (.inl rfl) rfl).mid h
  cases r with
  | none => cases k; exact ⟨h1, f1⟩
  | some r =>
    simp only [ite_apply] at k
    split at k
    · next hb =>
      cases k
      obtain ⟨h2, f2⟩ := (RingSame.of_alloc (who := who) h1.guard.bufs
        (show allocOk { s with allocAns := l, draws := n } r = true from hb)).mid h1
      exact ⟨h2, f1.trans f2⟩
    · cases k; exact ⟨h1, f1⟩

theorem keepsRings_owner (b : Addr) (o : Owner) : KeepsRings (update (setOwner b o)) :=
  .update fun _ h => .of_owner h b o

theorem keepsRings_release (who : Owner) (b : Addr) : KeepsRings (release who b) := by
  refine .bind keepsRings_point fun _ => .bind .get fun _ => .guardFault _ (.update fun s h => ?_)
  have k := RingSame.of_owner h b .allocator
  exact ⟨k.cfg, k.txBase, k.rxBase, k.txOwner, k.rxOwner, k.regs, k.arp, k.byte, k.sees, k.bufs⟩

theorem keepsRings_sw (p : SwSeq) : KeepsRings (update fun s => { s with sw := p }) :=
  .update fun _ h => .of_eq h rfl rfl rfl rfl rfl rfl id rfl (.inl rfl) rfl

theorem keepsRings_locks (f : State → List Lock) : KeepsRings (update fun s => { s with locks := f s }) :=
  .update fun _ h => .of_eq h rfl rfl rfl rfl rfl rfl id rfl (.inl rfl) rfl

theorem keepsRings_callFrom {α : Type} (p : SwSeq) {m : M α} (h : KeepsRings m) : KeepsRings (callFrom p m) :=
  .bind .get fun _ => .bind (keepsRings_sw p) fun _ => .bind h fun _ => .bind (keepsRings_sw _) fun _ => .pure _

theorem keepsRings_acquire (l : Lock) : KeepsRings (acquire l) := by
  intro a e b e' s x t h k
  rw [acquire_apply] at k
  split at k
  · cases k
  · cases k
    exact (RingSame.of_eq (t := { s with locks := l :: s.locks }) h.guard.bufs rfl rfl rfl rfl rfl rfl id rfl
      (.inl rfl) rfl).mid h

theorem keepsRings_typeIs (b : Addr) (len : Half) (n : Nat) (ty : Half) : KeepsRings (typeIs b len n ty) :=
  .ite (.bind (keepsRings_bufRead _ _ _ _) fun _ => .pure _) (.pure _)

theorem keepsRings_portLookup (port : Half) : KeepsRings (portLookup port) := by
  refine .bind keepsRings_point fun _ => .bind .get fun s => ?_
  split
  · exact .pure _
  · exact .pure _
  · exact .bind (.draw _) fun _ => .pure _

theorem keepsRings_portEnqueue (q : Nat) (pkt : Packet) : KeepsRings (portEnqueue q pkt) := by
  refine .bind keepsRings_point fun _ => .bind .get fun s => ?_
  split
  · exact .pure _
  · exact .ite
      (.bind (.update fun _ h => .of_eq h rfl rfl rfl rfl rfl rfl id rfl (.inl rfl) rfl) fun _ => .pure _)
      (.bind (.update fun _ h => .of_eq h rfl rfl rfl rfl rfl rfl id rfl (.inl rfl) rfl) fun _ => .pure _)

theorem keepsRings_ipRx (b : Addr) (len : Half) : KeepsRings (ipRxOp b len) := by
  refine .bind (keepsRings_bufRead _ _ _ _) fun _ => .bind (keepsRings_bufRead _ _ _ _) fun _ =>
    .bind (keepsRings_portLookup _) fun q => ?_
  split
  · exact .bind (.emit _) fun _ => .bind (.emit _) fun _ => keepsRings_release _ _
  · refine .bind (keepsRings_bufRead _ _ _ _) fun _ => .bind (keepsRings_portEnqueue _ _) fun res => .ite ?_ ?_
    · exact .bind (keepsRings_owner _ _) fun _ => .bind (.emit _) fun _ => .bind keepsRings_point fun _ => .emit _
    · exact .bind (.emit _) fun _ => keepsRings_release _ _

theorem keepsRings_arpReplyBuild (p : Params) (b r : Addr) : KeepsRings (arpReplyBuild p b r) :=
  .bind (keepsRings_bufRead _ _ _ _) fun _ => .bind (keepsRings_bufWrite _ _ _ _) fun _ =>
  .bind (keepsRings_bufWriteFields _ _ _) fun _ => .bind (keepsRings_bufRead _ _ _ _) fun _ =>
  .bind (keepsRings_bufWrite _ _ _ _) fun _ => .bind (keepsRings_bufRead _ _ _ _) fun _ => keepsRings_bufWrite _ _ _ _

theorem keepsRings_udpPayload (b : Addr) (n : BitVec 64) : KeepsRings (udpPayloadOp b n) :=
  .bind .get fun _ => .bind (keepsRings_bufRead _ _ _ _) fun _ => .bind (keepsRings_bufRead _ _ _ _) fun _ =>
    .bind (keepsRings_bufRead _ _ _ _) fun _ => .bind (keepsRings_bufRead _ _ _ _) fun _ =>
    .bind (keepsRings_bufRead _ _ _ _) fun _ => .pure _

theorem keepsRings_cksumMem (a n : Nat) : KeepsRings (cksumMem a n) := by
  refine .bind keepsRings_point fun _ => .bind .get fun s => ?_
  split
  · exact .modelFault _
  · exact .bind (.memRead _ _) fun _ => .pure _

theorem keepsRings_copyIn (b : Addr) (off : Nat) (pl : List Byte) : KeepsRings (copyIn b off pl) := by
  refine .bind keepsRings_point fun _ => ?_
  intro a e b' e' s x t h k
  simp only [bind_apply, get_apply] at k
  obtain ⟨r, l, n, hn⟩ := nextCopyAnswer_spec s
  rw [hn] at k
  obtain ⟨h1, f1⟩ := (RingSame.of_eq (t := { s with copyAns := l, draws := n }) h.guard.bufs rfl rfl rfl rfl rfl rfl id
    rfl (.inl rfl) rfl).mid h
  simp only [update_apply, ite_apply] at k
  split at k
  · split at k
    · next ho =>
      simp only [bind_apply, memWrite_apply] at k
      have ho1 : ownsRange { s with copyAns := l, draws := n } .framer (b.toNat + off) pl.length = true := by
        rw [← ho]
        simp only [ownsRange, ownerNow_congr (s := s) (t := { s with copyAns := l, draws := n }) rfl rfl rfl rfl]
      obtain ⟨h2, f2⟩ := (RingSame.of_put h1.guard.bufs (h1.guard.owned_off ho1)).mid h1
      split at k
      · next hx =>
        split at hx
        · cases hx; cases k; exact ⟨h2, f1.trans f2⟩
        · cases hx
      · cases k
    · cases k
  · cases k; exact ⟨h1, f1⟩

theorem keepsRings_releaseOld (i : Nat) : KeepsRings (releaseOld i) := by
  refine .bind .get fun s => ?_
  split
  · exact keepsRings_release _ _
  · exact .pure _

/-! ### A submission -/

/-- A write into the open slot of the transmit ring. -/
theorem RingsMid.txSlotPut {a b e' : Bool} {s : State} (h : RingsMid a true b e' s) {i : Nat} (hi : i < s.cfg.nTx)
    (hit : a = true → i = s.dev.tdt.toNat) {off : Nat} {bs : List Byte} (hl : off + bs.length ≤ 16) :
    RingsMid a true b e' { s with mem := memPutBytes s.mem (txdAddr s i + off) bs } ∧
      RingFrame false b s { s with mem := memPutBytes s.mem (txdAddr s i + off) bs } := by
  have g := h.guard
  have hby : ∀ c, (c < txdAddr s i ∨ txdAddr s i + 16 ≤ c) →
      byteAt { s with mem := memPutBytes s.mem (txdAddr s i + off) bs } c = byteAt s c :=
    fun c hc => byteAt_memPutBytes_outside _ _ _ _ (by omega)
  obtain ⟨t, ht⟩ : ∃ t : State, t = { s with mem := memPutBytes s.mem (txdAddr s i + off) bs } := ⟨_, rfl⟩
  rw [← ht] at hby ⊢
  have hring := overlaps_false g.rings.apart
  have htx : ∀ j, j ≠ i → txd t j = txd s j := by
    intro j hj
    refine txd_congr (by rw [ht]; rfl) fun c h1 h2 => hby c ?_
    simp only [txdAddr, descSize] at *
    omega
  have hrx : ∀ j < s.cfg.nRx, ∀ c, rxdAddr s j ≤ c → c < rxdAddr s j + 16 → byteAt t c = byteAt s c := by
    intro j hj c h1 h2
    refine hby c ?_
    simp only [txdAddr, rxdAddr, descSize] at *
    omega
  have hrxd : ∀ j < s.cfg.nRx, rxd t j = rxd s j := fun j hj => rxd_congr (by rw [ht]; rfl) (hrx j hj)
  have hsee : ∀ j, j ≠ i → DeviceSees s (txdAddr s j) 16 → DeviceSees t (txdAddr s j) 16 := by
    intro j hj hs
    rw [ht]
    refine hs.memPut ?_
    simp only [txdAddr, descSize] at *
    omega
  have hxa : ∀ j, rxdAddr t j = rxdAddr s j := fun j => by rw [ht]; rfl
  have hseeRx : ∀ j < s.cfg.nRx, DeviceSees s (rxdAddr s j) 8 → DeviceSees t (rxdAddr s j) 8 := by
    intro j hj hs
    rw [ht]
    refine hs.memPut ?_
    simp only [txdAddr, rxdAddr, descSize] at *
    omega
  refine ⟨⟨by rw [ht]; exact ⟨g.1, g.2, ⟨g.3.1, g.3.2⟩, ⟨g.4.1, g.4.2⟩, g.5, g.6, g.7, g.8, g.9⟩, fun ha => ?_, fun hb => ?_⟩,
    by rw [ht], by rw [ht], by rw [ht], by rw [ht]; exact id, nofun, fun hb => ?_⟩
  · obtain ⟨k1, k2, k3⟩ := h.tx ha
    have hne : ∀ j, cyclicMem s.cfg.nTx s.dev.tdh.toNat s.dev.tdt.toNat j = true → j ≠ i := by
      intro j hm hj
      rw [hj, hit ha, not_cyclicMem_tail] at hm
      cases hm
    have hd : t.dev = s.dev ∧ t.cfg = s.cfg ∧ t.txOwner = s.txOwner ∧ t.txRingBase = s.txRingBase := by
      rw [ht]; exact ⟨rfl, rfl, rfl, rfl⟩
    constructor
    · rw [ht]; exact k1
    · rw [hd.1, hd.2.1, hd.2.2.1]
      intro j hj hm
      have e1 : txdAddr t j = txdAddr s j := by simp [txdAddr, hd.2.2.2]
      rw [htx j (hne j hm), e1]
      obtain ⟨b1, b2, b3, b4⟩ := k2 j hj hm
      exact ⟨b1, b2, b3, hsee j (hne j hm) b4⟩
    · rw [hd.1, hd.2.1]
      intro j hj hm hx
      rw [htx j (by rw [hit ha]; exact hx rfl)]
      exact k3 j hj hm hx
  · obtain ⟨k1, k2, k3⟩ := h.rx hb
    have hd : t.dev = s.dev ∧ t.cfg = s.cfg ∧ t.rxOwner = s.rxOwner := by rw [ht]; exact ⟨rfl, rfl, rfl⟩
    constructor
    · rw [hd.1, hd.2.1, hd.2.2]
      intro j hj hm
      rw [hrxd j hj, hxa]
      obtain ⟨b1, b2, b3⟩ := k1 j hj hm
      exact ⟨b1, b2, hseeRx j hj b3⟩
    · rw [hd.1, hd.2.1]
      intro j hj hm hx
      rw [hrxd j hj]
      exact k2 j hj hm hx
    · rw [hd.1, hd.2.2, hrxd _ g.rxCursors.2, hxa]; exact ⟨k3.1, k3.2.1, hseeRx _ g.rxCursors.2 k3.2.2⟩
  · have hd : t.dev = s.dev ∧ t.rxOwner = s.rxOwner := by rw [ht]; exact ⟨rfl, rfl⟩
    rw [hd.1]
    exact ⟨hd.2, rfl, fun _ _ hm => hm, fun j hj _ c hc => hrx j hj _ (by omega) (by omega), hseeRx⟩

/-- What a write of the open transmit slot's field leaves, the device's events in front of it included. -/
theorem txdWrite_rings {a b e' : Bool} {s t : State} (h : RingsMid a true b e' s) {i : Nat} (hi : i < s.cfg.nTx)
    (hit : a = true → i = s.dev.tdt.toNat) {off : Nat} {bs : List Byte} (hl : off + bs.length ≤ 16)
    (k : txdWrite i off bs s = .ok ((), t)) :
    RingsMid a true b e' t ∧ RingFrame false b s t ∧
    (a = true → t.txOwner = s.txOwner ∧ t.dev.tdt = s.dev.tdt ∧
      cyclicLen s.cfg.nTx t.dev.tdh.toNat t.dev.tdt.toNat ≤ cyclicLen s.cfg.nTx s.dev.tdh.toNat s.dev.tdt.toNat ∧
      ∀ j < 16, byteAt t (txdAddr s i + j) =
        if off ≤ j ∧ j < off + bs.length then bs.getD (j - off) 0 else byteAt s (txdAddr s i + j)) := by
  unfold txdWrite at k
  rw [bind_apply] at k
  split at k
  swap
  · cases k
  next u hu =>
  obtain ⟨h1, f1⟩ := keepsRings_point a true b e' s () u h hu
  have hi' : i < u.cfg.nTx := by rw [f1.cfg]; exact hi
  simp only [bind_apply, get_apply, ite_apply] at k
  split at k
  · cases k
  rw [txSlotFault_none hi', guardFault_none, memWrite_apply] at k
  split at k
  swap
  · cases k
  cases k
  have hit' : a = true → i = u.dev.tdt.toNat := fun ha => by rw [(f1.tx ha).2.1]; exact hit ha
  obtain ⟨h2, f2⟩ := h1.txSlotPut hi' hit' hl
  refine ⟨h2, f1.noTx.toRingFrame.trans f2, fun ha => ?_⟩
  obtain ⟨g1, g2, g3, g4, -⟩ := f1.tx ha
  have hadr : txdAddr u i = txdAddr s i := by simp [txdAddr, f1.txBase]
  refine ⟨g1, g2, g3, fun j hj => ?_⟩
  rw [byteAt_memPutBytes, hadr]
  have e : (txdAddr s i + off ≤ txdAddr s i + j ∧ txdAddr s i + j < txdAddr s i + off + bs.length) ↔
      (off ≤ j ∧ j < off + bs.length) := by omega
  rw [show txdAddr s i + j - (txdAddr s i + off) = j - off by omega]
  simp only [e]
  split
  · rfl
  · have := g4 j hj
    rwa [← hit ha] at this

/-- The transmit slot at the tail as T4 leaves it: its owner record, its address, its command, DD clear. -/
structure TxFilled (i : Nat) (buf : Addr) (s : State) : Prop where
  slot : i = s.dev.tdt.toNat
  owner : s.txOwner[i]? = some (some buf)
  addr : bytesAt s (txdAddr s i) 8 = leBytes 8 buf.toNat
  cmd : byteAt s (txdAddr s i + 11) = 0x09
  status : byteAt s (txdAddr s i + 12) = 0x00

theorem TxFilled.frame {i : Nat} {buf : Addr} {a b : Bool} {s t : State} (h : TxFilled i buf s) (f : RingKept a b s t)
    (ha : a = true) : TxFilled i buf t := by
  obtain ⟨g1, g2, -, g4, -⟩ := f.tx ha
  have hadr : txdAddr t i = txdAddr s i := by simp [txdAddr, f.txBase]
  have g4 : ∀ j < 16, byteAt t (txdAddr s i + j) = byteAt s (txdAddr s i + j) := by rw [h.slot]; exact g4
  refine ⟨by rw [g2]; exact h.slot, by rw [g1]; exact h.owner, ?_, ?_, ?_⟩
  · rw [hadr, ← h.addr]
    apply bytesAt_congr
    intro c h1 h2
    have := g4 (c - txdAddr s i) (by omega)
    rwa [Nat.add_sub_cancel' h1] at this
  · rw [hadr, g4 11 (by omega)]; exact h.cmd
  · rw [hadr, g4 12 (by omega)]; exact h.status

/-- T4 fills the slot at the tail. -/
theorem fillTxSlot_rings {a b e e' : Bool} {s t : State} (h : RingsMid a e b e' s) {i : Nat} (hi : i < s.cfg.nTx)
    (hit : a = true → i = s.dev.tdt.toNat) {buf : Addr} {len : Half} (k : fillTxSlot i buf len s = .ok ((), t)) :
    RingsMid a true b e' t ∧ RingFrame false b s t ∧
    (a = true → TxFilled i buf t ∧
      cyclicLen s.cfg.nTx t.dev.tdh.toNat t.dev.tdt.toNat ≤ cyclicLen s.cfg.nTx s.dev.tdh.toNat s.dev.tdt.toNat) := by
  have g := h.guard
  obtain ⟨v, hv⟩ : ∃ v : State, v = { s with txOwner := s.txOwner.set i (some buf) } := ⟨_, rfl⟩
  have hmv : RingsMid a true b e' v ∧ RingFrame false b s v := by
    rw [hv]
    refine ⟨⟨⟨g.1, g.2, ⟨g.3.1, g.3.2⟩, ⟨g.4.1, g.4.2⟩, g.5, g.6, ?_, g.8, g.9⟩, fun ha => ?_, fun hb => ?_⟩,
      rfl, rfl, rfl, id, nofun, fun hb => ?_⟩
    · exact ⟨(List.length_set ..).trans g.owners.1, g.owners.2⟩
    · obtain ⟨k1, k2, k3⟩ := h.tx ha
      refine ⟨k1, fun j hj hm => ?_, fun j hj hm hx => k3 j hj hm fun _ => hx rfl⟩
      obtain ⟨b1, b2, b3, b4⟩ := k2 j hj hm
      refine ⟨b1, ?_, b3, b4⟩
      have hne : i ≠ j := by
        intro hij
        have hm' : cyclicMem s.cfg.nTx s.dev.tdh.toNat s.dev.tdt.toNat j = true := hm
        rw [← hij, hit ha, not_cyclicMem_tail] at hm'
        cases hm'
      show (s.txOwner.set i (some buf))[j]? = _
      rw [List.getElem?_set_ne hne]
      exact b2
    · obtain ⟨k1, k2, k3⟩ := h.rx hb
      exact ⟨k1, k2, k3⟩
    · exact ⟨rfl, rfl, fun _ _ hm => hm, fun _ _ _ _ _ => rfl, fun _ _ h => h⟩
  obtain ⟨hv1, fv⟩ := hmv
  obtain ⟨h0, f0⟩ := (RingSame.of_owner hv1.guard.bufs buf .txPath).mid hv1
  obtain ⟨w, hw⟩ : ∃ w : State, w = setOwner buf .txPath v := ⟨_, rfl⟩
  have hwd : w.dev = s.dev ∧ w.cfg = s.cfg ∧ w.txRingBase = s.txRingBase ∧ w.txOwner = s.txOwner.set i (some buf) := by
    rw [hw, hv]; exact ⟨rfl, rfl, rfl, rfl⟩
  rw [← hw] at h0 f0
  unfold fillTxSlot at k
  simp only [bind_apply, update_apply] at k
  rw [← hv, ← hw] at k
  have hsteps : ∀ (fs : List (Nat × List Byte)) (u : State), RingsMid a true b e' u → i < u.cfg.nTx →
      (a = true → i = u.dev.tdt.toNat) → (∀ f ∈ fs, f.1 + f.2.length ≤ 16) → ∀ t,
      descWriteFields (txdWrite i) fs u = .ok ((), t) →
      RingsMid a true b e' t ∧ RingFrame false b u t ∧
      (a = true → t.txOwner = u.txOwner ∧ t.dev.tdt = u.dev.tdt ∧
        cyclicLen u.cfg.nTx t.dev.tdh.toNat t.dev.tdt.toNat ≤ cyclicLen u.cfg.nTx u.dev.tdh.toNat u.dev.tdt.toNat ∧
        ∀ j < 16, byteAt t (txdAddr u i + j) = (fs.foldl (fun (m : Nat → Byte) f => fun j =>
          if f.1 ≤ j ∧ j < f.1 + f.2.length then f.2.getD (j - f.1) 0 else m j)
          (fun j => byteAt u (txdAddr u i + j))) j) := by
    intro fs
    induction fs with
    | nil =>
      intro u hu _ _ _ t e
      cases e
      exact ⟨hu, .refl _ _ _, fun _ => ⟨rfl, rfl, le_refl _, fun _ _ => rfl⟩⟩
    | cons f fs ih =>
      intro u hu hiu hitu hfs t e
      rw [descWriteFields, bind_apply] at e
      split at e
      swap
      · cases e
      next x hx =>
      obtain ⟨h1, f1, p1⟩ := txdWrite_rings hu hiu hitu (hfs f (by simp)) hx
      obtain ⟨h2, f2, p2⟩ := ih x h1 (by rw [f1.cfg]; exact hiu)
        (fun ha => by rw [(p1 ha).2.1]; exact hitu ha) (fun g hg => hfs g (by simp [hg])) t e
      refine ⟨h2, f1.trans f2, fun ha => ?_⟩
      obtain ⟨q1, q2, q3, q4⟩ := p1 ha
      obtain ⟨r1, r2, r3, r4⟩ := p2 ha
      have hadr : txdAddr x i = txdAddr u i := by simp [txdAddr, f1.txBase]
      rw [f1.cfg] at r3
      rw [hadr] at r4
      refine ⟨r1.trans q1, r2.trans q2, le_trans r3 q3, fun j hj => ?_⟩
      rw [r4 j hj, List.foldl_cons]
      have key : ∀ (gs : List (Nat × List Byte)) (m m' : Nat → Byte), (∀ j < 16, m j = m' j) → ∀ j < 16,
          (gs.foldl (fun (m : Nat → Byte) f => fun j =>
            if f.1 ≤ j ∧ j < f.1 + f.2.length then f.2.getD (j - f.1) 0 else m j) m) j =
          (gs.foldl (fun (m : Nat → Byte) f => fun j =>
            if f.1 ≤ j ∧ j < f.1 + f.2.length then f.2.getD (j - f.1) 0 else m j) m') j := by
        intro gs
        induction gs with
        | nil => intro m m' hm j hj; exact hm j hj
        | cons g gs ihg =>
          intro m m' hm j hj
          rw [List.foldl_cons, List.foldl_cons]
          exact ihg _ _ (fun j hj => by simp only [hm j hj]) j hj
      exact key fs _ _ q4 j hj
  have hall : descWriteFields (txdWrite i) [(offAddr, leBytes 8 buf.toNat), (offLength, leBytes 2 len.toNat),
      (offCso, [0]), (offCss, [0]), (offSpecial, leBytes 2 0), (offCmd, [bitRs ||| bitTxEop]), (offStatus, [0x00])] w =
      .ok ((), t) := by
    simp only [descWriteFields, bind_apply, pure_apply]
    revert k
    rcases txdWrite i offAddr (leBytes 8 buf.toNat) w with _ | ⟨_, w1⟩
    · exact fun k => by cases k
    simp only
    rcases txdWrite i offLength (leBytes 2 len.toNat) w1 with _ | ⟨_, w2⟩
    · exact fun k => by cases k
    simp only
    rcases txdWrite i offCso [0] w2 with _ | ⟨_, w3⟩
    · exact fun k => by cases k
    simp only
    rcases txdWrite i offCss [0] w3 with _ | ⟨_, w4⟩
    · exact fun k => by cases k
    simp only
    rcases txdWrite i offSpecial (leBytes 2 0) w4 with _ | ⟨_, w5⟩
    · exact fun k => by cases k
    simp only
    rcases txdWrite i offCmd [bitRs ||| bitTxEop] w5 with _ | ⟨_, w6⟩
    · exact fun k => by cases k
    simp only
    rcases txdWrite i offStatus [0x00] w6 with _ | ⟨_, w7⟩
    · exact fun k => by cases k
    exact fun k => k
  obtain ⟨h9, f9, p9⟩ := hsteps _ w h0 (by rw [hwd.2.1]; exact hi) (by rw [hwd.1]; exact hit) (by
    simp only [List.forall_mem_cons, leBytes_length, List.length_singleton, offAddr, offLength, offCso, offCss,
      offSpecial, offCmd, offStatus, List.not_mem_nil, false_implies, implies_true, and_true]
    omega) t hall
  refine ⟨h9, (fv.trans f0.noTx.toRingFrame).trans f9, fun ha => ?_⟩
  obtain ⟨q1, q2, q3, q4⟩ := p9 ha
  have hadr : txdAddr t i = txdAddr w i := by simp [txdAddr, f9.txBase]
  rw [hwd.2.1, hwd.1] at q3
  refine ⟨⟨?_, ?_, ?_, ?_, ?_⟩, q3⟩
  · rw [q2, hwd.1]; exact hit ha
  · rw [q1, hwd.2.2.2, List.getElem?_set_self (by rw [g.owners.1]; exact hi)]
  · rw [hadr]
    refine (bytesAt_eq_of (bs := leBytes 8 buf.toNat) fun j hj => ?_).trans rfl |> fun e => by simpa using e
    have hj8 : j < 8 := by simpa using hj
    rw [q4 j (by omega)]
    simp only [List.foldl_cons, List.foldl_nil, offAddr, offLength, offCso, offCss, offSpecial, offCmd, offStatus,
      leBytes_length, List.length_singleton]
    repeat rw [if_neg (by omega)]
    rw [if_pos (by omega)]
    simp [List.getD_eq_getElem?_getD, List.getElem?_eq_getElem hj]
  · rw [hadr, q4 11 (by omega)]
    simp [offAddr, offLength, offCso, offCss, offSpecial, offCmd, offStatus]
    decide
  · rw [hadr, q4 12 (by omega)]
    simp [offAddr, offLength, offCso, offCss, offSpecial, offCmd, offStatus]

end Sys2Proof.Machine
end

