-- ==== Sys2Proof/Laws/RingsSubmit.lean ====
section
/-! SUPPORT. What a submission, alone or inside ARP_RX, CLASSIFY and UDP_TX, leaves of the rings, whatever device
events fall between its accesses. -/

namespace Sys2Proof.Machine

theorem TxRoom.frame {s t : State} {a b : Bool} (h : TxRoom s) (f : RingKept a b s t) (ha : a = true) : TxRoom t := by
  have := (f.tx ha).2.2.1
  unfold TxRoom at *
  rw [f.cfg]
  omega

/-- A read of TDT answers the tail the state it ends in has. -/
theorem regRead_tdt {s t : State} {v : Word} (k : regRead .tdt s = .ok (v, t)) : v = t.dev.tdt := by
  unfold regRead at k
  rw [bind_apply] at k
  split at k
  · simp only [bind_apply, get_apply] at k
    cases k
    rfl
  · cases k

/-- A read of RDT answers the tail the state it ends in has. -/
theorem regRead_rdt {s t : State} {v : Word} (k : regRead .rdt s = .ok (v, t)) : v = t.dev.rdt := by
  unfold regRead at k
  rw [bind_apply] at k
  split at k
  · simp only [bind_apply, get_apply] at k
    cases k
    rfl
  · cases k

/-- A poll of a transmit slot answers the status the state it ends in has. -/
theorem txdPoll_status {i : Nat} {s t : State} {st : List Byte} (k : txdPoll i s = .ok (st, t)) :
    byteOf st = (txd t i).status := by
  unfold txdPoll at k
  rw [bind_apply] at k
  split at k
  · next u _ =>
    simp only [bind_apply, get_apply] at k
    cases hf : txSlotFault u i offStatus 1 with
    | none =>
      rw [hf, guardFault_none, memRead_apply] at k
      split at k
      · cases k
        rw [txd_status]
        rfl
      · cases k
    | some f => rw [hf] at k; cases k
  · cases k

/-- The tail write publishes the filled slot. -/
theorem RingsMid.txPublish {a b e' : Bool} {s : State} (h : RingsMid a true b e' s) {i : Nat} (hi : i < s.cfg.nTx)
    {buf : Addr} (hf : a = true → TxFilled i buf s ∧ DeviceSees s (txdAddr s i) 16 ∧ TxRoom s) :
    RingsMid a false b e' { s with dev := writeTail (BitVec.ofNat 32 ((i + 1) % s.cfg.nTx)) s.cfg s.dev } ∧
    RingFrame false b s { s with dev := writeTail (BitVec.ofNat 32 ((i + 1) % s.cfg.nTx)) s.cfg s.dev } := by
  have g := h.guard
  have hlt := succ_mod_lt hi
  obtain ⟨v, hv⟩ : ∃ v : Word, v = BitVec.ofNat 32 ((i + 1) % s.cfg.nTx) := ⟨_, rfl⟩
  have ht : v.toNat = (i + 1) % s.cfg.nTx := by
    have := g.sizes.tx
    rw [hv, BitVec.toNat_ofNat, Nat.mod_eq_of_lt (by omega)]
  rw [← hv]
  obtain ⟨t, hts⟩ : ∃ t : State, t = { s with dev := writeTail v s.cfg s.dev } := ⟨_, rfl⟩
  rw [← hts]
  have c1 : t.cfg = s.cfg ∧ t.txRingBase = s.txRingBase ∧ t.rxRingBase = s.rxRingBase ∧ t.txOwner = s.txOwner ∧
      t.rxOwner = s.rxOwner ∧ t.bufs = s.bufs ∧ t.arpSeen = s.arpSeen ∧ t.dev = writeTail v s.cfg s.dev := by
    rw [hts]; exact ⟨rfl, rfl, rfl, rfl, rfl, rfl, rfl, rfl⟩
  obtain ⟨c1, c2, c3, c4, c5, c6, c7, c8⟩ := c1
  have hby : ∀ c, byteAt t c = byteAt s c := by intro c; rw [hts]; rfl
  have hsees : ∀ x n, DeviceSees s x n → DeviceSees t x n := by intro x n hs; rw [hts]; exact hs
  clear hts
  have hta : ∀ j, txdAddr t j = txdAddr s j := by intro j; simp [txdAddr, c2]
  have htx : ∀ j, txd t j = txd s j := fun j => txd_congr (hta j) fun c _ _ => hby c
  have hxa : ∀ j, rxdAddr t j = rxdAddr s j := by intro j; simp [rxdAddr, c3]
  have hrx : ∀ j, rxd t j = rxd s j := fun j => rxd_congr (hxa j) fun c _ _ => hby c
  have d : t.dev.tdh = s.dev.tdh ∧ t.dev.tdt = v ∧ t.dev.rdh = s.dev.rdh ∧ t.dev.rdt = s.dev.rdt := by
    rw [c8]; exact ⟨rfl, rfl, rfl, rfl⟩
  obtain ⟨d1, d2, d3, d4⟩ := d
  obtain ⟨q1, q2⟩ := g.txCursors
  refine ⟨⟨⟨?_, ?_, ?_, ?_, ?_, ?_, ?_, ?_, ?_⟩, fun ha => ?_, fun hb => ?_⟩, c1, c2, c3, fun x => c7.trans x, nofun,
    fun hb => ?_⟩
  · rw [c1]; exact g.sizes
  · rw [c1, c2, c3]; exact g.rings
  · exact ⟨by rw [c8, c2]; exact g.tx.base, by rw [c8, c1]; exact g.tx.length⟩
  · exact ⟨by rw [c8, c3]; exact g.rx.base, by rw [c8, c1]; exact g.rx.length⟩
  · rw [d1, d2, ht, c1]; exact ⟨q1, hlt⟩
  · rw [d3, d4, c1]; exact g.rxCursors
  · simp only [OwnersSized, c4, c5, c1]; exact g.owners
  · rw [c6, c1, c2, c3]; exact g.bufs
  · rw [c8]; exact g.noReset
  · obtain ⟨f, hsee, hroom⟩ := hf ha
    obtain ⟨k1, k2, k3⟩ := h.tx ha
    have hne : (s.dev.tdt.toNat + 1) % s.cfg.nTx ≠ s.dev.tdh.toNat := by
      intro hc
      unfold TxRoom at hroom
      rw [cyclicLen_eq q1 q2] at hroom
      rw [succ_mod q2] at hc
      split at hc <;> split at hroom <;> omega
    have hv' : v.toNat = (s.dev.tdt.toNat + 1) % s.cfg.nTx := by rw [ht, f.slot]
    have hl := cyclicLen_succ_tail q1 q2 hne
    constructor
    · rw [c1, d1, d2, hv', hl, ← k1]
      unfold TxRoom at hroom
      simp only [txOutstanding, c1, d1, d2, hv', hl] at k1 ⊢
      cases hm : s.cfg.wrapMode
      · rfl
      · simp only [hm] at k1 ⊢
        rw [c8]
        simp only [writeTail, hm]
        omega
    · rw [c1, d1, d2, hv', c4]
      intro j hj hm
      rw [htx, hta]
      rcases (cyclicMem_succ_tail q1 q2 hj hne).1 hm with hm | hm
      · obtain ⟨b1, b2, b3, b4⟩ := k2 j hj hm
        exact ⟨b1, b2, b3, hsees _ _ b4⟩
      · rw [hm, ← f.slot]
        have ed : (txd s i).addr = buf := by
          have : (txd s i).addr = BitVec.ofNat 64 (leNat (bytesAt s (txdAddr s i) 8)) :=
            congrArg (fun l => BitVec.ofNat 64 (leNat l)) (bytesAt_take s (txdAddr s i) 16 8 (by omega))
          rw [this, f.addr]
          exact ofNat_leNat_leBytes (n := 8) rfl buf
        refine ⟨?_, by rw [ed]; exact f.owner, ?_, hsees _ _ hsee⟩
        · rw [txd_status, show txdAddr s i + offStatus = txdAddr s i + 12 from rfl, f.status]
          rfl
        · have : (txd s i).cmd = byteAt s (txdAddr s i + 11) := bytesAt_getD s _ 16 11 (by decide)
          rw [this]
          exact f.cmd
    · rw [c1, d1, d2, hv']
      intro j hj hm _
      rw [htx]
      have hn : ¬ (cyclicMem s.cfg.nTx s.dev.tdh.toNat s.dev.tdt.toNat j = true ∨ j = s.dev.tdt.toNat) := by
        intro hc
        rw [← cyclicMem_succ_tail q1 q2 hj hne, hm] at hc
        cases hc
      exact k3 j hj (by simpa using fun hc => hn (.inl hc)) fun _ hc => hn (.inr hc)
  · obtain ⟨k1, k2, k3⟩ := h.rx hb
    constructor
    · rw [c1, d3, d4, c5]
      intro j hj hm
      rw [hrx, hxa]
      obtain ⟨b1, b2, b3⟩ := k1 j hj hm
      exact ⟨b1, b2, hsees _ _ b3⟩
    · rw [c1, d3, d4]
      intro j hj hm hx
      rw [hrx]
      exact k2 j hj hm hx
    · rw [d4, c5, hrx, hxa]; exact ⟨k3.1, k3.2.1, hsees _ _ k3.2.2⟩
  · rw [d3, d4]
    exact ⟨c5, rfl, fun _ _ hm => hm, fun _ _ _ _ _ => hby _, fun _ _ => hsees _ _⟩

/-- T5 publishes the filled slot. -/
theorem publishTx_rings {a b e' : Bool} {s t : State} (h : RingsMid a true b e' s) {i : Nat} (hi : i < s.cfg.nTx)
    {buf : Addr} (hf : a = true → TxFilled i buf s ∧ TxRoom s) (k : publishTx i s = .ok ((), t)) :
    RingsMid a false b e' t ∧ RingFrame false b s t := by
  unfold publishTx at k
  rw [bind_apply] at k
  split at k
  swap
  · cases k
  next u hu =>
  obtain ⟨h1, f1⟩ := keepsRings_fence a true b e' s () u h hu
  have hsee : a = true → DeviceSees u (txdAddr u u.dev.tdt.toNat) 16 := by
    intro ha
    obtain ⟨v, hv, rfl⟩ := fence_spec hu
    obtain ⟨h0, -⟩ := keepsRings_point a true b e' s () v h hv
    refine .fence fun c c1 c2 hc => ?_
    rw [h0.guard.txSlot_mine h0.guard.txCursors.2 (by simp [devOwnsTx, (h0.tx ha).count]) c1 c2] at hc
    cases hc
  simp only [bind_apply, get_apply] at k
  unfold regStore at k
  rw [bind_apply] at k
  split at k
  swap
  · cases k
  next w hw =>
  obtain ⟨h2, f2⟩ := keepsRings_point a true b e' u () w h1 hw
  simp only [bind_apply, get_apply] at k
  rcases hr : regWriteRefusal w .tdt (BitVec.ofNat 32 ((i + 1) % u.cfg.nTx)) with _ | r
  swap
  · rw [hr] at k; cases k
  rw [hr] at k
  cases k
  have f := f1.trans f2
  have e : setDev (writeTail (BitVec.ofNat 32 ((i + 1) % u.cfg.nTx)) w.cfg w.dev) w =
      { w with dev := writeTail (BitVec.ofNat 32 ((i + 1) % u.cfg.nTx)) w.cfg w.dev } := setDev_sameIrq _ _ rfl rfl
  simp only [e]
  have hcu : u.cfg = w.cfg := f2.cfg.symm
  rw [hcu]
  obtain ⟨h3, f3⟩ := h2.txPublish (i := i) (buf := buf) (by rw [f.cfg]; exact hi) (fun ha => by
    obtain ⟨q1, q2⟩ := hf ha
    have q3 := (q1.frame f ha)
    refine ⟨q3, ?_, q2.frame f ha⟩
    have := (f2.tx ha).2.2.2.2 (hsee ha)
    have he : txdAddr w i = txdAddr u u.dev.tdt.toNat := by
      rw [q3.slot, (f2.tx ha).2.1]; simp [txdAddr, f2.txBase]
    rw [he]
    exact this)
  exact ⟨h3, f.noTx.toRingFrame.trans f3⟩

/-- A piece of an operation that publishes at most one transmit slot: it keeps the rings where there is room for it. -/
def SubmitsRings {α : Type} (m : M α) : Prop := ∀ (a b e' : Bool) (s : State) (x : α) (t : State),
  RingsMid a false b e' s → (a = true → TxRoom s) → m s = .ok (x, t) →
  RingsMid a false b e' t ∧ RingKept false b s t

theorem KeepsRings.submits {α : Type} {m : M α} (h : KeepsRings m) : SubmitsRings m := by
  intro a b e' s x t hs _ k
  obtain ⟨h1, f1⟩ := h a false b e' s x t hs k
  exact ⟨h1, f1.noTx⟩

/-- What comes before the submission leaves the room. -/
theorem SubmitsRings.after {α β : Type} {m : M α} {f : α → M β} (hm : KeepsRings m) (hf : ∀ x, SubmitsRings (f x)) :
    SubmitsRings (m >>= f) := by
  intro a b e' s x t hs hr k
  rw [bind_apply] at k
  split at k
  · next y u hu =>
    obtain ⟨h1, f1⟩ := hm a false b e' s y u hs hu
    obtain ⟨h2, f2⟩ := hf y a b e' u x t h1 (fun ha => (hr ha).frame f1 ha) k
    exact ⟨h2, f1.noTx.trans f2⟩
  · cases k

/-- What follows the submission. -/
theorem SubmitsRings.before {α β : Type} {m : M α} {f : α → M β} (hm : SubmitsRings m) (hf : ∀ x, KeepsRings (f x)) :
    SubmitsRings (m >>= f) := by
  intro a b e' s x t hs hr k
  rw [bind_apply] at k
  split at k
  · next y u hu =>
    obtain ⟨h1, f1⟩ := hm a b e' s y u hs hr hu
    obtain ⟨h2, f2⟩ := hf y a false b e' u x t h1 k
    exact ⟨h2, f1.trans f2.noTx⟩
  · cases k

/-- T1 to T5. -/
theorem submitBody_rings (buf : Addr) (len : Half) : SubmitsRings (submitBody buf len) := by
  intro a b e' s x t h hr k
  unfold submitBody at k
  rw [bind_apply] at k
  split at k
  swap
  · cases k
  next tdt u hu =>
  obtain ⟨h1, f1⟩ := keepsRings_regRead .tdt a false b e' s tdt u h hu
  have htd := regRead_tdt hu
  rw [bind_apply] at k
  split at k
  swap
  · cases k
  next st v hv =>
  obtain ⟨h2, f2⟩ := keepsRings_txdPoll tdt.toNat a false b e' u st v h1 hv
  rw [ite_apply] at k
  split at k
  · cases k
    exact ⟨h2, (f1.trans f2).noTx⟩
  next hdd =>
  have hlive : ¬ TxDead s := fun hd => hdd (by
    have hv' := ((f1.trans f2).dead hd).clear tdt.toNat (by rw [htd, f2.cfg]; exact h1.guard.txCursors.2)
    rwa [txdPoll_status hv])
  rw [bind_apply] at k
  split at k
  swap
  · cases k
  next _ w hw =>
  obtain ⟨h3, f3⟩ := keepsRings_releaseOld tdt.toNat a false b e' v () w h2 hw
  rw [bind_apply] at k
  split at k
  swap
  · cases k
  next _ y hy =>
  have f := (f1.trans f2).trans f3
  have hu := h1.guard.txCursors.2
  obtain ⟨h4, f4, p4⟩ := fillTxSlot_rings h3 (i := tdt.toNat)
    (by rw [htd, f3.cfg, f2.cfg]; exact hu)
    (fun ha => by rw [(f3.tx ha).2.1, (f2.tx ha).2.1, htd]) hy
  rw [bind_apply] at k
  split at k
  swap
  · cases k
  next _ z hz =>
  cases k
  obtain ⟨h5, f5⟩ := publishTx_rings h4 (i := tdt.toNat) (buf := buf)
    (by rw [f4.cfg, htd, f3.cfg, f2.cfg]; exact hu)
    (fun ha => ⟨(p4 ha).1, by
      have q := (hr ha).frame f ha
      have := (p4 ha).2
      unfold TxRoom at *
      rw [f4.cfg]
      omega⟩) hz
  exact ⟨h5, (f.noTx.toRingFrame.trans f4).trans f5, fun hd => absurd hd hlive⟩

theorem txSubmit_rings (who : Owner) (buf : Addr) (len : Half) : SubmitsRings (txSubmitOp who buf len) :=
  .after .get fun _ => .after (.require _ _) fun _ => .after (.require _ _) fun _ =>
    .after (keepsRings_acquire _) fun _ => .before (submitBody_rings _ _) fun _ =>
      .bind (keepsRings_locks fun s => s.locks.erase .tx) fun _ => .pure _

/-- UDP_TX. -/
theorem udpTx_rings (sport : Half) (dstIp : Word) (dport : Half) (payload : List Byte) :
    SubmitsRings (udpTxOp sport dstIp dport payload) := by
  refine .after .get fun s => ?_
  simp only
  split
  · exact KeepsRings.submits (.pure _)
  refine .after (keepsRings_alloc _) fun r => ?_
  split
  · exact KeepsRings.submits (.pure _)
  refine .after (keepsRings_bufWriteFields _ _ _) fun _ => .after (.bind (keepsRings_bufRead _ _ _ _) fun _ => .pure _)
    fun _ => .after (keepsRings_bufWrite _ _ _ _) fun _ => .after (keepsRings_bufWriteFields _ _ _) fun _ =>
    .after (keepsRings_copyIn _ _ _) fun c => ?_
  split
  · exact .before (txSubmit_rings _ _ _) fun r => .ite (.bind (keepsRings_release _ _) fun _ => .pure _) (.pure _)
  · exact KeepsRings.submits (.bind (keepsRings_release _ _) fun _ => .pure _)

/-! ### The one reply of ARP_RX -/

/-- A piece of an operation that publishes at most the one ARP reply. -/
def RepliesRings {α : Type} (m : M α) : Prop := ∀ (a b e' : Bool) (s : State) (x : α) (t : State),
  RingsMid a false b e' s → (a = true → s.arpSeen = false → TxRoom s) → m s = .ok (x, t) →
  RingsMid a false b e' t ∧ RingKept false b s t ∧ (a = true → t.arpSeen = false → TxRoom t)

theorem KeepsRings.replies {α : Type} {m : M α} (h : KeepsRings m) : RepliesRings m := by
  intro a b e' s x t hs hr k
  obtain ⟨h1, f1⟩ := h a false b e' s x t hs k
  refine ⟨h1, f1.noTx, fun ha ht => (hr ha ?_).frame f1 ha⟩
  by_contra hc
  rw [f1.arp (by simpa using hc)] at ht
  cases ht

theorem RepliesRings.bind {α β : Type} {m : M α} {f : α → M β} (hm : RepliesRings m) (hf : ∀ x, RepliesRings (f x)) :
    RepliesRings (m >>= f) := by
  intro a b e' s x t hs hr k
  rw [bind_apply] at k
  split at k
  · next y u hu =>
    obtain ⟨h1, f1, r1⟩ := hm a b e' s y u hs hr hu
    obtain ⟨h2, f2, r2⟩ := hf y a b e' u x t h1 r1 k
    exact ⟨h2, f1.trans f2, r2⟩
  · cases k

/-- ARP_RX. -/
theorem arpRx_rings (buf : Addr) (len : Half) : RepliesRings (arpRxOp buf len) := by
  intro a b e' s x t hs hr k
  unfold arpRxOp at k
  simp only [bind_apply, get_apply] at k
  by_cases hseen : s.arpSeen = true
  · rw [if_pos hseen] at k
    exact KeepsRings.replies (.bind (.emit _) fun _ => keepsRings_release _ _) a b e' s x t hs hr k
  · rw [if_neg hseen, bind_apply, update_apply] at k
    simp only at k
    obtain ⟨h1, f1⟩ := (RingSame.of_eq (t := { s with arpSeen := true }) hs.guard.bufs rfl rfl rfl rfl rfl rfl
      (fun _ => rfl) rfl (.inl rfl) rfl).mid hs
    have hkey : SubmitsRings (do
        let r? ← alloc .demux
        match r? with
        | none => raiseFatal .arpReplyAlloc 0
        | some r => do
          arpReplyBuild s.cfg buf r
          let res ← txSubmitOp .demux r 42
          whenever (decide (res = .full)) (dropReply r)
          release .demux buf : M Unit) := by
      refine .after (keepsRings_alloc _) fun r => ?_
      split
      · exact KeepsRings.submits (.fatal _ _)
      · exact .after (keepsRings_arpReplyBuild _ _ _) fun _ => .before (txSubmit_rings _ _ _) fun _ =>
          .bind (.whenever _ (.bind (.emit _) fun _ => keepsRings_release _ _)) fun _ => keepsRings_release _ _
    obtain ⟨h2, f2⟩ := hkey a b e' _ x t h1 (fun ha => (hr ha (by simpa using hseen)).frame f1 ha) k
    refine ⟨h2, f1.noTx.trans f2, fun _ ht => ?_⟩
    rw [f2.arp rfl] at ht
    cases ht

theorem repliesRings_callFrom {α : Type} (p : SwSeq) {m : M α} (h : RepliesRings m) : RepliesRings (callFrom p m) :=
  .bind (KeepsRings.replies .get) fun _ => .bind (KeepsRings.replies (keepsRings_sw p)) fun _ => .bind h fun _ =>
    .bind (KeepsRings.replies (keepsRings_sw _)) fun _ => KeepsRings.replies (.pure _)

/-- CLASSIFY. -/
theorem classify_rings (buf : Addr) (len : Half) : RepliesRings (classifyOp buf len) := by
  refine .bind (KeepsRings.replies (keepsRings_typeIs _ _ _ _)) fun c => ?_
  split
  · exact repliesRings_callFrom _ (arpRx_rings _ _)
  refine .bind (KeepsRings.replies (keepsRings_typeIs _ _ _ _)) fun c => ?_
  split
  · exact repliesRings_callFrom _ (KeepsRings.replies (keepsRings_ipRx _ _))
  · exact KeepsRings.replies (.bind (.emit _) fun _ => keepsRings_release _ _)

end Sys2Proof.Machine
end

