-- ==== Sys2Proof/Laws/RingsDrain.lean ====
section
/-! SUPPORT. What RX_DRAIN, alone or inside IRQ, leaves of the rings, whatever device events fall between its
accesses. -/

namespace Sys2Proof.Machine

/-- The frame without its receive half. -/
theorem RingKept.noRx {a b : Bool} {s t : State} (h : RingKept a b s t) : RingKept a false s t :=
  ⟨⟨h.cfg, h.txBase, h.rxBase, h.arp, h.tx, nofun⟩, h.dead⟩

/-- The slot `i` after the reserved one is filled and waits for the drain. -/
structure RxWaits (i : Nat) (s : State) : Prop where
  slot : i = (s.dev.rdt.toNat + 1) % s.cfg.nRx
  mine : cyclicMem s.cfg.nRx s.dev.rdh.toNat s.dev.rdt.toNat i = false
  ne : i ≠ s.dev.rdt.toNat

theorem RxWaits.frame {i : Nat} {a b : Bool} {s t : State} (h : RxWaits i s) (hi : i < s.cfg.nRx) (f : RingKept a b s t)
    (hb : b = true) : RxWaits i t := by
  obtain ⟨-, g2, g3, -, -⟩ := f.rx hb
  refine ⟨by rw [g2, f.cfg]; exact h.slot, ?_, by rw [g2]; exact h.ne⟩
  rw [f.cfg]
  by_contra hc
  have := g3 i hi (by simpa using hc)
  rw [h.mine] at this
  cases this

/-- A slot whose DD is set waits where it stands after the reserved one. -/
theorem RxHalf.waits {s : State} (h : RxHalf false s) (hr : s.dev.rdt.toNat < s.cfg.nRx) {i : Nat}
    (hi : i = (s.dev.rdt.toNat + 1) % s.cfg.nRx) (hd : hasBit (rxd s i).status bitDD = true) : RxWaits i s := by
  refine ⟨hi, ?_, ?_⟩
  · by_contra hc
    have := (h.free i (by rw [hi]; exact succ_mod_lt hr) (by simpa using hc)).1
    rw [hd] at this
    cases this
  · rintro rfl
    rw [h.reserved.1] at hd
    cases hd

/-- A write into the open slot of the receive ring. -/
theorem RingsMid.rxSlotPut {a e b : Bool} {s : State} (h : RingsMid a e b true s) {i : Nat} (hi : i < s.cfg.nRx)
    (hib : b = true → RxWaits i s) {off : Nat} {bs : List Byte} (hl : off + bs.length ≤ 16) :
    RingsMid a e b true { s with mem := memPutBytes s.mem (rxdAddr s i + off) bs } ∧
      RingKept a false s { s with mem := memPutBytes s.mem (rxdAddr s i + off) bs } := by
  have g := h.guard
  have hby : ∀ c, (c < rxdAddr s i ∨ rxdAddr s i + 16 ≤ c) →
      byteAt { s with mem := memPutBytes s.mem (rxdAddr s i + off) bs } c = byteAt s c :=
    fun c hc => byteAt_memPutBytes_outside _ _ _ _ (by omega)
  obtain ⟨t, ht⟩ : ∃ t : State, t = { s with mem := memPutBytes s.mem (rxdAddr s i + off) bs } := ⟨_, rfl⟩
  rw [← ht] at hby ⊢
  have hring := overlaps_false g.rings.apart
  have hrx : ∀ j, j ≠ i → rxd t j = rxd s j := by
    intro j hj
    refine rxd_congr (by rw [ht]; rfl) fun c h1 h2 => hby c ?_
    simp only [rxdAddr, descSize] at *
    omega
  have htxb : ∀ j < s.cfg.nTx, ∀ c, txdAddr s j ≤ c → c < txdAddr s j + 16 → byteAt t c = byteAt s c := by
    intro j hj c h1 h2
    refine hby c ?_
    simp only [txdAddr, rxdAddr, descSize] at *
    omega
  have htxd : ∀ j < s.cfg.nTx, txd t j = txd s j := fun j hj => txd_congr (by rw [ht]; rfl) (htxb j hj)
  have hsee : ∀ j < s.cfg.nTx, DeviceSees s (txdAddr s j) 16 → DeviceSees t (txdAddr s j) 16 := by
    intro j hj hs
    rw [ht]
    refine hs.memPut ?_
    simp only [txdAddr, rxdAddr, descSize] at *
    omega
  have hxa : ∀ j, rxdAddr t j = rxdAddr s j := fun j => by rw [ht]; rfl
  have hseeRx : ∀ j, j ≠ i → DeviceSees s (rxdAddr s j) 8 → DeviceSees t (rxdAddr s j) 8 := by
    intro j hj hs
    rw [ht]
    refine hs.memPut ?_
    simp only [rxdAddr, descSize] at *
    omega
  have hd : t.dev = s.dev ∧ t.cfg = s.cfg ∧ t.txOwner = s.txOwner ∧ t.txRingBase = s.txRingBase ∧
      t.rxOwner = s.rxOwner := by
    rw [ht]; exact ⟨rfl, rfl, rfl, rfl, rfl⟩
  obtain ⟨d1, d2, d3, d4, d5⟩ := hd
  refine ⟨⟨by rw [ht]; exact ⟨g.1, g.2, ⟨g.3.1, g.3.2⟩, ⟨g.4.1, g.4.2⟩, g.5, g.6, g.7, g.8, g.9⟩, fun ha => ?_, fun hb => ?_⟩,
    ⟨d2, d4, by rw [ht], by rw [ht]; exact id, fun ha => ?_, nofun⟩,
    fun hd => ⟨by rw [d2]; exact hd.mode, by rw [d1]; exact hd.empty, fun j hj => ?_⟩⟩
  · obtain ⟨k1, k2, k3⟩ := h.tx ha
    constructor
    · rw [ht]; exact k1
    · rw [d1, d2, d3]
      intro j hj hm
      have e1 : txdAddr t j = txdAddr s j := by simp [txdAddr, d4]
      rw [htxd j hj, e1]
      obtain ⟨b1, b2, b3, b4⟩ := k2 j hj hm
      exact ⟨b1, b2, b3, hsee j hj b4⟩
    · rw [d1, d2]
      intro j hj hm hx
      rw [htxd j hj]
      exact k3 j hj hm hx
  · obtain ⟨k1, k2, k3⟩ := h.rx hb
    have w := hib hb
    constructor
    · rw [d1, d2, d5]
      intro j hj hm
      have : j ≠ i := by
        rintro rfl
        rw [w.mine] at hm
        cases hm
      rw [hrx j this, hxa]
      obtain ⟨b1, b2, b3⟩ := k1 j hj hm
      exact ⟨b1, b2, hseeRx j this b3⟩
    · rw [d1, d2]
      intro j hj hm hx
      rw [hrx j (by rw [w.slot]; exact hx rfl)]
      exact k2 j hj hm hx
    · rw [d1, d5, hrx _ (Ne.symm w.ne), hxa]; exact ⟨k3.1, k3.2.1, hseeRx _ (Ne.symm w.ne) k3.2.2⟩
  · rw [d1]
    exact ⟨d3, rfl, le_refl _, fun j hj => htxb _ g.txCursors.2 _ (by omega) (by omega), hsee _ g.txCursors.2⟩
  · rw [d2] at hj
    rw [htxd j hj]
    exact hd.clear j hj

/-- What a write of the open receive slot's field leaves, the device's events in front of it included. -/
theorem rxdWrite_rings {a e b : Bool} {s t : State} (h : RingsMid a e b true s) {i : Nat} (hi : i < s.cfg.nRx)
    (hib : b = true → RxWaits i s) {off : Nat} {bs : List Byte} (hl : off + bs.length ≤ 16)
    (k : rxdWrite i off bs s = .ok ((), t)) :
    RingsMid a e b true t ∧ RingKept a false s t ∧
    (b = true → RxWaits i t ∧ t.rxOwner = s.rxOwner ∧
      ∀ j < 16, byteAt t (rxdAddr s i + j) =
        if off ≤ j ∧ j < off + bs.length then bs.getD (j - off) 0 else byteAt s (rxdAddr s i + j)) := by
  unfold rxdWrite at k
  rw [bind_apply] at k
  split at k
  swap
  · cases k
  next u hu =>
  obtain ⟨h1, f1⟩ := keepsRings_point a e b true s () u h hu
  simp only [bind_apply, get_apply, ite_apply] at k
  split at k
  · cases k
  rw [memWrite_apply] at k
  split at k
  swap
  · cases k
  cases k
  have hib' : b = true → RxWaits i u := fun hb => (hib hb).frame hi f1 hb
  obtain ⟨h2, f2⟩ := h1.rxSlotPut (by rw [f1.cfg]; exact hi) hib' hl
  refine ⟨h2, f1.noRx.trans f2, fun hb => ?_⟩
  obtain ⟨g1, g2, g3, g4, -⟩ := f1.rx hb
  have hadr : rxdAddr u i = rxdAddr s i := by simp [rxdAddr, f1.rxBase]
  refine ⟨⟨(hib' hb).slot, (hib' hb).mine, (hib' hb).ne⟩, g1, fun j hj => ?_⟩
  rw [byteAt_memPutBytes, hadr]
  have e : (rxdAddr s i + off ≤ rxdAddr s i + j ∧ rxdAddr s i + j < rxdAddr s i + off + bs.length) ↔
      (off ≤ j ∧ j < off + bs.length) := by omega
  rw [show rxdAddr s i + j - (rxdAddr s i + off) = j - off by omega]
  simp only [e]
  split
  · rfl
  · exact g4 i hi (hib hb).mine j hj

/-- The slot RX_DRAIN replenishes, as RD4 leaves it: its owner record, its address, DD clear. -/
structure RxFresh (i : Nat) (nb : Addr) (s : State) : Prop where
  waits : RxWaits i s
  owner : s.rxOwner[i]? = some nb
  addr : bytesAt s (rxdAddr s i) 8 = leBytes 8 nb.toNat
  status : byteAt s (rxdAddr s i + 12) = 0x00

theorem RxFresh.frame {i : Nat} {nb : Addr} {a b : Bool} {s t : State} (h : RxFresh i nb s) (hi : i < s.cfg.nRx)
    (f : RingKept a b s t) (hb : b = true) : RxFresh i nb t := by
  obtain ⟨g1, -, -, g4, -⟩ := f.rx hb
  have hadr : rxdAddr t i = rxdAddr s i := by simp [rxdAddr, f.rxBase]
  have g4 := g4 i hi h.waits.mine
  refine ⟨h.waits.frame hi f hb, by rw [g1]; exact h.owner, ?_, ?_⟩
  · rw [hadr, ← h.addr]
    apply bytesAt_congr
    intro c h1 h2
    have := g4 (c - rxdAddr s i) (by omega)
    rwa [Nat.add_sub_cancel' h1] at this
  · rw [hadr, g4 12 (by omega)]; exact h.status

/-- The tail write hands the replenished ring over: the earlier reserved slot is the device's, slot `i` is reserved. -/
theorem RingsMid.rxPublish {a e b : Bool} {s : State} (h : RingsMid a e b true s) {i : Nat} (hi : i < s.cfg.nRx)
    {nb : Addr} (hf : b = true → RxFresh i nb s ∧ DeviceSees s (rxdAddr s i) 8) :
    RingsMid a e b false { s with dev := { s.dev with rdt := BitVec.ofNat 32 i } } ∧
    RingKept a false s { s with dev := { s.dev with rdt := BitVec.ofNat 32 i } } := by
  have g := h.guard
  obtain ⟨v, hv⟩ : ∃ v : Word, v = BitVec.ofNat 32 i := ⟨_, rfl⟩
  have hvi : v.toNat = i := by
    have := g.sizes.rx
    rw [hv, BitVec.toNat_ofNat, Nat.mod_eq_of_lt (by omega)]
  rw [← hv]
  obtain ⟨t, hts⟩ : ∃ t : State, t = { s with dev := { s.dev with rdt := v } } := ⟨_, rfl⟩
  rw [← hts]
  have c1 : t.cfg = s.cfg ∧ t.txRingBase = s.txRingBase ∧ t.rxRingBase = s.rxRingBase ∧ t.txOwner = s.txOwner ∧
      t.rxOwner = s.rxOwner ∧ t.bufs = s.bufs ∧ t.arpSeen = s.arpSeen ∧ t.dev = { s.dev with rdt := v } := by
    rw [hts]; exact ⟨rfl, rfl, rfl, rfl, rfl, rfl, rfl, rfl⟩
  obtain ⟨c1, c2, c3, c4, c5, c6, c7, c8⟩ := c1
  have hby : ∀ c, byteAt t c = byteAt s c := by intro c; rw [hts]; rfl
  have hsees : ∀ x n, DeviceSees s x n → DeviceSees t x n := by intro x n hs; rw [hts]; exact hs
  clear hts
  have hta : ∀ j, txdAddr t j = txdAddr s j := by intro j; simp [txdAddr, c2]
  have htx : ∀ j, txd t j = txd s j := fun j => txd_congr (hta j) fun c _ _ => hby c
  have hxa : ∀ j, rxdAddr t j = rxdAddr s j := by intro j; simp [rxdAddr, c3]
  have hrx : ∀ j, rxd t j = rxd s j := fun j => rxd_congr (hxa j) fun c _ _ => hby c
  have d : t.dev.tdh = s.dev.tdh ∧ t.dev.tdt = s.dev.tdt ∧ t.dev.rdh = s.dev.rdh ∧ t.dev.rdt = v ∧
      t.dev.txCount = s.dev.txCount := by
    rw [c8]; exact ⟨rfl, rfl, rfl, rfl, rfl⟩
  obtain ⟨d1, d2, d3, d4, d5⟩ := d
  obtain ⟨q1, q2⟩ := g.rxCursors
  refine ⟨⟨⟨?_, ?_, ?_, ?_, ?_, ?_, ?_, ?_, ?_⟩, fun ha => ?_, fun hb => ?_⟩,
    ⟨c1, c2, c3, fun x => c7.trans x, fun ha => ?_, nofun⟩,
    fun hd => ⟨by rw [c1]; exact hd.mode, by rw [d1, d2]; exact hd.empty, fun j hj => ?_⟩⟩
  · rw [c1]; exact g.sizes
  · rw [c1, c2, c3]; exact g.rings
  · exact ⟨by rw [c8, c2]; exact g.tx.base, by rw [c8, c1]; exact g.tx.length⟩
  · exact ⟨by rw [c8, c3]; exact g.rx.base, by rw [c8, c1]; exact g.rx.length⟩
  · rw [d1, d2, c1]; exact g.txCursors
  · rw [d3, d4, c1, hvi]; exact ⟨q1, hi⟩
  · simp only [OwnersSized, c4, c5, c1]; exact g.owners
  · rw [c6, c1, c2, c3]; exact g.bufs
  · rw [c8]; exact g.noReset
  · obtain ⟨k1, k2, k3⟩ := h.tx ha
    constructor
    · rw [c1, d1, d2, ← k1]; simp only [txOutstanding, c1, d1, d2, d5]
    · rw [c1, d1, d2, c4]
      intro j hj hm
      rw [htx, hta]
      obtain ⟨b1, b2, b3, b4⟩ := k2 j hj hm
      exact ⟨b1, b2, b3, hsees _ _ b4⟩
    · rw [c1, d1, d2]
      intro j hj hm hx
      rw [htx]
      exact k3 j hj hm hx
  · obtain ⟨f, hsee⟩ := hf hb
    obtain ⟨k1, k2, k3⟩ := h.rx hb
    obtain ⟨w1, w2, w3⟩ := f.waits
    have hne : (s.dev.rdt.toNat + 1) % s.cfg.nRx ≠ s.dev.rdh.toNat := by
      intro hc
      rw [← w1] at hc
      by_cases hq : s.dev.rdh.toNat = s.dev.rdt.toNat
      · exact w3 (hc.trans hq)
      · rw [hc, cyclicMem_head q1 q2 hq] at w2
        cases w2
    have hfree : ∀ j < s.cfg.nRx, cyclicMem s.cfg.nRx s.dev.rdh.toNat i j = true →
        hasBit (rxd s j).status bitDD = false ∧ s.rxOwner[j]? = some (rxd s j).addr ∧
          DeviceSees s (rxdAddr s j) 8 := by
      intro j hj hm
      rw [w1] at hm
      rcases (cyclicMem_succ_tail q1 q2 hj hne).1 hm with hm | hm
      · exact k1 j hj hm
      · rw [hm]; exact k3
    constructor
    · rw [c1, d3, d4, hvi, c5]
      intro j hj hm
      rw [hrx, hxa]
      obtain ⟨b1, b2, b3⟩ := hfree j hj hm
      exact ⟨b1, b2, hsees _ _ b3⟩
    · rw [c1, d3, d4, hvi]
      intro j hj hm _
      rw [hrx]
      obtain ⟨m1, m2⟩ := (cyclicMem_succ_head hi q1 hj (by rw [w1]; exact hne)).1 hm
      rw [w1] at m1 m2
      exact k2 j hj m1 fun _ => m2
    · rw [d4, hvi, c5, hrx, hxa]
      refine ⟨?_, ?_, hsees _ _ hsee⟩
      · rw [rxd_status, show rxdAddr s i + offStatus = rxdAddr s i + 12 from rfl, f.status]
        rfl
      · rw [rxd_addr, f.addr, f.owner]
        exact congrArg some (ofNat_leNat_leBytes (n := 8) rfl nb).symm
  · rw [d1, d2]
    exact ⟨c4, rfl, le_refl _, fun _ _ => hby _, hsees _ _⟩
  · rw [c1] at hj
    rw [htx]
    exact hd.clear j hj

/-- RD4 and RD5. -/
theorem replenish_rings {a e b : Bool} {s t : State} (h : RingsMid a e b false s) {i : Nat} (hi : i < s.cfg.nRx)
    (hib : b = true → RxWaits i s) (k : replenish i s = .ok ((), t)) :
    RingsMid a e b false t ∧ RingKept a false s t ∧ (b = true → t.dev.rdt.toNat = i) := by
  unfold replenish at k
  rw [bind_apply] at k
  split at k
  swap
  · cases k
  next nb? u hu =>
  obtain ⟨h1, f1⟩ := keepsRings_alloc .rxPath a e b false s nb? u h hu
  cases nb? with
  | none => cases k
  | some nb =>
  simp only [bind_apply, update_apply] at k
  have hw1 : b = true → RxWaits i u := fun hb => (hib hb).frame hi f1 hb
  have hi1 : i < u.cfg.nRx := by rw [f1.cfg]; exact hi
  obtain ⟨v, hv⟩ : ∃ v : State, v = { u with rxOwner := u.rxOwner.set i nb } := ⟨_, rfl⟩
  have h2 : RingsMid a e b true v ∧ RingKept a false u v := by
    have g := h1.guard
    rw [hv]
    refine ⟨⟨⟨g.1, g.2, ⟨g.3.1, g.3.2⟩, ⟨g.4.1, g.4.2⟩, g.5, g.6, ?_, g.8, g.9⟩, fun ha => ?_, fun hb => ?_⟩,
      ⟨rfl, rfl, rfl, id, fun ha => ?_, nofun⟩, fun hd => ⟨hd.mode, hd.empty, hd.clear⟩⟩
    · exact ⟨g.owners.1, (List.length_set ..).trans g.owners.2⟩
    · obtain ⟨k1, k2, k3⟩ := h1.tx ha
      exact ⟨k1, k2, k3⟩
    · obtain ⟨k1, k2, k3⟩ := h1.rx hb
      have w := hw1 hb
      have hset : ∀ j, j ≠ i → (u.rxOwner.set i nb)[j]? = u.rxOwner[j]? :=
        fun j hj => List.getElem?_set_ne (Ne.symm hj)
      refine ⟨fun j hj hm => ?_, fun j hj hm _ => k2 j hj hm nofun, ?_⟩
      · have hji : j ≠ i := by
          rintro rfl
          have hm : cyclicMem u.cfg.nRx u.dev.rdh.toNat u.dev.rdt.toNat j = true := hm
          rw [w.mine] at hm
          cases hm
        refine ⟨(k1 j hj hm).1, ?_, (k1 j hj hm).2.2⟩
        show (u.rxOwner.set i nb)[j]? = _
        rw [hset j hji]
        exact (k1 j hj hm).2.1
      · refine ⟨k3.1, ?_, k3.2.2⟩
        show (u.rxOwner.set i nb)[u.dev.rdt.toNat]? = _
        rw [hset _ (Ne.symm w.ne)]
        exact k3.2.1
    · exact ⟨rfl, rfl, le_refl _, fun _ _ => rfl, id⟩
  obtain ⟨h2, f2⟩ := h2
  have hvo : i < u.rxOwner.length := by rw [h1.guard.owners.2]; exact hi1
  have hvd : v.cfg = u.cfg ∧ v.rxOwner = u.rxOwner.set i nb ∧ (b = true → RxWaits i v) := by
    rw [hv]; exact ⟨rfl, rfl, fun hb => ⟨(hw1 hb).slot, (hw1 hb).mine, (hw1 hb).ne⟩⟩
  rw [← hv] at k
  clear hv
  split at k
  swap
  · cases k
  next w hw =>
  obtain ⟨h3, f3, p3⟩ := rxdWrite_rings h2 (i := i) (by rw [hvd.1]; exact hi1) hvd.2.2 (by simp [offAddr]) hw
  split at k
  swap
  · cases k
  next x hx =>
  have hiw : i < w.cfg.nRx := by rw [f3.cfg, hvd.1]; exact hi1
  obtain ⟨h4, f4, p4⟩ := rxdWrite_rings h3 (i := i) hiw (fun hb => (p3 hb).1) (by simp [offStatus]) hx
  have hfresh : b = true → RxFresh i nb x := by
    intro hb
    obtain ⟨a1, a2, a3⟩ := p3 hb
    obtain ⟨b1, b2, b3⟩ := p4 hb
    have hadr : rxdAddr x i = rxdAddr w i := by simp [rxdAddr, f4.rxBase]
    have hadr' : rxdAddr w i = rxdAddr v i := by simp [rxdAddr, f3.rxBase]
    refine ⟨b1, ?_, ?_, ?_⟩
    · rw [b2, a2, hvd.2.1, List.getElem?_set_self hvo]
    · rw [hadr]
      refine (bytesAt_eq_of (bs := leBytes 8 nb.toNat) fun j hj => ?_).trans rfl |> fun e => by simpa using e
      have hj8 : j < 8 := by simpa using hj
      rw [b3 j (by omega), if_neg (by simp only [offStatus]; omega), hadr', a3 j (by omega),
        if_pos (by simp [offAddr, hj8])]
      simp [offAddr, List.getD_eq_getElem?_getD, List.getElem?_eq_getElem hj]
    · rw [hadr, b3 12 (by omega)]
      simp [offStatus]
  have hix : i < x.cfg.nRx := by rw [f4.cfg]; exact hiw
  split at k
  swap
  · cases k
  next y hy =>
  obtain ⟨h5, f5⟩ := keepsRings_fence a e b true x () y h4 hy
  have hsee : b = true → DeviceSees y (rxdAddr y i) 8 := by
    intro hb
    obtain ⟨v, hv, rfl⟩ := fence_spec hy
    obtain ⟨h0, f0⟩ := keepsRings_point a e b true x () v h4 hv
    refine .fence fun c c1 c2 hc => ?_
    have hm := ((hfresh hb).frame hix f0 hb).waits.mine
    rw [h0.guard.rxSlot_mine (i := i) (by rw [f0.cfg]; exact hix) hm c1
      (Nat.lt_of_lt_of_le c2 (Nat.add_le_add_left (by decide) _))] at hc
    cases hc
  unfold regWrite regStore at k
  rw [bind_apply] at k
  split at k
  swap
  · cases k
  next z hz =>
  obtain ⟨h6, f6⟩ := keepsRings_point a e b true y () z h5 hz
  simp only [bind_apply, get_apply] at k
  rcases hr : regWriteRefusal z .rdt (BitVec.ofNat 32 i) with _ | r
  swap
  · rw [hr] at k; cases k
  rw [hr] at k
  cases k
  have f56 := f5.trans f6
  have hiz : i < z.cfg.nRx := by rw [f56.cfg]; exact hix
  have e : setDev (writeReg z.cfg .rdt (BitVec.ofNat 32 i) z.dev) z =
      { z with dev := { z.dev with rdt := BitVec.ofNat 32 i } } := setDev_sameIrq _ _ rfl rfl
  obtain ⟨h7, f7⟩ := h6.rxPublish hiz (nb := nb) fun hb => ⟨(hfresh hb).frame hix f56 hb, by
    have := (f6.rx hb).2.2.2.2 i (by rw [f5.cfg]; exact hix) (hsee hb)
    rwa [show rxdAddr z i = rxdAddr y i by simp [rxdAddr, f6.rxBase]]⟩
  simp only [e]
  refine ⟨h7, (((f1.noRx.trans f2).trans f3).trans f4).trans (f56.noRx.trans f7), fun _ => ?_⟩
  show (BitVec.ofNat 32 i).toNat = i
  have := h6.guard.sizes.rx
  rw [BitVec.toNat_ofNat, Nat.mod_eq_of_lt (by omega)]

/-! ### The drain -/

/-- RD3. -/
theorem deliver_rings (i k : Nat) : RepliesRings (deliver i k) :=
  .bind (KeepsRings.replies .get) fun _ => .bind (KeepsRings.replies (keepsRings_rxdRead _ _ _)) fun _ =>
    .bind (KeepsRings.replies (keepsRings_owner _ _)) fun _ => repliesRings_callFrom _ (classify_rings _ _)

/-- Between two iterations of the drain. -/
structure DrainsRings (a b : Bool) (n i : Nat) (s : State) : Prop where
  mid : RingsMid a false b false s
  room : a = true → s.arpSeen = false → TxRoom s
  size : s.cfg.nRx = n
  slot : i < n
  next : b = true → i = (s.dev.rdt.toNat + 1) % n

theorem drainLoop_rings {a b : Bool} {n : Nat} : ∀ (left i done : Nat) (s : State) (x : Nat) (t : State),
    DrainsRings a b n i s → drainLoop n left i done s = .ok (x, t) →
    RingsMid a false b false t ∧ t.cfg = s.cfg ∧ (TxDead s → TxDead t) := by
  intro left
  induction left with
  | zero =>
    intro i done s x t h k
    cases k
    exact ⟨h.mid, rfl, id⟩
  | succ left ih =>
    intro i done s x t h k
    obtain ⟨h0, hroom, hsize, hi, hnext⟩ := h
    unfold drainLoop at k
    rw [bind_apply] at k
    split at k
    swap
    · cases k
    next st u hu =>
    obtain ⟨h1, f1, r1⟩ := KeepsRings.replies (keepsRings_rxdPoll i) a b false s st u h0 hroom hu
    have hst : byteOf st = (rxd u i).status := by
      unfold rxdPoll at hu
      rw [bind_apply] at hu
      split at hu
      · simp only [bind_apply, get_apply, memRead_apply] at hu
        split at hu
        · cases hu
          rw [rxd_status]
          rfl
        · cases hu
      · cases hu
    have hiu : i < u.cfg.nRx := by rw [f1.cfg, hsize]; exact hi
    rw [ite_apply] at k
    split at k
    swap
    · cases k; exact ⟨h1, f1.cfg, f1.dead⟩
    next hdd =>
    rw [hst] at hdd
    have hw : b = true → RxWaits i u := fun hb =>
      (h1.rx hb).waits h1.guard.rxCursors.2 (by rw [(f1.rx hb).2.1, f1.cfg, hsize]; exact hnext hb) hdd
    rw [ite_apply] at k
    split at k
    swap
    · cases k
    rw [bind_apply] at k
    split at k
    swap
    · cases k
    next _ v hv =>
    obtain ⟨h2, f2, r2⟩ := deliver_rings i (n - (left + 1)) a b false u () v h1 r1 hv
    rw [bind_apply] at k
    split at k
    swap
    · cases k
    next _ w hwr =>
    have hiv : i < v.cfg.nRx := by rw [f2.cfg]; exact hiu
    obtain ⟨h3, f3, p3⟩ := replenish_rings h2 hiv (fun hb => (hw hb).frame hiu f2 hb) hwr
    have hcfg : w.cfg = s.cfg := by rw [f3.cfg, f2.cfg, f1.cfg]
    have hroom' : a = true → w.arpSeen = false → TxRoom w := by
      intro ha hseen
      refine (r2 ha ?_).frame f3 ha
      by_contra hc
      rw [f3.arp (by simpa using hc)] at hseen
      cases hseen
    obtain ⟨q1, q2, q3⟩ := ih ((i + 1) % n) (done + 1) w x t
      ⟨h3, hroom', hcfg ▸ hsize, succ_mod_lt hi, fun hb => by rw [p3 hb]⟩ k
    exact ⟨q1, q2.trans hcfg, q3 ∘ f3.dead ∘ f2.dead ∘ f1.dead⟩

/-- RX_DRAIN. -/
theorem rxDrain_rings {a b : Bool} {s t : State} (h : RingsMid a false b false s)
    (hr : a = true → s.arpSeen = false → TxRoom s) (k : rxDrainOp s = .ok ((), t)) :
    RingsMid a false b false t ∧ (TxDead s → TxDead t) := by
  unfold rxDrainOp withLock at k
  rw [bind_apply] at k
  split at k
  swap
  · cases k
  next _ u hu =>
  obtain ⟨h1, f1, r1⟩ := KeepsRings.replies (keepsRings_acquire .rx) a b false s () u h hr hu
  rw [bind_apply] at k
  split at k
  swap
  · cases k
  next y v hv =>
  rw [bind_apply] at hv
  split at hv
  swap
  · cases hv
  next rdt w hw =>
  obtain ⟨h2, f2, r2⟩ := KeepsRings.replies (keepsRings_regRead .rdt) a b false u rdt w h1 r1 hw
  simp only [bind_apply, get_apply] at hv
  split at hv
  swap
  · cases hv
  next n z hz =>
  have hlt := succ_mod_lt h2.guard.rxCursors.2
  obtain ⟨h3, -, d3⟩ := drainLoop_rings w.cfg.nRx ((rdt.toNat + 1) % w.cfg.nRx) 0 w n z
    ⟨h2, r2, rfl, by rw [regRead_rdt hw]; exact hlt, fun _ => by rw [regRead_rdt hw]⟩ hz
  obtain ⟨h4, f4⟩ := KeepsRings.whenever _ (.emit _) a false b false z () v h3 hv
  obtain ⟨h5, f5⟩ := (KeepsRings.bind (keepsRings_locks fun s => s.locks.erase .rx) fun _ => .pure _)
    a false b false v () t h4 k
  exact ⟨h5, f5.dead ∘ f4.dead ∘ d3 ∘ f2.dead ∘ f1.dead⟩

/-- IRQ. -/
theorem irq_rings {a b : Bool} {s t : State} (h : RingsMid a false b false s)
    (hr : a = true → s.arpSeen = false → TxRoom s) (k : irqOp s = .ok ((), t)) :
    RingsMid a false b false t ∧ (TxDead s → TxDead t) := by
  unfold irqOp irqEntry callFrom irqReturn at k
  simp only [bind_apply, update_apply, get_apply] at k
  obtain ⟨h1, f1⟩ := (RingSame.of_eq (t := { s with irqHeld := false, sw := .irqI1 }) h.guard.bufs rfl rfl rfl rfl rfl rfl
    id rfl (.inl rfl) rfl).mid h
  split at k
  swap
  · cases k
  next _ u hu =>
  obtain ⟨h2, f2⟩ := keepsRings_ack _ a false b false _ () u h1 hu
  have f := f1.trans f2
  obtain ⟨h3, f3⟩ := (RingSame.of_eq (t := { u with sw := .irqI2 }) h2.guard.bufs rfl rfl rfl rfl rfl rfl
    id rfl (.inl rfl) rfl).mid h2
  split at k
  swap
  · cases k
  next x v hv =>
  split at hv
  swap
  · cases hv
  next y w hw =>
  cases hv
  cases k
  have f' := f.trans f3
  obtain ⟨h4, d4⟩ := rxDrain_rings h3 (fun ha hs => by
    refine (hr ha ?_).frame f' ha
    by_contra hc
    rw [f'.arp (by simpa using hc)] at hs
    cases hs) hw
  obtain ⟨h5, f5⟩ := (RingSame.of_eq (t := { w with sw := .idle }) h4.guard.bufs rfl rfl rfl rfl rfl rfl
    id rfl (.inl rfl) rfl).mid h4
  exact ⟨h5, f5.dead ∘ d4 ∘ f'.dead⟩

end Sys2Proof.Machine
end

