-- ==== Sys2Proof/Laws/Skips.lean ====
section
/-! SUPPORT. Accesses at which the schedule holds no event: an operation run past them does what it does where nothing
is scheduled, and comes out with the rest of the schedule (spec/20_memory.md R111). INIT's accesses from S4 to S15 are
counted so. -/

namespace Sys2Proof.Machine

/-- The state with another schedule. -/
def onSched (l : List (List DevEvent)) (s : State) : State := { s with sched := l }

@[simp] theorem onSched_sched (l : List (List DevEvent)) (s : State) : (onSched l s).sched = l := rfl
@[simp] theorem onSched_onSched (l m : List (List DevEvent)) (s : State) : onSched l (onSched m s) = onSched l s := rfl
theorem onSched_self {s : State} {l : List (List DevEvent)} (h : s.sched = l) : onSched l s = s := by subst h; rfl

/-- `m` makes `n` accesses wherever it runs to its end: past `n` points without an event it does what it does where
nothing is scheduled. -/
def Skips {α : Type} (n : Nat) (m : M α) : Prop :=
  ∀ (s t : State) (a : α), s.sched = [] → m s = .ok (a, t) →
    t.sched = [] ∧ ∀ later, m (onSched (List.replicate n [] ++ later) s) = .ok (a, onSched later t)

namespace Skips

variable {α β : Type} {n k : Nat}

theorem pure (a : α) : Skips 0 (Pure.pure a : M α) := by
  intro s t b hs h
  cases h
  exact ⟨hs, fun _ => rfl⟩

theorem bind {m : M α} {f : α → M β} (hm : Skips n m) (hf : ∀ a, Skips k (f a)) : Skips (n + k) (m >>= f) := by
  intro s t b hs h
  rw [bind_apply] at h
  split at h
  · next a u hu =>
    obtain ⟨h1, h2⟩ := hm s u a hs hu
    obtain ⟨h3, h4⟩ := hf a u t b h1 h
    refine ⟨h3, fun later => ?_⟩
    rw [bind_apply, List.replicate_add, List.append_assoc, h2]
    exact h4 later
  · cases h

/-- Reading the state, where what is done with it does not look at the schedule. -/
theorem getBind {f : State → M β} (hf : ∀ s, Skips n (f s)) (he : ∀ s l, f (onSched l s) = f s) :
    Skips n (get >>= f) := by
  intro s t b hs h
  rw [bind_apply, get_apply] at h
  obtain ⟨h1, h2⟩ := hf s s t b hs h
  refine ⟨h1, fun later => ?_⟩
  rw [bind_apply, get_apply]
  simp only [he]
  exact h2 later

theorem update {f : State → State} (hf : ∀ s l, f (onSched l s) = onSched l (f s)) : Skips 0 (update f) := by
  intro s t b hs h
  cases h
  refine ⟨?_, fun later => ?_⟩
  · have := hf s []
    rw [onSched_self hs] at this
    rw [this]; rfl
  · rw [update_apply, List.replicate_zero, List.nil_append, hf]

theorem point : Skips 1 point := by
  intro s t b hs h
  rw [point_quiet hs] at h
  cases h
  exact ⟨hs, fun later => point_skip rfl⟩

theorem ite {c : Prop} [Decidable c] {x y : M α} (hx : Skips n x) (hy : Skips n y) : Skips n (if c then x else y) := by
  split <;> assumption

/-- What stops there makes any number of accesses. -/
theorem ofStop {m : M α} (h : ∀ s t a, m s ≠ .ok (a, t)) : Skips n m := fun s t a _ e => absurd e (h s t a)

theorem raiseModelFault (f : ModelFault) : Skips n (raiseModelFault f : M α) := ofStop fun _ _ _ e => by cases e

theorem guardFault {f : Option ModelFault} {m : M α} (hm : Skips n m) : Skips n (guardFault f m) := by
  cases f with
  | none => exact hm
  | some f => exact raiseModelFault f

theorem memWrite (a : Nat) (bs : List Byte) : Skips 0 (memWrite a bs) := by
  intro s t b hs h
  rw [memWrite_apply] at h
  split at h
  · next hf => cases h; exact ⟨hs, fun later => by rw [memWrite_apply, if_pos hf]; rfl⟩
  · cases h

theorem dmaWrite (a : Nat) (bs : List Byte) : Skips 0 (dmaWrite a bs) := by
  intro s t b hs h
  rw [dmaWrite_apply] at h
  split at h
  · next hf => cases h; exact ⟨hs, fun later => by rw [dmaWrite_apply, if_pos hf]; rfl⟩
  · cases h

theorem forUpTo {body : Nat → M Unit} {k : Nat} (hb : ∀ i < k, Skips n (body i)) : Skips (n * k) (forUpTo body k) := by
  induction k with
  | zero => exact Skips.pure ()
  | succ k ih =>
    rw [Nat.mul_succ]
    exact (ih fun i hi => hb i (by omega)).bind fun _ => hb k (by omega)

theorem descWriteFields {write : Nat → List Byte → M Unit} (hw : ∀ o bs, Skips 1 (write o bs))
    (fs : List (Nat × List Byte)) : Skips fs.length (descWriteFields write fs) := by
  induction fs with
  | nil => exact Skips.pure ()
  | cons f fs ih => rw [List.length_cons, Nat.add_comm]; exact (hw _ _).bind fun _ => ih

theorem txdWrite (i off : Nat) (bs : List Byte) : Skips 1 (txdWrite i off bs) := by
  unfold Machine.txdWrite
  exact point.bind (k := 0) fun _ =>
    getBind (fun _ => .ite (.raiseModelFault _) (.guardFault (.memWrite _ _))) fun _ _ => rfl

theorem rxdPlace (i off : Nat) (bs : List Byte) : Skips 1 (rxdPlace i off bs) := by
  unfold Machine.rxdPlace
  exact point.bind (k := 0) fun _ => getBind (fun s => .ite (.raiseModelFault _) (by
    cases s.cfg.rxInitView
    exacts [.dmaWrite _ _, .memWrite _ _])) fun _ _ => rfl

theorem fence : Skips 1 fence := point.bind fun _ => .update fun _ _ => rfl

theorem regStore (name : RegName) (v : Word) (f : Params → DevRegs → DevRegs) : Skips 1 (regStore name v f) := by
  refine point.bind fun _ => getBind (n := 0) (fun s => ?_) fun _ _ => rfl
  split
  · exact ofStop fun _ _ _ e => by cases e
  · exact .update fun _ _ => rfl

theorem regWrite (name : RegName) (v : Word) : Skips 1 (regWrite name v) := regStore name v _

theorem alloc (who : Owner) : Skips 1 (alloc who) := by
  intro s t b hs h
  simp only [Machine.alloc, bind_apply, point_quiet hs, get_apply] at h
  have hp : ∀ later, Machine.point (onSched (List.replicate 1 [] ++ later) s) = .ok ((), onSched later s) :=
    fun later => point_skip rfl
  have hn : ∀ later, nextAllocAnswer (onSched later s) = ((nextAllocAnswer s).1, onSched later (nextAllocAnswer s).2) := by
    intro later
    unfold nextAllocAnswer onSched
    dsimp only
    split <;> rfl
  have hns : (nextAllocAnswer s).2.sched = [] := by
    unfold nextAllocAnswer
    split <;> exact hs
  simp only [Machine.alloc, bind_apply, hp, get_apply, hn]
  generalize nextAllocAnswer s = r at h hns
  obtain ⟨x, s'⟩ := r
  cases x with
  | none =>
    simp only [bind_apply, update_apply, pure_apply] at h ⊢
    cases h
    exact ⟨hns, fun _ => rfl⟩
  | some x =>
    simp only at h ⊢
    have ha : ∀ later, allocOk (onSched later s) x = allocOk s x := fun _ => rfl
    simp only [ha, Machine.ite_apply] at h ⊢
    split at h
    · next hk =>
      simp only [bind_apply, update_apply, pure_apply, hk, if_true] at h ⊢
      cases h
      exact ⟨hns, fun _ => rfl⟩
    · next hk =>
      simp only [bind_apply, update_apply, pure_apply, hk] at h ⊢
      cases h
      exact ⟨hns, fun _ => rfl⟩

theorem checkAlign (m info : Nat) : Skips 0 (checkAlign m info) :=
  getBind (fun _ => .ite (ofStop fun _ _ _ e => by cases e) (.pure ())) fun _ _ => rfl

/-- S6's slot: seven field writes. -/
theorem initTxSlot (i : Nat) : Skips 7 (initTxSlot i) :=
  (descWriteFields (txdWrite i) _).bind (k := 0) fun _ => .update fun _ _ => rfl

/-- S10's slot: Alloc and six field writes. -/
theorem initRxSlot (i : Nat) : Skips 7 (initRxSlot i) := by
  refine (alloc .rxPath).bind (k := 6) fun b => ?_
  cases b with
  | none => exact ofStop fun _ _ _ e => by cases e
  | some b =>
    exact (update (f := fun s => { s with rxOwner := s.rxOwner.set i b }) fun _ _ => rfl).bind (n := 0) fun _ =>
      descWriteFields (rxdPlace i) _

end Skips

/-! ### INIT's accesses -/

/-- S4 to S9 make `2 + 7 * N_TX + 5` accesses. -/
theorem initTxRing_skips {s t : State} (hs : s.sched = []) (h : initTxRing s = .ok ((), t)) :
    t.sched = [] ∧ ∀ later, initTxRing (onSched (List.replicate (2 + 7 * s.cfg.nTx + 5) [] ++ later) s) =
      .ok ((), onSched later t) := by
  unfold initTxRing at h ⊢
  rw [bind_apply, get_apply] at h
  obtain ⟨h1, h2⟩ := ((Skips.regWrite _ _).bind fun _ => Skips.fence.bind fun _ =>
    (Skips.forUpTo fun i _ => Skips.initTxSlot i).bind fun _ => (Skips.checkAlign _ _).bind fun _ => (Skips.regWrite _ _).bind fun _ =>
    (Skips.regWrite _ _).bind fun _ => (Skips.regWrite _ _).bind fun _ => (Skips.regWrite _ _).bind fun _ =>
    Skips.regWrite _ _) s t () hs h
  refine ⟨h1, fun later => ?_⟩
  rw [show 2 + 7 * s.cfg.nTx + 5 = 1 + (1 + (7 * s.cfg.nTx + (0 + (1 + (1 + (1 + (1 + 1))))))) by omega]
  exact h2 later

/-- S10 to S12 make `7 * N_RX + 5` accesses. -/
theorem initRxRing_skips {s t : State} (hs : s.sched = []) (h : initRxRing s = .ok ((), t)) :
    t.sched = [] ∧ ∀ later, initRxRing (onSched (List.replicate (7 * s.cfg.nRx + 5) [] ++ later) s) =
      .ok ((), onSched later t) := by
  unfold initRxRing at h ⊢
  rw [bind_apply, get_apply] at h
  obtain ⟨h1, h2⟩ := ((Skips.forUpTo fun i _ => Skips.initRxSlot i).bind fun _ => (Skips.checkAlign _ _).bind fun _ =>
    (Skips.regWrite _ _).bind fun _ => (Skips.regWrite _ _).bind fun _ => (Skips.regWrite _ _).bind fun _ =>
    (Skips.regWrite _ _).bind fun _ => Skips.regWrite _ _) s t () hs h
  refine ⟨h1, fun later => ?_⟩
  rw [show 7 * s.cfg.nRx + 5 = 7 * s.cfg.nRx + (0 + (1 + (1 + (1 + (1 + 1))))) by omega]
  exact h2 later

/-- The device registers S13 to S15 leave, with the multicast table `m`. -/
def enginesOn (p : Params) (m : Vector Word 128) (d : DevRegs) : DevRegs :=
  { d with
    ral0 := ral0Of p.localMac, rah0 := rah0Of p.localMac, mta := m, tctl := tctlInit, tipg := tipgInit, rctl := rctlInit }

/-- S16 and S17: the delay timers, the interrupt cause. -/
def initLast : M Unit := do
  regWrite .rdtr 0
  regWrite .radv 0
  regWrite .ims icrRxdw

/-- S13 to S15. -/
def initOn (p : Params) : M Unit := do
  regWrite .ral0 (ral0Of p.localMac)
  regWrite .rah0 (rah0Of p.localMac)
  forUpTo initMta 128
  regWrite .tctl tctlInit
  regWrite .tipg tipgInit
  regWrite .rctl rctlInit

theorem initEngines_split (s : State) : initEngines s = (initOn s.cfg >>= fun _ => initLast) s := by
  unfold initEngines initOn initLast
  simp only [bind_assoc]
  rw [bind_apply, get_apply]

theorem initMta_skips : Skips 128 (forUpTo initMta 128) := by
  have h := Skips.forUpTo (n := 1) (body := initMta) (k := 128) fun i hi => by
    unfold initMta
    rw [dif_pos hi]
    exact Skips.regWrite _ _
  exact h

theorem initOn_skips (p : Params) : Skips 133 (initOn p) := by
  unfold initOn
  rw [show 133 = 1 + (1 + (128 + (1 + (1 + 1)))) from rfl]
  exact (Skips.regWrite _ _).bind fun _ => (Skips.regWrite _ _).bind fun _ => initMta_skips.bind fun _ =>
    (Skips.regWrite _ _).bind fun _ => (Skips.regWrite _ _).bind fun _ => Skips.regWrite _ _

theorem initOn_ok {s : State} {d : DevRegs} (hs : s.sched = []) (hi : d.icr = 0) :
    ∃ m : Vector Word 128, (∀ (j : Nat) (h : j < 128), m[j] = 0) ∧
      initOn s.cfg (withDev d s) = .ok ((), withDev (enginesOn s.cfg m d) s) := by
  obtain ⟨m, hm, hz⟩ := initMtas (s := s)
    (d := { d with ral0 := ral0Of s.cfg.localMac, rah0 := rah0Of s.cfg.localMac }) hs hi 128
  refine ⟨m, fun j h => hz j h h, ?_⟩
  unfold initOn
  rw [bind_apply, regWrite_noCause hs (by simp [regWriteRefusal, reservedMask]) (by exact hi)]
  simp only [writeReg]
  rw [bind_apply, regWrite_noCause hs (by exact refusal_rah0) (by exact hi)]
  simp only [writeReg]
  rw [bind_apply, hm]
  simp only []
  rw [bind_apply, regWrite_noCause hs (by simp [regWriteRefusal, reservedMask, tctlInit]) (by exact hi)]
  simp only [writeReg]
  rw [bind_apply, regWrite_noCause hs (by simp [regWriteRefusal, reservedMask, tipgInit]) (by exact hi)]
  simp only [writeReg]
  rw [regWrite_noCause hs (by simp [regWriteRefusal, reservedMask, rctlInit]) (by exact hi)]
  rfl

/-- Up to S15, whatever events the schedule holds after it. -/
theorem initEngines_late {s : State} {d : DevRegs} (hs : s.sched = []) (hi : d.icr = 0) :
    ∃ m : Vector Word 128, (∀ (j : Nat) (h : j < 128), m[j] = 0) ∧ ∀ later,
      initEngines (onSched (List.replicate 133 [] ++ later) (withDev d s)) =
        initLast (onSched later (withDev (enginesOn s.cfg m d) s)) := by
  obtain ⟨m, hz, h⟩ := initOn_ok (s := s) (d := d) hs hi
  refine ⟨m, hz, fun later => ?_⟩
  rw [initEngines_split, bind_apply, show (onSched (List.replicate 133 [] ++ later) (withDev d s)).cfg = s.cfg from rfl,
    ((initOn_skips s.cfg) _ _ () (by exact hs) h).2 later]

theorem initLast_quiet {s : State} {d : DevRegs} (hs : s.sched = []) (hi : d.icr = 0) :
    initLast (withDev d s) = .ok ((), withDev { d with rdtr := 0, radv := 0, ims := d.ims ||| icrRxdw } s) := by
  unfold initLast
  rw [bind_apply, regWrite_noCause hs (by simp [regWriteRefusal, reservedMask]) (by exact hi)]
  simp only [writeReg]
  rw [bind_apply, regWrite_noCause hs (by simp [regWriteRefusal, reservedMask]) (by exact hi)]
  simp only [writeReg]
  rw [regWrite_noCause hs (by simp [regWriteRefusal, reservedMask]) (by exact hi)]
  rfl

/-- INIT's state after S17 is idle, INIT done. -/
def initClose : M Unit := update fun s => { s with sw := .idle, initPhase := .done }

/-- INIT from S4 on past `initAccesses` points without an event: S16 and S17 are left, from a state `x` whose device
receives with its interrupts masked, and with no event there either INIT ends as `AfterInit` says. -/
theorem initFinish_late {s : State} {bs : List Addr} {rest : List (Option Addr)} (h : InitReady s bs rest)
    (hal : s.cfg.nTx * 16 % s.cfg.ringAlign = 0) (hal' : s.cfg.nRx * 16 % s.cfg.ringAlign = 0)
    (hc : bs.length = s.cfg.nRx) :
    ∃ x t : State, x.sched = [] ∧ x.dev.icr = 0 ∧ x.dev.ims = 0 ∧ rxEnabled x.dev = true ∧ x.dev.resetPending = false ∧
      t = { withDev { x.dev with rdtr := 0, radv := 0, ims := icrRxdw } x with sw := .idle, initPhase := .done } ∧
      AfterInit s s.registerBase s.txRingBase s.rxRingBase bs rest t ∧
      initFinish s = .ok ((), t) ∧
      ∀ later, initFinish (onSched (List.replicate (initAccesses s.cfg) [] ++ later) s) =
        (initLast >>= fun _ => initClose) (onSched later x) := by
  obtain ⟨u, ht, e1⟩ := initTxRing_ok h hal
  obtain ⟨w, hr, e2⟩ := initRxRing_ok h ht (txRegs s.cfg s.txRingBase (maskedRegs s.dev)) h.dev.rx h.dev.icr hal' hc
  obtain ⟨p1, q1⟩ := initTxRing_skips h.sched e1
  obtain ⟨p2, q2⟩ := initRxRing_skips p1 e2
  have hws : w.sched = [] := p2
  have huc : u.cfg = s.cfg := by rw [ht.state]; rfl
  have hwc : w.cfg = s.cfg := by rw [hr.state]; exact huc
  obtain ⟨t, he, hA⟩ := initFinish_ok h hal hal' hc
  obtain ⟨d, hd⟩ : ∃ d, d = rxRegs s.cfg s.rxRingBase (txRegs s.cfg s.txRingBase (maskedRegs s.dev)) := ⟨_, rfl⟩
  rw [← hd] at e2 q2
  have hdi : d.icr = 0 := by rw [hd]; exact h.dev.icr
  have hdm : d.ims = 0 := by
    rw [hd]
    show s.dev.ims &&& ~~~(0xFFFFFFFF : Word) = 0
    rw [show (~~~(0xFFFFFFFF : Word)) = 0 by decide]
    simp
  have hdp : d.resetPending = false := by rw [hd]; exact h.dev.done.2
  obtain ⟨m, -, e3⟩ := initOn_ok (s := w) (d := d) hws hdi
  have q3 := ((initOn_skips w.cfg) _ _ () (by exact hws) e3).2
  refine ⟨withDev (enginesOn w.cfg m d) w, t, hws, hdi, hdm, ?_, hdp, ?_, hA, he, fun later => ?_⟩
  · show rxEnabled (enginesOn w.cfg m d) = true
    simp only [rxEnabled, enginesOn]
    decide
  · unfold initFinish at he
    rw [bind_apply, e1] at he
    simp only at he
    rw [bind_apply, e2] at he
    simp only at he
    rw [bind_apply, initEngines_split, bind_apply, withDev_cfg, e3] at he
    simp only at he
    rw [initLast_quiet hws (by exact hdi)] at he
    simp only [update_apply] at he
    cases he
    rw [show (enginesOn w.cfg m d).ims ||| icrRxdw = icrRxdw by
      show d.ims ||| icrRxdw = _
      rw [hdm]; simp]
    rfl
  · unfold initFinish
    rw [bind_apply, show List.replicate (initAccesses s.cfg) ([] : List DevEvent) ++ later =
      List.replicate (2 + 7 * s.cfg.nTx + 5) [] ++ (List.replicate (7 * s.cfg.nRx + 5) [] ++
        (List.replicate 133 [] ++ later)) by
      rw [← List.append_assoc, ← List.append_assoc, ← List.replicate_add, ← List.replicate_add]
      congr 2, q1]
    simp only
    rw [bind_apply, show s.cfg.nRx = (withDev (txRegs s.cfg s.txRingBase (maskedRegs s.dev)) u).cfg.nRx by
      rw [withDev_cfg, huc], q2]
    simp only
    rw [bind_apply, initEngines_split, bind_apply, show (onSched (List.replicate 133 [] ++ later) (withDev d w)).cfg = w.cfg from rfl,
      q3]
    simp only
    rw [bind_apply]
    rfl

end Sys2Proof.Machine
end

