-- ==== Sys2Proof/Machine/Assembler.lean ====
section
/-! DEFINITION. The textual form of the operations (spec/30_encoding.md R157): a line's characters to its command word
and ports. Numbers are decimal or 0x hexadecimal, addresses of R9 dotted quads or numbers, byte sequences quoted or
listed between brackets. What R157 leaves open of the form is log 41. -/

namespace Sys2Proof.Machine

/-- The value of a digit, hexadecimal digits in either case. -/
def digitOf (c : Char) : Option Nat :=
  let n := c.toNat
  if 0x30 ≤ n ∧ n ≤ 0x39 then some (n - 0x30)
  else if 0x41 ≤ n ∧ n ≤ 0x46 then some (n - 0x41 + 10)
  else if 0x61 ≤ n ∧ n ≤ 0x66 then some (n - 0x61 + 10)
  else none

/-- The number whose digits in a base are these, after the digits that made `acc`. -/
def digitsOf (base acc : Nat) : List Char → Option Nat
  | [] => some acc
  | c :: cs =>
    match digitOf c with
    | some d => if d < base then digitsOf base (acc * base + d) cs else none
    | none => none

/-- A decimal or 0x hexadecimal number. -/
def numberOf : List Char → Option Nat
  | [] => none
  | '0' :: 'x' :: c :: cs => digitsOf 16 0 (c :: cs)
  | c :: cs => digitsOf 10 0 (c :: cs)

/-- A number that fits `w` bits. -/
def fieldOf (w : Nat) (cs : List Char) : Option (BitVec w) :=
  match numberOf cs with
  | some n => if n < 2 ^ w then some (BitVec.ofNat w n) else none
  | none => none

/-- Without the spaces at the front. -/
def dropSpaces : List Char → List Char
  | [] => []
  | c :: cs => if c = ' ' then dropSpaces cs else c :: cs

/-- Without the spaces at both ends. -/
def trimmed (cs : List Char) : List Char := (dropSpaces (dropSpaces cs).reverse).reverse

/-- The parts between separators that stand in no quotes and in no brackets; `part` holds the running part,
reversed. -/
def partsOf (sep : Char) (quoted : Bool) (depth : Nat) (part : List Char) : List Char → List (List Char)
  | [] => [trimmed part.reverse]
  | c :: cs =>
    if c = sep ∧ quoted = false ∧ depth = 0 then trimmed part.reverse :: partsOf sep quoted depth [] cs
    else if c = '"' then partsOf sep (!quoted) depth (c :: part) cs
    else if c = '[' ∧ quoted = false then partsOf sep quoted (depth + 1) (c :: part) cs
    else if c = ']' ∧ quoted = false then partsOf sep quoted (depth - 1) (c :: part) cs
    else partsOf sep quoted depth (c :: part) cs

/-- Each part read, or nothing where one cannot be. -/
def allOf {α : Type} (read : List Char → Option α) : List (List Char) → Option (List α)
  | [] => some []
  | p :: ps =>
    match read p, allOf read ps with
    | some a, some as => some (a :: as)
    | _, _ => none

/-- An IPv4 address, as a dotted quad or as a number; the first part is the most significant byte
(spec/00_scope.md R11). -/
def ipOf (cs : List Char) : Option Word :=
  match partsOf '.' false 0 [] cs with
  | [_] => fieldOf 32 cs
  | parts =>
    match allOf (fieldOf 8) parts with
    | some [a, b, c, d] => some (a ++ b ++ c ++ d)
    | _ => none

/-- The characters of a quoted string up to its closing quote, one byte each. -/
def quotedOf : List Char → Option (List Byte)
  | [] => none
  | c :: cs =>
    if c = '"' then (if cs = [] then some [] else none)
    else if c.toNat < 256 then (quotedOf cs).map (BitVec.ofNat 8 c.toNat :: ·)
    else none

/-- A byte sequence: a quoted string, or byte numbers between brackets. -/
def bytesOf : List Char → Option (List Byte)
  | '"' :: cs => quotedOf cs
  | '[' :: cs =>
    match cs.reverse with
    | ']' :: rev =>
      if trimmed rev.reverse = [] then some [] else allOf (fieldOf 8) (partsOf ',' false 0 [] rev.reverse)
    | _ => none
  | _ => none

/-- The register names of spec/10_state.md R60 but for the multicast table's. -/
def registerNames : List (List Char × RegName) :=
  [("CTRL".toList, .ctrl), ("ICR".toList, .icr), ("IMS".toList, .ims), ("IMC".toList, .imc),
   ("RCTL".toList, .rctl), ("TCTL".toList, .tctl), ("TIPG".toList, .tipg),
   ("RDBAL".toList, .rdbal), ("RDBAH".toList, .rdbah), ("RDLEN".toList, .rdlen), ("RDH".toList, .rdh),
   ("RDT".toList, .rdt), ("RDTR".toList, .rdtr), ("RADV".toList, .radv),
   ("TDBAL".toList, .tdbal), ("TDBAH".toList, .tdbah), ("TDLEN".toList, .tdlen), ("TDH".toList, .tdh),
   ("TDT".toList, .tdt), ("RAL0".toList, .ral0), ("RAH0".toList, .rah0)]

/-- An entry of the multicast table, MTA[j] (R60). -/
def tableEntryOf : List Char → Option RegName
  | 'M' :: 'T' :: 'A' :: '[' :: cs =>
    match cs.reverse with
    | ']' :: rev =>
      match numberOf rev.reverse with
      | some j => if h : j < 128 then some (.mta ⟨j, h⟩) else none
      | none => none
    | _ => none
  | _ => none

/-- A register of R60 by its name. -/
def registerOf (cs : List Char) : Option RegName :=
  match registerNames.find? (fun x => x.1 == cs) with
  | some x => some x.2
  | none => tableEntryOf cs

/-- CKSUM's operands: an address and a length, or a byte sequence, alone or with its length. -/
def cksumOf : List (List Char) → Option Instr
  | [b] => (bytesOf b).map fun bs => .cksum (.data bs)
  | [a, n] =>
    match bytesOf a with
    | some bs => if numberOf n = some bs.length then some (.cksum (.data bs)) else none
    | none =>
      match fieldOf 64 a, fieldOf 16 n with
      | some a, some n => some (.cksum (.mem a n))
      | _, _ => none
  | _ => none

/-- The operation of an opcode with its operands in the order of R154. -/
def instrOf : Opcode → List (List Char) → Option Instr
  | .init, [r, t, x] =>
    match fieldOf 64 r, fieldOf 64 t, fieldOf 64 x with
    | some r, some t, some x => some (.init r t x)
    | _, _, _ => none
  | .txSubmit, [b, l] =>
    match fieldOf 64 b, fieldOf 16 l with
    | some b, some l => some (.txSubmit b l)
    | _, _ => none
  | .classify, [b, l] =>
    match fieldOf 64 b, fieldOf 16 l with
    | some b, some l => some (.classify b l)
    | _, _ => none
  | .arpRx, [b, l] =>
    match fieldOf 64 b, fieldOf 16 l with
    | some b, some l => some (.arpRx b l)
    | _, _ => none
  | .ipRx, [b, l] =>
    match fieldOf 64 b, fieldOf 16 l with
    | some b, some l => some (.ipRx b l)
    | _, _ => none
  | .udpPayload, [b, l, m] =>
    match fieldOf 64 b, fieldOf 16 l, fieldOf 64 m with
    | some b, some l, some m => some (.udpPayload b l m)
    | _, _, _ => none
  | .udpTx, [sp, ip, dp, pl] =>
    match fieldOf 16 sp, ipOf ip, fieldOf 16 dp, bytesOf pl with
    | some sp, some ip, some dp, some pl => some (.udpTx sp ip dp pl)
    | _, _, _, _ => none
  | .cksum, ops => cksumOf ops
  | .regRead, [n] => (registerOf n).map .regRead
  | .regWrite, [n, v] =>
    match registerOf n, fieldOf 32 v with
    | some n, some v => some (.regWrite n v)
    | _, _ => none
  | .devRxFrame, [f] => (bytesOf f).map .devRxFrame
  | .irq, [] => some .irq
  | .rxDrain, [] => some .rxDrain
  | .devReset, [] => some .devReset
  | .devTxStep, [] => some .devTxStep
  | _, _ => none

/-- The mnemonics of R154, the pseudo-operations of R157 with operands, and the source's names, which are aliases. -/
def opcodeNames : List (List Char × Opcode) :=
  [("INIT".toList, .init), ("TX_SUBMIT".toList, .txSubmit), ("IRQ".toList, .irq), ("RX_DRAIN".toList, .rxDrain),
   ("CLASSIFY".toList, .classify), ("ARP_RX".toList, .arpRx), ("IP_RX".toList, .ipRx),
   ("UDP_PAYLOAD".toList, .udpPayload), ("UDP_TX".toList, .udpTx), ("CKSUM".toList, .cksum),
   ("REG_READ".toList, .regRead), ("REG_WRITE".toList, .regWrite), ("DEV_RESET".toList, .devReset),
   ("DEV_TX_STEP".toList, .devTxStep), ("DEV_RX_FRAME".toList, .devRxFrame),
   ("SEND".toList, .udpTx), ("INTERRUPT".toList, .irq),
   ("initialize".toList, .init), ("transmit".toList, .txSubmit), ("checksum".toList, .cksum),
   ("classify_and_dispatch".toList, .classify), ("send".toList, .udpTx), ("receive".toList, .udpPayload),
   ("interrupt()".toList, .irq)]

/-- The pseudo-operations of R157 without operands. -/
def pseudoNames : List (List Char × Instr) :=
  [("ACK".toList, pseudoAck), ("RING_TX_TAIL".toList, pseudoRingTxTail), ("MASK_ALL".toList, pseudoMaskAll),
   ("ENABLE_RXDW".toList, pseudoEnableRxdw)]

/-- A line's first word and the rest. -/
def firstWord : List Char → List Char × List Char
  | [] => ([], [])
  | c :: cs => if c = ' ' then ([], cs) else (c :: (firstWord cs).1, (firstWord cs).2)

/-- The operation a line names: the mnemonic, then its operands separated by commas (R157). -/
def lineOf (line : List Char) : Option Instr :=
  let w := firstWord (trimmed line)
  let rest := trimmed w.2
  let ops := if rest = [] then [] else partsOf ',' false 0 [] rest
  match pseudoNames.find? (fun x => x.1 == w.1) with
  | some x => if ops = [] then some x.2 else none
  | none =>
    match opcodeNames.find? (fun x => x.1 == w.1) with
    | some x => instrOf x.2 ops
    | none => none

/-- The command word and the ports of a line (R157). -/
def assemble (ro : RegOff) (line : String) : Option (Word × Ports) := (lineOf line.toList).map (encode ro)

end Sys2Proof.Machine
end

