-- ==== Sys2Proof/Tests/Slice0.lean ====
section
/-! SUPPORT. The model's own tests: the checks of WellFormed on ill-formed terms, every operation's command word
written out from spec/30_encoding.md R153 and R154, one-step tests with the results of spec/95_test_vectors.md, and for
every obligation with hypotheses a state and operands that meet them (`witness_…`). -/

namespace Sys2Proof.Tests

open Sys2Proof Sys2Proof.Machine

-- One theorem at a time: many evaluations at once would need more threads than the check admits.
set_option Elab.async false

/-! ### WellFormed refuses one ill-formed term for each check -/

theorem test_wf_ring_base : malformed .reference (.init 0x40000000 0x80010008 0x80010100) = some .ringBaseUnaligned := by
  decide
theorem test_wf_tx_length : malformed .reference (.txSubmit 0x80100000 4097) = some .txLength := by decide
theorem test_wf_cksum_length (bs : List Byte) (h : bs.length = 65536) :
    malformed .reference (.cksum (.data bs)) = some .cksumTooLong := if_neg (by omega)
theorem test_wf_imc_read : malformed .reference (.regRead .imc) = some .imcNotReadable := by decide
theorem test_wf_frame_length : malformed .reference (.devRxFrame (List.replicate 13 0)) = some .frameLength := by decide
theorem test_wf_accepts : malformed .reference (.txSubmit 0x80100000 4096) = none ∧
    malformed .reference (.devRxFrame (List.replicate 14 0)) = none := by decide

/-! ### Every operation's command word (R154), and words that are none (R156) -/

/-- The operation of a command word of the reference register map. -/
def read (w : Word) (p : Ports := {}) : Except DecodeError Instr := decode .reference w p

theorem test_decode_init : read 0x00000001
    { registerBase := 0x40000000, txRingBase := 0x80010000, rxRingBase := 0x80010100 } =
    .ok (.init 0x40000000 0x80010000 0x80010100) := by decide +kernel
theorem test_decode_tx_submit : read 0x00000002 { buf := 0x80100000, len := 42 } = .ok (.txSubmit 0x80100000 42) := by
  decide +kernel
theorem test_decode_irq : read 0x00000003 = .ok .irq := by decide +kernel
theorem test_decode_rx_drain : read 0x00000004 = .ok .rxDrain := by decide +kernel
theorem test_decode_classify : read 0x00000005 { buf := 0x87F00000, len := 60 } = .ok (.classify 0x87F00000 60) := by
  decide +kernel
theorem test_decode_arp_rx : read 0x00000006 { buf := 0x87F00000, len := 42 } = .ok (.arpRx 0x87F00000 42) := by
  decide +kernel
theorem test_decode_ip_rx : read 0x00000007 { buf := 0x87F00000, len := 44 } = .ok (.ipRx 0x87F00000 44) := by
  decide +kernel
theorem test_decode_udp_payload : read 0x00000008 { buf := 0x87F00000, len := 44, maxLen := 16 } =
    .ok (.udpPayload 0x87F00000 44 16) := by decide +kernel
theorem test_decode_udp_tx : read 0x00000009 { sport := 5000, dstIp := 0x0A000202, dport := 6000, payload := [0x68] } =
    .ok (.udpTx 5000 0x0A000202 6000 [0x68]) := by decide +kernel
theorem test_decode_cksum : read 0x0000000A { addr := 0x87F0000E, n := 20 } = .ok (.cksum (.mem 0x87F0000E 20)) ∧
    read 0x0000000A { n := 1, dataBytes := some [0x01] } = .ok (.cksum (.data [0x01])) := by decide +kernel
theorem test_decode_reg_read : read 0x00000010 { regOffset := 0x3818 } = .ok (.regRead .tdt) ∧
    read 0x00000010 { regOffset := 0x53FC } = .ok (.regRead (.mta 127)) := by decide +kernel
theorem test_decode_reg_write : read 0x00000011 { regOffset := 0xC0, value := 0x80 } = .ok (.regWrite .icr 0x80) ∧
    read 0x00000011 { regOffset := 0x5404, value := 1 } = .ok (.regWrite .rah0 1) := by decide +kernel
theorem test_decode_dev_reset : read 0x00000080 = .ok .devReset := by decide +kernel
theorem test_decode_dev_tx_step : read 0x00000081 = .ok .devTxStep := by decide +kernel
theorem test_decode_dev_rx_frame : read 0x00000082 { frame := [0xFF, 0x52] } = .ok (.devRxFrame [0xFF, 0x52]) := by
  decide +kernel

theorem test_decode_reserved_codes :
    read 0x00 = .error .unknownOpcode ∧ read 0x0B = .error .unknownOpcode ∧ read 0x0F = .error .unknownOpcode ∧
    read 0x12 = .error .unknownOpcode ∧ read 0x7F = .error .unknownOpcode ∧ read 0x83 = .error .unknownOpcode ∧
    read 0xFF = .error .unknownOpcode := by decide +kernel
theorem test_decode_reserved_bits : read 0x00000100 = .error .reservedWordBits ∧
    read 0x80000001 = .error .reservedWordBits := by decide +kernel
theorem test_decode_register_accesses :
    read 0x00000010 { regOffset := 0xC0, regWidth := .half16 } = .error .wrongWidth ∧
    read 0x00000010 { regOffset := 0xC2 } = .error .misaligned ∧
    read 0x00000011 { regOffset := 0x0008 } = .error .unknownRegister := by decide +kernel

/-! ### The textual form (R157): its examples, its pseudo-operations and aliases, and lines that name nothing -/

theorem test_assemble_examples :
    assemble .reference "TX_SUBMIT 0x80010000, 42" = some (0x00000002, { buf := 0x80010000, len := 42 }) ∧
    assemble .reference "REG_WRITE ICR, 0xFFFFFFFF" =
      some (0x00000011, { regOffset := 0xC0, value := 0xFFFFFFFF }) ∧
    assemble .reference "UDP_TX 5000, 10.0.2.2, 6000, \"hi\"" =
      some (0x00000009, { sport := 5000, dstIp := 0x0A000202, dport := 6000, payload := [0x68, 0x69] }) := by
  decide +kernel
theorem test_assemble_aliases :
    lineOf "ACK".toList = some (.regWrite .icr 0xFFFFFFFF) ∧ lineOf "RING_TX_TAIL".toList = some (.regRead .tdt) ∧
    lineOf "MASK_ALL".toList = some (.regWrite .imc 0xFFFFFFFF) ∧
    lineOf "ENABLE_RXDW".toList = some (.regWrite .ims 0x80) ∧ lineOf "interrupt()".toList = some .irq ∧
    lineOf "checksum [0x01, 2]".toList = some (.cksum (.data [1, 2])) ∧
    lineOf "REG_READ MTA[127]".toList = some (.regRead (.mta 127)) := by decide +kernel
theorem test_assemble_refuses :
    lineOf "UDP_TX 1, 1.2.3.256, 2, []".toList = none ∧ lineOf "IRQ 3".toList = none ∧
    lineOf "TX_SUBMIT 1, 65536".toList = none ∧ lineOf "REG_READ MTA[128]".toList = none ∧
    lineOf "NOP".toList = none := by decide +kernel

/-! ### The small block the other tests run -/

/-- A block with two transmit and four receive slots, buffers of 128 bytes, and queues of one packet. -/
def tiny : Params :=
  { Params.reference with
    nTx := 2, nRx := 4, ringAlign := 16, bufSize := 128, rxBufSize := 64, maxQueueLen := 1, nPort := 2 }

/-- The receive buffers of the four slots. -/
def rxBufs : List Addr := [0x2000, 0x2080, 0x2100, 0x2180]
/-- A buffer of the transmit path's, the one of slot 0. -/
def sentBuf : Addr := 0x2200
/-- A buffer of the caller's. -/
def callerBuf : Addr := 0x2280
/-- Another buffer of the caller's. -/
def callerBuf2 : Addr := 0x2300
/-- A buffer of the demultiplexer's. -/
def demuxBuf : Addr := 0x2380
/-- A buffer that a packet of queue 0 lies in. -/
def queueBuf : Addr := 0x2400
/-- A region nobody owns. -/
def freshBuf : Addr := 0x2480

/-- The registers after INIT of the block `tiny` (spec/10_state.md R69). -/
def tinyDev : DevRegs :=
  { DevRegs.powerOn with
    ims := 0x80, rctl := 0x04008002, tctl := 0x0004010A, tipg := 0x0060200A
    rdbal := 0x1040, rdlen := 64, rdt := 3, tdbal := 0x1000, tdlen := 32
    ral0 := 0x12005452, rah0 := 0x80005634 }

/-- The bytes `bs` from `a` on, as cells. -/
def cells (a : Nat) (bs : List Byte) : List Host.Cell := bs.zipIdx.map fun x => (a + x.2, x.1)

/-- A state with `bs` listed from `a` on, above everything listed so far, before the last FENCE. -/
def put (a : Nat) (bs : List Byte) (s : State) : State :=
  { s with mem := s.mem ++ cells a bs, fenced := s.mem ++ cells a bs }

/-- The rings' cells at 0x1000 and 0x1040. -/
def ringCells (t0 t1 : TxDesc) (r0 : RxDesc) : List Host.Cell :=
  cells 0x1000 (txDescBytes t0 ++ txDescBytes t1) ++
    cells 0x1040 (rxDescBytes r0 ++ rxBufs.tail.flatMap fun b => rxDescBytes ⟨b, 0, 0, 0, 0, 0⟩)

/-- The rings at 0x1000 and 0x1040 with these transmit descriptors and this first receive descriptor, as the device
sees them. -/
def rings (t0 t1 : TxDesc) (r0 : RxDesc) (s : State) : State :=
  { s with mem := ringCells t0 t1 r0, fenced := ringCells t0 t1 r0 }

/-- A transmit descriptor with the buffer `b`, the length `n` and the status `st`. -/
def sent (b : Addr) (n : Half) (st : Byte) : TxDesc := ⟨b, n, 0, 0x09, st, 0, 0⟩
/-- A receive descriptor of the first buffer with the length `n` and the status `st`. -/
def received (n : Half) (st : Byte) : RxDesc := ⟨0x2000, n, 0, st, 0, 0⟩

/-- A block after INIT: the transmit ring at 0x1000, slot 0 used once and done; the receive ring at 0x1040, every slot
free; a buffer of each owner. -/
def ready : State :=
  rings (sent sentBuf 42 0x01) ⟨0, 0, 0, 0, 0x01, 0, 0⟩ (received 0 0)
  { State.reset with
    cfg := tiny, dev := tinyDev, txRingBase := 0x1000, rxRingBase := 0x1040
    txOwner := [some sentBuf, none], rxOwner := rxBufs, initPhase := .done
    bufs := rxBufs.map (⟨·, .rxPath, 1⟩) ++
      [⟨sentBuf, .txPath, 2⟩, ⟨callerBuf, .caller, 3⟩, ⟨callerBuf2, .caller, 4⟩, ⟨demuxBuf, .demux, 5⟩,
       ⟨queueBuf, .portq 0, 6⟩]
    portq := [⟨7000, [], 0⟩, ⟨0, [], 0⟩] }

/-- The block with slot 0 submitted with the descriptor `d` and not yet sent; its buffer begins 10, 11, 12. -/
def submittedAs (d : TxDesc) : State :=
  put sentBuf.toNat [10, 11, 12]
  (rings d ⟨0, 0, 0, 0, 0x01, 0, 0⟩ (received 0 0) { ready with dev := { tinyDev with tdt := 1 } })

/-- The block with `n` bytes submitted in slot 0. -/
def submitted (n : Half) : State := submittedAs (sent sentBuf n 0x00)

/-- The block in the wrap state, in which both slots are outstanding (spec/41_transmit.md R256). -/
def wrapped (m : TxWrapMode) : State :=
  rings (sent sentBuf 42 0x00) (sent callerBuf2 42 0x00) (received 0 0)
  { ready with
    cfg := { tiny with wrapMode := m }, txOwner := [some sentBuf, some callerBuf2]
    dev := { tinyDev with txCount := if m = .sendAll then 2 else 0 } }

/-- The ARP query Q of spec/95_test_vectors.md. -/
def frameQ : List Byte :=
  [0xff, 0xff, 0xff, 0xff, 0xff, 0xff, 0x52, 0x55, 0x0a, 0x00, 0x02, 0x02, 0x08, 0x06, 0x00, 0x01,
   0x08, 0x00, 0x06, 0x04, 0x00, 0x01, 0x52, 0x55, 0x0a, 0x00, 0x02, 0x02, 0x0a, 0x00, 0x02, 0x02,
   0x00, 0x00, 0x00, 0x00, 0x00, 0x00, 0x0a, 0x00, 0x02, 0x0f]

/-- The reply to it, V40. -/
def frameV40 : List Byte :=
  [0x52, 0x55, 0x0a, 0x00, 0x02, 0x02, 0x52, 0x54, 0x00, 0x12, 0x34, 0x56, 0x08, 0x06, 0x00, 0x01,
   0x08, 0x00, 0x06, 0x04, 0x00, 0x02, 0x52, 0x54, 0x00, 0x12, 0x34, 0x56, 0x0a, 0x00, 0x02, 0x0f,
   0x52, 0x55, 0x0a, 0x00, 0x02, 0x02, 0x0a, 0x00, 0x02, 0x02]

/-- The datagram V60. -/
def frameV60 : List Byte :=
  [0x52, 0x54, 0x00, 0x12, 0x34, 0x56, 0x52, 0x55, 0x0a, 0x00, 0x02, 0x02, 0x08, 0x00, 0x45, 0x00,
   0x00, 0x1e, 0x00, 0x00, 0x00, 0x00, 0x40, 0x11, 0x62, 0xbf, 0x0a, 0x00, 0x02, 0x02, 0x0a, 0x00,
   0x02, 0x0f, 0x15, 0xb3, 0x1b, 0x58, 0x00, 0x0a, 0x00, 0x00, 0x68, 0x69]

/-- The datagram V50. -/
def frameV50 : List Byte :=
  [0x52, 0x55, 0x0a, 0x00, 0x02, 0x02, 0x52, 0x54, 0x00, 0x12, 0x34, 0x56, 0x08, 0x00, 0x45, 0x00,
   0x00, 0x1e, 0x00, 0x00, 0x00, 0x00, 0x64, 0x11, 0x3e, 0xbf, 0x0a, 0x00, 0x02, 0x0f, 0x0a, 0x00,
   0x02, 0x02, 0x13, 0x88, 0x17, 0x70, 0x00, 0x0a, 0x00, 0x00, 0x68, 0x69]

/-- The block where CLASSIFY is to be issued for a frame `f` in the demultiplexer's buffer, ARP_RX, IP_RX likewise at
their positions. -/
def holding (f : List Byte) (pos : SwSeq) : State := put demuxBuf.toNat f { ready with sw := pos }

/-- The block where RX_DRAIN is to be issued, its slot 0 filled with the frame `f`, of which the descriptor says the
length `len` and the status `st`. -/
def filled (f : List Byte) (len : Half) (st : Byte) : State :=
  put 0x2000 f (rings (sent sentBuf 42 0x01) ⟨0, 0, 0, 0, 0x01, 0, 0⟩ (received len st)
    { ready with sw := .irqI2, dev := { tinyDev with rdh := 1, icr := 0x80 } })

/-- What the next state of an outcome answers to a question; `false` where there is none. -/
def holdsNext (o : Host.Outcome State Fault Refusal) (q : State → Bool) : Bool :=
  match o with
  | .next t => q t
  | .fault _ => false
  | .refused _ => false

theorem next_of_holdsNext {o : Host.Outcome State Fault Refusal} {q : State → Bool} (h : holdsNext o q = true) :
    ∃ t, o = .next t ∧ q t = true := by
  cases o with
  | next t => exact ⟨t, rfl, h⟩
  | fault f => simp [holdsNext] at h
  | refused r => simp [holdsNext] at h

/-! ### One step of every operation, with the results of spec/95_test_vectors.md -/

/-- The small block at power-on. -/
def powered : State := { State.reset with cfg := tiny, txOwner := [none, none], rxOwner := [0, 0, 0, 0] }

/-- V1 on the small block: the registers INIT leaves. -/
theorem test_init_registers : holdsNext (exec (.init 0x40000000 0x1000 0x1040)
    { powered with allocAns := rxBufs.map some, sched := [[], [], [], [.reset]] })
    (fun t => t.dev.ral0 == 0x12005452 && t.dev.rah0 == 0x80005634 && t.dev.rdt == 3 && t.dev.ims == 0x80 &&
      t.rxOwner == rxBufs && bytesAt t 0x1040 4 == [0x00, 0x20, 0x00, 0x00]) = true := by decide +kernel

/-- V2: 64 bytes of transmit ring with RING_ALIGN = 128. -/
theorem test_init_ring_misaligned : holdsNext (exec (.init 0x40000000 0x1000 0x1040)
    { powered with cfg := { tiny with nTx := 4, ringAlign := 128 }, txOwner := [none, none, none, none]
                   sched := [[], [], [], [.reset]] })
    (fun t => t.halted == some .ringMisaligned && t.fatalInfo == 0) = true := by decide +kernel

/-- V10: the 16 descriptor bytes, the tail, and (V12) the slot's earlier buffer released. -/
theorem test_tx_submit : holdsNext (exec (.txSubmit callerBuf 42) ready) (fun t =>
    bytesAt t 0x1000 16 == [0x80, 0x22, 0, 0, 0, 0, 0, 0, 0x2a, 0x00, 0x00, 0x09, 0x00, 0x00, 0x00, 0x00] &&
    t.dev.tdt == 1 && t.txOwner == [some callerBuf, none] && t.results == [.code .ok] &&
    t.events == [.released sentBuf]) = true := by decide +kernel

/-- V13's second call: `Full`, and nothing else. -/
theorem test_tx_submit_full : holdsNext (exec (.txSubmit callerBuf 42) (wrapped .idle)) (fun t =>
    t == { wrapped .idle with results := [.code .full] }) = true := by decide +kernel

/-- V11: the frame on the wire, DD, and the head. -/
theorem test_dev_tx_step : holdsNext (exec .devTxStep (submitted 3)) (fun t =>
    t.events == [.wireTx [10, 11, 12]] && byteAt t 0x100C == 0x01 && t.dev.tdh == 1) = true := by decide +kernel

/-- R260: the device does not check a descriptor's length, and a frame of no byte is sent from no buffer. -/
theorem test_dev_tx_step_empty : holdsNext (exec .devTxStep (submittedAs (sent callerBuf 0 0x00))) (fun t =>
    t.events == [.wireTx []] && t.dev.tdh == 1) = true := by decide +kernel

/-- V30: the frame, its length, DD and EOP, the head, the cause, and the held edge. -/
theorem test_dev_rx_frame : holdsNext (exec (.devRxFrame frameQ) ready) (fun t =>
    bytesAt t 0x2000 42 == frameQ && bytesAt t 0x1048 2 == [42, 0] && t.dev.rdh == 1 && t.dev.icr == 0x80 &&
    t.irqHeld) = true := by decide +kernel

/-- R310: with a tail past the ring's end a free slot is always left. -/
theorem test_dev_rx_frame_past_end :
    holdsNext (exec (.devRxFrame frameQ) { ready with dev := { tinyDev with rdh := 3, rdt := 7 } }) (fun t =>
      bytesAt t 0x2180 42 == frameQ && t.dev.rdh == 0 && devOwnsRx t 3) = true := by decide +kernel

/-- V31: a frame for another station. -/
theorem test_dev_rx_frame_filtered :
    holdsNext (exec (.devRxFrame ([0x52, 0x54, 0, 0, 0, 1] ++ List.replicate 54 0)) ready) (fun t =>
      t == { ready with events := [.dropped .filtered] }) = true := by decide +kernel

/-- R212: a device reset clears the causes, the mask, the enables and the cursors. -/
theorem test_dev_reset : holdsNext (exec .devReset { ready with dev := { tinyDev with resetPending := true, icr := 3 } })
    (fun t => t.dev.icr == 0 && t.dev.ims == 0 && t.dev.rctl == 0 && t.dev.rdt == 0 && !t.dev.resetPending &&
      t.mem == ready.mem) = true := by decide +kernel

/-- V35's first slot: the query is answered, its slot replenished, and the tail takes the slot's index. -/
theorem test_irq_answers_arp : holdsNext (exec .irq { filled frameQ 42 0x03 with
      sw := .idle, irqHeld := true, allocAns := [some freshBuf, some 0x2500] }) (fun t =>
    bytesAt t 0x2480 42 == frameV40 && t.dev.rdt == 0 && t.rxOwner.head? == some 0x2500 && t.dev.tdt == 1 &&
    t.dev.icr == 0 && !t.irqHeld && t.arpSeen) = true := by decide +kernel

/-- V36: a filled slot without EOP. -/
theorem test_rx_drain_multi_descriptor : holdsNext (exec .rxDrain (filled frameQ 42 0x01)) (fun t =>
    t.halted == some .rxMultiDesc && t.fatalInfo == 0 && t.dev.rdt == 3) = true := by decide +kernel

/-- V38: no frame. -/
theorem test_rx_drain_empty : holdsNext (exec .rxDrain { ready with sw := .irqI2 }) (fun t =>
    t.results == [] && t.events == []) = true := by decide +kernel

/-- V46: 41 bytes with the ARP type. -/
theorem test_classify_short_arp : holdsNext (exec (.classify demuxBuf 41) (holding frameQ (.drainRD3 0 0))) (fun t =>
    t.events == [.dropped .unrecognized, .released demuxBuf] && !t.arpSeen) = true := by decide +kernel

/-- V48: 34 bytes with the IP type go to IP_RX. -/
theorem test_classify_ip : holdsNext (exec (.classify demuxBuf 34) (holding frameV60 (.drainRD3 0 0))) (fun t =>
    t.portq == [⟨7000, [⟨34, 5555, demuxBuf⟩], 0⟩, ⟨0, [], 0⟩] && t.sw == .drainRD3 0 0) = true := by decide +kernel

/-- V40: the reply's bytes. -/
theorem test_arp_rx : holdsNext (exec (.arpRx demuxBuf 42)
    { holding frameQ .classifyC1 with allocAns := [some freshBuf] }) (fun t =>
    bytesAt t 0x2480 42 == frameV40 && t.arpSeen) = true := by decide +kernel

/-- V42: Alloc fails. -/
theorem test_arp_rx_alloc_fails : holdsNext (exec (.arpRx demuxBuf 42)
    { holding frameQ .classifyC1 with allocAns := [none] }) (fun t =>
    t.arpSeen && t.halted == some .arpReplyAlloc && ownerOf t demuxBuf == .demux) = true := by decide +kernel

/-- V60: the packet and the wake. -/
theorem test_ip_rx : holdsNext (exec (.ipRx demuxBuf 44) (holding frameV60 .classifyC2)) (fun t =>
    t.events == [.enqueue 7000 ⟨44, 5555, demuxBuf⟩, .wake 0]) = true := by decide +kernel

/-- V63: IHL 6 moves the ports, and port 0 is bound to no queue. -/
theorem test_ip_rx_options : holdsNext (exec (.ipRx demuxBuf 44) (holding (frameV60.set 14 0x46) .classifyC2)) (fun t =>
    t.events == [.diag (.ipRxNoPort 0), .dropped .noPort, .released demuxBuf]) = true := by decide +kernel

/-- V67: the caller's limit. -/
theorem test_udp_payload : holdsNext (exec (.udpPayload queueBuf 44 1) (put queueBuf.toNat frameV60 ready)) (fun t =>
    t.results == [.payload 0x0A000202 5555 1 [0x68]]) = true := by decide +kernel

/-- V69: a UDP length below 8 carries nothing. -/
theorem test_udp_payload_short : holdsNext (exec (.udpPayload queueBuf 44 16)
    (put queueBuf.toNat (frameV60.set 39 0x07) ready)) (fun t =>
    t.results == [.payload 0x0A000202 5555 0 []]) = true := by decide +kernel

/-- V50: the frame with its checksum, submitted. -/
theorem test_udp_tx : holdsNext (exec (.udpTx 5000 0x0A000202 6000 [0x68, 0x69])
    { ready with allocAns := [some freshBuf], copyAns := [true] }) (fun t =>
    bytesAt t 0x2480 44 == frameV50 && t.results == [.code .ok] && t.dev.tdt == 1) = true := by decide +kernel

/-- V55: CopyIn fails. -/
theorem test_udp_tx_copy_fails : holdsNext (exec (.udpTx 5000 0x0A000202 6000 [0x68])
    { ready with allocAns := [some freshBuf], copyAns := [false] }) (fun t =>
    t.events == [.allocated freshBuf, .released freshBuf] && t.results == [.code .copyFailed]) = true := by
  decide +kernel

/-- V20 to V29b and V29c but for the long ones. -/
theorem test_cksum_vectors :
    cksum [0x00, 0x01, 0xf2, 0x03, 0xf4, 0xf5, 0xf6, 0xf7] = 0x220D ∧ cksum [] = 0xFFFF ∧
    cksum [0, 0, 0, 0] = 0xFFFF ∧ cksum [0x01] = 0xFEFF ∧ cksum [0xff, 0xff] = 0x0000 ∧
    cksum [0x01, 0x02, 0x03] = 0xFBFD ∧ cksum [0xff, 0xff, 0x00, 0x01] = 0xFFFE ∧
    cksum [0x45, 0, 0, 0x73, 0, 0, 0x40, 0, 0x40, 0x11, 0, 0, 0xc0, 0xa8, 0, 0x01, 0xc0, 0xa8, 0, 0xc7] = 0xB861 ∧
    cksum [0xab] = 0x54FF ∧ cksum ((frameV50.drop 14).take 20) = 0x0000 := by decide +kernel

/-- V29c from memory. -/
theorem test_cksum_of_memory : holdsNext (exec (.cksum (.mem (callerBuf + 14) 20))
    (put callerBuf.toNat frameV50 ready)) (fun t => t.results == [.checksum 0]) = true := by decide +kernel

/-- A read of ICR answers it and clears it (spec/20_memory.md R116). -/
theorem test_reg_read_icr : holdsNext (exec (.regRead .icr) { ready with dev := { tinyDev with icr := 0xC0 } }) (fun t =>
    t.results == [.regValue 0xC0] && t.dev.icr == 0) = true := by decide +kernel

/-- V6: a write of 1 clears a cause. -/
theorem test_reg_write_icr : holdsNext (exec (.regWrite .icr 0x80) { ready with dev := { tinyDev with icr := 0xC0 } })
    (fun t => t.dev.icr == 0x40 && !irqLine t.dev) = true := by decide +kernel

/-- V8: a tail cursor at the ring's length. -/
theorem test_reg_write_rdt_range : exec (.regWrite .rdt 4) ready = .refused .cursorRange := by
  rfl

/-! ### Witnesses: for every obligation with hypotheses, states and operands that meet them

Each theorem is named after the obligation; its conjuncts are the hypotheses of the obligation's clauses, at the ends of
their ranges where they have ends. -/

theorem ready_is_ready : Ready ready := ⟨rfl, rfl, rfl, rfl, rfl, rfl⟩
theorem ready_rings : RingsInside ready := by unfold RingsInside; decide +kernel
theorem tiny_sizes : SizesOk tiny := by constructor <;> decide
theorem ready_apart : BufsApart ready := by constructor <;> decide +kernel
theorem ready_offRing : DeviceBufsOffRing ready := by unfold DeviceBufsOffRing; decide +kernel
theorem ready_sized : OwnersSized ready := ⟨rfl, rfl⟩

/-- Where all of memory has been fenced, the device sees it. -/
theorem sees_of_fenced {s : State} (hf : s.fenced = s.mem) (a n : Nat) : DeviceSees s a n := fun c _ _ => by rw [hf]

/-- `TxRingInv` of a state whose memory is fenced, from what can be decided. -/
theorem txRingInv {s : State} (hf : s.fenced = s.mem) (h : s.dev.tdh.toNat < s.cfg.nTx ∧ s.dev.tdt.toNat < s.cfg.nTx ∧
    txOutstanding s = cyclicLen s.cfg.nTx s.dev.tdh.toNat s.dev.tdt.toNat ∧
    ∀ i < s.cfg.nTx, (cyclicMem s.cfg.nTx s.dev.tdh.toNat s.dev.tdt.toNat i = true ↔
        hasBit (txd s i).status bitDD = false) ∧
      (cyclicMem s.cfg.nTx s.dev.tdh.toNat s.dev.tdt.toNat i = true →
        s.txOwner[i]? = some (some (txd s i).addr) ∧ (txd s i).cmd = 0x09)) : TxRingInv s :=
  ⟨h.1, h.2.1, h.2.2.1, fun i hi => (h.2.2.2 i hi).1, fun i hi => (h.2.2.2 i hi).2, fun _ _ _ => sees_of_fenced hf _ _⟩

theorem ready_txRing : TxRingInv ready := txRingInv rfl (by decide +kernel)

/-- `RxRingInv` of a state whose memory is fenced, from what can be decided. -/
theorem rxRingInv {s : State} (hf : s.fenced = s.mem) (h : s.dev.rdh.toNat < s.cfg.nRx ∧ s.dev.rdt.toNat < s.cfg.nRx ∧
    (∀ i < s.cfg.nRx, (cyclicMem s.cfg.nRx s.dev.rdh.toNat s.dev.rdt.toNat i = true →
        hasBit (rxd s i).status bitDD = false ∧ s.rxOwner[i]? = some (rxd s i).addr) ∧
      (cyclicMem s.cfg.nRx ((s.dev.rdt.toNat + 1) % s.cfg.nRx) s.dev.rdh.toNat i = true →
        hasBit (rxd s i).status bitDD = true)) ∧
    hasBit (rxd s s.dev.rdt.toNat).status bitDD = false ∧
    s.rxOwner[s.dev.rdt.toNat]? = some (rxd s s.dev.rdt.toNat).addr) : RxRingInv s :=
  ⟨h.1, h.2.1, fun i hi => (h.2.2.1 i hi).1, fun i hi => (h.2.2.1 i hi).2, h.2.2.2, fun _ _ _ => sees_of_fenced hf _ _⟩

theorem ready_rxRing : RxRingInv ready := rxRingInv rfl (by decide +kernel)
theorem ready_rxRegs : RxRingSet ready := by constructor <;> decide +kernel
theorem tiny_ringsApart : RingsApart tiny 0x1000 0x1040 := by constructor <;> decide

/-- `RingsGuarded` of a block `tiny` with the rings of `ready`, from what can be decided. -/
theorem ringsGuarded {s : State} (hz : SizesOk s.cfg) (hr : RingsApart s.cfg s.txRingBase s.rxRingBase)
    (ho : OwnersSized s) (h : s.dev.tdbah ++ s.dev.tdbal = s.txRingBase ∧ s.dev.tdlen.toNat = s.cfg.nTx * 16 ∧
    s.dev.rdbah ++ s.dev.rdbal = s.rxRingBase ∧ s.dev.rdlen.toNat = s.cfg.nRx * 16 ∧
    (s.dev.tdh.toNat < s.cfg.nTx ∧ s.dev.tdt.toNat < s.cfg.nTx) ∧
    (s.dev.rdh.toNat < s.cfg.nRx ∧ s.dev.rdt.toNat < s.cfg.nRx) ∧
    (∀ r ∈ s.bufs, overlaps r.base.toNat s.cfg.bufSize s.txRingBase.toNat (s.cfg.nTx * 16) = false ∧
      overlaps r.base.toNat s.cfg.bufSize s.rxRingBase.toNat (s.cfg.nRx * 16) = false) ∧
    s.dev.resetPending = false) : RingsGuarded s :=
  ⟨hz, hr, ⟨h.1, h.2.1⟩, ⟨h.2.2.1, h.2.2.2.1⟩, h.2.2.2.2.1, h.2.2.2.2.2.1, ho, h.2.2.2.2.2.2.1, h.2.2.2.2.2.2.2⟩

theorem ready_guarded : RingsGuarded ready := ringsGuarded tiny_sizes tiny_ringsApart ready_sized (by decide +kernel)

/-- The block with an operation offered as the next command. -/
def offering (i : Instr) (s : State) : State :=
  { s with inbox := [{ word := encodeWord i, ports := encodePorts s.cfg.regOff i }] }

theorem witness_DecodeEncode : RegOff.reference.wf = true := by decide +kernel

theorem witness_DecodeOnlyItsWord : decode .reference 0x82 { frame := [1] } = .ok (.devRxFrame [1]) := by
  decide +kernel

/-- The ends of the ranges of illegal words, and the words beside them. -/
theorem witness_IllegalCommandWords :
    read 0xFFFFFFFF = .error .reservedWordBits ∧ read 0x100 = .error .reservedWordBits ∧
    read 0xFF = .error .unknownOpcode ∧ read 0x83 = .error .unknownOpcode ∧ read 0x82 = .ok (.devRxFrame []) ∧
    read 0x7F = .error .unknownOpcode ∧ read 0x12 = .error .unknownOpcode ∧ read 0x11 = .ok (.regWrite .ctrl 0) ∧
    read 0x0F = .error .unknownOpcode ∧ read 0x0B = .error .unknownOpcode ∧ read 0x0A = .ok (.cksum (.mem 0 0)) ∧
    read 0x00 = .error .unknownOpcode ∧ read 0x01 = .ok (.init 0 0 0) := by decide +kernel

theorem witness_RegisterAccesses : RegOff.reference.wf = true ∧
    read 0x10 { regOffset := 0x0000 } = .ok (.regRead .ctrl) ∧
    read 0x11 { regOffset := 0x5404, value := 7 } = .ok (.regWrite .rah0 7) := by decide +kernel

theorem witness_StepRunsDecoded :
    (Running (offering .devTxStep ready) ∧ holdLifted (offering .devTxStep ready) = false ∧
      (offering .devTxStep ready).inbox = [⟨0x81, {}, []⟩] ∧
      decode (offering .devTxStep ready).cfg.regOff 0x81 {} = .ok .devTxStep) ∧
    (Running { ready with inbox := [{ word := 0 }] } ∧ holdLifted { ready with inbox := [{ word := 0 }] } = false ∧
      decode ready.cfg.regOff 0 {} = .error .unknownOpcode) := by
  unfold Running; decide +kernel

theorem witness_StepOwnMoves :
    (Running { ready with sw := .initHold, initPhase := .running } ∧
      holdLifted { ready with sw := .initHold, initPhase := .running } = true) ∧
    (Running ready ∧ holdLifted ready = false ∧ ready.inbox = [] ∧ ready.dev.resetPending = false ∧
      ready.irqHeld = false ∧ txStepEnabled ready = false) ∧
    (Running (submitted 42) ∧ holdLifted (submitted 42) = false ∧ (submitted 42).inbox = [] ∧
      (submitted 42).dev.resetPending = false ∧ (submitted 42).irqHeld = false ∧
      txStepEnabled (submitted 42) = true) ∧
    (holdLifted { ready with irqHeld := true } = false ∧ { ready with irqHeld := true }.dev.resetPending = false ∧
      { ready with irqHeld := true }.initPhase = .done ∧ { ready with irqHeld := true }.sw = .idle) ∧
    (holdLifted { ready with dev := { tinyDev with resetPending := true } } = false ∧
      Running { ready with dev := { tinyDev with resetPending := true } }) := by
  unfold Running; decide +kernel

theorem next_of_step {s : State} (h : holdsNext (step s) (fun _ => true) = true) : ∃ t, step s = .next t :=
  (next_of_holdsNext h).imp fun _ h => h.1

theorem next_of_exec {i : Instr} {s : State} (h : holdsNext (exec i s) (fun _ => true) = true) :
    ∃ t, exec i s = .next t := (next_of_holdsNext h).imp fun _ h => h.1

/-- A frame offered to the block, which takes it: the memory, the ownership and the interrupt invariants. -/
theorem step_takes_frame : ∃ t, step (offering (.devRxFrame frameQ) ready) = .next t :=
  next_of_step (by decide +kernel)

theorem witness_StepKeepsMemoryCanonical : Memory.wf (offering (.devRxFrame frameQ) ready).mem = true ∧
    Memory.wf (offering (.devRxFrame frameQ) ready).fenced = true ∧
    ∃ t, step (offering (.devRxFrame frameQ) ready) = .next t :=
  ⟨by decide +kernel, by decide +kernel, step_takes_frame⟩

theorem witness_StepKeepsBufsApart : BufsApart (offering (.devRxFrame frameQ) ready) ∧
    DeviceBufsOffRing (offering (.devRxFrame frameQ) ready) ∧
    ∃ t, step (offering (.devRxFrame frameQ) ready) = .next t :=
  ⟨⟨ready_apart.aligned, ready_apart.inside, ready_apart.apart⟩, ready_offRing, step_takes_frame⟩

/-- The line at 0, and at 1 with its edge held. -/
theorem witness_StepKeepsNoLostEdge :
    (NoLostEdge (offering (.devRxFrame frameQ) ready) ∧
      ∃ t, step (offering (.devRxFrame frameQ) ready) = .next t) ∧
    (NoLostEdge (offering .irq { filled frameQ 41 0x03 with sw := .idle, irqHeld := true, allocAns := [some freshBuf] }) ∧
      irqLine (offering .irq { filled frameQ 41 0x03 with sw := .idle, irqHeld := true }).dev = true ∧
      ∃ t, step (offering .irq
        { filled frameQ 41 0x03 with sw := .idle, irqHeld := true, allocAns := [some freshBuf] }) = .next t) :=
  ⟨⟨fun _ _ h => absurd h (by decide +kernel), step_takes_frame⟩, fun _ _ _ => rfl, by decide +kernel,
    next_of_step (by decide +kernel)⟩

theorem witness_StepKeepsSoftwareRests : SoftwareRests (offering (.devRxFrame frameQ) ready) ∧
    ∃ t, step (offering (.devRxFrame frameQ) ready) = .next t := ⟨fun _ => ⟨.inl rfl, rfl⟩, step_takes_frame⟩

theorem witness_ConfigurationIsFixed : (offering (.devRxFrame frameQ) ready).initPhase ≠ .notIssued ∧
    ∃ t, step (offering (.devRxFrame frameQ) ready) = .next t := ⟨by decide, step_takes_frame⟩

theorem witness_ArpSeenOnlySet :
    ((offering .devTxStep { submitted 3 with arpSeen := true }).arpSeen = true ∧
      ∃ t, step (offering .devTxStep { submitted 3 with arpSeen := true }) = .next t) ∧
    (Instr.devTxStep.opcode ∉ [Opcode.arpRx, .classify, .rxDrain, .irq] ∧
      ∃ t, exec .devTxStep (submitted 3) = .next t) :=
  ⟨⟨by decide +kernel, next_of_step (by decide +kernel)⟩, by decide, next_of_exec (by decide +kernel)⟩

theorem witness_OwnerRecordsWrittenBy :
    (OwnersSized (offering (.devRxFrame frameQ) ready) ∧
      ∃ t, step (offering (.devRxFrame frameQ) ready) = .next t) ∧
    (∃ t, exec .devTxStep (submitted 3) = .next t) ∧ (∃ t, exec (.txSubmit callerBuf 42) ready = .next t) :=
  ⟨⟨ready_sized, step_takes_frame⟩, next_of_exec (by decide +kernel), next_of_exec (by decide +kernel)⟩

theorem witness_QuietOperationsFrame :
    (∃ t, exec (.cksum (.data [1])) ready = .next t) ∧
    (∃ t, exec (.udpPayload queueBuf 44 16) (put queueBuf.toNat frameV60 ready) = .next t) ∧
    (∃ t, exec (.regRead .tdt) ready = .next t) ∧ (∃ t, exec (.regWrite .ims 1) ready = .next t) ∧
    (∃ t, exec .devReset { ready with dev := { tinyDev with resetPending := true } } = .next t) ∧
    (∃ t, exec .devTxStep (submitted 3) = .next t) ∧ (∃ t, exec (.devRxFrame frameQ) ready = .next t) :=
  ⟨next_of_exec (by decide +kernel), next_of_exec (by decide +kernel), next_of_exec (by decide +kernel),
    next_of_exec (by decide +kernel), next_of_exec (by decide +kernel), next_of_exec (by decide +kernel),
    next_of_exec (by decide +kernel)⟩

theorem witness_HaltedIsTerminal : { ready with halted := some .rxMultiDesc }.halted = some .rxMultiDesc := rfl

/-- Each operation that raises a fatal cause, where it does. -/
theorem witness_FatalCausesByOperation :
    (∃ t, exec .rxDrain (filled frameQ 42 0x01) = .next t ∧ (t.halted == some .rxMultiDesc) = true) ∧
    (∃ t, exec (.arpRx demuxBuf 42) { holding frameQ .classifyC1 with allocAns := [none] } = .next t ∧
      (t.halted == some .arpReplyAlloc) = true) ∧
    (∃ t, step (offering (.devRxFrame frameQ) ready) = .next t) :=
  ⟨next_of_holdsNext (by decide +kernel), next_of_holdsNext (by decide +kernel), step_takes_frame⟩

theorem witness_ExceptionEntryAndReturn : { ready with modelFault := some .doubleRelease }.halted = none ∧
    { ready with modelFault := some .doubleRelease }.modelFault = some .doubleRelease := ⟨rfl, rfl⟩

theorem witness_InitOnceAndFirst :
    (Running powered ∧ powered.initPhase ≠ .done ∧ powered.sw = .idle) ∧
    (Running { powered with initPhase := .running, sw := .initHold } ∧
      { powered with initPhase := .running, sw := .initHold }.initPhase ≠ .done) ∧
    (Running ready ∧ ready.initPhase ≠ .notIssued ∧ ready.sw = .idle ∧
      (List.replicate 65535 (0xFF : Byte)).length ≤ 65535) :=
  ⟨⟨⟨rfl, rfl⟩, by decide, rfl⟩, ⟨⟨rfl, rfl⟩, by decide⟩, ⟨rfl, rfl⟩, by decide, rfl, by rw [List.length_replicate]⟩

theorem witness_InternalAndSerialised :
    (Running ready ∧ (ready.sw = .idle ∨ ready.sw = .initHold)) ∧
    (Running { ready with sw := .initHold } ∧ { ready with sw := .initHold }.sw ≠ .idle) ∧
    (Running (filled frameQ 42 3) ∧ (filled frameQ 42 3).sw ≠ .idle) :=
  ⟨⟨⟨rfl, rfl⟩, .inl rfl⟩, ⟨⟨rfl, rfl⟩, by decide⟩, ⟨rfl, rfl⟩, by decide⟩

/-- The ends of each operand's range. -/
theorem witness_OperandRefusals : Running ready ∧
    ¬ ((0x1008 : Addr).toNat % 16 = 0 ∧ (0x1040 : Addr).toNat % 16 = 0) ∧
    ¬ (1 ≤ (0 : Half).toNat ∧ (0 : Half).toNat ≤ ready.cfg.bufSize) ∧
    ¬ (1 ≤ (129 : Half).toNat ∧ (129 : Half).toNat ≤ ready.cfg.bufSize) ∧
    (1 ≤ (1 : Half).toNat ∧ (128 : Half).toNat ≤ ready.cfg.bufSize ∧ ready.sw = .idle ∧ ready.initPhase = .done ∧
      ownerOf ready sentBuf ≠ .caller) ∧
    65535 < (List.replicate 65536 (0 : Byte)).length ∧
    ¬ (14 ≤ (List.replicate 13 (0 : Byte)).length ∧ (List.replicate 13 (0 : Byte)).length ≤ 65535) ∧
    ¬ (14 ≤ (List.replicate 65536 (0 : Byte)).length ∧ (List.replicate 65536 (0 : Byte)).length ≤ 65535) := by
  simp only [List.length_replicate]
  refine ⟨⟨rfl, rfl⟩, ?_⟩
  decide +kernel

theorem witness_RegisterWriteRefusals : Ready ready ∧
    (reservedMask ready.cfg .rctl).getLsbD 0 = true ∧ (1 : Word).getLsbD 0 = true ∧
    (reservedMask ready.cfg .tipg).getLsbD 31 = true ∧ (0x80000000 : Word).getLsbD 31 = true ∧
    ready.dev.tdlen.toNat / 16 ≤ (2 : Word).toNat ∧ ready.dev.rdlen.toNat / 16 ≤ (4 : Word).toNat :=
  ⟨ready_is_ready, by decide +kernel⟩

/-- The block with both slots outstanding in SEND_ALL and done, so that TX_SUBMIT would reuse one of them. -/
def carried : State :=
  rings (sent sentBuf 42 0x01) (sent callerBuf2 42 0x01) (received 0 0) (wrapped .sendAll)

/-- The block with slot 0 submitted and TDT past the ring's end, at the second slot of slot 0's buffer. -/
def pastEnd : State := { submitted 42 with dev := { tinyDev with tdt := 0x121 } }

/-- A submission into slot 0, whose earlier buffer the transmit path holds, of 1 byte and of a whole buffer; one into a slot
whose earlier buffer an outstanding slot carries; and one with TDT in such a buffer. -/
theorem witness_TxSubmitOk :
    (Ready ready ∧ RingsInside ready ∧ ready.dev.tdt.toNat < ready.cfg.nTx ∧
      ready.dev.tdlen.toNat = ready.cfg.nTx * 16 ∧ ownerOf ready callerBuf = .caller ∧
      (1 ≤ (1 : Half).toNat ∧ (1 : Half).toNat ≤ ready.cfg.bufSize) ∧
      (1 ≤ (128 : Half).toNat ∧ (128 : Half).toNat ≤ ready.cfg.bufSize) ∧
      hasBit (txd ready ready.dev.tdt.toNat).status bitDD = true ∧ devOwnsTx ready ready.dev.tdt.toNat = false ∧
      ready.txOwner.getD ready.dev.tdt.toNat none = some sentBuf ∧ ownerOf ready sentBuf = .txPath ∧
      txHolds ready sentBuf = false) ∧
    (Ready carried ∧ RingsInside carried ∧ carried.dev.tdt.toNat < carried.cfg.nTx ∧
      ownerOf carried callerBuf = .caller ∧ hasBit (txd carried carried.dev.tdt.toNat).status bitDD = true ∧
      carried.txOwner.getD carried.dev.tdt.toNat none = some sentBuf ∧ ownerOf carried sentBuf = .txPath ∧
      devOwnsTx carried 0 = true ∧ carried.txOwner[0]? = some (some sentBuf)) ∧
    (Ready pastEnd ∧ BufsApart pastEnd ∧ pastEnd.cfg.nTx ≤ pastEnd.dev.tdt.toNat ∧
      ownerOf pastEnd callerBuf = .caller ∧ 0x221C = pastEnd.txRingBase.toNat + 16 * pastEnd.dev.tdt.toNat + 12 ∧
      ⟨sentBuf, .txPath, 2⟩ ∈ pastEnd.bufs ∧ devOwnsTx pastEnd 0 = true ∧ pastEnd.txOwner[0]? = some (some sentBuf) ∧
      sentBuf.toNat ≤ 0x221C ∧ 0x221C < sentBuf.toNat + pastEnd.cfg.bufSize) :=
  ⟨⟨ready_is_ready, ready_rings, by decide +kernel⟩,
    ⟨⟨rfl, rfl, rfl, rfl, rfl, rfl⟩, by unfold RingsInside; decide +kernel, by decide +kernel⟩,
    ⟨rfl, rfl, rfl, rfl, rfl, rfl⟩, ⟨ready_apart.aligned, ready_apart.inside, ready_apart.apart⟩, by decide +kernel⟩

/-- R24, R260: with IDLE a tail past the ring's end leaves the device at work, whatever its remainder: slot 0's buffer is
the device's, and TX_SUBMIT's poll in it stops the run. -/
theorem test_tx_submit_past_end : [0x121, 0x122].all (fun v => holdsNext
    (exec (.txSubmit callerBuf 42) { submitted 42 with dev := { tinyDev with tdt := v } }) (fun t =>
      t.modelFault == some .ownershipViolation && txWork t)) = true := by decide +kernel

/-- R112, R251: TX_SUBMIT frees no buffer that an outstanding slot carries. -/
theorem test_tx_submit_carried : holdsNext (exec (.txSubmit callerBuf 42) carried) (fun t =>
    t.modelFault == some .ownershipViolation && t.events == []) = true := by decide +kernel

theorem witness_TxSubmitFull : Ready (wrapped .idle) ∧ RingsInside (wrapped .idle) ∧
    (wrapped .idle).dev.tdt.toNat < (wrapped .idle).cfg.nTx ∧ ownerOf (wrapped .idle) callerBuf = .caller ∧
    1 ≤ (42 : Half).toNat ∧ (42 : Half).toNat ≤ (wrapped .idle).cfg.bufSize ∧
    hasBit (txd (wrapped .idle) (wrapped .idle).dev.tdt.toNat).status bitDD = false :=
  ⟨⟨rfl, rfl, rfl, rfl, rfl, rfl⟩, by unfold RingsInside; decide +kernel⟩

/-- The block with slot 0 submitted and a byte of its frame written since the last FENCE. -/
def rewritten : State := { submitted 42 with mem := memPut (submitted 42).mem 0x2201 0xFF }

theorem mayTouch {s : State} {a : Nat} (h : touchesSoftware s a descSize = false) : DeviceMayTouch s a 16 :=
  (touchesSoftware_iff s a).1 h

theorem mayNotTouch {s : State} {a : Nat} (h : touchesSoftware s a descSize = true) : ¬ DeviceMayTouch s a 16 :=
  fun hm => absurd ((touchesSoftware_iff s a).2 hm) (by rw [h]; decide)

/-- The block with slot 0 submitted and TDBAL moved into the caller's buffer, and moved on by one slot. -/
def moved (a : Word) : State := { submitted 42 with dev := { (submitted 42).dev with tdbal := a } }

/-- A slot whose frame fills its buffer; a descriptor in a caller's buffer and one in a slot of software's; a slot without
EOP, and one with DEXT; a slot whose frame no outstanding slot carries; a byte the device sees, and one it may not see. -/
theorem witness_DevTxStep :
    (Running (submitted 128) ∧ txStepEnabled (submitted 128) = true ∧
      (submitted 128).dev.tdh.toNat < (submitted 128).cfg.nTx ∧ RingsInside (submitted 128) ∧
      TxRingSet (submitted 128) ∧ DeviceMayTouch (submitted 128) (txdAddr (submitted 128) 0) 16 ∧
      (∀ a n, DeviceSees (submitted 128) a n) ∧
      DeviceReads (submitted 128) (txd (submitted 128) 0).addr.toNat (txd (submitted 128) 0).length.toNat ∧
      hasBit (txd (submitted 128) 0).cmd bitTxEop = true ∧ hasBit (txd (submitted 128) 0).cmd bitDext = false ∧
      (txd (submitted 128) 0).addr.toNat + (txd (submitted 128) 0).length.toNat ≤ addrSpace) ∧
    (Running ready ∧ txStepEnabled ready = false) ∧
    (txStepEnabled (moved 0x2280) = true ∧ ¬ DeviceMayTouch (moved 0x2280) 0x2280 16 ∧
      txStepEnabled (moved 0x1010) = true ∧ ¬ DeviceMayTouch (moved 0x1010) 0x1010 16) ∧
    (∀ cmd ∈ [0x08, 0x29, 0x09], let s := submittedAs ⟨callerBuf, 42, 0, cmd, 0, 0, 0⟩
      txStepEnabled s = true ∧ TxRingSet s ∧ txdAddr s 0 + 16 ≤ addrSpace ∧ DeviceMayTouch s (txdAddr s 0) 16 ∧
      (∀ a n, DeviceSees s a n) ∧ (hasBit (txd s 0).cmd bitTxEop = false ∨ hasBit (txd s 0).cmd bitDext = true ∨
        ¬ DeviceReads s (txd s 0).addr.toNat (txd s 0).length.toNat)) ∧
    (0x2200 + 3 ≤ addrSpace ∧ DeviceSees rewritten 0x2200 1 ∧ ¬ DeviceSees rewritten 0x2201 1 ∧
      (∀ j < 3, [(10 : Byte), 0xFF, 12][j]? = some (byteAt rewritten (0x2200 + j))) ∧ rewritten.sched = []) := by
  refine ⟨⟨⟨rfl, rfl⟩, by decide +kernel, by decide, ready_rings, by constructor <;> decide +kernel,
      mayTouch (by decide +kernel), sees_of_fenced rfl, (devReads_iff _ _ _).1 (by decide +kernel), by decide +kernel⟩,
    ⟨⟨rfl, rfl⟩, by decide +kernel⟩,
    ⟨by decide +kernel, mayNotTouch (by decide +kernel), by decide +kernel, mayNotTouch (by decide +kernel)⟩,
    fun cmd hc => ?_, by decide, (seenByDevice_iff _ _ _).1 (by decide +kernel), fun h => ?_, by decide +kernel, rfl⟩
  · simp only [List.mem_cons, List.not_mem_nil, or_false] at hc
    rcases hc with rfl | rfl | rfl <;>
      refine ⟨by decide +kernel, by constructor <;> decide +kernel, by decide +kernel, mayTouch (by decide +kernel),
        sees_of_fenced rfl, ?_⟩
    · exact .inl (by decide +kernel)
    · exact .inr (.inl (by decide +kernel))
    · refine .inr (.inr fun h => ?_)
      exact absurd ((devReads_iff _ _ _).2 h) (by decide +kernel)
  · exact absurd ((seenByDevice_iff _ _ _).2 h) (by decide +kernel)

/-- R113: of two bytes written since the last FENCE the device may see the one and not the other. -/
theorem test_dma_read_mix : (match dmaRead 0x2200 3 { submitted 42 with
      mem := memPut (memPut (submitted 42).mem 0x2200 0xEE) 0x2201 0xFF, drawAns := [0, 1] } with
    | .ok (bs, s) => bs == [10, 0xFF, 12] && s.drawAns == []
    | .error _ => false) = true := by decide +kernel

/-- R25, R112: a descriptor in a caller's buffer, and one in a slot of software's, stop the run. -/
theorem test_tx_descriptor_foreign : [0x2280, 0x1010].all (fun a => holdsNext (exec .devTxStep (moved a)) (fun t =>
    t.modelFault == some .ownershipViolation && t.mem == (moved a).mem)) = true := by decide +kernel

/-- R121: a write to an outstanding slot is not seen, even where a FENCE follows it before the device reads the slot. -/
theorem test_tx_tail_snapshot : (match fence { submitted 3 with mem := memPut (submitted 3).mem 0x1008 7 } with
    | .ok (_, s) => holdsNext (exec .devTxStep s) (fun t => t.events.getLast? == some (.wireTx (bytesAt s 0x2200 3)))
    | .error _ => false) = true := by decide +kernel

theorem submitted_txRing : TxRingInv (submitted 3) := txRingInv rfl (by decide +kernel)

/-- The run has not failed. -/
def runs (t : State) : Bool := t.halted == none && t.modelFault == none

/-- The guarded rings; a submission in which a frame arrives and an IRQ that answers Q, each with room for it, and an
IRQ in the wrap state once ARP has been answered; a submission and a DEV_TX_STEP alone; an owner record that is set. -/
theorem witness_TxRingInvKept :
    (RingsGuarded ready ∧ TxRingInv ready ∧ TxRoom ready ∧
      RingsGuarded { ready with sched := [[], [.rxFrame frameQ]] } ∧
      (∃ t, exec (.txSubmit callerBuf 42) { ready with sched := [[], [.rxFrame frameQ]] } = .next t ∧
        (runs t && t.dev.rdh == 1) = true) ∧
      (ready.arpSeen = false ∧ ∃ t, exec .irq { filled frameQ 42 0x03 with
        sw := .idle, irqHeld := true, allocAns := [some freshBuf, some 0x2500] } = .next t ∧
          (runs t && t.dev.tdt == 1) = true)) ∧
    (Ready ready ∧ RingsInside ready ∧ OwnersSized ready ∧ ready.dev.tdlen.toNat = ready.cfg.nTx * 16 ∧
      TxRingInv ready ∧ (ready.dev.tdt.toNat + 1) % ready.cfg.nTx ≠ ready.dev.tdh.toNat ∧
      (∀ c, txdAddr ready ready.dev.tdt.toNat ≤ c → c < txdAddr ready ready.dev.tdt.toNat + 16 →
        inDeviceSlot ready c = false) ∧
      ∃ t, exec (.txSubmit callerBuf 42) ready = .next t ∧ runs t = true) ∧
    (RingsInside (submitted 3) ∧ (submitted 3).cfg.nTx * 16 < 2 ^ 32 ∧ TxRingSet (submitted 3) ∧
      TxRingInv (submitted 3) ∧ ∃ t, exec .devTxStep (submitted 3) = .next t ∧ runs t = true) ∧
    (ready.txOwner[0]? ≠ some none ∧ ready.txOwner[2]? ≠ some none) :=
  ⟨⟨ready_guarded, ready_txRing, by unfold TxRoom; decide,
      ringsGuarded tiny_sizes tiny_ringsApart ready_sized (by decide +kernel),
      next_of_holdsNext (by decide +kernel), rfl, next_of_holdsNext (by decide +kernel)⟩,
    ⟨ready_is_ready, ready_rings, ready_sized, by decide, ready_txRing, by decide,
      fun _ => ready_guarded.txSlot_mine (by decide) (by decide +kernel), next_of_holdsNext (by decide +kernel)⟩,
    ⟨ready_rings, by decide, by constructor <;> decide +kernel, submitted_txRing,
      next_of_holdsNext (by decide +kernel)⟩, by decide⟩

/-- The block `submitted` in each wrap mode, whose next submission fills the last slot. -/
def nearlyFull (m : TxWrapMode) : State :=
  { submitted 42 with
    cfg := { tiny with wrapMode := m }, dev := { tinyDev with tdt := 1, txCount := if m = .sendAll then 1 else 0 } }

/-- A submission that fills the last slot, in each wrap mode, and an operation in the wrap state with IDLE. -/
theorem witness_TxWrap (m : TxWrapMode) :
    (Ready (nearlyFull m) ∧ RingsInside (nearlyFull m) ∧ OwnersSized (nearlyFull m) ∧
      (nearlyFull m).dev.tdlen.toNat = (nearlyFull m).cfg.nTx * 16 ∧ TxRingInv (nearlyFull m) ∧
      ((nearlyFull m).dev.tdt.toNat + 1) % (nearlyFull m).cfg.nTx = (nearlyFull m).dev.tdh.toNat ∧
      RingsGuarded (nearlyFull m) ∧ ∃ t, exec (.txSubmit callerBuf 42) (nearlyFull m) = .next t ∧
        (runs t && t.cfg.wrapMode == m && ownerOf t callerBuf2 == .caller && txEnabled t.dev &&
          !t.dev.resetPending) = true) ∧
    (TxDead (wrapped .idle) ∧ RingsGuarded (wrapped .idle) ∧ Ready (wrapped .idle) ∧ RingsInside (wrapped .idle) ∧
      (wrapped .idle).dev.tdt.toNat < (wrapped .idle).cfg.nTx ∧ ownerOf (wrapped .idle) callerBuf = .caller ∧
      ∃ t, exec (.devRxFrame frameQ) (wrapped .idle) = .next t ∧ (runs t && t.dev.rdh == 1) = true) := by
  have hg (s : State) (hc : s.cfg = { tiny with wrapMode := s.cfg.wrapMode }) (h1 : s.txRingBase = 0x1000)
      (h2 : s.rxRingBase = 0x1040) (ho : OwnersSized s) (h : _) : RingsGuarded s :=
    ringsGuarded (by rw [hc]; exact ⟨tiny_sizes.tx, tiny_sizes.rx, tiny_sizes.buf, tiny_sizes.rxBuf⟩)
      (by rw [hc, h1, h2]; exact ⟨tiny_ringsApart.tx, tiny_ringsApart.rx, tiny_ringsApart.apart⟩) ho h
  refine ⟨⟨⟨rfl, rfl, rfl, rfl, rfl, rfl⟩, by unfold RingsInside; cases m <;> decide, ⟨rfl, rfl⟩, by cases m <;> decide, ?_,
      by cases m <;> decide, hg _ rfl rfl rfl ⟨rfl, rfl⟩ (by cases m <;> decide +kernel),
      next_of_holdsNext (by cases m <;> decide +kernel)⟩,
    ⟨rfl, rfl, by decide +kernel⟩, hg _ rfl rfl rfl ⟨rfl, rfl⟩ (by decide +kernel), ⟨rfl, rfl, rfl, rfl, rfl, rfl⟩,
    by unfold RingsInside; decide, by decide, by decide +kernel, next_of_holdsNext (by decide +kernel)⟩
  exact txRingInv rfl (by cases m <;> decide +kernel)

/-- A broadcast frame of `n` bytes. -/
def broadcast (n : Nat) : List Byte := List.replicate n 0xFF

/-- `RxSlotsReady` from what can be decided, where the device sees all of memory. -/
theorem slotsReady {s : State} {k : Nat} (hf : s.fenced = s.mem)
    (h : (s.dev.rdbah ++ s.dev.rdbal = s.rxRingBase ∧ s.dev.rdlen.toNat = s.cfg.nRx * 16) ∧
      k ≤ cyclicLen s.cfg.nRx s.dev.rdh.toNat s.dev.rdt.toNat ∧
      (∀ r ∈ s.bufs, overlaps r.base.toNat s.cfg.bufSize s.rxRingBase.toNat (s.cfg.nRx * descSize) = false) ∧
      overlaps s.txRingBase.toNat (s.cfg.nTx * descSize) s.rxRingBase.toNat (s.cfg.nRx * descSize) = false ∧
      ∀ j < k, s.rxOwner[rxSlot s j]? = some (rxd s (rxSlot s j)).addr ∧
        recordedOwner s (rxd s (rxSlot s j)).addr = .rxPath ∧
        (rxd s (rxSlot s j)).addr.toNat + s.cfg.bufSize ≤ addrSpace ∧
        ∀ i < j, overlaps (rxd s (rxSlot s i)).addr.toNat s.cfg.bufSize
          (rxd s (rxSlot s j)).addr.toNat s.cfg.bufSize = false) : RxSlotsReady s k := by
  obtain ⟨h1, h2, h3, h4, h5⟩ := h
  exact ⟨⟨h1.1, h1.2⟩, h2, fun _ _ => sees_of_fenced hf _ _, fun j hj => (h5 j hj).1, fun j hj => (h5 j hj).2.1,
    fun j hj => (h5 j hj).2.2.1, h3, h4, fun i j hij hj => (h5 j hj).2.2.2 i hij⟩

/-- Frames of one whole chunk, of one byte more, and of the three free slots' bytes. -/
theorem witness_RxFrameFills : Running ready ∧ SizesOk ready.cfg ∧ RingsInside ready ∧
    ready.dev.rdh.toNat < ready.cfg.nRx ∧ ready.dev.rdt.toNat < ready.cfg.nRx ∧ ready.dev.resetPending = false ∧
    rxEnabled ready.dev = true ∧
    (∀ n ∈ [14, 64, 65, 192], (broadcast n).take 6 = [0xFF, 0xFF, 0xFF, 0xFF, 0xFF, 0xFF] ∧
      14 ≤ (broadcast n).length ∧ (broadcast n).length ≤ 65535) ∧
    (1 = ((broadcast 14).length + ready.cfg.rxBufSize - 1) / ready.cfg.rxBufSize ∧
      1 = ((broadcast 64).length + ready.cfg.rxBufSize - 1) / ready.cfg.rxBufSize ∧
      2 = ((broadcast 65).length + ready.cfg.rxBufSize - 1) / ready.cfg.rxBufSize ∧
      3 = ((broadcast 192).length + ready.cfg.rxBufSize - 1) / ready.cfg.rxBufSize) ∧
    RxSlotsReady ready 1 ∧ RxSlotsReady ready 2 ∧ RxSlotsReady ready 3 := by
  refine ⟨⟨rfl, rfl⟩, tiny_sizes, ready_rings, by decide, by decide, rfl, by decide, by decide +kernel,
    by decide +kernel, slotsReady rfl ?_, slotsReady rfl ?_, slotsReady rfl ?_⟩ <;> decide +kernel

/-- A frame of one byte more than the three free slots take, and a frame with no slot free. -/
theorem witness_RxFrameOverrun :
    (Running ready ∧ SizesOk ready.cfg ∧ RingsInside ready ∧ ready.dev.resetPending = false ∧
      rxEnabled ready.dev = true ∧ (broadcast 193).take 6 = [0xFF, 0xFF, 0xFF, 0xFF, 0xFF, 0xFF] ∧
      14 ≤ (broadcast 193).length ∧ (broadcast 193).length ≤ 65535 ∧
      3 = cyclicLen ready.cfg.nRx ready.dev.rdh.toNat ready.dev.rdt.toNat ∧
      3 * ready.cfg.rxBufSize < (broadcast 193).length ∧ RxSlotsReady ready 3) ∧
    (0 = cyclicLen 4 { tinyDev with rdh := 3 }.rdh.toNat { tinyDev with rdh := 3 }.rdt.toNat ∧
      0 * ready.cfg.rxBufSize < (broadcast 14).length ∧
      RxSlotsReady { ready with dev := { tinyDev with rdh := 3 } } 0) := by
  refine ⟨⟨⟨rfl, rfl⟩, tiny_sizes, ready_rings, rfl, by decide, by decide +kernel, by decide +kernel,
    by decide +kernel, by decide, by decide +kernel, slotsReady rfl ?_⟩, by decide, by decide, slotsReady rfl ?_⟩ <;>
    decide +kernel

theorem witness_ReceiveFilter : Running ready ∧ ready.dev.resetPending = false ∧ rxEnabled ready.dev = true ∧
    14 ≤ (List.replicate 14 (1 : Byte)).length ∧ (List.replicate 14 (1 : Byte)).length ≤ 65535 ∧
    (List.replicate 14 (1 : Byte)).take 6 ≠ ready.cfg.localMac.bytes ∧
    (List.replicate 14 (1 : Byte)).take 6 ≠ [0xFF, 0xFF, 0xFF, 0xFF, 0xFF, 0xFF] ∧
    accept ready.cfg frameV60 = true ∧ accept ready.cfg frameQ = true := by
  unfold Running; decide +kernel

theorem witness_ReceiveDisabled : Running powered ∧ 14 ≤ frameQ.length ∧ frameQ.length ≤ 65535 ∧
    (powered.dev.resetPending = false ∧ powered.dev.rctl &&& 0x2 = 0) ∧
    Running { powered with dev := { tinyDev with resetPending := true } } := by
  unfold Running; decide +kernel

theorem witness_DeviceWritesOnlyItsSlots : SizesOk ready.cfg ∧ DeviceBufsOffRing ready ∧ RxRingSet ready ∧
    (∀ a n, DeviceSees ready a n) ∧ ready.dev.rdh.toNat < ready.cfg.nRx ∧ ready.dev.rdt.toNat < ready.cfg.nRx ∧
    (∃ t, exec (.devRxFrame frameQ) ready = .next t ∧ (t.dev.rdh == 1) = true) ∧
    (Running ready ∧ ready.dev.rdh ≠ ready.dev.rdt ∧ accept ready.cfg frameQ = true ∧
      ∀ a ∈ [0x2280, 0x1000], ¬ DeviceMayTouch { ready with dev := { tinyDev with rdbal := a } } a.toNat 16) := by
  refine ⟨tiny_sizes, ready_offRing, ready_rxRegs, sees_of_fenced rfl, by decide, by decide,
    next_of_holdsNext (by decide +kernel), ⟨rfl, rfl⟩, by decide, by decide +kernel, fun a ha => ?_⟩
  simp only [List.mem_cons, List.not_mem_nil, or_false] at ha
  rcases ha with rfl | rfl <;> exact mayNotTouch (by decide +kernel)

/-- The block where INIT goes on from S3, its device reset, its receive buffers the allocator's coming answers. -/
def resumed (p : Params) (bs : List Addr) (rest : List (Option Addr)) : State :=
  { State.reset with
    cfg := p, txRingBase := 0x1000, rxRingBase := 0x1040, initPhase := .running, sw := .initHold
    txOwner := List.replicate p.nTx none, rxOwner := List.replicate p.nRx 0, allocAns := bs.map some ++ rest }

theorem forall_of_all {p : Addr → Prop} [DecidablePred p] {l : List Addr} (h : l.all (fun b => decide (p b)) = true) :
    ∀ b ∈ l, p b := fun b hb => of_decide_eq_true (List.all_eq_true.mp h b hb)

/-- `FreshBuffers` where nothing has been allocated, from what can be decided. -/
theorem freshBuffers {s : State} {tb xb : Addr} {bs : List Addr} (hb : s.bufs = []) (hd : bs.Nodup)
    (h : bs.all (fun b => decide (b.toNat % s.cfg.bufSize = 0 ∧ b.toNat + s.cfg.bufSize ≤ addrSpace ∧
      overlaps b.toNat s.cfg.bufSize tb.toNat (s.cfg.nTx * 16) = false ∧
      overlaps b.toNat s.cfg.bufSize xb.toNat (s.cfg.nRx * 16) = false)) = true) : FreshBuffers s tb xb bs :=
  ⟨fun b m => (forall_of_all h b m).1, fun b m => (forall_of_all h b m).2.1,
    fun _ _ _ m => absurd (hb ▸ m) (List.not_mem_nil), fun b m => (forall_of_all h b m).2.2.1,
    fun b m => (forall_of_all h b m).2.2.2, hd⟩

/-- All but the buffers of `InitReady`. -/
theorem resumed_ready (bs : List Addr) (rest : List (Option Addr)) (hc : bs.length ≤ 4)
    (hf : FreshBuffers (resumed tiny bs rest) 0x1000 0x1040 bs) : InitReady (resumed tiny bs rest) bs rest :=
  ⟨tiny_sizes, ⟨rfl, rfl⟩, rfl, rfl, ⟨rfl, rfl, ⟨rfl, rfl, rfl⟩, ⟨rfl, rfl⟩, rfl, rfl⟩,
    tiny_ringsApart, ⟨by simp [resumed, State.reset], by simp [resumed, State.reset],
      by simp [resumed, State.reset]⟩, rfl, hf, hc⟩

theorem resumed_four : InitReady (resumed tiny rxBufs []) rxBufs [] :=
  resumed_ready _ _ (by decide) (freshBuffers rfl (by decide) (by decide +kernel))

/-- R506: INIT's receive ring is in place before the receive engine is enabled, so the first frame finds a valid ring; and
R121: with no FENCE after S10 the device does not see it, software does. -/
theorem test_init_rings_in_place : holdsNext (step (resumed tiny rxBufs [])) (fun t =>
    rxEnabled t.dev && seenByDevice t 0x1040 64) = true ∧
  holdsNext (step (resumed { tiny with rxInitView := .fenced } rxBufs [])) (fun t => t.rxOwner == rxBufs &&
    (rxd t 1).addr == 0x2080 && memGet t.fenced 0x1050 == none) = true := by decide +kernel

/-- The small block at power-on, its buffers the allocator's coming answers, its reset at INIT's poll after `polls`, and the
events of `later` at the accesses after it. -/
def starting (p : Params) (bs : List Addr) (rest : List (Option Addr)) (polls : Nat := 0)
    (later : List (List DevEvent) := []) : State :=
  { State.reset with
    cfg := p, txOwner := List.replicate p.nTx none, rxOwner := List.replicate p.nRx 0
    allocAns := bs.map some ++ rest, sched := List.replicate (3 + polls) [] ++ [.reset] :: later }

/-- What does not depend on the buffers of `InitIssued`. -/
theorem starting_issued {p : Params} (bs : List Addr) (rest : List (Option Addr)) (polls : Nat)
    (later : List (List DevEvent)) (hz : SizesOk p) (hr : RingsApart p 0x1000 0x1040) (hc : bs.length ≤ p.nRx)
    (hf : FreshBuffers (starting p bs rest polls later) 0x1000 0x1040 bs) :
    InitIssued (starting p bs rest polls later) 0x1000 0x1040 bs rest later :=
  ⟨⟨rfl, rfl⟩, rfl, rfl, hz, ⟨List.length_replicate, List.length_replicate⟩,
    ⟨by simp [starting, State.reset], by simp [starting, State.reset], by simp [starting, State.reset]⟩,
    by decide, hr, rfl, hf, hc, ⟨polls, rfl⟩⟩

theorem rxBufs_fresh : rxBufs.all (fun b => decide (b.toNat % 128 = 0 ∧ b.toNat + 128 ≤ addrSpace ∧
    overlaps b.toNat 128 0x1000 (2 * 16) = false ∧ overlaps b.toNat 128 0x1040 (4 * 16) = false)) = true := by
  decide +kernel

theorem starting_four (polls : Nat) (later : List (List DevEvent)) :
    InitIssued (starting tiny rxBufs [] polls later) 0x1000 0x1040 rxBufs [] later :=
  starting_issued _ _ _ _ tiny_sizes tiny_ringsApart (by decide) (freshBuffers rfl (by decide) rxBufs_fresh)

theorem filled_rxRing : RxRingInv (filled frameQ 42 0x03) := rxRingInv rfl (by decide +kernel)

theorem filled_guarded : RingsGuarded (filled frameQ 42 0x03) :=
  ringsGuarded tiny_sizes tiny_ringsApart ready_sized (by decide +kernel)

/-- A frame before the access `j` places after S15 (0: RDTR's write). -/
def lateFrame (j : Nat) (f : List Byte) : List (List DevEvent) :=
  List.replicate (initAccesses tiny + j) [] ++ [[.rxFrame f]]

/-- The corner case of R200: a frame before S15's write of RCTL is dropped, one before S17's of IMS is held. -/
theorem test_init_frame : holdsNext (exec (.init 0x40000000 0x1000 0x1040) (starting tiny rxBufs [] 0
      (List.replicate (initAccesses tiny - 1) [] ++ [[.rxFrame frameQ]])))
      (fun t => t.dev.rdh == 0 && !t.irqHeld && t.events.contains (.dropped .rxDisabled)) = true ∧
    holdsNext (exec (.init 0x40000000 0x1000 0x1040) (starting tiny rxBufs [] 0 (lateFrame 2 frameQ)))
      (fun t => t.dev.rdh == 1 && t.irqHeld) = true := by decide +kernel

/-- INIT issued and INIT held, with no buffer in the ownership map before it, and a frame before RADV's write; a frame; and
RX_DRAIN of a filled slot. -/
theorem witness_RxRingInvKept :
    (InitIssued (starting tiny rxBufs []) 0x1000 0x1040 rxBufs [] [] ∧ (starting tiny rxBufs []).bufs = [] ∧
      rxBufs.length = (starting tiny rxBufs []).cfg.nRx ∧
      ∃ t, exec (.init 0x40000000 0x1000 0x1040) (starting tiny rxBufs []) = .next t ∧ runs t = true) ∧
    (InitIssued (starting tiny rxBufs [] 1 (lateFrame 1 frameQ)) 0x1000 0x1040 rxBufs [] (lateFrame 1 frameQ) ∧
      lateFrame 1 frameQ = List.replicate (initAccesses tiny) [] ++ [[], [.rxFrame frameQ]] ∧
      tiny.nTx * 16 % tiny.ringAlign = 0 ∧ tiny.nRx * 16 % tiny.ringAlign = 0 ∧
      ∃ t, exec (.init 0x40000000 0x1000 0x1040) (starting tiny rxBufs [] 1 (lateFrame 1 frameQ)) = .next t ∧
        (runs t && t.dev.rdh == 1 && t.irqHeld) = true) ∧
    (Running (resumed tiny rxBufs []) ∧ (resumed tiny rxBufs []).sw = .initHold ∧
      InitReady (resumed tiny rxBufs []) rxBufs [] ∧ (resumed tiny rxBufs []).bufs = [] ∧
      rxBufs.length = (resumed tiny rxBufs []).cfg.nRx ∧
      ∃ t, step (resumed tiny rxBufs []) = .next t ∧ runs t = true) ∧
    (SizesOk ready.cfg ∧ DeviceBufsOffRing ready ∧ RxRingSet ready ∧ RxRingInv ready ∧ ∃ t, exec (.devRxFrame frameQ) ready = .next t) ∧
    (RingsGuarded (filled frameQ 42 0x03) ∧ RxRingInv (filled frameQ 42 0x03) ∧
      RingsGuarded { filled frameQ 42 0x03 with allocAns := [some freshBuf, some 0x2500] } ∧
      RxRingInv { filled frameQ 42 0x03 with allocAns := [some freshBuf, some 0x2500] } ∧
      ∃ t, exec .rxDrain { filled frameQ 42 0x03 with allocAns := [some freshBuf, some 0x2500] } = .next t ∧
        (runs t && t.dev.rdt == 0) = true) :=
  ⟨⟨starting_four _ _, rfl, rfl, next_of_holdsNext (by decide +kernel)⟩,
    ⟨starting_four _ _, by decide +kernel, by decide, by decide, next_of_holdsNext (by decide +kernel)⟩,
    ⟨⟨rfl, rfl⟩, rfl, resumed_four, rfl, rfl, next_of_holdsNext (by decide +kernel)⟩,
    ⟨tiny_sizes, ready_offRing, ready_rxRegs, ready_rxRing, next_of_exec (by decide +kernel)⟩,
    filled_guarded, filled_rxRing,
    ringsGuarded tiny_sizes tiny_ringsApart ready_sized (by decide +kernel),
    rxRingInv rfl (by decide +kernel), next_of_holdsNext (by decide +kernel)⟩

theorem drain_ready : ReadyAt .irqI2 { ready with sw := .irqI2 } := ⟨rfl, rfl, rfl, by decide, rfl⟩

theorem witness_RxDrainEmpty : ReadyAt .irqI2 { ready with sw := .irqI2 } ∧ Lock.rx ∉ ready.locks ∧
    SizesOk ready.cfg ∧ RingsInside { ready with sw := .irqI2 } ∧
    hasBit (rxd { ready with sw := .irqI2 } ((ready.dev.rdt.toNat + 1) % ready.cfg.nRx)).status bitDD = false :=
  ⟨drain_ready, by decide, tiny_sizes, ready_rings, by decide +kernel⟩

/-- The block with a short frame in slot 0, and the allocator's next answer. -/
def draining (f : List Byte) (len : Half) (st : Byte) (a : Option Addr) : State :=
  { filled f len st with allocAns := [a] }

/-- What the drain's obligations ask of a state with slot 0 filled, from what can be decided. -/
theorem drain_slot {s : State}
    (h : s.halted = none ∧ s.modelFault = none ∧ s.sw = .irqI2 ∧ Lock.tx ∉ s.locks ∧ s.sched = [])
    (hs : (1 ≤ s.cfg.nTx ∧ s.cfg.nTx * 16 < 2 ^ 32) ∧ (1 ≤ s.cfg.nRx ∧ s.cfg.nRx * 16 < 2 ^ 32) ∧
      (128 ≤ s.cfg.bufSize ∧ s.cfg.bufSize ≤ 65535) ∧ (1 ≤ s.cfg.rxBufSize ∧ s.cfg.rxBufSize ≤ s.cfg.bufSize))
    (hr : s.txRingBase.toNat + s.cfg.nTx * descSize ≤ addrSpace ∧ s.rxRingBase.toNat + s.cfg.nRx * descSize ≤ addrSpace)
    (hb : ownerOf s 0x2000 = .rxPath ∧ 128 ≤ s.cfg.bufSize ∧ (0x2000 : Addr).toNat + s.cfg.bufSize ≤ addrSpace) :
    ReadyAt .irqI2 s ∧ SizesOk s.cfg ∧ RingsInside s ∧ Holds s .rxPath 0x2000 :=
  ⟨⟨h.1, h.2.1, h.2.2.1, h.2.2.2.1, h.2.2.2.2⟩, ⟨hs.1, hs.2.1, hs.2.2.1, hs.2.2.2⟩, hr, ⟨hb.1, hb.2.1, hb.2.2⟩⟩

theorem draining_owner (f : List Byte) (len : Half) (st : Byte) (a : Option Addr) :
    ownerOf (draining f len st a) 0x2000 = .rxPath := by
  show ownerOf { ready with dev := { tinyDev with rdh := 1, icr := 0x80 } } 0x2000 = .rxPath
  decide +kernel

theorem draining_ready (f : List Byte) (len : Half) (st : Byte) (a : Option Addr) :
    let s := draining f len st a
    ReadyAt .irqI2 s ∧ SizesOk s.cfg ∧ RingsInside s ∧ Holds s .rxPath 0x2000 :=
  drain_slot ⟨rfl, rfl, rfl, List.not_mem_nil, rfl⟩ (show _ by exact (by decide : (1 ≤ tiny.nTx ∧ tiny.nTx * 16 < 2 ^ 32) ∧
    (1 ≤ tiny.nRx ∧ tiny.nRx * 16 < 2 ^ 32) ∧ (128 ≤ tiny.bufSize ∧ tiny.bufSize ≤ 65535) ∧
    (1 ≤ tiny.rxBufSize ∧ tiny.rxBufSize ≤ tiny.bufSize))) ready_rings
    ⟨draining_owner f len st a, (by decide : 128 ≤ tiny.bufSize), (by decide : 0x2000 + tiny.bufSize ≤ addrSpace)⟩

/-- The other hypotheses of `RxDrainOne`. -/
def DrainsOne (s : State) : Prop :=
  Lock.rx ∉ s.locks ∧ s.dev.rdlen.toNat = s.cfg.nRx * 16 ∧ 0 = (s.dev.rdt.toNat + 1) % s.cfg.nRx ∧
    cyclicMem s.cfg.nRx s.dev.rdh.toNat s.dev.rdt.toNat 0 = false ∧
    hasBit (rxd s 0).status bitDD = true ∧ hasBit (rxd s 0).status bitRxEop = true ∧
    s.rxOwner.getD 0 0 = 0x2000 ∧
    ¬ (42 ≤ (rxd s 0).length.toNat ∧ frameType s 0x2000 = 0x0806) ∧
    ¬ (34 ≤ (rxd s 0).length.toNat ∧ frameType s 0x2000 = 0x0800) ∧
    (1 < s.cfg.nRx → hasBit (rxd s ((0 + 1) % s.cfg.nRx)).status bitDD = false) ∧
    (nextAllocAnswer s).1 = some freshBuf ∧ allocOk (setOwner 0x2000 .allocator s) freshBuf = true

/-- CLASSIFY of slot 0's frame where RX_DRAIN's first turn issues it. -/
def classified (s : State) : Host.Outcome State Fault Refusal :=
  exec (.classify 0x2000 (rxd s 0).length) { setOwner 0x2000 .demux s with sw := .drainRD3 0 0 }

/-- The block of `filled` with these coming answers of the allocator. -/
def turning (a : List (Option Addr)) : State := { filled frameQ 42 0x03 with allocAns := a }

/-- What one turn of the drain asks of a state, with the slot after the reserved one filled. -/
theorem turning_ready (a : List (Option Addr)) : Running (turning a) ∧ (turning a).sched = [] ∧ BufsApart (turning a) ∧
    RingsGuarded (turning a) ∧ RxRingInv (turning a) ∧
    0 = ((turning a).dev.rdt.toNat + 1) % (turning a).cfg.nRx ∧ hasBit (rxd (turning a) 0).status bitDD = true ∧
    hasBit (rxd (turning a) 0).status bitRxEop = true ∧ (turning a).rxOwner.getD 0 0 = 0x2000 :=
  ⟨⟨rfl, rfl⟩, rfl, ⟨ready_apart.aligned, ready_apart.inside, ready_apart.apart⟩,
    ⟨tiny_sizes, tiny_ringsApart, ⟨filled_guarded.tx.base, filled_guarded.tx.length⟩,
      ⟨filled_guarded.rx.base, filled_guarded.rx.length⟩, filled_guarded.txCursors, filled_guarded.rxCursors,
      ready_sized, filled_guarded.bufs, rfl⟩,
    ⟨filled_rxRing.head, filled_rxRing.tail, filled_rxRing.free, filled_rxRing.filled, filled_rxRing.reserved,
      filled_rxRing.seen⟩,
    (by decide : 0 = ((3 : Word).toNat + 1) % 4),
    (by decide +kernel : hasBit (rxd (filled frameQ 42 0x03) 0).status bitDD = true),
    (by decide +kernel : hasBit (rxd (filled frameQ 42 0x03) 0).status bitRxEop = true), rfl⟩

/-- A frame of 41 bytes with the ARP type and one of 33 bytes with the IP type: one byte too short each. The drain
loop that ends, and that stops the run; a slot that is not filled. And the turn at a filled slot with an ARP query,
where CLASSIFY answers it and Alloc answers, where CLASSIFY answers it and Alloc fails, and where CLASSIFY stops the
run. -/
theorem witness_RxDrainOne :
    ((ReadyAt .irqI2 (draining frameQ 41 0x03 (some freshBuf)) ∧ SizesOk (draining frameQ 41 0x03 (some freshBuf)).cfg ∧
      RingsInside (draining frameQ 41 0x03 (some freshBuf)) ∧
      Holds (draining frameQ 41 0x03 (some freshBuf)) .rxPath 0x2000) ∧
      BufsApart (draining frameQ 41 0x03 (some freshBuf)) ∧ DrainsOne (draining frameQ 41 0x03 (some freshBuf)) ∧
      DrainsOne (draining frameV60 33 0x03 (some freshBuf)) ∧
      (1 < tiny.nRx ∧ (filled frameQ 41 3).dev.rdh.toNat < tiny.nRx ∧ (filled frameQ 41 3).dev.rdt.toNat < tiny.nRx)) ∧
    ((∃ c t, drainLoop 4 4 0 0 { turning [some freshBuf, some 0x2500] with locks := [.rx] } = .ok (c, t)) ∧
      ∃ t, drainLoop 4 4 0 0 { turning [none] with locks := [.rx] } = .error (.ended t)) ∧
    (rxdAddr ready 0 + 16 ≤ addrSpace ∧ hasBit (rxd ready 0).status bitDD = false) ∧
    ((∃ u, classified (turning [some freshBuf, some 0x2500]) = .next u ∧
        (runs u && (nextAllocAnswer u).1 == some 0x2500 && allocOk u 0x2500) = true) ∧
      (∃ u, classified (turning [some freshBuf, none]) = .next u ∧
        (runs u && (nextAllocAnswer u).1 == none) = true) ∧
      ∃ u, classified (turning [none]) = .next u ∧ (!runs u) = true) := by
  refine ⟨⟨draining_ready _ _ _ _, ⟨ready_apart.aligned, ready_apart.inside, ready_apart.apart⟩,
      by unfold DrainsOne; decide +kernel, by unfold DrainsOne; decide +kernel, by decide⟩, ⟨?_, ?_⟩,
    by decide +kernel, next_of_holdsNext (by decide +kernel), next_of_holdsNext (by decide +kernel),
    next_of_holdsNext (by decide +kernel)⟩
  · have h : (match drainLoop 4 4 0 0 { turning [some freshBuf, some 0x2500] with locks := [.rx] } with
        | .ok _ => true | .error _ => false) = true := by decide +kernel
    split at h
    · next x hx => exact ⟨x.1, x.2, hx⟩
    · cases h
  · have h : (match drainLoop 4 4 0 0 { turning [none] with locks := [.rx] } with
        | .error (.ended _) => true | _ => false) = true := by decide +kernel
    split at h
    · next x hx => exact ⟨x, hx⟩
    · cases h

theorem witness_RxDrainFatal :
    ((ReadyAt .irqI2 (draining frameQ 42 0x01 none) ∧ SizesOk (draining frameQ 42 0x01 none).cfg ∧
        RingsInside (draining frameQ 42 0x01 none) ∧ Holds (draining frameQ 42 0x01 none) .rxPath 0x2000) ∧
      Lock.rx ∉ (draining frameQ 42 0x01 none).locks ∧
      0 = ((draining frameQ 42 0x01 none).dev.rdt.toNat + 1) % (draining frameQ 42 0x01 none).cfg.nRx ∧
      hasBit (rxd (draining frameQ 42 0x01 none) 0).status bitDD = true ∧
      hasBit (rxd (draining frameQ 42 0x01 none) 0).status bitRxEop = false) ∧
    ((ReadyAt .irqI2 (draining frameQ 41 0x03 none) ∧ SizesOk (draining frameQ 41 0x03 none).cfg ∧
        RingsInside (draining frameQ 41 0x03 none) ∧ Holds (draining frameQ 41 0x03 none) .rxPath 0x2000) ∧
      hasBit (rxd (draining frameQ 41 0x03 none) 0).status bitDD = true ∧
      hasBit (rxd (draining frameQ 41 0x03 none) 0).status bitRxEop = true ∧
      cyclicMem (draining frameQ 41 0x03 none).cfg.nRx (draining frameQ 41 0x03 none).dev.rdh.toNat
        (draining frameQ 41 0x03 none).dev.rdt.toNat 0 = false ∧
      (draining frameQ 41 0x03 none).rxOwner.getD 0 0 = 0x2000 ∧
      ¬ (42 ≤ (rxd (draining frameQ 41 0x03 none) 0).length.toNat ∧
        frameType (draining frameQ 41 0x03 none) 0x2000 = 0x0806) ∧
      ¬ (34 ≤ (rxd (draining frameQ 41 0x03 none) 0).length.toNat ∧
        frameType (draining frameQ 41 0x03 none) 0x2000 = 0x0800) ∧
      (nextAllocAnswer (draining frameQ 41 0x03 none)).1 = none) :=
  ⟨⟨draining_ready _ _ _ _, by decide +kernel⟩, draining_ready _ _ _ _, by decide +kernel⟩

theorem witness_IrqRuns : Ready ready ∧
    (∃ t, exec .irq ready = .next t) ∧
    SizesOk ready.cfg ∧ RingsInside ready ∧
    hasBit (rxd ready ((ready.dev.rdt.toNat + 1) % ready.cfg.nRx)).status bitDD = false :=
  ⟨ready_is_ready, next_of_exec (by decide +kernel), tiny_sizes, ready_rings, by decide +kernel⟩

theorem holding_readyAt (f : List Byte) (pos : SwSeq) : ReadyAt pos (holding f pos) :=
  ⟨rfl, rfl, rfl, List.not_mem_nil, rfl⟩

theorem holding_holds (f : List Byte) (pos : SwSeq) : Holds (holding f pos) .demux demuxBuf :=
  ⟨rfl, show 128 ≤ tiny.bufSize by decide, show 0x2380 + tiny.bufSize ≤ addrSpace by decide⟩

/-- One byte too short for its type, of each type; and the longest frame of neither type. -/
theorem witness_ClassifyDrops :
    (ReadyAt (.drainRD3 0 0) (holding frameQ (.drainRD3 0 0)) ∧
      Holds (holding frameQ (.drainRD3 0 0)) .demux demuxBuf ∧
      ¬ (42 ≤ (41 : Half).toNat ∧ frameType (holding frameQ (.drainRD3 0 0)) demuxBuf = 0x0806) ∧
      ¬ (34 ≤ (41 : Half).toNat ∧ frameType (holding frameQ (.drainRD3 0 0)) demuxBuf = 0x0800)) ∧
    (¬ (42 ≤ (33 : Half).toNat ∧ frameType (holding frameV60 (.drainRD3 0 0)) demuxBuf = 0x0806) ∧
      ¬ (34 ≤ (33 : Half).toNat ∧ frameType (holding frameV60 (.drainRD3 0 0)) demuxBuf = 0x0800)) ∧
    (¬ (42 ≤ (65535 : Half).toNat ∧ frameType (holding (broadcast 60) (.drainRD3 0 0)) demuxBuf = 0x0806) ∧
      ¬ (34 ≤ (65535 : Half).toNat ∧ frameType (holding (broadcast 60) (.drainRD3 0 0)) demuxBuf = 0x0800)) :=
  ⟨⟨holding_readyAt _ _, holding_holds _ _, by decide +kernel, by decide +kernel⟩,
    by decide +kernel, by decide +kernel⟩

theorem witness_ClassifyCalls :
    (ReadyAt (.drainRD3 0 0) (holding frameQ (.drainRD3 0 0)) ∧
      Holds (holding frameQ (.drainRD3 0 0)) .demux demuxBuf ∧
      42 ≤ (42 : Half).toNat ∧ frameType (holding frameQ (.drainRD3 0 0)) demuxBuf = 0x0806) ∧
    (34 ≤ (34 : Half).toNat ∧ frameType (holding frameV60 (.drainRD3 0 0)) demuxBuf = 0x0800) :=
  ⟨⟨holding_readyAt _ _, holding_holds _ _, by decide +kernel⟩, by decide +kernel⟩

/-- The hypotheses of the obligations that allocate and submit, from what can be decided, where the slot at TDT holds
`sentBuf`, but for those of the slot. -/
def Submits (pos : SwSeq) (s : State) : Prop :=
  s.halted = none ∧ s.modelFault = none ∧ s.sw = pos ∧ s.locks = [] ∧ s.sched = [] ∧
    (s.txRingBase.toNat + s.cfg.nTx * descSize ≤ addrSpace ∧ s.rxRingBase.toNat + s.cfg.nRx * descSize ≤ addrSpace) ∧
    s.dev.tdt.toNat < s.cfg.nTx ∧ s.dev.tdlen.toNat = s.cfg.nTx * 16 ∧
    ownerOf s demuxBuf = .demux ∧ (nextAllocAnswer s).1 = some freshBuf ∧ allocOk s freshBuf = true ∧
    s.arpSeen = false ∧ s.initPhase = .done

theorem submitReady {pos : SwSeq} {s : State} (h : Submits pos s) (hs : SizesOk s.cfg) (ha : BufsApart s) :
    SubmitReady s := by
  obtain ⟨-, -, -, hl, hsc, hr, ht, hd, -⟩ := h
  exact ⟨hsc, hs, hr, ha, by simp [hl], ht, hd⟩

/-- `SlotReady` from what can be decided, where the slot at TDT holds `sentBuf`. -/
theorem slotReady {s : State} (h : devOwnsTx s s.dev.tdt.toNat = false ∧
    hasBit (txd s s.dev.tdt.toNat).status bitDD = true ∧
    s.txOwner.getD s.dev.tdt.toNat none = some sentBuf ∧ ownerOf s sentBuf = .txPath ∧
    txHolds s sentBuf = false) : SlotReady s :=
  ⟨h.1, h.2.1, fun o e => by cases h.2.2.1.symm.trans e; exact h.2.2.2⟩

/-- The block where ARP_RX is to be issued for Q, or software is idle, with room in the transmit ring. -/
def asking (pos : SwSeq) (c : List Bool) : State :=
  { holding frameQ pos with allocAns := [some freshBuf], copyAns := c }
/-- The same block in the wrap state of each mode, its transmit ring full. -/
def askingFull (m : TxWrapMode) (pos : SwSeq) (c : List Bool) : State :=
  { wrapped m with allocAns := [some freshBuf], copyAns := c, sw := pos }

theorem asking_submitReady {pos : SwSeq} {c : List Bool} (h : Submits pos (asking pos c)) :
    SubmitReady (asking pos c) := submitReady h tiny_sizes ⟨ready_apart.aligned, ready_apart.inside, ready_apart.apart⟩
theorem askingFull_submitReady {m : TxWrapMode} {pos : SwSeq} {c : List Bool} (h : Submits pos (askingFull m pos c)) :
    SubmitReady (askingFull m pos c) :=
  submitReady h ⟨tiny_sizes.tx, tiny_sizes.rx, tiny_sizes.buf, tiny_sizes.rxBuf⟩
    ⟨ready_apart.aligned, ready_apart.inside, ready_apart.apart⟩

theorem asking_arp : Submits .classifyC1 (asking .classifyC1 []) := by unfold Submits; decide +kernel
theorem asking_arpSlot : SlotReady (asking .classifyC1 []) := slotReady (by decide +kernel)
theorem asking_arpFull (m : TxWrapMode) : Submits .classifyC1 (askingFull m .classifyC1 []) := by
  cases m <;> unfold Submits <;> decide +kernel
theorem asking_udp (c : Bool) : Submits .idle (asking .idle [c]) := by cases c <;> unfold Submits <;> decide +kernel
theorem asking_udpFull (m : TxWrapMode) (c : Bool) : Submits .idle (askingFull m .idle [c]) := by
  cases m <;> cases c <;> unfold Submits <;> decide +kernel

/-- The transmit ring is full: the slot at TDT has DD clear; with SEND_ALL it is the device's. -/
theorem askingFull_full (m : TxWrapMode) (pos : SwSeq) (c : List Bool) :
    hasBit (txd (askingFull m pos c) (askingFull m pos c).dev.tdt.toNat).status bitDD = false ∧
    (m = .sendAll → devOwnsTx (askingFull m pos c) (askingFull m pos c).dev.tdt.toNat = true) := by
  refine ⟨?_, ?_⟩
  · show hasBit (txd (wrapped m) (wrapped m).dev.tdt.toNat).status bitDD = false
    cases m <;> decide +kernel
  · rintro rfl
    show devOwnsTx (wrapped .sendAll) (wrapped .sendAll).dev.tdt.toNat = true
    decide +kernel

theorem witness_ArpReplies : ReadyAt .classifyC1 (asking .classifyC1 []) ∧ SubmitReady (asking .classifyC1 []) ∧
    Holds (asking .classifyC1 []) .demux demuxBuf ∧ Submits .classifyC1 (asking .classifyC1 []) ∧
    SlotReady (asking .classifyC1 []) :=
  ⟨⟨rfl, rfl, rfl, by decide, rfl⟩, asking_submitReady asking_arp, by constructor <;> decide +kernel, asking_arp,
    asking_arpSlot⟩

theorem witness_ArpNotAnswered (m : TxWrapMode) :
    (ReadyAt .classifyC1 { holding frameQ .classifyC1 with arpSeen := true } ∧
      Holds { holding frameQ .classifyC1 with arpSeen := true } .demux demuxBuf) ∧
    (ReadyAt .classifyC1 (askingFull m .classifyC1 []) ∧ Holds (askingFull m .classifyC1 []) .demux demuxBuf ∧
      SubmitReady (askingFull m .classifyC1 []) ∧ Submits .classifyC1 (askingFull m .classifyC1 []) ∧
      hasBit (txd (askingFull m .classifyC1 []) (askingFull m .classifyC1 []).dev.tdt.toNat).status bitDD = false) ∧
    (ReadyAt .classifyC1 { holding frameQ .classifyC1 with allocAns := [none] } ∧
      Holds { holding frameQ .classifyC1 with allocAns := [none] } .demux demuxBuf ∧
      { holding frameQ .classifyC1 with allocAns := [none] }.arpSeen = false ∧
      (nextAllocAnswer { holding frameQ .classifyC1 with allocAns := [none] }).1 = none) :=
  ⟨⟨⟨rfl, rfl, rfl, by decide, rfl⟩, by constructor <;> decide +kernel⟩,
    ⟨⟨rfl, rfl, rfl, List.not_mem_nil, rfl⟩, by cases m <;> constructor <;> decide +kernel,
      askingFull_submitReady (asking_arpFull m), asking_arpFull m, (askingFull_full m _ _).1⟩,
    ⟨rfl, rfl, rfl, by decide, rfl⟩, by constructor <;> decide +kernel, rfl, rfl⟩

/-- Port 7000 with room, port 7000 full, port 7000 unbound, and port 0, which a table slot holds but no queue. -/
theorem witness_IpRxOutcomes :
    (ReadyAt .classifyC2 (holding frameV60 .classifyC2) ∧ Holds (holding frameV60 .classifyC2) .demux demuxBuf ∧
      (7000 : Half) = be16 (bytesAt (holding frameV60 .classifyC2) (udpAt (holding frameV60 .classifyC2) demuxBuf + 2) 2) ∧
      (5555 : Half) = be16 (bytesAt (holding frameV60 .classifyC2) (udpAt (holding frameV60 .classifyC2) demuxBuf) 2)) ∧
    (BoundTo (holding frameV60 .classifyC2) 7000 0 ⟨7000, [], 0⟩ ∧
      ([] : List Packet).length < (holding frameV60 .classifyC2).cfg.maxQueueLen) ∧
    (BoundTo { holding frameV60 .classifyC2 with portq := [⟨7000, [⟨1, 1, queueBuf⟩], 0⟩] } 7000 0
        ⟨7000, [⟨1, 1, queueBuf⟩], 0⟩ ∧
      ¬ [(⟨1, 1, queueBuf⟩ : Packet)].length < (holding frameV60 .classifyC2).cfg.maxQueueLen) ∧
    (∀ q e, ¬ BoundTo { holding frameV60 .classifyC2 with portq := [] } 7000 q e) ∧
    (∀ q e, ¬ BoundTo (holding frameV60 .classifyC2) 0 q e) := by
  refine ⟨⟨holding_readyAt _ _, holding_holds _ _, by decide +kernel, by decide +kernel⟩,
    ⟨⟨by decide, rfl, rfl⟩, by decide⟩, ⟨⟨by decide, rfl, rfl⟩, by decide⟩, ?_, ?_⟩
  · rintro q e ⟨-, h, -⟩
    simp at h
  · rintro q e ⟨h, -⟩
    exact h rfl

/-- A queue's buffer and the caller's; a limit above, at and below what the datagram carries. -/
theorem witness_UdpPayloadParses :
    (Ready (put queueBuf.toNat frameV60 ready) ∧ Holds (put queueBuf.toNat frameV60 ready) (.portq 0) queueBuf ∧
      ∀ x ∈ [((0 : BitVec 64), 0), (1, 1), (2, 2), (0xFFFFFFFFFFFFFFFF, 2)],
        x.2 = min (min x.1.toNat ((be16 (bytesAt (put queueBuf.toNat frameV60 ready)
            (udpAt (put queueBuf.toNat frameV60 ready) queueBuf + 4) 2)).toNat - 8))
          (queueBuf.toNat + ready.cfg.bufSize - (udpAt (put queueBuf.toNat frameV60 ready) queueBuf + 8))) ∧
    Holds (put callerBuf.toNat frameV60 ready) .caller callerBuf :=
  ⟨⟨⟨rfl, rfl, rfl, rfl, rfl, rfl⟩, by constructor <;> decide +kernel, by decide +kernel⟩,
    by constructor <;> decide +kernel⟩

/-- An empty payload, and the largest that fits. -/
theorem witness_UdpTxSends : Ready (asking .idle [true]) ∧ SubmitReady (asking .idle [true]) ∧
    (42 + ([] : List Byte).length ≤ tiny.bufSize ∧ 42 + (broadcast 86).length ≤ tiny.bufSize) ∧
    Submits .idle (asking .idle [true]) ∧ (asking .idle [true]).copyAns.head? = some true ∧
    SlotReady (asking .idle [true]) :=
  ⟨⟨rfl, rfl, rfl, rfl, rfl, rfl⟩, asking_submitReady (asking_udp true), by decide +kernel, asking_udp true, rfl,
    slotReady (by decide +kernel)⟩

/-- The copy failing with room in the transmit ring and with the ring full, and the full ring, in each wrap mode. -/
theorem witness_UdpTxFails (m : TxWrapMode) :
    (Ready ready ∧ ready.cfg.bufSize < 42 + (broadcast 87).length ∧ 42 + (broadcast 86).length ≤ ready.cfg.bufSize) ∧
    (Ready { ready with allocAns := [none] } ∧ (nextAllocAnswer { ready with allocAns := [none] }).1 = none) ∧
    (Ready (asking .idle [false]) ∧ SubmitReady (asking .idle [false]) ∧ Submits .idle (asking .idle [false]) ∧
      (asking .idle [false]).copyAns.head? = some false) ∧
    (∀ c, Ready (askingFull m .idle [c]) ∧ SubmitReady (askingFull m .idle [c]) ∧
      Submits .idle (askingFull m .idle [c]) ∧ (askingFull m .idle [c]).copyAns.head? = some c ∧
      hasBit (txd (askingFull m .idle [c]) (askingFull m .idle [c]).dev.tdt.toNat).status bitDD = false) :=
  ⟨⟨ready_is_ready, by decide +kernel, by decide +kernel⟩, ⟨⟨rfl, rfl, rfl, rfl, rfl, rfl⟩, rfl⟩,
    ⟨⟨rfl, rfl, rfl, rfl, rfl, rfl⟩, asking_submitReady (asking_udp false), asking_udp false, rfl⟩,
    fun c => ⟨⟨rfl, rfl, rfl, rfl, rfl, rfl⟩, askingFull_submitReady (asking_udpFull m c), asking_udpFull m c, rfl,
      (askingFull_full m _ _).1⟩⟩

theorem witness_UdpFrameParses :
    Ready (put callerBuf.toNat frameV50 ready) ∧ Holds (put callerBuf.toNat frameV50 ready) .caller callerBuf ∧
    42 + [(0x68 : Byte), 0x69].length ≤ ready.cfg.bufSize ∧ ready.cfg.bufSize ≤ 65535 ∧
    bytesAt (put callerBuf.toNat frameV50 ready) callerBuf.toNat (42 + [(0x68 : Byte), 0x69].length) =
      udpFrame ready.cfg 5000 0x0A000202 6000 [0x68, 0x69] ∧
    CallerReads (put callerBuf.toNat frameV50 ready) (callerBuf.toNat + 14) 20 :=
  ⟨⟨rfl, rfl, rfl, rfl, rfl, rfl⟩, by constructor <;> decide +kernel, by decide +kernel, by decide +kernel,
    by decide +kernel, (callerReadFault_none_iff _ (by decide)).1 (by decide +kernel)⟩

theorem witness_RegisterReads : Ready ready ∧
    (RegName.tdt ≠ .icr ∧ RegName.tdt ≠ .imc ∧ reservedMask ready.cfg .tdt = 0) ∧
    (RegName.rctl ≠ .icr ∧ RegName.rctl ≠ .imc ∧ reservedMask ready.cfg .rctl ≠ 0) :=
  ⟨ready_is_ready, by decide +kernel⟩

theorem witness_InterruptRegisterWrites : Ready ready ∧
    Ready { ready with dev := { tinyDev with ims := 0, icr := 0x80 } } :=
  ⟨ready_is_ready, ⟨rfl, rfl, rfl, rfl, rfl, rfl⟩⟩

/-- The last value of each tail cursor's range, and a control register's largest value. -/
theorem witness_RegisterStores : Ready ready ∧
    (RegName.tdt ∉ [RegName.ctrl, .icr, .ims, .imc, .tdh, .rdh] ∧ (1 : Word) &&& reservedMask ready.cfg .tdt = 0 ∧
      (1 : Word).toNat < ready.dev.tdlen.toNat / 16) ∧
    (Ready (wrapped .sendAll) ∧ (0 : Word) = (wrapped .sendAll).dev.tdt ∧ (1 : Word) ≠ (wrapped .sendAll).dev.tdt ∧
      (1 : Word).toNat < (wrapped .sendAll).dev.tdlen.toNat / 16) ∧
    (RegName.rdt ∉ [RegName.ctrl, .icr, .ims, .imc, .tdh, .rdh] ∧ (3 : Word) &&& reservedMask ready.cfg .rdt = 0 ∧
      (3 : Word).toNat < ready.dev.rdlen.toNat / 16) ∧
    (RegName.tipg ∉ [RegName.ctrl, .icr, .ims, .imc, .tdh, .rdh] ∧
      (0x3FFFFFFF : Word) &&& reservedMask ready.cfg .tipg = 0) :=
  ⟨ready_is_ready, by decide +kernel, ⟨⟨rfl, rfl, rfl, rfl, rfl, rfl⟩, by decide⟩, by decide +kernel⟩

theorem witness_ControlWrites : Ready ready := ready_is_ready

theorem witness_DeviceReset :
    (Running { ready with dev := { tinyDev with resetPending := true } } ∧
      { ready with dev := { tinyDev with resetPending := true } }.dev.resetPending = true) ∧
    (Running ready ∧ ready.dev.resetPending = false) := ⟨⟨⟨rfl, rfl⟩, rfl⟩, ⟨rfl, rfl⟩, rfl⟩

/-- A reset at the first poll and at a later one; and a frame before each of the last three writes, of one byte less than
one chunk and of all that the free slots take. -/
theorem witness_InitRuns :
    (InitIssued (starting tiny rxBufs []) 0x1000 0x1040 rxBufs [] [] ∧
      InitIssued (starting tiny rxBufs [] 3) 0x1000 0x1040 rxBufs [] [] ∧
      tiny.nTx * 16 % tiny.ringAlign = 0 ∧ tiny.nRx * 16 % tiny.ringAlign = 0 ∧ rxBufs.length = tiny.nRx) ∧
    (∀ j n, InitIssued (starting tiny rxBufs [] 2 (lateFrame j (broadcast n))) 0x1000 0x1040 rxBufs []
      (List.replicate (initAccesses (starting tiny rxBufs [] 2 (lateFrame j (broadcast n))).cfg + j) [] ++
        [[.rxFrame (broadcast n)]]) ∧ (starting tiny rxBufs [] 2 (lateFrame j (broadcast n))).bufs = []) ∧
    tiny.rxInitView = .written ∧
    ∀ n ∈ [63, 192], (broadcast n).take 6 = [0xFF, 0xFF, 0xFF, 0xFF, 0xFF, 0xFF] ∧ 14 ≤ (broadcast n).length ∧
      (broadcast n).length ≤ 65535 ∧ (broadcast n).length ≤ (tiny.nRx - 1) * tiny.rxBufSize :=
  ⟨⟨starting_four _ _, starting_four _ _, by decide, by decide, rfl⟩,
    fun _ _ => ⟨starting_four _ _, rfl⟩, rfl, by decide +kernel⟩

/-- The block with `rxInitView = fenced`, INIT at S3 with its reset done, and zeros where slot 0's address will be. -/
def stale : State :=
  { resumed { tiny with rxInitView := .fenced } rxBufs [] with mem := cells 0x1040 (List.replicate 8 0) }

theorem stale_ready : InitReady stale rxBufs [] where
  sizes := ⟨tiny_sizes.tx, tiny_sizes.rx, tiny_sizes.buf, tiny_sizes.rxBuf⟩
  owners := ⟨rfl, rfl⟩
  sched := rfl
  phase := rfl
  dev := resumed_four.dev
  rings := ⟨tiny_ringsApart.tx, tiny_ringsApart.rx, tiny_ringsApart.apart⟩
  apart := ⟨List.forall_mem_nil _, List.forall_mem_nil _, List.Pairwise.nil⟩
  answers := rfl
  fresh := freshBuffers rfl (by decide) rxBufs_fresh
  count := by decide

theorem stale_init : holdsNext (step stale) (fun t =>
    !ownsRange t .device (leNat (bytesAt { t with mem := stale.mem } 0x1040 8)) 63) = true := by decide +kernel

/-- INIT issued; INIT going on from its hold, with either view of the receive ring; and a frame after it, where what was
at slot 0 before INIT is an address of no buffer of the device's. -/
theorem witness_InitHolds :
    (Running powered ∧ powered.sw = .idle ∧ powered.initPhase = .notIssued ∧ (0x1000 : Addr).toNat % 16 = 0 ∧
      (0xFFFFFFFFFFFFFFF0 : Addr).toNat % 16 = 0 ∧ powered.sched = []) ∧
    (Running (resumed tiny rxBufs []) ∧ (resumed tiny rxBufs []).sw = .initHold ∧
      InitReady (resumed tiny rxBufs []) rxBufs [] ∧ rxBufs.length = (resumed tiny rxBufs []).cfg.nRx ∧
      (resumed tiny rxBufs []).cfg.nTx * 16 % (resumed tiny rxBufs []).cfg.ringAlign = 0 ∧
      (resumed tiny rxBufs []).cfg.nRx * 16 % (resumed tiny rxBufs []).cfg.ringAlign = 0) ∧
    (Running stale ∧ stale.sw = .initHold ∧ InitReady stale rxBufs [] ∧ stale.cfg.rxInitView = .fenced ∧
      rxBufs.length = stale.cfg.nRx ∧ 1 < stale.cfg.nRx ∧ stale.cfg.nTx * 16 % stale.cfg.ringAlign = 0 ∧
      stale.cfg.nRx * 16 % stale.cfg.ringAlign = 0 ∧ (∃ t, step stale = .next t ∧
        ownsRange t .device (leNat (bytesAt { t with mem := stale.mem } 0x1040 8)) 63 = false) ∧
      (broadcast 63).take 6 = [0xFF, 0xFF, 0xFF, 0xFF, 0xFF, 0xFF] ∧ 63 = min (broadcast 63).length tiny.rxBufSize) :=
  ⟨⟨⟨rfl, rfl⟩, rfl, rfl, by decide, by decide, rfl⟩,
    ⟨⟨rfl, rfl⟩, rfl, resumed_four, rfl, by decide, by decide⟩,
    ⟨⟨rfl, rfl⟩, rfl, stale_ready, rfl, rfl, by decide, by decide, by decide,
      (next_of_holdsNext stale_init).imp fun _ h => ⟨h.1, by simpa only [Bool.not_eq_true'] using h.2⟩, by decide, by decide⟩⟩

/-- The small block with three receive slots and another alignment of its rings. -/
def odd (align : Nat) : Params := { tiny with nRx := 3, ringAlign := align }

/-- Its three receive buffers. -/
def oddBufs : List Addr := [0x2000, 0x2080, 0x2100]

theorem odd_sizes (align : Nat) : SizesOk (odd align) :=
  ⟨tiny_sizes.tx, (by decide : 1 ≤ 3 ∧ 3 * 16 < 2 ^ 32), tiny_sizes.buf, tiny_sizes.rxBuf⟩

theorem odd_apart (align : Nat) : RingsApart (odd align) 0x1000 0x1040 :=
  ⟨(by decide : 0x1000 + 2 * 16 ≤ addrSpace), (by decide : 0x1040 + 3 * 16 ≤ addrSpace),
    (by decide : overlaps 0x1000 (2 * 16) 0x1040 (3 * 16) = false)⟩

theorem odd_fresh : oddBufs.all (fun b => decide (b.toNat % 128 = 0 ∧ b.toNat + 128 ≤ addrSpace ∧
    overlaps b.toNat 128 0x1000 (2 * 16) = false ∧ overlaps b.toNat 128 0x1040 (3 * 16) = false)) = true := by
  decide +kernel

theorem odd_ready (align : Nat) (rest : List (Option Addr)) :
    InitReady (resumed (odd align) oddBufs rest) oddBufs rest :=
  ⟨odd_sizes align, ⟨rfl, rfl⟩, rfl, rfl, ⟨rfl, rfl, ⟨rfl, rfl, rfl⟩, ⟨rfl, rfl⟩, rfl, rfl⟩, odd_apart align,
    ⟨by simp [resumed, State.reset], by simp [resumed, State.reset], by simp [resumed, State.reset]⟩, rfl,
    freshBuffers rfl (by decide) odd_fresh, Nat.le_refl 3⟩

theorem odd_issued (align : Nat) (rest : List (Option Addr)) :
    InitIssued (starting (odd align) oddBufs rest) 0x1000 0x1040 oddBufs rest [] :=
  starting_issued _ _ _ _ (odd_sizes align) (odd_apart align) (Nat.le_refl 3) (freshBuffers rfl (by decide) odd_fresh)

/-- From the hold and from where INIT is issued: the transmit ring misaligned; Alloc failing for the first slot and for
the last; the receive ring misaligned. -/
theorem witness_InitFails :
    (Running (resumed (odd 64) oddBufs []) ∧ (resumed (odd 64) oddBufs []).sw = .initHold ∧
      InitReady (resumed (odd 64) oddBufs []) oddBufs [] ∧
      InitIssued (starting (odd 64) oddBufs []) 0x1000 0x1040 oddBufs [] [] ∧
      (odd 64).nTx * 16 % (odd 64).ringAlign ≠ 0) ∧
    (InitReady (resumed tiny [] [none]) [] [none] ∧ InitIssued (starting tiny [] [none]) 0x1000 0x1040 [] [none] [] ∧
      tiny.nTx * 16 % tiny.ringAlign = 0 ∧ ([] : List Addr).length < tiny.nRx ∧
      [(none : Option Addr)].head? = some none) ∧
    (InitReady (resumed tiny oddBufs [none]) oddBufs [none] ∧
      InitIssued (starting tiny oddBufs [none]) 0x1000 0x1040 oddBufs [none] [] ∧ oddBufs.length < tiny.nRx) ∧
    (InitReady (resumed (odd 32) oddBufs []) oddBufs [] ∧
      InitIssued (starting (odd 32) oddBufs []) 0x1000 0x1040 oddBufs [] [] ∧
      (odd 32).nTx * 16 % (odd 32).ringAlign = 0 ∧ oddBufs.length = (odd 32).nRx ∧
      (odd 32).nRx * 16 % (odd 32).ringAlign ≠ 0) :=
  ⟨⟨⟨rfl, rfl⟩, rfl, odd_ready _ _, odd_issued _ _, by decide⟩,
    ⟨resumed_ready _ _ (by decide) (freshBuffers rfl (by decide) (by decide +kernel)),
      starting_issued _ _ _ _ tiny_sizes tiny_ringsApart (by decide) (freshBuffers rfl (by decide) (by decide +kernel)),
      by decide, by decide, rfl⟩,
    ⟨resumed_ready _ _ (by decide) (freshBuffers rfl (by decide) (by decide +kernel)),
      starting_issued _ _ _ _ tiny_sizes tiny_ringsApart (by decide) (freshBuffers rfl (by decide) (by decide +kernel)),
      by decide⟩,
    odd_ready _ _, odd_issued _ _, by decide, rfl, by decide⟩

/-- The longest byte sequence, no byte, and the last byte of the address space; two buffers of the caller's to their
last byte and one byte more, which is another owner's; a port queue's buffer; and the last byte before a descriptor of
the device's, and its first. -/
theorem witness_ChecksumAnswers : Running ready ∧ ready.sw = .idle ∧ ([] : List Byte).length ≤ 65535 ∧
    (List.replicate 65535 (0xFF : Byte)).length ≤ 65535 ∧ ready.sched = [] ∧
    ((0xFFFFFFFFFFFFFFFF : Addr).toNat + (1 : Half).toNat ≤ addrSpace ∧ CallerReads ready 0xFFFFFFFFFFFFFFFF 1) ∧
    (CallerReads ready 0x2280 256 ∧ ¬ CallerReads ready 0x2280 257 ∧ CallerReads ready 0x2400 128) ∧
    (ready.initPhase ≠ .notIssued ∧ CallerReads ready 0x103F 1 ∧ ¬ CallerReads ready 0x103F 2 ∧
      devOwnsRx ready 0 = true ∧ overlaps 0x103F 2 (rxdAddr ready 0) 16 = true) := by
  have hc (a n : Nat) (hn : n ≠ 0) (h : callerReadFault ready a n = none) : CallerReads ready a n :=
    (callerReadFault_none_iff _ hn).1 h
  have hf (a n : Nat) (hn : n ≠ 0) (h : callerReadFault ready a n ≠ none) : ¬ CallerReads ready a n :=
    fun k => h ((callerReadFault_none_iff _ hn).2 k)
  exact ⟨⟨rfl, rfl⟩, rfl, by decide, by rw [List.length_replicate], rfl,
    ⟨by decide, hc _ _ (by decide) (by decide +kernel)⟩,
    ⟨hc _ _ (by decide) (by decide +kernel), hf _ _ (by decide) (by decide +kernel),
      hc _ _ (by decide) (by decide +kernel)⟩,
    by decide, hc _ _ (by decide) (by decide +kernel), hf _ _ (by decide) (by decide +kernel), by decide +kernel,
    by decide +kernel⟩

theorem witness_AccumulatorBound : ([] : List Byte).length ≤ 65535 ∧ (List.replicate 65535 (0xFF : Byte)).length ≤ 65535 :=
  ⟨by decide, by rw [List.length_replicate]⟩

theorem witness_FoldBound : 0x10000 ≤ (cksumFold 0x00FFFFFF).toNat ∧ (cksumFold 0x7FFF7F01).toNat < 0x10000 ∧
    (cksumFold 0xFFFFFFFF).toNat = 0x1FFFE ∧ (List.replicate 65535 (0xFF : Byte)).length ≤ 65535 :=
  ⟨by decide +kernel, by decide +kernel, by decide +kernel, by rw [List.length_replicate]⟩

theorem witness_ChecksumVerifies :
    (([] : List Byte).length % 2 = 0 ∧ ([] : List Byte).length + 2 + ([] : List Byte).length ≤ 65535) ∧
    ((List.replicate 10 (0xFF : Byte)).length % 2 = 0 ∧ (List.replicate 65522 (0xFF : Byte)).length % 2 = 0 ∧
      (List.replicate 10 (0xFF : Byte)).length + 2 + (List.replicate 65522 (0xFF : Byte)).length ≤ 65535) := by
  simp only [List.length_replicate, List.length_nil]; decide

end Sys2Proof.Tests
end

/-! What a step can do to the ownership map, and the invariants of it that every step keeps (O11). -/

namespace Sys2Proof.Machine

/-! ### What an update does to the ownership map -/

theorem Micro.cfg {k : Kind} {s t : State} (h : Micro k s t) : t.cfg = s.cfg := by
  cases h <;> rfl

/-- The ownership map changes in two ways alone: a record changes its owner, never to the receive path or the device
(a release is such a change), or Alloc gives out a region it may give. -/
theorem Micro.bufs_cases {k : Kind} {s t : State} (h : Micro k s t) :
    t.bufs = s.bufs ∨
      (∃ b o, (o ≠ .rxPath ∧ o ≠ .device) ∧ t.bufs = (setOwner b o s).bufs) ∨
      ∃ b who, AllocOk s b ∧ t.bufs = (allocState b who s).bufs := by
  cases h with
  | alloc b who _ ha => exact .inr (.inr ⟨b, who, (allocOk_iff s b).1 ha, rfl⟩)
  | owner b o _ ho => exact .inr (.inl ⟨b, o, ho, rfl⟩)
  | release b => exact .inr (.inl ⟨b, .allocator, by decide, rfl⟩)
  | _ => exact .inl rfl

/-- Once INIT has been issued, it stays issued and the receive ring stays where it is (spec/10_state.md R68). -/
theorem Micro.rxRing_fixed {k : Kind} {s t : State} (h : Micro k s t) (hs : s.initPhase ≠ .notIssued) :
    t.initPhase ≠ .notIssued ∧ t.rxRingBase = s.rxRingBase := by
  cases h with
  | initBegin _ _ _ _ h0 => exact absurd h0 hs
  | initDone => exact ⟨nofun, rfl⟩
  | _ => exact ⟨hs, rfl⟩

/-! ### Buffers apart -/

theorem Micro.bufsApart {k : Kind} {s t : State} (h : Micro k s t) (hs : BufsApart s) : BufsApart t := by
  rcases h.bufs_cases with e | ⟨b, o, -, e⟩ | ⟨b, who, ha, e⟩
  · exact hs.congr h.cfg e
  · exact (hs.setOwner b o).congr h.cfg e
  · exact (hs.allocState (who := who) ha).congr h.cfg e

theorem step_keeps_bufsApart {s t : State} (h : step s = .next t) (hs : BufsApart s) : BufsApart t :=
  step_keeps BufsApart (fun _ _ _ _ hm => hm.bufsApart) (fun _ _ _ hu => hu.congr rfl rfl) h hs

/-! ### The device's buffers off the receive ring -/

/-- INIT has been issued and the buffer shares no byte with the receive ring (spec/70_reset_and_hazards.md R505): what
`DeviceBufsOffRing` asks of each buffer of the receive path. -/
def OffRxRing (s : State) (r : Buf) : Prop :=
  s.initPhase ≠ .notIssued ∧
    overlaps r.base.toNat s.cfg.bufSize s.rxRingBase.toNat (s.cfg.nRx * descSize) = false

theorem deviceBufsOffRing_iff (s : State) :
    DeviceBufsOffRing s ↔ ∀ r ∈ s.bufs, r.owner = .rxPath ∨ r.owner = .device → OffRxRing s r := Iff.rfl

theorem AllocOk.offRxRing {s : State} {b : Addr} (h : AllocOk s b) (who : Owner) (n : Nat) :
    OffRxRing s ⟨b, who, n⟩ := ⟨h.phase, h.offRx⟩

theorem Micro.offRxRing {k : Kind} {s t : State} {r : Buf} (h : Micro k s t) (hr : OffRxRing s r) :
    OffRxRing t r := by
  obtain ⟨hphase, hbase⟩ := h.rxRing_fixed hr.1
  refine ⟨hphase, ?_⟩
  rw [h.cfg, hbase]
  exact hr.2

/-- After a change of owner to another than the receive path and the device, a buffer of these two was there before. -/
theorem mem_bufs_of_mem_setOwner {s : State} {b : Addr} {o : Owner} {r : Buf} (ho : o ≠ .rxPath ∧ o ≠ .device)
    (hr : r ∈ (setOwner b o s).bufs) (hd : r.owner = .rxPath ∨ r.owner = .device) : r ∈ s.bufs := by
  rw [setOwner_bufs, List.mem_map] at hr
  obtain ⟨q, hq, rfl⟩ := hr
  split at hd
  · exact absurd hd (not_or.2 ho)
  · next hb => rwa [if_neg hb]

theorem Micro.deviceBufsOffRing {k : Kind} {s t : State} (h : Micro k s t) (hs : DeviceBufsOffRing s) :
    DeviceBufsOffRing t := by
  rw [deviceBufsOffRing_iff] at hs ⊢
  intro r hr hd
  refine h.offRxRing ?_
  rcases h.bufs_cases with e | ⟨b, o, ho, e⟩ | ⟨b, who, ha, e⟩ <;> rw [e] at hr
  · exact hs r hr hd
  · exact hs r (mem_bufs_of_mem_setOwner ho hr hd) hd
  · rw [allocState_bufs, List.mem_append, List.mem_singleton] at hr
    rcases hr with hold | rfl
    · exact hs r (List.mem_of_mem_filter hold) hd
    · exact ha.offRxRing who _

theorem step_keeps_deviceBufsOffRing {s t : State} (h : step s = .next t) (hs : DeviceBufsOffRing s) :
    DeviceBufsOffRing t :=
  step_keeps DeviceBufsOffRing (fun _ _ _ _ hm => hm.deviceBufsOffRing) (fun _ _ _ hu => hu) h hs

/-- Settles O11: an invariant of every kind of update is one of every step (`step_keeps`), and of the updates only
Alloc adds a buffer, which `allocOk` has checked against the map and the rings. -/
theorem stepKeepsBufsApart : Obligations.StepKeepsBufsApart :=
  ⟨fun _ _ hs h => step_keeps_bufsApart h hs, fun _ _ hs h => step_keeps_deviceBufsOffRing h hs⟩

end Sys2Proof.Machine

/-! What the steps of the block do to the state of spec/10_state.md: what an operation leaves alone, by the kinds of
update it is made of (O14 to O17), that a halted block does not step (O18), and what a register write does or why it is
refused (O24, O50, O52). -/

namespace Sys2Proof.Machine

/-! ### What an operation leaves alone -/

/-- What no update of an operation's kinds writes is after the operation as it was before. -/
theorem exec_unchanged {β : Type} (f : State → β) {i : Instr} {s t : State} (h : exec i s = .next t)
    (hf : ∀ k ∈ kindsOf i, ∀ u v, Micro k u v → f v = f u) : f t = f s :=
  (exec_trace h).keeps (f · = f s) (fun k hk u v hm hu => (hf k hk u v hm).trans hu) rfl

/-! ### The parameters and the base addresses (R68) -/

/-- Only the issue of INIT writes the base addresses. -/
theorem Micro.bases_fixed {k : Kind} {s t : State} (h : Micro k s t) (hs : s.initPhase ≠ .notIssued) :
    t.registerBase = s.registerBase ∧ t.txRingBase = s.txRingBase ∧ t.rxRingBase = s.rxRingBase := by
  cases h with
  | initBegin _ _ _ _ h0 => exact absurd h0 hs
  | _ => exact ⟨rfl, rfl, rfl⟩

/-- INIT has been issued, and the base addresses are those of `s`: what every update keeps from INIT on. -/
def BasesOf (s u : State) : Prop :=
  u.initPhase ≠ .notIssued ∧
    u.registerBase = s.registerBase ∧ u.txRingBase = s.txRingBase ∧ u.rxRingBase = s.rxRingBase

theorem Micro.basesOf {k : Kind} {s u v : State} (h : Micro k u v) (hu : BasesOf s u) : BasesOf s v := by
  obtain ⟨hphase, hreg, htx, hrx⟩ := hu
  obtain ⟨ereg, etx, erx⟩ := h.bases_fixed hphase
  exact ⟨(h.rxRing_fixed hphase).1, ereg.trans hreg, etx.trans htx, erx.trans hrx⟩

theorem step_keeps_cfg {s t : State} (h : step s = .next t) : t.cfg = s.cfg :=
  step_keeps (·.cfg = s.cfg) (fun _ _ _ _ hm hu => hm.cfg.trans hu) (fun _ _ _ hu => hu) h rfl

theorem step_keeps_bases {s t : State} (h : step s = .next t) (hs : s.initPhase ≠ .notIssued) : BasesOf s t :=
  step_keeps (BasesOf s) (fun _ _ _ _ hm => hm.basesOf) (fun _ _ _ hu => hu) h ⟨hs, rfl, rfl, rfl⟩

/-- Settles O14: no update writes the parameters, and of the updates only the first issue of INIT writes the base
addresses. -/
theorem configurationIsFixed : Obligations.ConfigurationIsFixed :=
  fun _ _ h => ⟨step_keeps_cfg h, fun hs => (step_keeps_bases h hs).2⟩

/-! ### `arp_seen` (R45) -/

theorem Micro.arpSeen_unchanged {k : Kind} {s t : State} (h : Micro k s t) (hk : k ≠ .arp) :
    t.arpSeen = s.arpSeen := by
  cases h with
  | arp => exact absurd rfl hk
  | _ => rfl

theorem Micro.arpSeen_stays {k : Kind} {s t : State} (h : Micro k s t) (hs : s.arpSeen = true) :
    t.arpSeen = true := by
  cases h with
  | arp => rfl
  | _ => exact hs

theorem opcode_of_arp_mem {i : Instr} (h : Kind.arp ∈ kindsOf i) : i.opcode ∈ [.arpRx, .classify, .rxDrain, .irq] := by
  revert h
  cases i <;> simp only [kindsOf, Instr.opcode] <;> decide

theorem step_keeps_arpSeen {s t : State} (h : step s = .next t) (hs : s.arpSeen = true) : t.arpSeen = true :=
  step_keeps (·.arpSeen = true) (fun _ _ _ _ hm => hm.arpSeen_stays) (fun _ _ _ hu => hu) h hs

/-- Settles O15: the only update of the flag sets it, and only ARP_RX and its callers are made of that update. -/
theorem arpSeenOnlySet : Obligations.ArpSeenOnlySet :=
  ⟨fun _ _ => step_keeps_arpSeen, fun _ _ _ h hi => exec_unchanged State.arpSeen h fun _ hk _ _ hm =>
    hm.arpSeen_unchanged fun e => hi (opcode_of_arp_mem (e ▸ hk))⟩

/-! ### The owner records (R44) -/

theorem Micro.txOwner_unchanged {k : Kind} {s t : State} (h : Micro k s t) (hk : ¬ (k = .txOwner ∨ k = .txNone)) :
    t.txOwner = s.txOwner := by
  cases h with
  | txOwner => exact absurd (.inl rfl) hk
  | txNone => exact absurd (.inr rfl) hk
  | _ => rfl

theorem Micro.rxOwner_unchanged {k : Kind} {s t : State} (h : Micro k s t) (hk : k ≠ .rxOwner) :
    t.rxOwner = s.rxOwner := by
  cases h with
  | rxOwner => exact absurd rfl hk
  | _ => rfl

/-- A write of an owner record is to one slot of it. -/
theorem Micro.ownersSized {k : Kind} {s t : State} (h : Micro k s t) (hs : OwnersSized s) : OwnersSized t := by
  obtain ⟨htx, hrx⟩ := hs
  cases h with
  | txOwner | txNone => exact ⟨List.length_set.trans htx, hrx⟩
  | rxOwner => exact ⟨htx, List.length_set.trans hrx⟩
  | _ => exact ⟨htx, hrx⟩

theorem opcode_of_txOwner_mem {i : Instr} (h : Kind.txOwner ∈ kindsOf i ∨ Kind.txNone ∈ kindsOf i) :
    i.opcode ∈ [.init, .txSubmit, .udpTx, .arpRx, .classify, .rxDrain, .irq] := by
  revert h
  cases i <;> simp only [kindsOf, Instr.opcode] <;> decide

theorem opcode_of_rxOwner_mem {i : Instr} (h : Kind.rxOwner ∈ kindsOf i) : i.opcode ∈ [.init, .rxDrain, .irq] := by
  revert h
  cases i <;> simp only [kindsOf, Instr.opcode] <;> decide

theorem step_keeps_ownersSized {s t : State} (h : step s = .next t) (hs : OwnersSized s) : OwnersSized t :=
  step_keeps OwnersSized (fun _ _ _ _ hm => hm.ownersSized) (fun _ _ _ hu => hu) h hs

theorem exec_txOwner_unchanged {i : Instr} {s t : State} (h : exec i s = .next t)
    (hi : i.opcode ∉ [.init, .txSubmit, .udpTx, .arpRx, .classify, .rxDrain, .irq]) : t.txOwner = s.txOwner := by
  refine exec_unchanged State.txOwner h fun k hk _ _ hm => hm.txOwner_unchanged ?_
  rintro (rfl | rfl)
  · exact hi (opcode_of_txOwner_mem (.inl hk))
  · exact hi (opcode_of_txOwner_mem (.inr hk))

theorem exec_rxOwner_unchanged {i : Instr} {s t : State} (h : exec i s = .next t)
    (hi : i.opcode ∉ [.init, .rxDrain, .irq]) : t.rxOwner = s.rxOwner :=
  exec_unchanged State.rxOwner h fun _ hk _ _ hm =>
    hm.rxOwner_unchanged fun e => hi (opcode_of_rxOwner_mem (e ▸ hk))

/-- Settles O16: three kinds of update write the records, each one slot, and the operations listed are those made of
them. -/
theorem ownerRecordsWrittenBy : Obligations.OwnerRecordsWrittenBy :=
  ⟨fun _ _ hs h => step_keeps_ownersSized h hs,
    fun _ _ _ h => ⟨exec_txOwner_unchanged h, exec_rxOwner_unchanged h⟩⟩

/-! ### The operations that only look or only touch the device (R49, R312) -/

/-- The state with all that accesses, device events and answers may write blanked out: memory, the device and the held
edge, a model fault, what is observed, the free values used, and the schedule. -/
def beyondAccesses (s : State) : State :=
  { s with mem := [], fenced := [], dev := .powerOn, irqHeld := false, modelFault := none, events := [], results := [],
           allocAns := [], copyAns := [], drawAns := [], draws := 0, sched := [] }

/-- An access, a device event or an answer changes nothing beyond what `beyondAccesses` blanks out. -/
theorem Micro.beyondAccesses_unchanged {k : Kind} {s t : State} (h : Micro k s t) (hk : k ∈ .result :: accessKinds) :
    beyondAccesses t = beyondAccesses s := by
  cases h with
  | dev | mem | dma | fence | event | result | draw | fault | sched => rfl
  | _ => simp [accessKinds, pointKinds, devKinds] at hk

theorem kindsOf_quiet {i : Instr}
    (h : i.opcode ∈ [.cksum, .udpPayload, .regRead, .regWrite, .devReset, .devTxStep, .devRxFrame]) :
    kindsOf i ⊆ .result :: accessKinds := by
  revert h
  cases i <;> simp only [kindsOf, Instr.opcode] <;> decide

/-- Settles O17: these operations are made of accesses, device events and answers alone. -/
theorem quietOperationsFrame : Obligations.QuietOperationsFrame := by
  intro i s t h hi
  have e : beyondAccesses t = beyondAccesses s :=
    exec_unchanged beyondAccesses h fun _ hk _ _ hm => hm.beyondAccesses_unchanged (kindsOf_quiet hi hk)
  simpa only [beyondAccesses, State.mk.injEq, true_and, and_true] using e

/-! ### A halted block (R50) -/

theorem exec_halted {s : State} {c : FatalCause} (h : s.halted = some c) (i : Instr) :
    exec i s = .fault (.blockHalted c) := by
  simp only [exec_eq, runOp, h]

theorem step_halted {s : State} {c : FatalCause} (h : s.halted = some c) : step s = .fault (.blockHalted c) := by
  simp only [step, h]

/-- Settles O18: both the operations and the step look at `halted` first. -/
theorem haltedIsTerminal : Obligations.HaltedIsTerminal :=
  fun _ _ h => ⟨exec_halted h, step_halted h⟩

/-! ### REG_WRITE in a ready state (R211) -/

theorem Ready.exec_regWrite {s : State} (hr : Ready s) (n : RegName) (v : Word) :
    exec (.regWrite n v) s = outcomeOf (regWrite n v s) := by
  rw [exec_of_body hr.running rfl, bodyOf, hr.fromOutside]

/-- A value that is not refused takes its effect on the device. -/
theorem Ready.exec_regWrite_stored {s : State} (hr : Ready s) {n : RegName} {v : Word}
    (h : regWriteRefusal s n v = none) :
    exec (.regWrite n v) s = .next (setDev (writeReg s.cfg n v s.dev) s) := by
  rw [hr.exec_regWrite, regWrite_quiet hr.sched h, outcomeOf_ok]

theorem Ready.exec_regWrite_refused {s : State} (hr : Ready s) {n : RegName} {v : Word} {r : Refusal}
    (h : regWriteRefusal s n v = some r) : exec (.regWrite n v) s = .refused r := by
  have hw : regWrite n v s = .error (.refused r) := by
    simp only [regWrite, regStore, bind_apply, point_quiet hr.sched, get_apply, h, refuse_apply]
  rw [hr.exec_regWrite, hw, outcomeOf_refused]

/-! ### Reserved bits and refused values (R52, R61 to R66, R211) -/

/-- The bits of RCTL, TCTL, TIPG and RAH0 that R64 to R66 do not name. -/
theorem control_reserved_bits (p : Params) (k : Fin 32) :
    (reservedMask p .rctl).getLsbD k =
      decide (k.val ∉ [1, 2, 3, 4, 5, 6, 7, 8, 9, 12, 13, 15, 16, 17, 18, 19, 20, 22, 23, 25, 26]) ∧
    (reservedMask p .tctl).getLsbD k = decide (k.val ≠ 1 ∧ ¬ (3 ≤ k.val ∧ k.val ≤ 22) ∧ k.val ≠ 24) ∧
    (reservedMask p .tipg).getLsbD k = decide (30 ≤ k.val) ∧
    (reservedMask p .rah0).getLsbD k = decide (16 ≤ k.val ∧ k.val ≤ 30) := by
  simp only [reservedMask]
  revert k
  decide

theorem ctrl_reserved_bits (p : Params) (k : Fin 32) :
    (reservedMask p .ctrl).getLsbD k = !p.ctrlRstMask.getLsbD k := by
  simp [reservedMask]

/-- The interrupt registers, the ring bases and RAL0 have no reserved bits (R63). -/
theorem reservedMask_whole (p : Params) :
    ∀ n ∈ [RegName.icr, .ims, .imc, .tdbal, .tdbah, .rdbal, .rdbah, .ral0], reservedMask p n = 0 := by
  simp [reservedMask]

theorem reservedMask_mta (p : Params) (j : Fin 128) : reservedMask p (.mta j) = 0 := rfl

theorem and_ne_zero_of_bit {v m : Word} {k : Nat} (hm : m.getLsbD k = true) (hv : v.getLsbD k = true) :
    v &&& m ≠ 0 := by
  intro h
  have hk : (v &&& m).getLsbD k = true := by rw [BitVec.getLsbD_and, hv, hm]; rfl
  simp [h] at hk

theorem regWriteRefusal_reserved {s : State} {n : RegName} {v : Word} (hn : n ≠ .ctrl)
    (hv : v &&& reservedMask s.cfg n ≠ 0) : regWriteRefusal s n v = some .reservedBit := if_pos ⟨hn, hv⟩

/-- From the end of INIT on, the head cursors are the device's (R211). -/
theorem regWriteRefusal_head {s : State} (h : s.initPhase = .done) (v : Word) :
    ∀ n ∈ [RegName.tdh, .rdh], regWriteRefusal s n v = some .headOwnedByDevice := by
  simp [regWriteRefusal, reservedMask, h]

theorem regWriteRefusal_tdt {s : State} {v : Word} (h : s.dev.tdlen.toNat / 16 ≤ v.toNat) :
    regWriteRefusal s .tdt v = some .cursorRange := by
  simp [regWriteRefusal, reservedMask, descSize, Nat.not_lt.2 h]

theorem regWriteRefusal_rdt {s : State} {v : Word} (h : s.dev.rdlen.toNat / 16 ≤ v.toNat) :
    regWriteRefusal s .rdt v = some .cursorRange := by
  simp [regWriteRefusal, reservedMask, descSize, Nat.not_lt.2 h]

theorem regWriteRefusal_interrupt (s : State) (v : Word) :
    ∀ n ∈ [RegName.icr, .ims, .imc], regWriteRefusal s n v = none := by
  simp [regWriteRefusal, reservedMask]

/-- Software writes CTRL's other bits as it read them, so a 1 in them is not refused (R61, R63). -/
theorem regWriteRefusal_ctrl (s : State) (v : Word) : regWriteRefusal s .ctrl v = none := by
  simp [regWriteRefusal]

/-- Settles O24: the masks bit by bit, and REG_WRITE refuses where `regWriteRefusal` names a reason. -/
theorem registerWriteRefusals : Obligations.RegisterWriteRefusals := by
  constructor
  · intro p k
    obtain ⟨hrctl, htctl, htipg, hrah0⟩ := control_reserved_bits p k
    refine ⟨hrctl, htctl, htipg, hrah0, ctrl_reserved_bits p k, fun n hn => ?_, fun j => ?_⟩
    · rw [reservedMask_whole p n hn]
      exact BitVec.getLsbD_zero
    · rw [reservedMask_mta]
      exact BitVec.getLsbD_zero
  · intro s v hr
    have head (n : RegName) (hn : n ∈ [RegName.tdh, .rdh]) :=
      hr.exec_regWrite_refused (regWriteRefusal_head hr.initPhase v n hn)
    exact ⟨fun _ _ hn _ hm hv => hr.exec_regWrite_refused (regWriteRefusal_reserved hn (and_ne_zero_of_bit hm hv)),
      head .tdh (by decide), head .rdh (by decide), fun h => hr.exec_regWrite_refused (regWriteRefusal_tdt h),
      fun h => hr.exec_regWrite_refused (regWriteRefusal_rdt h)⟩

/-! ### ICR, IMS and IMC (R62, R315) -/

/-- Where the interrupt line does not rise, no new edge is held. -/
theorem setDev_noRise {d : DevRegs} {s : State} (h : irqLine d = true → irqLine s.dev = true) :
    setDev d s = { s with dev := d } := by
  have hheld : (s.irqHeld || (!irqLine s.dev && irqLine d)) = s.irqHeld := by
    cases hd : irqLine d <;> simp_all
  simp only [setDev, hheld]

theorem irqLine_iff (d : DevRegs) : irqLine d = true ↔ d.icr &&& d.ims ≠ 0 := bne_iff_ne

/-- Clearing bits of one factor clears no fewer of the product. -/
theorem and_ne_zero_of_clear {a b v : Word} (h : (a &&& ~~~v) &&& b ≠ 0) : a &&& b ≠ 0 := by
  intro h0
  apply h
  rw [BitVec.and_assoc, BitVec.and_comm (~~~v), ← BitVec.and_assoc, h0]
  exact BitVec.zero_and

theorem icr_write_noRise (d : DevRegs) (v : Word) (h : irqLine { d with icr := d.icr &&& ~~~v } = true) :
    irqLine d = true := by
  rw [irqLine_iff] at h ⊢
  exact and_ne_zero_of_clear h

theorem imc_write_noRise (d : DevRegs) (v : Word) (h : irqLine { d with ims := d.ims &&& ~~~v } = true) :
    irqLine d = true := by
  rw [irqLine_iff, BitVec.and_comm] at h ⊢
  exact and_ne_zero_of_clear h

/-- The line rises under new mask bits where it was 0 and one of them meets a cause. -/
theorem ims_write_rise (d : DevRegs) (v : Word) :
    (!irqLine d && irqLine { d with ims := d.ims ||| v }) = (d.icr &&& d.ims == 0 && d.icr &&& v != 0) := by
  have hor : d.icr &&& (d.ims ||| v) = d.icr &&& d.ims ||| d.icr &&& v := BitVec.and_or_distrib_left
  by_cases h : d.icr &&& d.ims = 0
  · simp [irqLine, hor, h]
  · rw [(irqLine_iff d).2 h, beq_false_of_ne h]
    rfl

/-- Settles O50: each write takes its effect on the device, and the line can rise under a write to IMS alone. -/
theorem interruptRegisterWrites : Obligations.InterruptRegisterWrites := by
  intro s v hr
  have stored (n : RegName) (hn : n ∈ [RegName.icr, .ims, .imc]) :=
    hr.exec_regWrite_stored (regWriteRefusal_interrupt s v n hn)
  refine ⟨?_, ?_, ?_⟩
  · rw [stored .icr (by decide), writeReg, setDev_noRise (icr_write_noRise s.dev v)]
  · rw [stored .ims (by decide), writeReg, setDev, ims_write_rise]
  · rw [stored .imc (by decide), writeReg, setDev_noRise (imc_write_noRise s.dev v)]

/-! ### CTRL (R61, R211) -/

/-- CTRL reads, but for RST, as the value written. -/
theorem ctrlValue_other (p : Params) (d : DevRegs) :
    ctrlValue p d &&& ~~~p.ctrlRstMask = d.ctrlOther &&& ~~~p.ctrlRstMask := by
  unfold ctrlValue
  split
  · rw [BitVec.and_or_distrib_right, BitVec.and_not_self]
    exact BitVec.or_zero
  · rw [BitVec.and_assoc, BitVec.and_self]

/-- Settles O52: a CTRL write is never refused, and leaves the interrupt cause and mask alone, so that no edge rises. -/
theorem controlWrites : Obligations.ControlWrites := by
  intro s v hr
  have stored : exec (.regWrite .ctrl v) s =
      .next { s with dev := writeCtrl v (v &&& s.cfg.ctrlRstMask != 0) s.dev } := by
    rw [hr.exec_regWrite_stored (regWriteRefusal_ctrl s v), setDev_sameIrq (writeReg s.cfg .ctrl v s.dev) s rfl rfl,
      writeReg]
  refine ⟨_, stored, rfl, ctrlValue_other s.cfg _, ?_, ?_⟩
  · exact bne_iff_ne
  · simp [writeCtrl]

end Sys2Proof.Machine

/-! Memory and the accesses to it (spec/20_memory.md): which register accesses decode (O4), that every step keeps memory
canonical (O10), and that software rests between steps (O13). -/

namespace Sys2Proof

/-! ### Register accesses (R102) -/

/-- An opcode's command word decodes to the operation its ports give. -/
theorem decode_code (ro : RegOff) (o : Opcode) (p : Ports) :
    decode ro (BitVec.ofNat 32 o.code) p = decodeOperands ro p o := by
  cases o <;> rfl

/-- REG_READ decodes exactly where the access it is given names a register. -/
theorem decodeOperands_regRead_iff {ro : RegOff} {p : Ports} {i : Instr} :
    decodeOperands ro p .regRead = .ok i ↔
      ∃ n, i = .regRead n ∧ decodeAccess ro p.regOffset p.regWidth = .ok n := by
  unfold decodeOperands
  cases decodeAccess ro p.regOffset p.regWidth <;> simp [eq_comm]

/-- REG_WRITE decodes exactly where the access it is given names a register, whatever the value. -/
theorem decodeOperands_regWrite_iff {ro : RegOff} {p : Ports} {i : Instr} :
    decodeOperands ro p .regWrite = .ok i ↔
      ∃ n, i = .regWrite n p.value ∧ decodeAccess ro p.regOffset p.regWidth = .ok n := by
  unfold decodeOperands
  cases decodeAccess ro p.regOffset p.regWidth <;> simp [eq_comm]

/-- Settles O4: both operations take their register from `decodeAccess`, which admits what R102 admits. -/
theorem registerAccesses : Obligations.RegisterAccesses := by
  intro ro p i hro
  constructor
  · calc decode ro 0x00000010 p = .ok i
      _ ↔ decodeOperands ro p .regRead = .ok i := by rw [← decode_code]; rfl
      _ ↔ _ := by simp only [decodeOperands_regRead_iff, decodeAccess_ok hro]
  · calc decode ro 0x00000011 p = .ok i
      _ ↔ decodeOperands ro p .regWrite = .ok i := by rw [← decode_code]; rfl
      _ ↔ _ := by simp only [decodeOperands_regWrite_iff, decodeAccess_ok hro]

end Sys2Proof

namespace Sys2Proof.Machine

/-! ### The canonical form of memory (R103, R106) -/

/-- Memory, and memory as the device is sure to see it, are in canonical form. -/
def MemoryCanonical (s : State) : Prop := Memory.wf s.mem = true ∧ Memory.wf s.fenced = true

/-- The updates that touch memory write inside the address space, take bytes of the two memories together, or forget
bytes. -/
theorem Micro.memoryCanonical {k : Kind} {s t : State} (h : Micro k s t) (hs : MemoryCanonical s) :
    MemoryCanonical t := by
  obtain ⟨hmem, hfenced⟩ := hs
  cases h with
  | mem _ bs _ ha => exact ⟨memPutBytes_wf bs hmem ha, hfenced⟩
  | dma _ bs _ ha => exact ⟨memPutBytes_wf bs hmem ha, memPutBytes_wf bs hfenced ha⟩
  | fence => exact ⟨hmem, memKeep_wf _ hfenced hmem⟩
  | alloc => exact ⟨memClear_wf _ _ hmem, memClear_wf _ _ hfenced⟩
  | _ => exact ⟨hmem, hfenced⟩

/-- Settles O10: an invariant of every kind of update is one of every step (`step_keeps`). -/
theorem stepKeepsMemoryCanonical : Obligations.StepKeepsMemoryCanonical :=
  fun _ _ hmem hfenced h =>
    step_keeps MemoryCanonical (fun _ _ _ _ hm => hm.memoryCanonical) (fun _ _ _ hu => hu) h ⟨hmem, hfenced⟩

/-! ### Software between steps (R110, R515) -/

/-- Software is idle or held at INIT S3, and holds no lock: what `SoftwareRests` asks of a running block. -/
def AtRest (s : State) : Prop := (s.sw = .idle ∨ s.sw = .initHold) ∧ s.locks = []

theorem softwareRests_iff (s : State) : SoftwareRests s ↔ (Running s → AtRest s) := Iff.rfl

theorem AtRest.softwareRests {s : State} (h : AtRest s) : SoftwareRests s := fun _ => h

theorem Failed.softwareRests {s : State} (h : Failed s) : SoftwareRests s :=
  fun hr => absurd h (by simp [Failed, hr.1, hr.2])

theorem AtRest.of_sameControl {s t : State} (h : AtRest s) (hc : SameControl s t) : AtRest t := by
  obtain ⟨hsw, hlocks⟩ := h
  obtain ⟨esw, elocks, -, -⟩ := hc
  exact ⟨esw ▸ hsw, elocks.trans hlocks⟩

/-- An operation that starts at rest leaves software at rest, or the block failed, whether it returns or ends. -/
def LeavesAtRest (m : M Unit) : Prop := ∀ s t, AtRest s → outcomeOf (m s) = .next t → SoftwareRests t

theorem outcomeOf_next {r : Except Stop (Unit × State)} {t : State} (h : outcomeOf r = .next t) :
    r = .ok ((), t) ∨ r = .error (.ended t) := by
  unfold outcomeOf at h
  split at h <;> cases h
  · exact .inl rfl
  · exact .inr rfl

theorem Restores.leavesAtRest {m : M Unit} (hm : Restores m) : LeavesAtRest m := by
  intro s t hs h
  rcases outcomeOf_next h with h | h
  · exact (hs.of_sameControl ((hm s).1 () t h)).softwareRests
  · exact ((hm s).2 t h).softwareRests

theorem Restores.fromOutside {m : M Unit} (h : Restores m) : Restores (Machine.fromOutside m) :=
  .bind .get fun _ => .bind (.require _ _) fun _ => .bind (.require _ _) fun _ => h

theorem Restores.internally {p : SwSeq → Bool} {m : M Unit} (h : Restores m) : Restores (Machine.internally p m) :=
  .bind .get fun _ => .bind (.require _ _) fun _ => h

/-- Every operation but INIT and IRQ, which end at another place than they start from, restores the control. -/
theorem restores_bodyOf {i : Instr} (hi : i.opcode ∉ [.init, .irq]) : Restores (bodyOf i) := by
  cases i with
  | init | irq => simp [Instr.opcode] at hi
  | txSubmit b l => exact .fromOutside (.bind (restores_txSubmit _ b l) fun _ => .answer _)
  | rxDrain => rw [bodyOf]; exact .internally restores_rxDrain
  | classify b l => rw [bodyOf]; exact .internally (restores_classify b l)
  | arpRx b l => rw [bodyOf]; exact .internally (restores_arpRx b l)
  | ipRx b l => rw [bodyOf]; exact .internally (restores_ipRx b l)
  | udpPayload b l n => exact .fromOutside (.bind (restores_udpPayload b n) fun _ => .answer _)
  | udpTx sp ip dp pl => exact .fromOutside (.bind (restores_udpTx sp ip dp pl) fun _ => .answer _)
  | cksum src =>
    refine .bind .get fun _ => .bind (.require _ _) fun _ => ?_
    cases src with
    | data bs => exact .answer _
    | mem a n => exact .bind (restores_cksumMem _ _) fun _ => .answer _
  | regRead n => exact .fromOutside (.bind (restores_regRead n) fun _ => .answer _)
  | regWrite n v => exact .fromOutside (restores_regWrite n v)
  | devReset => exact restores_devReset
  | devTxStep => exact restores_devTxStep
  | devRxFrame f => exact restores_devRxFrame f

theorem leavesAtRest_irq : LeavesAtRest (bodyOf .irq) := by
  intro s t hs h
  rw [bodyOf, fromOutside_apply] at h
  split_ifs at h
  · rcases outcomeOf_next h with h | h
    · obtain ⟨hsw, hlocks, -, -⟩ := irqOp_returns h
      exact AtRest.softwareRests ⟨.inl hsw, hlocks.trans hs.2⟩
    · exact (irqOp_ends h).softwareRests
  all_goals cases h

theorem initOp_apply (rb tb xb : Addr) (s : State) :
    initOp rb tb xb s =
      if s.sw = .idle then
        if s.initPhase = .notIssued then initBody (beginInit rb tb xb s) else .error (.refused .secondInit)
      else .error (.refused .softwareBusy) := by
  simp only [initOp, bind_apply, get_apply, require_apply, update_apply]
  by_cases h1 : s.sw = .idle <;> by_cases h2 : s.initPhase = .notIssued <;> simp [h1, h2]

/-- INIT returns idle, or its step ends with the hold at S3. -/
theorem leavesAtRest_init (rb tb xb : Addr) : LeavesAtRest (bodyOf (.init rb tb xb)) := by
  intro s t hs h
  rw [bodyOf, initOp_apply] at h
  split_ifs at h
  · obtain ⟨hok, hended⟩ := initBody_returns (beginInit rb tb xb s)
    rcases outcomeOf_next h with h | h
    · obtain ⟨hsw, hlocks⟩ := hok t h
      exact AtRest.softwareRests ⟨.inl hsw, hlocks.trans hs.2⟩
    · rcases hended t h with hf | ⟨hsw, hlocks⟩
      · exact hf.softwareRests
      · exact AtRest.softwareRests ⟨.inr hsw, hlocks.trans hs.2⟩
  all_goals cases h

theorem leavesAtRest_bodyOf (i : Instr) : LeavesAtRest (bodyOf i) := by
  cases i with
  | init rb tb xb => exact leavesAtRest_init rb tb xb
  | irq => exact leavesAtRest_irq
  | _ => exact (restores_bodyOf (by simp [Instr.opcode])).leavesAtRest

/-- INIT going on from its hold returns idle. -/
theorem leavesAtRest_initFinish : LeavesAtRest initFinish := by
  intro s t hs h
  obtain ⟨hok, hended⟩ := initFinish_returns s
  rcases outcomeOf_next h with h | h
  · obtain ⟨hsw, -, hlocks, -, -⟩ := hok t h
    exact AtRest.softwareRests ⟨.inl hsw, hlocks.trans hs.2⟩
  · exact (hended t h).softwareRests

theorem exec_leaves_softwareRests {i : Instr} {s t : State} (hs : AtRest s) (h : exec i s = .next t) :
    SoftwareRests t := by
  obtain ⟨hr, hw, -⟩ := exec_next h
  rw [exec_of_body hr hw] at h
  exact leavesAtRest_bodyOf i s t hs h

/-- Settles O13: a step is INIT going on from its hold or an operation, and each leaves software at rest. -/
theorem stepKeepsSoftwareRests : Obligations.StepKeepsSoftwareRests := by
  intro s t hs h
  obtain ⟨hhalted, hfault, hcases⟩ := step_cases h
  have hrest : AtRest s := (softwareRests_iff s).1 hs ⟨hhalted, hfault⟩
  rcases hcases with ⟨-, hresume⟩ | ⟨-, c, rest, i, -, -, hexec⟩ | ⟨-, -, i, -, hexec⟩
  · exact leavesAtRest_initFinish s t hrest hresume
  · exact exec_leaves_softwareRests (s := { s with inbox := rest, sched := c.during }) hrest hexec
  · exact exec_leaves_softwareRests (s := { s with sched := [] }) hrest hexec

end Sys2Proof.Machine

/-! The encoding (spec/30_encoding.md): command words and their operations, both ways (O1, O2, O5), the words that name
none (O3), where the descriptors' fields stand (O6), how a step runs the command it is offered (O7), and which
operations are refused for where the software sequencer stands (O22). -/

namespace Sys2Proof

/-! ### An operation's command decodes to it (R153, R154) -/

theorem decode_encodeWord (ro : RegOff) (i : Instr) (p : Ports) :
    decode ro (encodeWord i) p = decodeOperands ro p i.opcode := decode_code ro i.opcode p

/-- The access the encoder makes of a register's offset names the register: an offset R8 admits fits its port. -/
theorem decodeAccess_off {ro : RegOff} (h : ro.wf = true) (n : RegName) :
    decodeAccess ro (BitVec.ofNat 32 (ro.off n)) .word32 = .ok n := by
  obtain ⟨-, haligned, hlt⟩ := regOfOffset_off h n
  have hport : (BitVec.ofNat 32 (ro.off n)).toNat = ro.off n := by rw [BitVec.toNat_ofNat, Nat.mod_eq_of_lt hlt]
  exact (decodeAccess_ok h _ _ n).2 ⟨rfl, by rw [hport, haligned], hport⟩

/-- Every operation's operands come back from the ports that carry them. -/
theorem decodeOperands_encodePorts {ro : RegOff} (h : ro.wf = true) (i : Instr) :
    decodeOperands ro (encodePorts ro i) i.opcode = .ok i := by
  cases i with
  | regRead n => simp only [Instr.opcode, encodePorts, decodeOperands, decodeAccess_off h n]
  | regWrite n v => simp only [Instr.opcode, encodePorts, decodeOperands, decodeAccess_off h n]
  | cksum src => cases src <;> rfl
  | _ => rfl

/-- Settles O1: the word names the opcode, and the ports give the opcode its operands back. -/
theorem decodeEncode : Obligations.DecodeEncode := by
  intro ro i h
  rw [encode, decode_encodeWord, decodeOperands_encodePorts h]

theorem RegOff.reference_wf : RegOff.reference.wf = true := by decide +kernel

/-- Settles O5: each row's word and ports are those the encoder gives its operation, which decode to it (O1). -/
theorem writtenWordsDecode : Obligations.WrittenWordsDecode := by
  have row (i : Instr) : decode .reference (encodeWord i) (encodePorts .reference i) = .ok i :=
    decodeEncode .reference i RegOff.reference_wf
  exact ⟨row (.init _ _ _), row (.txSubmit _ _), row .irq, row .rxDrain, row (.classify _ _), row (.arpRx _ _),
    row (.ipRx _ _), row (.udpPayload _ _ _), row (.udpTx _ _ _ _), row (.cksum (.mem _ _)),
    row (.cksum (.data [0x45, 0x00])), row (.regRead .tdt), row (.regWrite .icr _), row .devReset, row .devTxStep,
    row (.devRxFrame _)⟩

/-! ### What a word decodes to (R153, R156) -/

/-- A word is refused for its upper bits, or for its code, or is an opcode's command word and its ports decide. -/
theorem decode_cases (ro : RegOff) (w : Word) (p : Ports) :
    (0x100 ≤ w.toNat ∧ decode ro w p = .error .reservedWordBits) ∨
    (w.toNat < 0x100 ∧ opcodeOf w.toNat = none ∧ decode ro w p = .error .unknownOpcode) ∨
    ∃ o : Opcode, w = BitVec.ofNat 32 o.code ∧ decode ro w p = decodeOperands ro p o := by
  by_cases hw : 0x100 ≤ w.toNat
  · exact .inl ⟨hw, if_pos (by omega)⟩
  · have hupper : w.toNat / 256 = 0 := by omega
    have hcode : w.toNat % 256 = w.toNat := by omega
    cases ho : opcodeOf w.toNat with
    | none => exact .inr (.inl ⟨by omega, rfl, by simp [decode, hupper, hcode, ho]⟩)
    | some o =>
      have hword : w = BitVec.ofNat 32 o.code := by
        rw [← eq_code_of_opcodeOf ho, BitVec.ofNat_toNat, BitVec.setWidth_eq]
      exact .inr (.inr ⟨o, hword, hword ▸ decode_code ro o p⟩)

/-- Settles O2: an accepted word is an opcode's, and what its ports decode to is an operation of that opcode. -/
theorem decodeOnlyItsWord : Obligations.DecodeOnlyItsWord := by
  intro ro w p i h
  rcases decode_cases ro w p with ⟨-, hd⟩ | ⟨-, -, hd⟩ | ⟨o, hw, hd⟩ <;> rw [hd] at h
  · cases h
  · cases h
  · rw [hw, encodeWord, opcode_of_decodeOperands h]

/-! ### The words that are no operation's (R156) -/

/-- An access is refused by one of R102's three names. -/
theorem decodeAccess_error {ro : RegOff} {off : Word} {width : AccessWidth} {e : DecodeError}
    (h : decodeAccess ro off width = .error e) : e ∈ [.wrongWidth, .misaligned, .unknownRegister] := by
  unfold decodeAccess at h
  split_ifs at h
  · cases h; decide
  · cases h; decide
  · split at h <;> cases h
    decide

/-- Once the word names an operation, only the register access of REG_READ and REG_WRITE can be refused. -/
theorem decodeOperands_error {ro : RegOff} {p : Ports} {o : Opcode} {e : DecodeError}
    (h : decodeOperands ro p o = .error e) : e ∈ [.wrongWidth, .misaligned, .unknownRegister] := by
  have haccess : decodeAccess ro p.regOffset p.regWidth = .error e := by
    cases o with
    | regRead | regWrite =>
      simp only [decodeOperands] at h
      split at h
      · cases h
      · next e' he => cases h; exact he
    | cksum =>
      simp only [decodeOperands] at h
      split at h <;> cases h
    | _ => cases h
  exact decodeAccess_error haccess

/-- The codes of R156: those between and beyond the rows of R154. -/
theorem opcodeOf_eq_none_iff {n : Nat} (hn : n < 0x100) :
    opcodeOf n = none ↔
      n = 0x00 ∨ (0x0B ≤ n ∧ n ≤ 0x0F) ∨ (0x12 ≤ n ∧ n ≤ 0x7F) ∨ (0x83 ≤ n ∧ n ≤ 0xFF) := by
  unfold opcodeOf
  split
  case h_16 =>
    refine iff_of_true rfl ?_
    simp only [imp_false] at *
    omega
  all_goals exact iff_of_false nofun (by decide)

theorem decode_reservedWordBits_iff (ro : RegOff) (w : Word) (p : Ports) :
    decode ro w p = .error .reservedWordBits ↔ 0x100 ≤ w.toNat := by
  rcases decode_cases ro w p with ⟨hw, hd⟩ | ⟨hw, -, hd⟩ | ⟨o, hw, hd⟩ <;> rw [hd]
  · exact iff_of_true rfl hw
  · exact iff_of_false nofun (by omega)
  · refine iff_of_false (fun h => absurd (decodeOperands_error h) (by decide)) ?_
    rw [hw]
    cases o <;> decide

theorem decode_unknownOpcode_iff (ro : RegOff) (w : Word) (p : Ports) :
    decode ro w p = .error .unknownOpcode ↔ w.toNat < 0x100 ∧ opcodeOf w.toNat = none := by
  rcases decode_cases ro w p with ⟨hw, hd⟩ | ⟨hw, ho, hd⟩ | ⟨o, hw, hd⟩ <;> rw [hd]
  · exact iff_of_false nofun (by omega)
  · exact iff_of_true rfl ⟨hw, ho⟩
  · refine iff_of_false (fun h => absurd (decodeOperands_error h) (by decide)) ?_
    rw [hw]
    cases o <;> decide

/-- Settles O3: the decoder looks at the upper bits, then at the code, and gives no other refusal these names. -/
theorem illegalCommandWords : Obligations.IllegalCommandWords := by
  intro ro w p
  refine ⟨decode_reservedWordBits_iff ro w p, ?_⟩
  rw [decode_unknownOpcode_iff]
  constructor
  · intro ⟨hw, ho⟩
    exact (opcodeOf_eq_none_iff hw).1 ho
  · intro hcode
    have hw : w.toNat < 0x100 := by omega
    exact ⟨hw, (opcodeOf_eq_none_iff hw).2 hcode⟩

end Sys2Proof

namespace Sys2Proof.Machine

/-! ### The descriptors' fields (R140, R141, R101, R42) -/

/-- The fields of a transmit descriptor read from 16 bytes of memory. -/
theorem txDescOf_bytesAt (s : State) (a : Nat) :
    txDescOf (bytesAt s a 16) =
      { addr := BitVec.ofNat 64 (leNat (bytesAt s a 8)), length := BitVec.ofNat 16 (leNat (bytesAt s (a + 8) 2)),
        cso := byteAt s (a + 10), cmd := byteAt s (a + 11), status := byteAt s (a + 12), css := byteAt s (a + 13),
        special := BitVec.ofNat 16 (leNat (bytesAt s (a + 14) 2)) } := by
  simp only [txDescOf, bytesAt_take, bytesAt_slice, bytesAt_getD, Nat.reduceAdd, Nat.reduceLeDiff, Nat.reduceLT]

/-- The fields of a receive descriptor read from 16 bytes of memory. -/
theorem rxDescOf_bytesAt (s : State) (a : Nat) :
    rxDescOf (bytesAt s a 16) =
      { addr := BitVec.ofNat 64 (leNat (bytesAt s a 8)), length := BitVec.ofNat 16 (leNat (bytesAt s (a + 8) 2)),
        csum := BitVec.ofNat 16 (leNat (bytesAt s (a + 10) 2)), status := byteAt s (a + 12),
        errors := byteAt s (a + 13), special := BitVec.ofNat 16 (leNat (bytesAt s (a + 14) 2)) } := by
  simp only [rxDescOf, bytesAt_take, bytesAt_slice, bytesAt_getD, Nat.reduceAdd, Nat.reduceLeDiff, Nat.reduceLT]

/-- Settles O6: each field is a part of the slot's 16 bytes, and each field's bytes read back as the field. -/
theorem descriptorLayouts : Obligations.DescriptorLayouts :=
  ⟨fun s i => ⟨txDescOf_bytesAt s (txdAddr s i), rxDescOf_bytesAt s (rxdAddr s i)⟩,
    fun d => ⟨txDescBytes_length d, txDescOf_txDescBytes d⟩, fun d => ⟨rxDescBytes_length d, rxDescOf_rxDescBytes d⟩⟩

/-! ### The command a step runs (R110, R111) -/

section

variable {s : State} {c : Command} {rest : List Command}

theorem step_offered (hr : Running s) (hl : holdLifted s = false) (hi : s.inbox = c :: rest) {i : Instr}
    (hd : decode s.cfg.regOff c.word c.ports = .ok i) :
    step s = exec i { s with inbox := rest, sched := c.during } := by
  obtain ⟨hhalted, hfault⟩ := hr
  simp [step, hhalted, hfault, hl, hi, hd]

theorem step_offered_illegal (hr : Running s) (hl : holdLifted s = false) (hi : s.inbox = c :: rest) {e : DecodeError}
    (hd : decode s.cfg.regOff c.word c.ports = .error e) : step s = .refused (.illegalCommand e) := by
  obtain ⟨hhalted, hfault⟩ := hr
  simp [step, hhalted, hfault, hl, hi, hd]

end

/-- Settles O7: a running step with no hold to leave looks at the inbox first, and does what the decoder says. -/
theorem stepRunsDecoded : Obligations.StepRunsDecoded :=
  fun _ _ _ hr hl hi => ⟨fun _ hd => step_offered hr hl hi hd, fun _ hd => step_offered_illegal hr hl hi hd⟩

/-! ### Internal operations, and one operation at a time (R155, R110, R10) -/

section

variable {s : State} {m : M Unit}

/-- Where the sequencer does not stand at its place, an internal operation is refused. -/
theorem internally_refused {here : SwSeq → Bool} (h : here s.sw = false) :
    internally here m s = .error (.refused .internalOperation) := by
  rw [internally_apply, h]
  rfl

theorem fromOutside_busy (h : s.sw ≠ .idle) : fromOutside m s = .error (.refused .softwareBusy) := by
  rw [fromOutside_apply, if_neg h]

/-- The places from which internal operations are issued are neither idle software nor INIT's hold. -/
theorem bodyOf_internal (hsw : s.sw = .idle ∨ s.sw = .initHold) {i : Instr}
    (hi : i.opcode ∈ [.rxDrain, .classify, .arpRx, .ipRx]) :
    bodyOf i s = .error (.refused .internalOperation) := by
  cases i with
  | rxDrain | classify | arpRx | ipRx =>
    rw [bodyOf]
    refine internally_refused ?_
    rcases hsw with hsw | hsw <;> rw [hsw] <;> rfl
  | _ => simp [Instr.opcode] at hi

/-- Every operation of an outside caller, INIT and CKSUM among them, asks for idle software first. -/
theorem bodyOf_busy (hsw : s.sw ≠ .idle) {i : Instr}
    (hi : i.opcode ∈ [.init, .txSubmit, .irq, .udpTx, .udpPayload, .cksum, .regRead, .regWrite]) :
    bodyOf i s = .error (.refused .softwareBusy) := by
  cases i with
  | init rb tb xb => rw [bodyOf, initOp_apply, if_neg hsw]
  | cksum src => simp [bodyOf, require_apply, hsw]
  | txSubmit | irq | udpTx | udpPayload | regRead | regWrite => rw [bodyOf, fromOutside_busy hsw]
  | _ => simp [Instr.opcode] at hi

/-- No operand check stands before the internal operations. -/
theorem malformed_internal (p : Params) {i : Instr} (hi : i.opcode ∈ [.rxDrain, .classify, .arpRx, .ipRx]) :
    malformed p i = none := by
  cases i with
  | rxDrain | classify | arpRx | ipRx => rfl
  | _ => simp [Instr.opcode] at hi

/-- A refused body is a refused operation, by the check its operands fail where they fail one. -/
theorem exec_refused_of_body (hr : Running s) {i : Instr} {r : Refusal} (h : bodyOf i s = .error (.refused r)) :
    ∃ r', exec i s = .refused r' := by
  rw [exec_running hr]
  cases malformed s.cfg i with
  | some w => exact ⟨_, rfl⟩
  | none => exact ⟨r, by rw [h, outcomeOf_refused]⟩

end

/-- Settles O22: each operation's body first looks at where software stands. -/
theorem internalAndSerialised : Obligations.InternalAndSerialised := by
  intro s i hr
  constructor
  · intro hsw hi
    rw [exec_of_body hr (malformed_internal s.cfg hi), bodyOf_internal hsw hi, outcomeOf_refused]
  · intro hsw hi
    exact exec_refused_of_body hr (bodyOf_busy hsw hi)

end Sys2Proof.Machine

/-! The ring initialisation family (spec/40_ring_init.md), its register and event side: the moves agents make on their own
(O8), what INIT's phase admits (O21), REG_READ (O49) and REG_WRITE (O51), the device reset (O53), and DEV_RX_FRAME where no
frame is received (O33). -/

namespace Sys2Proof.Machine

/-! ### The moves agents make on their own (R203, R261, R315) -/

section

variable {s : State}

theorem step_holdLifted (hr : Running s) (hl : holdLifted s = true) : step s = resumeInit s := by
  obtain ⟨hhalted, hfault⟩ := hr
  simp [step, hhalted, hfault, hl]

theorem step_ownMove (hr : Running s) (hl : holdLifted s = false) (hi : s.inbox = []) {i : Instr}
    (hm : ownMove s = some i) : step s = exec i { s with sched := [] } := by
  obtain ⟨hhalted, hfault⟩ := hr
  simp [step, hhalted, hfault, hl, hi, hm]

theorem step_noMove (hr : Running s) (hl : holdLifted s = false) (hi : s.inbox = []) (hm : ownMove s = none) :
    step s = .refused .noAgentCanStep := by
  obtain ⟨hhalted, hfault⟩ := hr
  simp [step, hhalted, hfault, hl, hi, hm]

end

/-- Settles O8: a running step leaves a lifted hold first, and with an empty inbox takes `ownMove`, which looks at the
reset, then at the held edge, then at the transmit engine. -/
theorem stepOwnMoves : Obligations.StepOwnMoves := by
  intro s hr
  refine ⟨step_holdLifted hr, fun hl hi => ⟨fun hp => ?_, fun hp hq hd hw => ?_, fun hp hq ht => ?_, fun hp hq ht => ?_⟩⟩
  · exact step_ownMove hr hl hi (by simp [ownMove, hp])
  · exact step_ownMove hr hl hi (by simp [ownMove, hp, hq, hd, hw])
  · exact step_ownMove hr hl hi (by simp [ownMove, hp, hq, ht])
  · exact step_noMove hr hl hi (by simp [ownMove, hp, hq, ht])

/-! ### What is refused before INIT has completed, and INIT's being issued once (R201) -/

section

variable {s : State}

/-- An outside operation is refused for where software stands, or else because INIT has not completed. -/
theorem fromOutside_early (h : s.initPhase ≠ .done) (m : M Unit) : ∃ r, fromOutside m s = .error (.refused r) := by
  rw [fromOutside_apply, if_neg h]
  split
  · exact ⟨_, rfl⟩
  · exact ⟨_, rfl⟩

theorem bodyOf_early (h : s.initPhase ≠ .done) {i : Instr}
    (hi : i.opcode ∈ [.txSubmit, .irq, .udpTx, .udpPayload, .regRead, .regWrite]) :
    ∃ r, bodyOf i s = .error (.refused r) := by
  cases i with
  | txSubmit | irq | udpTx | udpPayload | regRead | regWrite => exact fromOutside_early h _
  | _ => simp [Instr.opcode] at hi

theorem initOp_again (h : s.initPhase ≠ .notIssued) (rb tb xb : Addr) :
    ∃ r, initOp rb tb xb s = .error (.refused r) := by
  rw [initOp_apply, if_neg h]
  split
  · exact ⟨_, rfl⟩
  · exact ⟨_, rfl⟩

theorem exec_cksum_data (hr : Running s) (hsw : s.sw = .idle) {bytes : List Byte} (hb : bytes.length ≤ 65535) :
    exec (.cksum (.data bytes)) s = .next { s with results := s.results ++ [.checksum (cksum bytes)] } := by
  rw [exec_of_body hr (by simp only [malformed, if_pos hb])]
  simp only [bodyOf, bind_apply, get_apply, hsw, decide_true, require_of_true, answer_apply, outcomeOf_ok]

end

/-- Settles O21: outside operations and INIT look at INIT's phase before anything else of theirs, CKSUM does not. -/
theorem initOnceAndFirst : Obligations.InitOnceAndFirst := by
  intro s hr
  refine ⟨fun hp i hi => ?_, fun hp rb tb xb => ?_, fun hsw bytes hb => exec_cksum_data hr hsw hb⟩
  · obtain ⟨r, h⟩ := bodyOf_early hp hi
    exact exec_refused_of_body hr h
  · obtain ⟨r, h⟩ := initOp_again hp rb tb xb
    exact exec_refused_of_body hr h

/-! ### REG_READ (R210) -/

section

variable {s : State}

/-- REG_READ in a ready state answers what its register access reads. -/
theorem Ready.exec_regRead (hr : Ready s) {n : RegName} (hn : n ≠ .imc) {v : Word} {t : State}
    (h : regRead n s = .ok (v, t)) : exec (.regRead n) s = .next (Machine.answered (.regValue v) t) := by
  rw [exec_of_body hr.running (by simp only [malformed, if_neg hn]), bodyOf, hr.fromOutside]
  simp only [bind_apply, h, answer_apply, outcomeOf_ok]
  rfl

/-- The bits of a read outside the reserved ones are the register's, whatever the reserved ones read as. -/
theorem readValue_unreserved (x r m : Word) : ((x &&& ~~~m) ||| (r &&& m)) &&& ~~~m = x &&& ~~~m := by
  rw [BitVec.and_or_distrib_right, BitVec.and_assoc, BitVec.and_self, BitVec.and_assoc, BitVec.and_not_self,
    show r &&& 0 = 0 from BitVec.and_zero]
  exact BitVec.or_zero

/-- Clearing ICR drops the interrupt line. -/
theorem setDev_clearIcr (s : State) : setDev { s.dev with icr := 0 } s = { s with dev := { s.dev with icr := 0 } } :=
  setDev_noRise (by simp [irqLine])

end

/-- Settles O49: the three ways a register is read, by its reserved bits and by ICR's read side effect. -/
theorem registerReads : Obligations.RegisterReads := by
  intro s hr
  refine ⟨fun n hicr himc hm => ?_, fun n hicr himc hm => ?_, ?_⟩
  · exact hr.exec_regRead himc (regRead_quiet hr.sched hicr hm)
  · obtain ⟨r, l, h⟩ := regRead_reserved_quiet hr.sched hicr hm
    exact ⟨_, l, readValue_unreserved _ r _, hr.exec_regRead himc h⟩
  · rw [hr.exec_regRead (by decide) (regRead_icr_quiet hr.sched), setDev_clearIcr]
    rfl

/-! ### REG_WRITE of a register that is stored (R211, R52) -/

/-- The registers that REG_WRITE stores: not CTRL, not the interrupt registers, not the head cursors. -/
def Stored (n : RegName) : Prop := n ∉ [RegName.ctrl, .icr, .ims, .imc, .tdh, .rdh]

/-- A value without reserved bits, below its ring's length where it is a tail cursor's, is not refused. -/
theorem regWriteRefusal_stored {s : State} {n : RegName} {v : Word} (hn : Stored n)
    (hv : v &&& reservedMask s.cfg n = 0) (htdt : n = .tdt → v.toNat < s.dev.tdlen.toNat / 16)
    (hrdt : n = .rdt → v.toNat < s.dev.rdlen.toNat / 16) : regWriteRefusal s n v = none := by
  unfold regWriteRefusal
  rw [if_neg fun h => h.2 hv]
  cases n with
  | tdt => exact if_pos (htdt rfl)
  | rdt => exact if_pos (hrdt rfl)
  | tdh | rdh => simp [Stored] at hn
  | _ => rfl

/-- A stored register reads as the value written, and every other register as before. -/
theorem regValue_writeReg {n : RegName} (hn : Stored n) (p : Params) (v : Word) (d : DevRegs) (m : RegName) :
    regValue p (writeReg p n v d) m = if m = n then v else regValue p d m := by
  cases n with
  | ctrl | icr | ims | imc | tdh | rdh => simp [Stored] at hn
  | mta j =>
    cases m with
    | mta i => simp [regValue, writeReg, Vector.getElem_set, Fin.ext_iff, eq_comm]
    | _ => rfl
  | _ => cases m <;> rfl

/-- A stored register's write leaves the interrupt cause and mask alone. -/
theorem writeReg_sameIrq {n : RegName} (hn : Stored n) (p : Params) (v : Word) (d : DevRegs) :
    (writeReg p n v d).icr = d.icr ∧ (writeReg p n v d).ims = d.ims := by
  cases n with
  | icr | ims | imc => simp [Stored] at hn
  | _ => exact ⟨rfl, rfl⟩

/-- What is neither a register of R60 nor `tx_count` is as before. -/
theorem writeReg_hidden {n : RegName} (hn : Stored n) (p : Params) (v : Word) (d : DevRegs) :
    (writeReg p n v d).ctrlRst = d.ctrlRst ∧ (writeReg p n v d).resetPending = d.resetPending ∧
      (writeReg p n v d).ralx = d.ralx ∧ (writeReg p n v d).rahx = d.rahx ∧
      (writeReg p n v d).rxRemaining = d.rxRemaining := by
  cases n with
  | ctrl => simp [Stored] at hn
  | _ => exact ⟨rfl, rfl, rfl, rfl, rfl⟩

/-- Only a TDT write makes slots outstanding, with SEND_ALL and a new value (log 33). -/
theorem writeReg_txCount (n : RegName) (p : Params) (v : Word) (d : DevRegs) :
    (writeReg p n v d).txCount =
      if n = .tdt ∧ p.wrapMode = .sendAll ∧ v ≠ d.tdt then cyclicLen p.nTx d.tdh.toNat v.toNat else d.txCount := by
  cases n with
  | tdt => cases hw : p.wrapMode <;> by_cases hv : v = d.tdt <;> simp [writeReg, writeTdt, hw, hv]
  | _ => rfl

/-- Settles O51: the write is not refused, raises no interrupt, and its effect on the device is `writeReg`'s. -/
theorem registerStores : Obligations.RegisterStores := by
  intro s n v hr (hn : Stored n) hv htdt hrdt
  obtain ⟨hicr, hims⟩ := writeReg_sameIrq hn s.cfg v s.dev
  obtain ⟨hrst, hpending, hralx, hrahx, hremaining⟩ := writeReg_hidden hn s.cfg v s.dev
  refine ⟨writeReg s.cfg n v s.dev, ?_, regValue_writeReg hn s.cfg v s.dev, hrst, hpending, hralx, hrahx, hremaining,
    writeReg_txCount n s.cfg v s.dev⟩
  rw [hr.exec_regWrite_stored (regWriteRefusal_stored hn hv htdt hrdt), setDev_sameIrq _ s hicr hims]

/-! ### DEV_RESET (R212) -/

/-- A device reset disables the transmit engine. -/
theorem txEnabled_resetDev (n : Nat) (d : DevRegs) : txEnabled (resetDev n d) = false := by
  simp [txEnabled, resetDev, BitVec.and_assoc]

/-- A device reset drops the interrupt line. -/
theorem irqLine_resetDev (n : Nat) (d : DevRegs) : irqLine (resetDev n d) = false := by
  simp [irqLine, resetDev]

/-- AV of the address slots 1 to 15 is clear after a device reset. -/
theorem rahx_resetDev (n : Nat) (d : DevRegs) (j : Nat) (h : j < 15) : (resetDev n d).rahx[j].getLsbD 31 = false := by
  simp only [resetDev, Vector.getElem_ofFn, BitVec.getLsbD_and]
  simp

theorem exec_devReset {s : State} (hr : Running s) :
    exec .devReset s = if s.dev.resetPending then
      .next { s with dev := resetDev s.draws s.dev, draws := s.draws + resetDraws } else .refused .eventNotEnabled := by
  have hset : setDev (resetDev s.draws s.dev) s = { s with dev := resetDev s.draws s.dev } :=
    setDev_noRise fun h => absurd h (by simp [irqLine_resetDev])
  rw [exec_of_body hr rfl, bodyOf, devResetOp]
  cases hp : s.dev.resetPending with
  | true => simp only [bind_apply, get_apply, hp, require_of_true, update_apply, hset, outcomeOf_ok, if_true]
  | false => simp [hp]

/-- Settles O53: DEV_RESET replaces the registers by `resetDev`'s, which is what the statement lists. -/
theorem deviceReset : Obligations.DeviceReset := by
  intro s hr
  rw [exec_devReset hr]
  refine ⟨fun hp => ⟨_, if_pos hp, rfl, rfl, rfl, rfl, txEnabled_resetDev _ _, rfl, rfl, rfl, rfl, rfl, rfl, rfl,
    rahx_resetDev _ _, rfl, rfl, rfl, rfl⟩, fun hp => if_neg (by simp [hp])⟩

/-! ### DEV_RX_FRAME where no frame is received (R213, R310) -/

theorem exec_devRxFrame {s : State} {f : List Byte} (hr : Running s) (h14 : 14 ≤ f.length) (h64k : f.length ≤ 65535) :
    exec (.devRxFrame f) s = outcomeOf (devRxFrameOp f s) := by
  rw [exec_of_body hr (by simp only [malformed, if_pos (And.intro h14 h64k)]), bodyOf]

/-- DEV_RX_FRAME with no reset pending: the enable, the filter, then the descriptors (R471). -/
theorem devRxFrameOp_apply {s : State} (hp : s.dev.resetPending = false) (f : List Byte) :
    devRxFrameOp f s =
      if rxEnabled s.dev then
        if accept s.cfg f then rxLoop (f.length + s.cfg.nRx + 1) f s
        else .ok ((), { s with events := s.events ++ [.dropped .filtered] })
      else .ok ((), { s with events := s.events ++ [.dropped .rxDisabled] }) := by
  cases he : rxEnabled s.dev <;> cases ha : accept s.cfg f <;> simp [devRxFrameOp, hp, he, ha]

/-- Settles O33: a pending reset refuses the frame, a disabled receiver drops it. -/
theorem receiveDisabled : Obligations.ReceiveDisabled := by
  intro s f hr h14 h64k
  rw [exec_devRxFrame hr h14 h64k]
  refine ⟨fun hp hen => ?_, fun hp => ?_⟩
  · have hoff : rxEnabled s.dev = false := bne_eq_false_iff_eq.2 hen
    simp [devRxFrameOp_apply hp, hoff]
  · simp [devRxFrameOp, hp]

end Sys2Proof.Machine

/-! INIT as a whole (spec/40_ring_init.md R200 to R203): from where it is issued and from its hold to its fatal ends (O56),
to the hold and beyond it (O55), and to its end, with a frame among its last writes (O54). -/

namespace Sys2Proof.Machine

/-! ### INIT up to the end of the device reset (S1 to S3) -/

/-- Where S4 starts from, with nothing scheduled, if INIT is issued in `s` and its device has become `d`; the draws of S2
and of the reset have left `l` and `n`. -/
def resetState (rb tb xb : Addr) (d : DevRegs) (l : List (BitVec 64)) (n : Nat) (s : State) : State :=
  { beginInit rb tb xb s with dev := d, drawAns := l, draws := n, sched := [] }

/-- S1 to S3 with a device that completes its reset at one of the polls: INIT goes on at S4, the events of `later`
falling at its coming accesses. -/
theorem initBody_reset {s : State} {polls : Nat} {later : List (List DevEvent)}
    (hs : s.sched = List.replicate (3 + polls) [] ++ [.reset] :: later) (rb tb xb : Addr) :
    ∃ v k l n, initBody (beginInit rb tb xb s) =
      initFinish (onSched later (resetState rb tb xb (resetDev k (resetStarted v s.dev)) l n s)) := by
  have hsched : (beginInit rb tb xb s).sched =
      [] :: [] :: [] :: (List.replicate polls [] ++ [.reset] :: later) := by
    rw [beginInit, hs, List.replicate_add]
    rfl
  obtain ⟨v, l, n, hstart⟩ := initStart_skip hsched
  refine ⟨v, n, l, n + resetDraws, ?_⟩
  rw [initBody, bind_apply, hstart]
  simp only [bind_apply, get_apply]
  rw [awaitReset_polls (polls := polls) rfl rfl rfl (by simp)]
  rfl

section

variable {s : State} {tb xb : Addr} {bs : List Addr} {rest : List (Option Addr)} {later : List (List DevEvent)}

/-- INIT issued is INIT from S4 on, in a state its device has been reset in. -/
theorem InitIssued.exec (h : InitIssued s tb xb bs rest later) (rb : Addr) :
    ∃ v k l n, Machine.exec (.init rb tb xb) s = outcomeOf
      (initFinish (onSched later (resetState rb tb xb (resetDev k (resetStarted v s.dev)) l n s))) := by
  obtain ⟨polls, hs⟩ := h.sched
  obtain ⟨v, k, l, n, hbody⟩ := initBody_reset hs rb tb xb
  refine ⟨v, k, l, n, ?_⟩
  rw [exec_of_body h.running (by rw [malformed, if_pos h.aligned]), bodyOf, initOp_apply, if_pos h.idle,
    if_pos h.phase, hbody]

theorem InitIssued.ready (h : InitIssued s tb xb bs rest later) (rb : Addr) (d : DevRegs) (k : Nat)
    (l : List (BitVec 64)) (n : Nat) : InitReady (resetState rb tb xb (resetDev k d) l n s) bs rest where
  sizes := h.sizes
  owners := h.owners
  sched := rfl
  phase := rfl
  dev := resetDev_done k d
  rings := h.rings
  apart := h.apart.congr rfl rfl
  answers := h.answers
  fresh := ⟨h.fresh.aligned, h.fresh.inside, h.fresh.free, h.fresh.offTx, h.fresh.offRx, h.fresh.distinct⟩
  count := h.count

/-- What INIT makes of the state S4 starts from it makes of the state it was issued in. -/
theorem AfterInit.of_resetState {rb : Addr} {d : DevRegs} {l : List (BitVec 64)} {n : Nat} {t : State}
    (h : AfterInit (resetState rb tb xb d l n s) rb tb xb bs rest t) : AfterInit s rb tb xb bs rest t :=
  ⟨h.registers, h.txRing, h.rxRing, h.owners, h.handed, h.sees, h.unseen, h.same, h.state⟩

end

/-! ### INIT at its hold (R203) -/

theorem holdLifted_of_reset {s : State} (hsw : s.sw = .initHold) (hd : ResetDone s.dev) : holdLifted s = true := by
  simp [holdLifted, hsw, hd.done.1]

/-- The step after the hold is INIT from S4 on. -/
theorem step_initReady {s : State} {bs : List Addr} {rest : List (Option Addr)} (hr : Running s)
    (hsw : s.sw = .initHold) (h : InitReady s bs rest) : step s = outcomeOf (initFinish s) :=
  step_holdLifted hr (holdLifted_of_reset hsw h.dev)

/-- INIT held at S3: no device event falls at its polls. -/
theorem initBody_holds {s : State} (hs : s.sched = []) :
    ∃ v l n, initBody s = .error (.ended { s with
      sw := .initHold, drawAns := l, draws := n, dev := resetStarted v s.dev }) := by
  obtain ⟨v, l, n, hstart⟩ := initStart_quiet hs
  refine ⟨v, l, n, ?_⟩
  rw [initBody, bind_apply, hstart]
  have honce : s.sched.length + 1 = 1 := by rw [hs]; rfl
  simp only [bind_apply, get_apply, withDev_sched]
  rw [honce, awaitReset_quiet (by exact hs) rfl]
  rfl

/-- S1 masks every interrupt. -/
theorem resetStarted_masked (v : Word) (d : DevRegs) :
    resetStarted v d = { d with ims := 0, ctrlRst := true, ctrlOther := v, resetPending := true } := by
  simp [resetStarted]

theorem exec_init_holds {s : State} {tb xb : Addr} (hr : Running s) (hsw : s.sw = .idle)
    (hp : s.initPhase = .notIssued) (ha : tb.toNat % 16 = 0 ∧ xb.toNat % 16 = 0) (hs : s.sched = []) (rb : Addr) :
    ∃ v l n, exec (.init rb tb xb) s = .next { s with
      initPhase := .running, registerBase := rb, txRingBase := tb, rxRingBase := xb, sw := .initHold
      drawAns := l, draws := n
      dev := { s.dev with ims := 0, ctrlRst := true, ctrlOther := v, resetPending := true } } := by
  obtain ⟨v, l, n, hbody⟩ := initBody_holds (s := beginInit rb tb xb s) hs
  refine ⟨v, l, n, ?_⟩
  rw [exec_of_body hr (by rw [malformed, if_pos ha]), bodyOf, initOp_apply, if_pos hsw, if_pos hp, hbody,
    resetStarted_masked]
  rfl

/-! ### What comes after the first of two operations -/

theorem bind_of_ok {α β : Type} {x : M α} {f : α → M β} {s t : State} {a : α} (h : x s = .ok (a, t)) :
    (x >>= f) s = f a t := by
  rw [bind_apply, h]

theorem bind_of_error {α β : Type} {x : M α} {f : α → M β} {s : State} {e : Stop} (h : x s = .error e) :
    (x >>= f) s = .error e := by
  rw [bind_apply, h]

/-! ### INIT's fatal ends (R200 S7, S10, S11; R460) -/

section

variable {s : State} {bs : List Addr} {rest : List (Option Addr)}

theorem RxSlots.dev {n : Nat} {u t : State} (h : RxSlots n bs rest u t) : t.dev = u.dev := by rw [h.state]

theorem RxSlots.events {n : Nat} {u t : State} (h : RxSlots n bs rest u t) :
    t.events = u.events ++ (bs.take n).map Event.allocated := by rw [h.state]

theorem TxSlots.events {n : Nat} {u : State} (h : TxSlots n s u) : u.events = s.events := by rw [h.state]

theorem TxSlots.dev {n : Nat} {u : State} (h : TxSlots n s u) : u.dev = s.dev := by rw [h.state]

theorem TxSlots.rxOwner {n : Nat} {u : State} (h : TxSlots n s u) : u.rxOwner = s.rxOwner := by rw [h.state]

/-- S7 stops before the transmit ring's registers are written. -/
theorem initFinish_txMisaligned (h : InitReady s bs rest) (ha : s.cfg.nTx * 16 % s.cfg.ringAlign ≠ 0) :
    ∃ t, initFinish s = .error (.ended t) ∧
    t.halted = some .ringMisaligned ∧ t.fatalInfo = 0 ∧ t.events = s.events ++ [.halt .ringMisaligned] ∧
    t.dev.tdlen = s.dev.tdlen ∧ t.dev.tdbal = s.dev.tdbal ∧ t.dev.tdbah = s.dev.tdbah ∧
    ∀ i < s.cfg.nTx, txd t i = ⟨0, 0, 0, 0, 0x01, 0, 0⟩ := by
  obtain ⟨u, hu, hring⟩ := initTxRing_fatal h ha
  have hdev : u.dev = maskedRegs s.dev := hu.dev
  have hevents : u.events = s.events := hu.events
  refine ⟨_, bind_of_error hring, rfl, rfl, congrArg (· ++ _) hevents, ?_, ?_, ?_, hu.slot⟩
  all_goals
    simp only [hdev]
    rfl

/-- S10 stops with the slots before the failing one filled, before the receive ring's registers are written. -/
theorem initFinish_allocFails (h : InitReady s bs (none :: rest)) (ha : s.cfg.nTx * 16 % s.cfg.ringAlign = 0)
    (hlt : bs.length < s.cfg.nRx) :
    ∃ t, initFinish s = .error (.ended t) ∧
    t.halted = some .rxInitAlloc ∧ t.fatalInfo = BitVec.ofNat 32 bs.length ∧
    t.events = s.events ++ bs.map Event.allocated ++ [.halt .rxInitAlloc] ∧
    t.dev.rdlen = s.dev.rdlen ∧ t.dev.rdbal = s.dev.rdbal ∧ t.dev.rdbah = s.dev.rdbah ∧
    ∀ (j : Nat) (h : j < bs.length), rxd t j = ⟨bs[j], 0, 0, 0, 0, 0⟩ ∧ t.rxOwner[j]? = some bs[j] := by
  obtain ⟨u, hu, htx⟩ := initTxRing_ok h ha
  obtain ⟨r, t, hr, hrx, hhalted, hinfo, hevents, hdev, howner, hslots⟩ :=
    initRxRing_allocFails h hu (txRegs s.cfg s.txRingBase (maskedRegs s.dev)) h.dev.rx hlt
  refine ⟨t, ?_, hhalted, hinfo, ?_, by rw [hdev]; rfl, by rw [hdev]; rfl, by rw [hdev]; rfl, fun j hj => ⟨?_, ?_⟩⟩
  · exact (bind_of_ok htx).trans (bind_of_error hrx)
  · rw [hevents, hr.events, List.take_length]
    show u.events ++ _ ++ _ = _
    rw [hu.events]
    rfl
  · rw [hslots, hr.slot j hj hj]
    rfl
  · have hlen : (withDev (txRegs s.cfg s.txRingBase (maskedRegs s.dev)) u).rxOwner.length = s.cfg.nRx := by
      exact (congrArg List.length hu.rxOwner).trans h.owners.2
    rw [howner, hr.owner j hj hj (by omega)]

/-- S11 stops with the receive slots filled, before the receive ring's registers are written. -/
theorem initFinish_rxMisaligned (h : InitReady s bs rest) (ha : s.cfg.nTx * 16 % s.cfg.ringAlign = 0)
    (hc : bs.length = s.cfg.nRx) (ha' : s.cfg.nRx * 16 % s.cfg.ringAlign ≠ 0) :
    ∃ t, initFinish s = .error (.ended t) ∧
    t.halted = some .ringMisaligned ∧ t.fatalInfo = 1 ∧
    t.events = s.events ++ bs.map Event.allocated ++ [.halt .ringMisaligned] ∧
    t.dev.rdlen = s.dev.rdlen ∧ t.dev.tdlen.toNat = s.cfg.nTx * 16 := by
  obtain ⟨u, hu, htx⟩ := initTxRing_ok h ha
  obtain ⟨t, hr, hrx⟩ := initRxRing_fatal h hu (txRegs s.cfg s.txRingBase (maskedRegs s.dev)) h.dev.rx ha' hc
  have hdev : t.dev = txRegs s.cfg s.txRingBase (maskedRegs s.dev) := hr.dev
  have hevents : t.events = s.events ++ bs.map Event.allocated := by
    rw [hr.events, ← hc, List.take_length]
    show u.events ++ _ = _
    rw [hu.events]
    rfl
  refine ⟨_, (bind_of_ok htx).trans (bind_of_error hrx), rfl, rfl, congrArg (· ++ _) hevents, ?_, ?_⟩
  · simp only [hdev]
    rfl
  · simp only [hdev]
    show (BitVec.ofNat 32 (s.cfg.nTx * 16)).toNat = _
    rw [BitVec.toNat_ofNat, Nat.mod_eq_of_lt h.sizes.tx.2]

theorem InitReady.fatalEnds (h : InitReady s bs rest) : InitFatalEnds s s.dev bs rest (outcomeOf (initFinish s)) where
  txMisaligned ha := by
    obtain ⟨t, he, ht⟩ := initFinish_txMisaligned h ha
    exact ⟨t, by rw [he, outcomeOf_ended], ht⟩
  allocFails ha hlt hfail := by
    obtain ⟨rest', rfl⟩ := List.head?_eq_some_iff.1 hfail
    obtain ⟨t, he, ht⟩ := initFinish_allocFails h ha hlt
    exact ⟨t, by rw [he, outcomeOf_ended], ht⟩
  rxMisaligned ha hc ha' := by
    obtain ⟨t, he, ht⟩ := initFinish_rxMisaligned h ha hc ha'
    exact ⟨t, by rw [he, outcomeOf_ended], ht⟩

/-- The ends are those of the state INIT was issued in: a reset's free values do not depend on what it resets. -/
theorem InitFatalEnds.of_resetState {rb tb xb : Addr} {v : Word} {k n : Nat} {l : List (BitVec 64)}
    {o : Host.Outcome State Fault Refusal}
    (h : InitFatalEnds (resetState rb tb xb (resetDev k (resetStarted v s.dev)) l n s)
      (resetDev k (resetStarted v s.dev)) bs rest o) : InitFatalEnds s (resetDev k s.dev) bs rest o :=
  ⟨h.txMisaligned, h.allocFails, h.rxMisaligned⟩

end

/-- Settles O56: INIT from S4 on stops at S7, in S10 or at S11 (`InitReady.fatalEnds`), from its hold and, through the
reset, from where it is issued. -/
theorem initFails : Obligations.InitFails := by
  constructor
  · intro s bs rest hr hsw h
    rw [step_initReady hr hsw h]
    exact h.fatalEnds
  · intro s rb tb xb bs rest h
    obtain ⟨v, k, l, n, he⟩ := h.exec rb
    refine ⟨k, ?_⟩
    rw [he]
    exact (h.ready rb _ k l n).fatalEnds.of_resetState

/-! ### INIT with `rxInitView = fenced`, and the first frame after it (R121; log 48) -/

/-- The end of INIT leaves the block running where it was. -/
theorem AfterInit.running {s t : State} {rb tb xb : Addr} {bs : List Addr} {rest : List (Option Addr)}
    (h : AfterInit s rb tb xb bs rest t) (hr : Running s) : Running t := by
  rw [h.state]
  exact hr

theorem AfterInit.cfg {s t : State} {rb tb xb : Addr} {bs : List Addr} {rest : List (Option Addr)}
    (h : AfterInit s rb tb xb bs rest t) : t.cfg = s.cfg := by rw [h.state]

/-- The receiver INIT leaves takes a frame. -/
theorem InitRegisters.rxEnabled {p : Params} {tb xb : Addr} {d : DevRegs} (h : InitRegisters p tb xb d) :
    rxEnabled d = true := by
  obtain ⟨hrctl, -⟩ := h.engines
  simp [Machine.rxEnabled, hrctl, ctlEn]

/-- The device finds the receive ring where INIT was told to put it. -/
theorem InitRegisters.devRxdAddr {p : Params} {tb xb : Addr} {d : DevRegs} (h : InitRegisters p tb xb d) (i : Nat) :
    devRxdAddr d i = xb.toNat + 16 * i := by
  obtain ⟨hbal, hbah, -⟩ := h.rxRing
  have hbase : d.rdbah ++ d.rdbal = xb := by
    rw [hbal, hbah]
    rw [BitVec.extractLsb'_append_extractLsb'_eq_extractLsb' (by rfl)]
    exact BitVec.extractLsb'_eq_self
  rw [Machine.devRxdAddr, hbase]
  rfl

/-- The next descriptor the device reads, with what it is sure to see of it, names no buffer of the device's that takes the
chunk: the run stops, if not before that for the descriptor itself. -/
theorem rxLoop_noBuffer {s : State} (fuel : Nat) {rest : List Byte} (hne : s.dev.rdh ≠ s.dev.rdt)
    (hf : devRxdAddr s.dev s.dev.rdh.toNat + 8 ≤ addrSpace)
    (ho : ownsRange s .device (leNat (bytesAt (atFence s) (devRxdAddr s.dev s.dev.rdh.toNat) 8))
      (rest.take s.cfg.rxBufSize).length = false) :
    rxLoop (fuel + 1) rest s = .error (.ended { s with modelFault := some .ownershipViolation }) := by
  rw [rxLoop, bind_of_ok (get_apply s), ite_apply, if_neg hne]
  by_cases htouch : touchesSoftware s (devRxdAddr s.dev s.dev.rdh.toNat) descSize = true
  · exact bind_of_error (by rw [takeDescriptor_apply, if_pos htouch])
  · have hread : descRead (devRxdAddr s.dev s.dev.rdh.toNat + offAddr) 8 s =
        .ok (bytesAt (atFence s) (devRxdAddr s.dev s.dev.rdh.toNat) 8, s) := by
      rw [descRead_apply, if_pos (by exact hf)]
      rfl
    rw [bind_of_ok (by rw [takeDescriptor_apply, if_neg htouch]), bind_of_ok hread, ite_apply,
      if_neg (by rw [ho]; decide)]
    rfl

/-- DEV_RX_FRAME of an accepted frame goes to the descriptors. -/
theorem devRxFrameOp_accepted {s : State} {f : List Byte} (hp : s.dev.resetPending = false)
    (he : rxEnabled s.dev = true) (ha : f.take 6 = s.cfg.localMac.bytes ∨ f.take 6 = Mac.broadcast.bytes) :
    devRxFrameOp f s = rxLoop (f.length + s.cfg.nRx + 1) f s := by
  have hacc : accept s.cfg f = true := by simpa [accept] using ha
  rw [devRxFrameOp_apply hp, if_pos he, if_pos hacc]

section

variable {s t : State} {rb tb xb : Addr} {bs : List Addr} {rest : List (Option Addr)}

/-- With `fenced` the device reads slot 0's address field as it lay there before INIT. -/
theorem AfterInit.staleAddr (h : AfterInit s rb tb xb bs rest t) (hv : s.cfg.rxInitView = .fenced)
    (hn : 1 ≤ s.cfg.nRx) : bytesAt (atFence t) xb.toNat 8 = bytesAt { t with mem := s.mem } xb.toNat 8 :=
  bytesAt_congr fun c h1 h2 => byteAt_congr (h.unseen hv c h1 (by omega)) rfl

/-- The first frame after INIT, with `fenced`, where no buffer of the device's takes its first chunk at the address that lay
at slot 0 before INIT. -/
theorem AfterInit.staleFrame (h : AfterInit s rb tb xb bs rest t) (hr : Running s) (hv : s.cfg.rxInitView = .fenced)
    (hn : 1 < s.cfg.nRx) (hring : xb.toNat + s.cfg.nRx * 16 ≤ addrSpace) {f : List Byte}
    (ha : f.take 6 = s.cfg.localMac.bytes ∨ f.take 6 = Mac.broadcast.bytes)
    (h14 : 14 ≤ f.length) (h64k : f.length ≤ 65535)
    (ho : ownsRange t .device (leNat (bytesAt { t with mem := s.mem } xb.toNat 8)) (min f.length s.cfg.rxBufSize) =
      false) : exec (.devRxFrame f) t = .next { t with modelFault := some .ownershipViolation } := by
  obtain ⟨-, -, -, hrdh, hrdt⟩ := h.registers.rxRing
  obtain ⟨-, hpending, -⟩ := h.registers.hidden
  have hslot : devRxdAddr t.dev t.dev.rdh.toNat = xb.toNat := by rw [h.registers.devRxdAddr, hrdh]; rfl
  have hne : t.dev.rdh ≠ t.dev.rdt := by
    intro e
    rw [← e, hrdh] at hrdt
    simp at hrdt
    omega
  have hloop : rxLoop (f.length + t.cfg.nRx + 1) f t =
      .error (.ended { t with modelFault := some .ownershipViolation }) := by
    refine rxLoop_noBuffer _ hne (by omega) ?_
    have hchunk : (f.take t.cfg.rxBufSize).length = min f.length s.cfg.rxBufSize := by
      rw [List.length_take, h.cfg, Nat.min_comm]
    rw [hslot, h.staleAddr hv (by omega), hchunk]
    exact ho
  rw [exec_devRxFrame (h.running hr) h14 h64k,
    devRxFrameOp_accepted hpending h.registers.rxEnabled (by rw [h.cfg]; exact ha), hloop, outcomeOf_ended]

end

/-- From the hold INIT runs to its end. -/
theorem step_initHold {s : State} {bs : List Addr} {rest : List (Option Addr)} (hr : Running s)
    (hsw : s.sw = .initHold) (h : InitReady s bs rest) (hc : bs.length = s.cfg.nRx)
    (hal : s.cfg.nTx * 16 % s.cfg.ringAlign = 0) (hal' : s.cfg.nRx * 16 % s.cfg.ringAlign = 0) :
    ∃ t, step s = .next t ∧ AfterInit s s.registerBase s.txRingBase s.rxRingBase bs rest t := by
  obtain ⟨t, he, ht⟩ := initFinish_ok h hal hal' hc
  exact ⟨t, by rw [step_initReady hr hsw h, he, outcomeOf_ok], ht⟩

/-- Settles O55: S1 to S3 with no device event end in the hold, the step after it is S4 to S17, and with `fenced` the
device has not seen S10's writes. -/
theorem initHolds : Obligations.InitHolds := by
  refine ⟨fun s rb tb xb hr hsw hp htb hxb hs => exec_init_holds hr hsw hp ⟨htb, hxb⟩ hs rb,
    fun s bs rest hr hsw h hc hal hal' => step_initHold hr hsw h hc hal hal', ?_⟩
  intro s t bs rest f hr hsw h hv hc hn hal hal' hstep ha h14 h64k ho
  obtain ⟨t', hstep', hafter⟩ := step_initHold hr hsw h hc hal hal'
  obtain rfl : t' = t := by
    rw [hstep] at hstep'
    cases hstep'
    rfl
  exact hafter.staleFrame hr hv hn h.rings.rx ha h14 h64k ho

/-! ### A frame before INIT's last writes (R200's corner case; log 42) -/

/-- Each buffer record lies off the receive ring. -/
def BufsOffRx (s : State) : Prop := ∀ r ∈ s.bufs, OffRxRing s r

theorem mem_setOwner_bufs {s : State} {b : Addr} {o : Owner} {r : Buf} (h : r ∈ (setOwner b o s).bufs) :
    ∃ q ∈ s.bufs, r.base = q.base := by
  rw [setOwner_bufs, List.mem_map] at h
  obtain ⟨q, hq, rfl⟩ := h
  exact ⟨q, hq, by split <;> rfl⟩

theorem Micro.bufsOffRx {k : Kind} {s t : State} (h : Micro k s t) (hs : BufsOffRx s) : BufsOffRx t := by
  intro r hr
  refine h.offRxRing ?_
  rcases h.bufs_cases with e | ⟨b, o, -, e⟩ | ⟨b, who, ha, e⟩ <;> rw [e] at hr
  · exact hs r hr
  · obtain ⟨q, hq, hbase⟩ := mem_setOwner_bufs hr
    obtain ⟨hphase, hoff⟩ := hs q hq
    exact ⟨hphase, by rw [hbase]; exact hoff⟩
  · rw [allocState_bufs, List.mem_append, List.mem_singleton] at hr
    rcases hr with hold | rfl
    · exact hs r (List.mem_of_mem_filter hold)
    · exact ha.offRxRing who _

theorem initFinish_bufsOffRx {s t : State} (h : initFinish s = .ok ((), t)) (hs : BufsOffRx s) : BufsOffRx t :=
  ((traces_initFinish s).1 () t h).keeps BufsOffRx (fun _ _ _ _ hm => hm.bufsOffRx) hs

section

variable {s t : State} {rb tb xb : Addr} {bs : List Addr} {rest : List (Option Addr)}

/-- The receive ring as INIT leaves it: `k` slots from slot 0 on are ready for a frame, as long as the reserved slot is not
among them. -/
theorem AfterInit.slotsReady (h : AfterInit s rb tb xb bs rest t) (hv : s.cfg.rxInitView = .written)
    (hrings : RingsApart s.cfg tb xb) (hfresh : FreshBuffers s tb xb bs)
    (hc : bs.length = s.cfg.nRx) (hoff : BufsOffRx t) {k : Nat} (hk : k < s.cfg.nRx) : RxSlotsReady t k := by
  obtain ⟨hbal, hbah, hlen, hrdh, hrdt⟩ := h.registers.rxRing
  have hcfg : t.cfg = s.cfg := h.cfg
  have htx : t.txRingBase = tb := by rw [h.state]
  have hrx : t.rxRingBase = xb := by rw [h.state]
  have hzero : t.dev.rdh.toNat = 0 := by rw [hrdh]; rfl
  have hslot (j : Nat) (hj : j < k) : rxSlot t j = j := by
    rw [rxSlot, hzero, hcfg, Nat.zero_add, Nat.mod_eq_of_lt (by omega)]
  have haddr (j : Nat) : rxdAddr t j = xb.toNat + 16 * j := by rw [rxdAddr, hrx]; rfl
  have hdesc (j : Nat) (hj : j < k) : rxd t (rxSlot t j) = ⟨bs[j]'(by omega), 0, 0, 0, 0, 0⟩ := by
    rw [hslot j hj]
    exact (h.rxRing j (by omega)).1
  have hmem (j : Nat) (hj : j < k) : (rxd t (rxSlot t j)).addr ∈ bs := by
    rw [hdesc j hj]
    exact List.getElem_mem _
  constructor
  · constructor
    · have := h.registers.devRxdAddr 0
      rw [hrx]
      apply BitVec.eq_of_toNat_eq
      simpa [devRxdAddr] using this
    · rw [hcfg]
      exact hlen
  · rw [hcfg, hzero, hrdt, cyclicLen_eq (by omega) (by omega)]
    split <;> omega
  · intro j hj
    rw [hslot j hj, haddr]
    have := overlaps_false hrings.apart
    refine h.sees _ _ (by omega) fun e => ?_
    rw [hv] at e
    cases e
  · intro j hj
    rw [hdesc j hj, hslot j hj]
    exact (h.rxRing j (by omega)).2
  · intro j hj
    rw [h.owners, if_pos (hmem j hj)]
  · intro j hj
    rw [hcfg]
    exact hfresh.inside _ (hmem j hj)
  · exact fun r hr => (hoff r hr).2
  · rw [hcfg, htx, hrx]
    exact hrings.apart
  · intro i j hij hj
    rw [hcfg]
    by_contra hover
    have hbase := base_eq_of_overlaps (hfresh.aligned _ (hmem i (by omega))) (hfresh.aligned _ (hmem j hj))
      (by simpa using hover)
    rw [hdesc i (by omega), hdesc j hj] at hbase
    have := (hfresh.distinct.getElem_inj_iff).1 (BitVec.eq_of_toNat_eq hbase)
    omega

end

/-- The chunks of `n` bytes are as many as pieces of `r` bytes are needed for them (R311). -/
theorem chunks_le_iff {n r k : Nat} (hr : 0 < r) : n ⌈/⌉ r ≤ k ↔ n ≤ k * r := by
  rw [ceilDiv_le_iff_le_mul hr, Nat.mul_comm]

/-- A frame that fits the free slots fills one for each of its chunks (R310, R311). -/
theorem devRxFrameOp_fills {s : State} {f : List Byte} (hsize : SizesOk s.cfg) (hp : s.dev.resetPending = false)
    (he : rxEnabled s.dev = true) (ha : f.take 6 = s.cfg.localMac.bytes ∨ f.take 6 = Mac.broadcast.bytes)
    (h14 : 14 ≤ f.length) (hh : s.dev.rdh.toNat < s.cfg.nRx) (ht : s.dev.rdt.toNat < s.cfg.nRx)
    (hring : s.rxRingBase.toNat + s.cfg.nRx * 16 ≤ addrSpace)
    (hr : RxSlotsReady s (f.length ⌈/⌉ s.cfg.rxBufSize)) :
    ∃ t, devRxFrameOp f s = .ok ((), t) ∧ RxFilled s f (f.length ⌈/⌉ s.cfg.rxBufSize) t := by
  have hpos : 0 < s.cfg.rxBufSize := hsize.rxBuf.1
  have hfree := lt_of_le_of_lt hr.free (cyclicLen_lt ht)
  have hfirst := not_le.1 ((chunks_le_iff (n := f.length) (k := 0) hpos).not.2 (by omega))
  obtain ⟨t, hfill, hloop⟩ := rxLoop_turns (f := f) hsize.rxBuf.2 (by have := hsize.buf; omega) hh ht
    (by have := hsize.rx; omega) hring hr (f.length + s.cfg.nRx + 1) _ (le_refl _) (by omega)
    fun j hj => not_le.1 ((chunks_le_iff hpos).not.1 (by omega))
  rw [if_pos ⟨hfirst, (chunks_le_iff hpos).1 (le_refl _)⟩] at hloop
  exact ⟨t, by rw [devRxFrameOp_accepted hp he ha, hloop], hfill⟩

/-! ### S16 and S17 with a frame among them -/

/-- The state with the delay timers at `a` and `b`: what S16 writes. -/
def withTimers (a b : Word) (s : State) : State := withDev { s.dev with rdtr := a, radv := b } s

/-- INIT ended (S16, S17), with what unmasking the receive interrupt does to the line held. -/
def initEnded (s : State) : State :=
  { setDev { s.dev with rdtr := 0, radv := 0, ims := icrRxdw } s with sw := .idle, initPhase := .done }

section

variable {s u : State}

/-- A register write after the events at its point. -/
theorem regWrite_at_point {n : RegName} {v : Word} (hp : point s = .ok ((), u)) (hr : regWriteRefusal u n v = none) :
    regWrite n v s = .ok ((), setDev (writeReg u.cfg n v u.dev) u) := by
  rw [regWrite, regStore, bind_of_ok hp, bind_of_ok (get_apply u), hr]
  rfl

theorem regWrite_rdtr (hp : point s = .ok ((), u)) :
    regWrite .rdtr 0 s = .ok ((), withTimers 0 u.dev.radv u) := by
  rw [regWrite_at_point hp (by simp [regWriteRefusal]), setDev_sameIrq (writeReg _ .rdtr 0 _) u rfl rfl]
  rfl

theorem regWrite_radv (hp : point s = .ok ((), u)) :
    regWrite .radv 0 s = .ok ((), withTimers u.dev.rdtr 0 u) := by
  rw [regWrite_at_point hp (by simp [regWriteRefusal]), setDev_sameIrq (writeReg _ .radv 0 _) u rfl rfl]
  rfl

/-- S17 with the timers at 0, and INIT's end. -/
theorem initUnmask (hp : point s = .ok ((), u)) (hi : u.dev.ims = 0) (hrdtr : u.dev.rdtr = 0) (hradv : u.dev.radv = 0) :
    (regWrite .ims icrRxdw >>= fun _ => initClose) s = .ok ((), initEnded u) := by
  have hdev : ({ u.dev with ims := u.dev.ims ||| icrRxdw } : DevRegs) =
      { u.dev with rdtr := 0, radv := 0, ims := icrRxdw } := by
    simp [hi, hrdtr, hradv]
  rw [bind_of_ok (regWrite_at_point hp (by simp [regWriteRefusal, reservedMask])), writeReg, hdev]
  rfl

/-- An event scheduled at one access: a frame the device takes. -/
theorem point_frame {f : List Byte} (hs : s.sched = [[.rxFrame f]]) (h14 : 14 ≤ f.length) (h64k : f.length ≤ 65535)
    (hf : devRxFrameOp f (onSched [] s) = .ok ((), u)) : point s = .ok ((), u) := by
  have hevent : devEvent (.rxFrame f) (onSched [] s) = .ok ((), u) := by
    simpa [devEvent, h14, h64k] using hf
  have htry : tryDevice (.rxFrame f) (onSched [] s) = .ok ((), u) := by
    rw [tryDevice, hevent]
  rw [point, hs]
  exact bind_of_ok htry

end

/-- The frame leaves the registers alone that INIT's last writes set, and the schedule empty. -/
theorem RxFilled.unwritten {s t : State} {f : List Byte} {k : Nat} (h : RxFilled s f k t) :
    t.dev.ims = s.dev.ims ∧ t.dev.rdtr = s.dev.rdtr ∧ t.dev.radv = s.dev.radv ∧ t.sched = s.sched := by
  rw [h.state]
  exact ⟨rfl, rfl, rfl, rfl⟩

/-- S16 and S17 with a frame before the first, the second or the third write: it meets timers written or not yet. -/
theorem initLast_frame {x : State} {f : List Byte} {j k : Nat} (hs : x.sched = []) (hi : x.dev.ims = 0)
    (h14 : 14 ≤ f.length) (h64k : f.length ≤ 65535) (hj : j < 3)
    (hframe : ∀ a b, ∃ z, devRxFrameOp f (withTimers a b x) = .ok ((), z) ∧ RxFilled (withTimers a b x) f k z) :
    ∃ a b z, RxFilled (withTimers a b x) f k z ∧
      (initLast >>= fun _ => initClose) (onSched (List.replicate j [] ++ [[.rxFrame f]]) x) =
        .ok ((), initEnded z) := by
  have hempty (s : State) (h : s.sched = x.sched) : onSched [] s = s := onSched_self (h.trans hs)
  simp only [initLast, bind_assoc]
  obtain rfl | rfl | rfl : j = 0 ∨ j = 1 ∨ j = 2 := by omega
  · obtain ⟨z, hz, hfill⟩ := hframe x.dev.rdtr x.dev.radv
    obtain ⟨hims, -, -, hsched⟩ := hfill.unwritten
    have hzs : z.sched = [] := hsched.trans hs
    refine ⟨_, _, z, hfill, ?_⟩
    rw [bind_of_ok (regWrite_rdtr (point_frame rfl h14 h64k (by rw [onSched_onSched, hempty x rfl]; exact hz))),
      bind_of_ok (regWrite_radv (point_quiet (by exact hzs)))]
    exact initUnmask (u := withTimers 0 0 z) (point_quiet (by exact hzs)) (hims.trans hi) rfl rfl
  · obtain ⟨z, hz, hfill⟩ := hframe 0 x.dev.radv
    obtain ⟨hims, hrdtr, -, hsched⟩ := hfill.unwritten
    have hzs : z.sched = [] := hsched.trans hs
    refine ⟨_, _, z, hfill, ?_⟩
    rw [bind_of_ok (regWrite_rdtr (point_skip rfl)),
      bind_of_ok (regWrite_radv (point_frame rfl h14 h64k (by
        rw [← hempty x rfl] at hz; exact hz)))]
    exact initUnmask (u := withTimers z.dev.rdtr 0 z) (point_quiet (by exact hzs)) (hims.trans hi) hrdtr rfl
  · obtain ⟨z, hz, hfill⟩ := hframe 0 0
    obtain ⟨hims, hrdtr, hradv, hsched⟩ := hfill.unwritten
    refine ⟨_, _, z, hfill, ?_⟩
    rw [bind_of_ok (regWrite_rdtr (point_skip rfl)), bind_of_ok (regWrite_radv (point_skip rfl)),
      initUnmask (point_frame rfl h14 h64k (by rw [← hempty x rfl] at hz; exact hz)) (hims.trans hi) hrdtr hradv]

/-- With no cause pending and the line masked before, what the frame filled it has filled of INIT's end, and the line rises
where INIT unmasks it. -/
theorem RxFilled.initEnded {x z : State} {a b : Word} {f : List Byte} {k : Nat}
    (h : RxFilled (withTimers a b x) f k z) (hk : 0 < k) (hicr : x.dev.icr = 0) (hims : x.dev.ims = 0) :
    RxFilled (Machine.initEnded x) f k (Machine.initEnded z) ∧ irqLine (Machine.initEnded z).dev = true ∧
      (Machine.initEnded z).irqHeld = true := by
  have hicr' : z.dev.icr = icrRxdw := by
    have : z.dev.icr = if k = 0 then x.dev.icr else x.dev.icr ||| icrRxdw := by rw [h.state]; rfl
    rw [this, if_neg (by omega), hicr]
    rfl
  have hlow : irqLine z.dev = false := by
    have : z.dev.ims = 0 := h.unwritten.1.trans hims
    simp [irqLine, this]
  have hhigh : irqLine (Machine.initEnded z).dev = true := by
    simp [irqLine, Machine.initEnded, hicr', icrRxdw]
  have hheld : (Machine.initEnded z).irqHeld = true := by
    have : (Machine.initEnded z).irqHeld = (z.irqHeld || (!irqLine z.dev && irqLine (Machine.initEnded z).dev)) := rfl
    rw [this, hlow, hhigh]
    simp
  have hxlow : irqLine (Machine.initEnded x).dev = false := by simp [irqLine, Machine.initEnded, hicr]
  refine ⟨⟨h.slots, h.same, h.sees, ?_⟩, hhigh, hheld⟩
  rw [hxlow, hhigh]
  have key : ∀ (m fc : List Host.Cell) (l : List (BitVec 64)) (n : Nat) (q : Bool) (r c : Word) (e : Nat),
      z = { withTimers a b x with
        mem := m, fenced := fc, drawAns := l, draws := n, irqHeld := q
        dev := { (withTimers a b x).dev with rdh := r, icr := c, rxRemaining := e } } →
      Machine.initEnded z = { Machine.initEnded x with
        mem := m, fenced := fc, drawAns := l, draws := n, irqHeld := (Machine.initEnded z).irqHeld
        dev := { (Machine.initEnded x).dev with rdh := r, icr := c, rxRemaining := e } } := by
    intro m fc l n q r c e hz
    rw [hz]
    rfl
  have hz := key _ _ _ _ _ _ _ _ h.state
  rw [hheld] at hz
  rw [show ((Machine.initEnded x).irqHeld || (!false && true)) = true by simp]
  exact hz

/-! ### INIT to its end -/

/-- The slots INIT's end has ready were ready before its last writes. -/
theorem RxSlotsReady.beforeEnd {x : State} {k : Nat} (h : RxSlotsReady (initEnded x) k) (a b : Word) :
    RxSlotsReady (withTimers a b x) k :=
  ⟨⟨h.ring.base, h.ring.length⟩, h.free, h.seen, h.record, h.owned, h.inside, h.offRing, h.offTx, h.apart⟩

section

variable {s : State} {rb tb xb : Addr} {bs : List Addr} {rest : List (Option Addr)} {later : List (List DevEvent)}
  {f : List Byte}

/-- A frame that fits the ring before INIT's last writes fills one slot for each chunk. -/
theorem AfterInit.earlyFrame {x : State} (h : AfterInit s rb tb xb bs rest (initEnded x))
    (hi : InitIssued s tb xb bs rest later) (hv : s.cfg.rxInitView = .written) (hc : bs.length = s.cfg.nRx)
    (hoff : BufsOffRx (initEnded x)) (he : rxEnabled x.dev = true) (hp : x.dev.resetPending = false)
    (ha : f.take 6 = s.cfg.localMac.bytes ∨ f.take 6 = Mac.broadcast.bytes) (h14 : 14 ≤ f.length)
    (hfit : f.length ≤ (s.cfg.nRx - 1) * s.cfg.rxBufSize) (a b : Word) :
    ∃ z, devRxFrameOp f (withTimers a b x) = .ok ((), z) ∧
      RxFilled (withTimers a b x) f (f.length ⌈/⌉ s.cfg.rxBufSize) z := by
  have hcfg : (withTimers a b x).cfg = s.cfg := h.cfg
  have hbase : (withTimers a b x).rxRingBase = xb := congrArg State.rxRingBase h.state
  obtain ⟨-, -, -, hrdh, hrdt⟩ := h.registers.rxRing
  have hhead : (withTimers a b x).dev.rdh.toNat = 0 := congrArg BitVec.toNat hrdh
  have htail : (withTimers a b x).dev.rdt.toNat = s.cfg.nRx - 1 := hrdt
  have hnRx := hi.sizes.rx
  have hchunks : f.length ⌈/⌉ s.cfg.rxBufSize ≤ s.cfg.nRx - 1 := (chunks_le_iff hi.sizes.rxBuf.1).2 hfit
  have hready := (h.slotsReady hv hi.rings hi.fresh hc hoff
    (k := f.length ⌈/⌉ s.cfg.rxBufSize) (by omega)).beforeEnd a b
  rw [← hcfg] at hready ha ⊢
  refine devRxFrameOp_fills (by rw [hcfg]; exact hi.sizes) hp he ha h14 ?_ ?_ ?_ hready
  · rw [hhead, hcfg]
    omega
  · rw [htail, hcfg]
    omega
  · rw [hbase, hcfg]
    exact hi.rings.rx

/-- INIT issued with a device that resets at one of the polls, and no event after that. -/
theorem InitIssued.runs (h : InitIssued s tb xb bs rest []) (rb : Addr)
    (hal : s.cfg.nTx * 16 % s.cfg.ringAlign = 0) (hal' : s.cfg.nRx * 16 % s.cfg.ringAlign = 0)
    (hc : bs.length = s.cfg.nRx) :
    ∃ t, Machine.exec (.init rb tb xb) s = .next t ∧ AfterInit s rb tb xb bs rest t := by
  obtain ⟨v, k, l, n, he⟩ := h.exec rb
  obtain ⟨t, ht, hafter⟩ := initFinish_ok (h.ready rb (resetStarted v s.dev) k l n) hal hal' hc
  exact ⟨t, he.trans (congrArg outcomeOf ht), hafter.of_resetState⟩

/-- INIT issued, and a frame before the write of RDTR, of RADV or of IMS. -/
theorem InitIssued.runs_with_frame {j : Nat}
    (h : InitIssued s tb xb bs rest (List.replicate (initAccesses s.cfg + j) [] ++ [[.rxFrame f]])) (rb : Addr)
    (hj : j < 3) (hv : s.cfg.rxInitView = .written)
    (hoff : ∀ r ∈ s.bufs, overlaps r.base.toNat s.cfg.bufSize xb.toNat (s.cfg.nRx * 16) = false)
    (hal : s.cfg.nTx * 16 % s.cfg.ringAlign = 0) (hal' : s.cfg.nRx * 16 % s.cfg.ringAlign = 0)
    (hc : bs.length = s.cfg.nRx) (ha : f.take 6 = s.cfg.localMac.bytes ∨ f.take 6 = Mac.broadcast.bytes)
    (h14 : 14 ≤ f.length) (h64k : f.length ≤ 65535) (hfit : f.length ≤ (s.cfg.nRx - 1) * s.cfg.rxBufSize) :
    ∃ w t, AfterInit s rb tb xb bs rest w ∧ Machine.exec (.init rb tb xb) s = .next t ∧
      RxFilled w f (f.length ⌈/⌉ s.cfg.rxBufSize) t ∧ irqLine t.dev = true ∧ t.irqHeld = true := by
  obtain ⟨v, k, l, n, he⟩ := h.exec rb
  obtain ⟨x, w, hxs, hicr, hims, hen, hp, hw, hafter, hinit, hlate⟩ :=
    initFinish_late (h.ready rb (resetStarted v s.dev) k l n) hal hal' hc
  have hend : w = initEnded x := by
    rw [hw, initEnded, setDev_noCause (by exact hicr)]
  have hbufs : BufsOffRx w := initFinish_bufsOffRx hinit fun r hr => ⟨nofun, hoff r hr⟩
  have hissued : AfterInit s rb tb xb bs rest w := hafter.of_resetState
  rw [hend] at hbufs hissued
  obtain ⟨a, b, z, hfill, hlast⟩ := initLast_frame hxs hims h14 h64k hj
    (hissued.earlyFrame h hv hc hbufs hen hp ha h14 hfit)
  have hpos : 0 < f.length ⌈/⌉ s.cfg.rxBufSize :=
    not_le.1 ((chunks_le_iff h.sizes.rxBuf.1).not.2 (by omega))
  obtain ⟨hfilled, hline, hheld⟩ := hfill.initEnded hpos hicr hims
  refine ⟨initEnded x, initEnded z, hissued, ?_, hfilled, hline, hheld⟩
  rw [he, List.replicate_add, List.append_assoc]
  exact congrArg outcomeOf ((hlate _).trans hlast)

end

/-- Settles O54: S1 to S3 lead to S4 in a state whose device has been reset, from which S4 to S17 run to their end; a frame
before one of the last three writes finds the ring ready and the interrupt masked. -/
theorem initRuns : Obligations.InitRuns :=
  ⟨fun _ rb _ _ _ _ h hal hal' hc => h.runs rb hal hal' hc,
    fun _ rb _ _ _ _ _ _ h hj hv hoff hal hal' hc ha h14 h64k hfit =>
      h.runs_with_frame rb hj hv (fun r hr => (hoff r hr).2) hal hal' hc ha h14 h64k hfit⟩

end Sys2Proof.Machine

/-! The transmit path (spec/41_transmit.md R250 to R262): what each operation leaves of the transmit ring, under every
interleaving and alone (O28), the wrap state (O29), TX_SUBMIT (O25, O26) and DEV_TX_STEP (O27). -/

namespace Sys2Proof.Machine

/-! ### An operation that goes on has returned -/

/-- Every operation but INIT ends without returning only in failure. -/
theorem bodyOf_ends {i : Instr} {s t : State} (hi : i.opcode ≠ .init) (h : bodyOf i s = .error (.ended t)) :
    Failed t := by
  cases i with
  | init => exact absurd rfl hi
  | irq =>
    rw [bodyOf, fromOutside_apply] at h
    split_ifs at h
    · exact irqOp_ends h
    all_goals cases h
  | _ => exact (restores_bodyOf (by simp [Instr.opcode]) s).2 t h

theorem exec_returns {i : Instr} {s t : State} (hi : i.opcode ≠ .init) (h : exec i s = .next t) (ht : Running t) :
    bodyOf i s = .ok ((), t) := by
  obtain ⟨-, -, hok | hended⟩ := exec_next h
  · exact hok
  · rcases bodyOf_ends hi hended with hf | hf
    · exact absurd ht.1 hf
    · exact absurd ht.2 hf

/-! ### The rings under each operation, whatever device events fall between its accesses -/

section

variable {m : M Unit} {p : SwSeq → Bool}

theorem KeepsRings.fromOutside (h : KeepsRings m) : KeepsRings (Machine.fromOutside m) :=
  .bind .get fun _ => .bind (.require _ _) fun _ => .bind (.require _ _) fun _ => h

theorem KeepsRings.internally (h : KeepsRings m) : KeepsRings (Machine.internally p m) :=
  .bind .get fun _ => .bind (.require _ _) fun _ => h

theorem SubmitsRings.fromOutside (h : SubmitsRings m) : SubmitsRings (Machine.fromOutside m) :=
  .after .get fun _ => .after (.require _ _) fun _ => .after (.require _ _) fun _ => h

theorem RepliesRings.internally (h : RepliesRings m) : RepliesRings (Machine.internally p m) :=
  .bind (KeepsRings.replies .get) fun _ => .bind (KeepsRings.replies (.require _ _)) fun _ => h

end

theorem keepsRings_devRxFrame (f : List Byte) : KeepsRings (devRxFrameOp f) :=
  .bind .get fun _ => .bind (.require _ _) fun _ => .ite (.emit _) (.ite (.emit _) (keepsRings_rxLoop _ _))

theorem keepsRings_devTxStep : KeepsRings devTxStepOp := fun _ _ _ _ _ _ _ hs h => hs.txStep h

/-- The operations that publish no transmit slot and hand over no receive slot. -/
theorem keepsRings_bodyOf {i : Instr}
    (hi : i.opcode ∈ [.ipRx, .udpPayload, .cksum, .regRead, .devTxStep, .devRxFrame]) : KeepsRings (bodyOf i) := by
  cases i with
  | ipRx b l => rw [bodyOf]; exact .internally (keepsRings_ipRx b l)
  | udpPayload b l n => exact .fromOutside (.bind (keepsRings_udpPayload b n) fun _ => .answer _)
  | cksum src =>
    refine .bind .get fun _ => .bind (.require _ _) fun _ => ?_
    cases src with
    | data bs => exact .answer _
    | mem a n => exact .bind (keepsRings_cksumMem _ _) fun _ => .answer _
  | regRead n => exact .fromOutside (.bind (keepsRings_regRead n) fun _ => .answer _)
  | devTxStep => exact keepsRings_devTxStep
  | devRxFrame f => exact keepsRings_devRxFrame f
  | _ => simp [Instr.opcode] at hi

/-- The operations that publish at most one transmit slot. -/
theorem submitsRings_bodyOf {i : Instr} (hi : i.opcode ∈ [.txSubmit, .udpTx]) : SubmitsRings (bodyOf i) := by
  cases i with
  | txSubmit b l => exact .fromOutside (.before (txSubmit_rings .caller b l) fun _ => .answer _)
  | udpTx sp ip dp pl => exact .fromOutside (.before (udpTx_rings sp ip dp pl) fun _ => .answer _)
  | _ => simp [Instr.opcode] at hi

/-- The operations that publish at most the one ARP reply, and hand over no receive slot. -/
theorem repliesRings_bodyOf {i : Instr} (hi : i.opcode ∈ [.arpRx, .classify]) : RepliesRings (bodyOf i) := by
  cases i with
  | arpRx b l => rw [bodyOf]; exact .internally (arpRx_rings b l)
  | classify b l => rw [bodyOf]; exact .internally (classify_rings b l)
  | _ => simp [Instr.opcode] at hi

/-- Room for what an operation may publish: TX_SUBMIT and UDP_TX a slot, ARP_RX and what calls it the one reply. -/
structure RoomFor (i : Instr) (s : State) : Prop where
  submits : i.opcode ∈ [.txSubmit, .udpTx] → TxRoom s
  replies : i.opcode ∈ [.arpRx, .classify, .rxDrain, .irq] → s.arpSeen = false → TxRoom s

/-- What an operation that returns leaves of the rings; where nothing is asked of the transmit ring (`a` false), it needs
no room. -/
theorem bodyOf_rings {i : Instr} {a b : Bool} {s t : State} (hi : i.opcode ∉ [.init, .regWrite, .devReset])
    (hs : RingsMid a false b false s) (hroom : a = true → RoomFor i s) (h : bodyOf i s = .ok ((), t)) :
    RingsMid a false b false t ∧ (TxDead s → TxDead t) := by
  cases i with
  | init | regWrite | devReset => simp [Instr.opcode] at hi
  | txSubmit | udpTx =>
    obtain ⟨ht, hkept⟩ := submitsRings_bodyOf (by simp [Instr.opcode]) a b false s () t hs
      (fun ha => (hroom ha).submits (by simp [Instr.opcode])) h
    exact ⟨ht, hkept.dead⟩
  | arpRx | classify =>
    obtain ⟨ht, hkept, -⟩ := repliesRings_bodyOf (by simp [Instr.opcode]) a b false s () t hs
      (fun ha => (hroom ha).replies (by simp [Instr.opcode])) h
    exact ⟨ht, hkept.dead⟩
  | rxDrain =>
    rw [bodyOf, internally_apply] at h
    split_ifs at h
    exact rxDrain_rings hs (fun ha => (hroom ha).replies (by simp [Instr.opcode])) h
  | irq =>
    rw [bodyOf, fromOutside_apply] at h
    split_ifs at h
    exact irq_rings hs (fun ha => (hroom ha).replies (by simp [Instr.opcode])) h
  | ipRx | udpPayload | cksum | regRead | devTxStep | devRxFrame =>
    obtain ⟨ht, hkept⟩ := keepsRings_bodyOf (by simp [Instr.opcode]) a false b false s () t hs h
    exact ⟨ht, hkept.dead⟩

/-- The guards of both rings, and the wrap state with IDLE, under every operation, with room or not. -/
theorem exec_keeps_guarded {i : Instr} {s t : State} (hi : i.opcode ∉ [.init, .regWrite, .devReset])
    (hs : RingsGuarded s) (h : exec i s = .next t) (ht : Running t) : RingsGuarded t ∧ (TxDead s → TxDead t) := by
  have hinit : i.opcode ≠ .init := fun e => hi (by simp [e])
  obtain ⟨hmid, hdead⟩ := bodyOf_rings (a := false) (b := false) hi ⟨hs, nofun, nofun⟩ nofun
    (exec_returns hinit h ht)
  exact ⟨hmid.guard, hdead⟩

/-- The transmit ring's invariant under every operation that has the room it needs. -/
theorem exec_keeps_txRingInv {i : Instr} {s t : State} (hi : i.opcode ∉ [.init, .regWrite, .devReset])
    (hs : RingsGuarded s) (hinv : TxRingInv s) (hroom : RoomFor i s) (h : exec i s = .next t) (ht : Running t) :
    RingsGuarded t ∧ TxRingInv t := by
  have hinit : i.opcode ≠ .init := fun e => hi (by simp [e])
  obtain ⟨hmid, -⟩ := bodyOf_rings (a := true) (b := false) hi ⟨hs, fun _ => (txRingInv_iff hs).1 hinv, nofun⟩
    (fun _ => hroom) (exec_returns hinit h ht)
  exact ⟨hmid.guard, (txRingInv_iff hmid.guard).2 (hmid.tx rfl)⟩

/-! ### Owner records are not taken back (R46) -/

theorem Micro.txOwner_ne_none {k : Kind} {s t : State} (h : Micro k s t) (hk : k ≠ .txNone) {n : Nat}
    (hs : s.txOwner[n]? ≠ some none) : t.txOwner[n]? ≠ some none := by
  cases h with
  | txNone => exact absurd rfl hk
  | txOwner i b =>
    simp only [List.getElem?_set]
    split_ifs
    · nofun
    · nofun
    · exact hs
  | _ => exact hs

theorem opcode_of_txNone_mem {i : Instr} (h : Kind.txNone ∈ kindsOf i) : i.opcode = .init := by
  revert h
  cases i <;> simp only [kindsOf, Instr.opcode] <;> decide

theorem exec_keeps_txOwner_ne_none {i : Instr} {s t : State} {n : Nat} (hi : i.opcode ≠ .init)
    (h : exec i s = .next t) : s.txOwner[n]? ≠ some none → t.txOwner[n]? ≠ some none :=
  (exec_trace h).keeps (·.txOwner[n]? ≠ some none) fun _ hk _ _ hm =>
    hm.txOwner_ne_none fun e => hi (opcode_of_txNone_mem (e ▸ hk))

/-! ### A submission alone -/

theorem RingsInside.txdAddr_le {s : State} (h : RingsInside s) {i : Nat} (hi : i < s.cfg.nTx) :
    txdAddr s i + 16 ≤ addrSpace := by
  obtain ⟨htx, -⟩ := h
  simp only [txdAddr, descSize] at *
  omega

/-- A ring whose length its length register holds. -/
theorem txRing_bytes_lt {s : State} (h : s.dev.tdlen.toNat = s.cfg.nTx * 16) : s.cfg.nTx * 16 < 2 ^ 32 :=
  h ▸ s.dev.tdlen.isLt

/-- Outside the wrap state the slot at the tail is software's. -/
theorem TxRingInv.tail_mine {s : State} (h : TxRingInv s) : devOwnsTx s s.dev.tdt.toNat = false := by
  simp [devOwnsTx, h.count]

/-- What the transmit path may release is recorded as its own and carried by no outstanding slot (R112). -/
theorem releaseFault_txPath_none {s : State} {b : Addr} (h : releaseFault s .txPath b = none) :
    ownerOf s b = .txPath ∧ txHolds s b = false := by
  unfold releaseFault at h
  split_ifs at h with hdev howner
  refine ⟨howner, ?_⟩
  by_contra hc
  exact hdev (.inr ⟨howner, by simpa using hc⟩)

section

variable {s : State} {who : Owner} {buf : Addr} {len : Half}

/-- TX_SUBMIT of the owner's buffer, with a length it may have, is T1 to T5 under the lock. -/
theorem txSubmitOp_apply (ho : ownerOf s buf = who) (h1 : 1 ≤ len.toNat) (h2 : len.toNat ≤ s.cfg.bufSize) :
    txSubmitOp who buf len s = withLock .tx (submitBody buf len) s := by
  simp [txSubmitOp, ho, h1, h2]

/-- TX_SUBMIT of a buffer that is not its caller's does not return. -/
theorem txSubmitOp_refused (ho : ownerOf s buf ≠ who) :
    txSubmitOp who buf len s = .error (.refused .bufferNotOwned) := by
  simp [txSubmitOp, ho]

/-- T3 stops the run where the slot's earlier buffer may not be released. -/
theorem submitBody_release_fault (hs : s.sched = []) (ht : s.dev.tdt.toNat < s.cfg.nTx) (hri : RingsInside s)
    (hdd : hasBit (txd s s.dev.tdt.toNat).status bitDD = true) {old : Addr}
    (hold : s.txOwner.getD s.dev.tdt.toNat none = some old) {f : ModelFault}
    (hf : releaseFault s .txPath old = some f) :
    submitBody buf len s = .error (.ended { s with modelFault := some f }) := by
  have hrel : releaseOld s.dev.tdt.toNat s = .error (.ended { s with modelFault := some f }) := by
    simp only [releaseOld, bind_apply, get_apply, hold, release, point_quiet hs, hf]
    rfl
  have hpoll : txdPoll s.dev.tdt.toNat s = .ok (bytesAt s (txdAddr s s.dev.tdt.toNat + offStatus) 1, s) :=
    txdPoll_quiet hs ht (by have := hri.txdAddr_le ht; simp only [offStatus]; omega)
  have hset : hasBit (byteOf (bytesAt s (txdAddr s s.dev.tdt.toNat + offStatus) 1)) bitDD ≠ false := by
    rw [txd_status] at hdd
    exact ne_of_eq_of_ne hdd (by decide)
  rw [submitBody, bind_of_ok (regRead_quiet hs (by decide) rfl), regValue, bind_of_ok hpoll, ite_apply, if_neg hset,
    bind_of_error hrel]

theorem txSubmit_release_fault (hs : s.sched = []) (hlk : Lock.tx ∉ s.locks) (ho : ownerOf s buf = who)
    (h1 : 1 ≤ len.toNat) (h2 : len.toNat ≤ s.cfg.bufSize) (ht : s.dev.tdt.toNat < s.cfg.nTx) (hri : RingsInside s)
    (hdd : hasBit (txd s s.dev.tdt.toNat).status bitDD = true) {old : Addr}
    (hold : s.txOwner.getD s.dev.tdt.toNat none = some old) {f : ModelFault}
    (hf : releaseFault s .txPath old = some f) :
    txSubmitOp who buf len s = .error (.ended { s with locks := .tx :: s.locks, modelFault := some f }) := by
  rw [txSubmitOp_apply ho h1 h2]
  exact withLock_error hlk
    (submitBody_release_fault (s := { s with locks := .tx :: s.locks }) hs ht hri hdd hold hf)

end

theorem Ready.noLock {s : State} (h : Ready s) (l : Lock) : l ∉ s.locks := by simp [h.locks]

/-- A TX_SUBMIT with no device event in it that goes on has answered `Full`, at a slot that is not done, or `Ok`. -/
theorem exec_txSubmit_cases {s t : State} {buf : Addr} {len : Half} (hr : Ready s) (hri : RingsInside s)
    (hl : s.dev.tdlen.toNat = s.cfg.nTx * 16) (htail : s.dev.tdt.toNat < s.cfg.nTx)
    (hmine : devOwnsTx s s.dev.tdt.toNat = false) (h : exec (.txSubmit buf len) s = .next t) (ht : Running t) :
    (hasBit (txd s s.dev.tdt.toNat).status bitDD = false ∧ t = answered (.code .full) s) ∨
    (hasBit (txd s s.dev.tdt.toNat).status bitDD = true ∧ t = answered (.code .ok) (submitState buf len s)) := by
  obtain ⟨-, hw, -⟩ := exec_next h
  obtain ⟨h1, h2⟩ : 1 ≤ len.toNat ∧ len.toNat ≤ s.cfg.bufSize := by
    by_contra hc
    simp [malformed, hc] at hw
  have hbody := exec_returns (by simp [Instr.opcode]) h ht
  rw [bodyOf, hr.fromOutside] at hbody
  have ho : ownerOf s buf = .caller := by
    by_contra hc
    rw [bind_of_error (txSubmitOp_refused hc)] at hbody
    cases hbody
  cases hdd : hasBit (txd s s.dev.tdt.toNat).status bitDD with
  | false =>
    rw [answer_code_ok (txSubmit_full_quiet hr.sched (hr.noLock _) ho h1 h2 htail (hri.txdAddr_le htail) hdd)] at hbody
    cases hbody
    exact .inl ⟨rfl, rfl⟩
  | true =>
    have hold : ∀ old, s.txOwner.getD s.dev.tdt.toNat none = some old →
        ownerOf s old = .txPath ∧ txHolds s old = false := by
      intro old hold
      refine releaseFault_txPath_none ?_
      by_contra hc
      obtain ⟨f, hf⟩ := Option.ne_none_iff_exists'.1 hc
      rw [bind_of_error (txSubmit_release_fault hr.sched (hr.noLock _) ho h1 h2 htail hri hdd hold hf)] at hbody
      cases hbody
    rw [answer_code_ok (txSubmit_ok_quiet hr.sched (hr.noLock _) ho h1 h2 htail (hri.txdAddr_le htail) hdd hmine hold
      (by omega) hl)] at hbody
    cases hbody
    exact .inr ⟨rfl, rfl⟩

/-- The tail after T5. -/
theorem submitState_tail {s : State} (hn : s.cfg.nTx * 16 < 2 ^ 32) (ht : s.dev.tdt.toNat < s.cfg.nTx) (buf : Addr)
    (len : Half) : (submitState buf len s).dev.tdt.toNat = (s.dev.tdt.toNat + 1) % s.cfg.nTx := by
  have hlt := succ_mod_lt ht
  show (BitVec.ofNat 32 ((s.dev.tdt.toNat + 1) % s.cfg.nTx)).toNat = _
  rw [BitVec.toNat_ofNat, Nat.mod_eq_of_lt (by omega)]

theorem submitState_tdh (s : State) (buf : Addr) (len : Half) : (submitState buf len s).dev.tdh = s.dev.tdh := rfl

theorem submitState_cfg (s : State) (buf : Addr) (len : Half) : (submitState buf len s).cfg = s.cfg :=
  (submitState_same buf len s).1

theorem submitState_txCount (s : State) (buf : Addr) (len : Half) : (submitState buf len s).dev.txCount =
    if s.cfg.wrapMode = .sendAll then min (s.dev.txCount + 1) s.cfg.nTx else s.dev.txCount := by
  show (publishedDev s.cfg s.dev.tdt.toNat s.dev).txCount = _
  unfold publishedDev writeTail
  cases s.cfg.wrapMode <;> rfl

/-- After the fence of T5 the device sees what has not changed in its slots, and all else as it is. -/
theorem DeviceSees.submitState {s : State} {a n : Nat} (buf : Addr) (len : Half)
    (h : ∀ c, a ≤ c → c < a + n → inDeviceSlot s c = true → memGet (submitState buf len s).mem c = memGet s.fenced c) :
    DeviceSees (submitState buf len s) a n := by
  intro c hac hcn
  rw [submitState_fenced, memGet_memKeep]
  split
  · next hslot => exact h c hac hcn hslot
  · rfl

theorem memGet_submitState_outside {s : State} (buf : Addr) (len : Half) {c : Nat}
    (h : c < txdAddr s s.dev.tdt.toNat ∨ txdAddr s s.dev.tdt.toNat + 16 ≤ c) :
    memGet (submitState buf len s).mem c = memGet s.mem c := by
  show memGet (fillMem _ _ _ _) c = _
  rw [memGet_fillMem, if_neg (by omega)]

/-- A submitted descriptor is not done. -/
theorem submitted_notDone (buf : Addr) (len : Half) : hasBit (submitted buf len).status bitDD = false := by
  simp [submitted, hasBit]

/-- A submission outside the wrap state, alone, keeps the transmit ring's invariant. -/
theorem TxRingInv.submitState {s : State} (h : TxRingInv s) (howner : s.txOwner.length = s.cfg.nTx)
    (hn : s.cfg.nTx * 16 < 2 ^ 32) (hroom : (s.dev.tdt.toNat + 1) % s.cfg.nTx ≠ s.dev.tdh.toNat)
    (hslot : ∀ c, txdAddr s s.dev.tdt.toNat ≤ c → c < txdAddr s s.dev.tdt.toNat + 16 → inDeviceSlot s c = false)
    (buf : Addr) (len : Half) : TxRingInv (submitState buf len s) := by
  have htail := submitState_tail hn h.tail buf len
  have hlen := cyclicLen_succ_tail h.head h.tail hroom
  have hlt := cyclicLen_lt (a := s.dev.tdh.toNat) h.tail
  have hmem {i : Nat} (hi : i < s.cfg.nTx) := cyclicMem_succ_tail h.head h.tail hi hroom
  have hfilled : (txd (Machine.submitState buf len s) s.dev.tdt.toNat) = submitted buf len := txd_submitState buf len s
  have hother {i : Nat} (hi : i ≠ s.dev.tdt.toNat) := txd_submitState_ne buf len s hi
  have htailOut : cyclicMem s.cfg.nTx s.dev.tdh.toNat s.dev.tdt.toNat s.dev.tdt.toNat = false := not_cyclicMem_tail
  have hne {i : Nat} (hm : cyclicMem s.cfg.nTx s.dev.tdh.toNat s.dev.tdt.toNat i = true) : i ≠ s.dev.tdt.toNat := by
    rintro rfl
    simp [htailOut] at hm
  constructor
  · rw [submitState_cfg, submitState_tdh]
    exact h.head
  · rw [htail, submitState_cfg]
    exact succ_mod_lt h.tail
  · have hcount := h.count
    simp only [txOutstanding, submitState_cfg, submitState_tdh, submitState_txCount, htail, hlen] at hcount ⊢
    cases hmode : s.cfg.wrapMode with
    | idle => rfl
    | sendAll =>
      simp only [hmode] at hcount ⊢
      rw [if_pos trivial, hcount]
      exact min_eq_left (by omega)
  · rw [submitState_cfg, submitState_tdh, htail]
    intro i hi
    rw [hmem hi]
    by_cases hit : i = s.dev.tdt.toNat
    · rw [hit, hfilled]
      exact iff_of_true (.inr rfl) (submitted_notDone buf len)
    · rw [hother hit, ← h.done i hi]
      simp [hit]
  · rw [submitState_cfg, submitState_tdh, htail]
    intro i hi hm
    show (s.txOwner.set s.dev.tdt.toNat (some buf))[i]? = _ ∧ _
    rcases (hmem hi).1 hm with hm | rfl
    · rw [hother (hne hm), List.getElem?_set_ne (hne hm).symm]
      exact h.owned i hi hm
    · rw [hfilled, List.getElem?_set_self (by omega)]
      exact ⟨rfl, rfl⟩
  · rw [submitState_cfg, submitState_tdh, htail]
    intro i hi hm
    rw [txdAddr_submitState]
    refine .submitState buf len fun c hic hci hin => ?_
    rcases (hmem hi).1 hm with hm | rfl
    · have := hne hm
      rw [memGet_submitState_outside, h.seen i hi hm c hic hci]
      simp only [txdAddr, descSize] at *
      omega
    · rw [hslot c hic hci] at hin
      cases hin

theorem TxRingInv.answered {s : State} (h : TxRingInv s) (r : OpResult) : TxRingInv (answered r s) :=
  ⟨h.head, h.tail, h.count, h.done, h.owned, h.seen⟩

/-! ### DEV_TX_STEP alone -/

/-- Outside the wrap state the device has work where the cursors differ alone. -/
theorem TxRingInv.head_ne_tail {s : State} (h : TxRingInv s) (he : txStepEnabled s = true) :
    s.dev.tdh.toNat ≠ s.dev.tdt.toNat := by
  intro hq
  have hcount := h.count
  simp only [txStepEnabled, Bool.and_eq_true] at he
  obtain ⟨-, hwork⟩ := he
  simp only [txOutstanding, txWork, hq, cyclicLen_self h.tail] at hcount hwork
  cases hmode : s.cfg.wrapMode with
  | idle =>
    simp only [hmode, bne_iff_ne] at hwork
    exact hwork (BitVec.eq_of_toNat_eq hq)
  | sendAll =>
    simp only [hmode] at hcount hwork
    simp [hcount] at hwork

/-- The command of every slot of the device's asks for DD. -/
theorem txDoneState_sets_dd {s : State} (frame : List Byte) (hcmd : (txd s s.dev.tdh.toNat).cmd = 0x09) :
    hasBit (txd (txDoneState frame s) s.dev.tdh.toNat).status bitDD = true := by
  rw [txd_txDoneState_head, hcmd]
  show hasBit ((txd s s.dev.tdh.toNat).status ||| bitDD) bitDD = true
  generalize (txd s s.dev.tdh.toNat).status = v
  revert v
  decide

theorem txDoneState_head {s : State} (hn : s.cfg.nTx * 16 < 2 ^ 32) (hh : s.dev.tdh.toNat < s.cfg.nTx)
    (frame : List Byte) : (txDoneState frame s).dev.tdh.toNat = (s.dev.tdh.toNat + 1) % s.cfg.nTx := by
  have hlt := succ_mod_lt hh
  show (BitVec.ofNat 32 ((s.dev.tdh.toNat + 1) % s.cfg.nTx)).toNat = _
  rw [BitVec.toNat_ofNat, Nat.mod_eq_of_lt (by omega)]

theorem txDoneState_tdt (frame : List Byte) (s : State) : (txDoneState frame s).dev.tdt = s.dev.tdt := rfl

theorem txDoneState_txCount (frame : List Byte) (s : State) : (txDoneState frame s).dev.txCount =
    if s.cfg.wrapMode = .sendAll then s.dev.txCount - 1 else s.dev.txCount := by
  show (advanceTdh s.cfg s.dev).txCount = _
  unfold advanceTdh
  cases s.cfg.wrapMode <;> rfl

/-- The slot at the head completed, the invariant holds of the slots behind it. -/
theorem TxRingInv.txDoneState {s : State} (h : TxRingInv s) (hn : s.cfg.nTx * 16 < 2 ^ 32)
    (hne : s.dev.tdh.toNat ≠ s.dev.tdt.toNat) (frame : List Byte) : TxRingInv (txDoneState frame s) := by
  obtain ⟨hcfg, -, -, -, howner, -⟩ := txDoneState_same frame s
  have hhead := txDoneState_head hn h.head frame
  have hlen := cyclicLen_succ_head h.head h.tail hne
  have hmem {i : Nat} (hi : i < s.cfg.nTx) := cyclicMem_succ_head h.head h.tail hi hne
  have hfirst := cyclicMem_head h.head h.tail hne
  have hother {i : Nat} (hi : i ≠ s.dev.tdh.toNat) := txd_txDoneState_ne frame s hi
  constructor
  · rw [hhead, hcfg]
    exact succ_mod_lt h.head
  · rw [txDoneState_tdt, hcfg]
    exact h.tail
  · have hcount := h.count
    simp only [txOutstanding, hcfg, hhead, txDoneState_tdt, txDoneState_txCount, hlen] at hcount ⊢
    cases hmode : s.cfg.wrapMode with
    | idle => rfl
    | sendAll =>
      simp only [hmode] at hcount ⊢
      rw [if_pos trivial, hcount]
  · rw [hcfg, hhead, txDoneState_tdt]
    intro i hi
    rw [hmem hi]
    by_cases hit : i = s.dev.tdh.toNat
    · rw [hit, txDoneState_sets_dd frame (h.owned _ h.head hfirst).2]
      simp
    · rw [hother hit, ← h.done i hi]
      simp [hit]
  · rw [hcfg, hhead, txDoneState_tdt, howner]
    intro i hi hm
    obtain ⟨hold, hih⟩ := (hmem hi).1 hm
    rw [hother hih]
    exact h.owned i hi hold
  · rw [hcfg, hhead, txDoneState_tdt]
    intro i hi hm
    rw [txdAddr_txDoneState]
    exact (h.seen i hi ((hmem hi).1 hm).1).txDoneState frame

theorem TxRingInv.drawn {s : State} (h : TxRingInv s) (l : List (BitVec 64)) (k : Nat) :
    TxRingInv { s with drawAns := l, draws := k } :=
  ⟨h.head, h.tail, h.count, h.done, h.owned, h.seen⟩

theorem exec_devTxStep_keeps_txRingInv {s t : State} (hri : RingsInside s) (hn : s.cfg.nTx * 16 < 2 ^ 32)
    (hreg : TxRingSet s) (hinv : TxRingInv s) (h : exec .devTxStep s = .next t) (ht : Running t) : TxRingInv t := by
  have hok : devTxStepOp s = .ok ((), t) := exec_returns (by simp [Instr.opcode]) h ht
  obtain ⟨he, -⟩ := devTxStepOp_stepped hreg hok
  have hne := hinv.head_ne_tail he
  have hsee := hinv.seen _ hinv.head (cyclicMem_head hinv.head hinv.tail hne)
  obtain ⟨-, ⟨frame, l, k, rfl⟩ | rfl⟩ := devTxStepOp_cases hreg hsee (hri.txdAddr_le hinv.head) (.inl hok)
  · exact (hinv.drawn l k).txDoneState hn hne frame
  · exact absurd ht.2 (by simp)

/-- Settles O28: under every interleaving the rings are kept piece by piece (`bodyOf_rings`); a submission and a
DEV_TX_STEP alone move one cursor by one slot. -/
theorem txRingInvKept : Obligations.TxRingInvKept := by
  refine ⟨fun i s t hi hs hinv hsub hrep h ht => exec_keeps_txRingInv hi hs hinv ⟨hsub, hrep⟩ h ht, ?_,
    fun s t hri hn hreg hinv h ht => exec_devTxStep_keeps_txRingInv hri hn hreg hinv h ht,
    fun i s t n hi h => exec_keeps_txOwner_ne_none hi h⟩
  intro s t buf len hr hri howners hl hinv hroom hslot h ht
  rcases exec_txSubmit_cases hr hri hl hinv.tail hinv.tail_mine h ht with ⟨-, rfl⟩ | ⟨-, rfl⟩
  · exact hinv.answered _
  · exact (hinv.submitState howners.1 (txRing_bytes_lt hl) hroom hslot buf len).answered _

/-! ### TX_SUBMIT on a full ring (R252) -/

/-- TX_SUBMIT from outside, from what its body does. -/
theorem Ready.exec_txSubmit {s : State} (hr : Ready s) {buf : Addr} {len : Half} (h1 : 1 ≤ len.toNat)
    (h2 : len.toNat ≤ s.cfg.bufSize) :
    exec (.txSubmit buf len) s =
      outcomeOf ((txSubmitOp .caller buf len >>= fun r => answer (.code r)) s) := by
  rw [exec_of_body hr.running (by simp only [malformed, if_pos (And.intro h1 h2)]), bodyOf, hr.fromOutside]

/-- TX_SUBMIT at a slot that is not done changes nothing but the answers. -/
theorem Ready.exec_txSubmit_full {s : State} {buf : Addr} {len : Half} (hr : Ready s) (hri : RingsInside s)
    (ht : s.dev.tdt.toNat < s.cfg.nTx) (ho : ownerOf s buf = .caller) (h1 : 1 ≤ len.toNat)
    (h2 : len.toNat ≤ s.cfg.bufSize) (hdd : hasBit (txd s s.dev.tdt.toNat).status bitDD = false) :
    exec (.txSubmit buf len) s = .next { s with results := s.results ++ [.code .full] } := by
  rw [hr.exec_txSubmit h1 h2, answer_code_ok
    (txSubmit_full_quiet hr.sched (hr.noLock _) ho h1 h2 ht (hri.txdAddr_le ht) hdd)]
  rfl

/-- Settles O26: a poll that finds DD clear ends TX_SUBMIT with `Full` before it writes anything. -/
theorem txSubmitFull : Obligations.TxSubmitFull :=
  fun _ _ _ hr hri ht ho h1 h2 hdd => hr.exec_txSubmit_full hri ht ho h1 h2 hdd

/-! ### TX_SUBMIT into a done slot (R250, R251, R254) -/

theorem publishedDev_eq (p : Params) (i : Nat) (d : DevRegs) : publishedDev p i d = { d with
    tdt := BitVec.ofNat 32 ((i + 1) % p.nTx)
    txCount := if p.wrapMode = .sendAll then min (d.txCount + 1) p.nTx else d.txCount } := by
  unfold publishedDev writeTail
  cases p.wrapMode <;> rfl

/-- All that a submission changes. -/
theorem submitState_eq (buf : Addr) (len : Half) (s : State) : submitState buf len s = { s with
    mem := (submitState buf len s).mem, fenced := (submitState buf len s).fenced
    bufs := (submitState buf len s).bufs
    txOwner := s.txOwner.set s.dev.tdt.toNat (some buf)
    dev := { s.dev with
      tdt := BitVec.ofNat 32 ((s.dev.tdt.toNat + 1) % s.cfg.nTx)
      txCount := if s.cfg.wrapMode = .sendAll then min (s.dev.txCount + 1) s.cfg.nTx else s.dev.txCount }
    events := s.events ++ (s.txOwner.getD s.dev.tdt.toNat none).toList.map Event.released } := by
  rw [← publishedDev_eq]
  unfold submitState releaseOldState
  cases s.txOwner.getD s.dev.tdt.toNat none with
  | none => simp [setOwner]
  | some old => rfl

theorem txHolds_iff (s : State) (b : Addr) :
    txHolds s b = true ↔ ∃ i, devOwnsTx s i = true ∧ s.txOwner[i]? = some (some b) := by
  simp only [txHolds, List.any_eq_true, List.mem_range, Bool.and_eq_true, beq_iff_eq]
  refine exists_congr fun i => ⟨And.right, fun h => ⟨?_, h⟩⟩
  have howns := h.1
  simp only [devOwnsTx, Bool.and_eq_true, decide_eq_true_eq] at howns
  exact howns.1

/-- TX_SUBMIT that stops the run. -/
theorem Ready.exec_txSubmit_fault {s : State} {buf : Addr} {len : Half} {f : ModelFault} (hr : Ready s)
    (h1 : 1 ≤ len.toNat) (h2 : len.toNat ≤ s.cfg.bufSize)
    (h : txSubmitOp .caller buf len s = .error (.ended { s with locks := .tx :: s.locks, modelFault := some f })) :
    exec (.txSubmit buf len) s = .next { s with locks := [.tx], modelFault := some f } := by
  rw [hr.exec_txSubmit h1 h2, bind_of_error h, hr.locks]
  rfl

/-! ### TX_SUBMIT past the ring's end (log 43) -/

/-- Of buffers apart, one record alone holds an address. -/
theorem BufsApart.eq_of_holds {s : State} (h : BufsApart s) {r q : Buf} {a : Nat} (hr : r ∈ s.bufs) (hq : q ∈ s.bufs)
    (hra : r.base.toNat ≤ a ∧ a < r.base.toNat + s.cfg.bufSize)
    (hqa : q.base.toNat ≤ a ∧ a < q.base.toNat + s.cfg.bufSize) : r = q := by
  have : Std.Symm fun r q : Buf => overlaps r.base.toNat s.cfg.bufSize q.base.toNat s.cfg.bufSize = false :=
    ⟨fun _ _ hxy => (overlaps_eq_false _ _ _ _).2 ((overlaps_eq_false _ _ _ _).1 hxy).symm⟩
  by_contra hne
  have := overlaps_false (h.apart.forall hr hq hne)
  omega

/-- The record that holds an address is the one found for it. -/
theorem BufsApart.bufAt {s : State} (h : BufsApart s) {r : Buf} {a : Nat} (hr : r ∈ s.bufs)
    (ha : r.base.toNat ≤ a ∧ a < r.base.toNat + s.cfg.bufSize) : bufAt s a = some r := by
  obtain ⟨q, hq⟩ : ∃ q, Machine.bufAt s a = some q := by
    refine Option.isSome_iff_exists.1 (List.find?_isSome.2 ⟨r, hr, ?_⟩)
    simpa using ha
  have hqa : q.base.toNat ≤ a ∧ a < q.base.toNat + s.cfg.bufSize := by simpa using List.find?_some hq
  rw [hq, h.eq_of_holds hr (List.mem_of_find?_eq_some hq) ha hqa]

/-- Past the ring's end, a byte in a transmit buffer that an outstanding slot carries is not software's (R24, R25). -/
theorem txSlotFault_carried {s : State} (hap : BufsApart s) {i off : Nat} (hi : s.cfg.nTx ≤ i) {r : Buf}
    (hr : r ∈ s.bufs) (ho : r.owner = .txPath) (hc : txHolds s r.base = true)
    (ha : r.base.toNat ≤ txdAddr s i + off ∧ txdAddr s i + off < r.base.toNat + s.cfg.bufSize) :
    txSlotFault s i off 1 = some .ownershipViolation := by
  rw [txSlotFault, if_neg (by omega), foreignFault, if_neg (by decide)]
  split_ifs with hslot
  · rfl
  split
  · next q hq =>
    have hover := List.find?_some hq
    simp only [Bool.and_eq_true] at hover
    have hqa := overlaps_true hover.1
    have hrq : r = q := hap.eq_of_holds hr (List.mem_of_find?_eq_some hq) ha (by omega)
    rw [← hrq, max_eq_left ha.1, accessFault, hap.bufAt hr ha]
    simp only [ho]
  · next hnone =>
    have hout := List.find?_eq_none.1 hnone r hr
    simp [ho, hc, overlaps] at hout
    omega

/-- TX_SUBMIT's poll stops the run where it may not read. -/
theorem submitBody_poll_fault {s : State} {buf : Addr} {len : Half} {f : ModelFault} (hs : s.sched = [])
    (hf : txSlotFault s s.dev.tdt.toNat offStatus 1 = some f) :
    submitBody buf len s = .error (.ended { s with modelFault := some f }) := by
  have hpoll : txdPoll s.dev.tdt.toNat s = .error (.ended { s with modelFault := some f }) := by
    rw [txdPoll, bind_of_ok (point_quiet hs), bind_of_ok (get_apply s), hf]
    rfl
  rw [submitBody, bind_of_ok (regRead_quiet hs (by decide) rfl), regValue, bind_of_error hpoll]

/-- Settles O25: T1 to T5 evaluated (`submitState`), and the two accesses at which a buffer the device holds stops
them. -/
theorem txSubmitOk : Obligations.TxSubmitOk := by
  refine ⟨?_, ?_, ?_⟩
  · intro s buf len hr hri ht hl ho h1 h2 hdd hmine hold
    have hok := txSubmit_ok_quiet hr.sched (hr.noLock _) ho h1 h2 ht (hri.txdAddr_le ht) hdd hmine hold (by omega) hl
    have howner := ownerOf_submitState (buf := buf) (len := len) (by rw [ho]; decide) fun old h => (hold old h).1
    have hslot := txd_submitState buf len s
    have hsame := byteAt_submitState_outside buf len s
    have hseen : FenceSeen s (submitState buf len s) 0 0 := .of_memKeep (submitState_fenced buf len s) fun _ _ => rfl
    have heq := submitState_eq buf len s
    generalize submitState buf len s = u at *
    refine ⟨answered (.code .ok) u, ?_, hslot, hsame, (howner buf).trans (if_pos rfl),
      fun x hx => (howner x).trans (if_neg hx), fun h => ?_, hseen, ?_⟩
    · rw [hr.exec_txSubmit h1 h2, answer_code_ok hok, outcomeOf_ok]
    · have := (hold buf h).1
      rw [ho] at this
      cases this
    · exact congrArg (answered (.code .ok)) heq
  · intro s buf old len hr hri ht ho h1 h2 hdd hold howner hcarried
    exact hr.exec_txSubmit_fault h1 h2 (txSubmit_release_fault hr.sched (hr.noLock _) ho h1 h2 ht hri hdd hold
      (releaseFault_txHolds howner ((txHolds_iff s old).2 hcarried)))
  · intro s buf len r a hr hap ht ho h1 h2 ha hrb hro hcarried hbase hend
    subst ha
    have hfault := txSlotFault_carried hap ht hrb hro ((txHolds_iff s r.base).2 hcarried) ⟨hbase, hend⟩
    refine hr.exec_txSubmit_fault h1 h2 ?_
    rw [txSubmitOp_apply ho h1 h2]
    exact withLock_error (hr.noLock _) (submitBody_poll_fault (s := { s with locks := .tx :: s.locks }) hr.sched hfault)

/-! ### DEV_TX_STEP (R260) -/

theorem Running.exec_devTxStep {s : State} (hr : Running s) : exec .devTxStep s = outcomeOf (devTxStepOp s) :=
  exec_of_body hr rfl

theorem devTxStepOp_disabled {s : State} (he : txStepEnabled s = false) :
    devTxStepOp s = .error (.refused .eventNotEnabled) := by
  rw [devTxStepOp, bind_of_ok (get_apply s), bind_of_error (by rw [he, require_of_false])]

/-- A descriptor that is not the device's, wherever the ring base registers put it, stops the run. -/
theorem devTxStepOp_foreignDescriptor {s : State} (he : txStepEnabled s = true)
    (h : ¬ DeviceMayTouch s (devTxdAddr s.dev s.dev.tdh.toNat) 16) :
    devTxStepOp s = .error (.ended { s with modelFault := some .ownershipViolation }) := by
  have htouch : touchesSoftware s (devTxdAddr s.dev s.dev.tdh.toNat) descSize = true := by
    by_contra hc
    exact h ((touchesSoftware_iff _ _).1 (by simpa using hc))
  rw [devTxStepOp, bind_of_ok (get_apply s), bind_of_ok (by rw [he, require_of_true]),
    bind_of_error (by rw [takeDescriptor_apply, if_pos htouch])]

/-- A frame that is not the device's to read stops the run. -/
theorem devTxStepOp_foreignFrame {s : State} (he : txStepEnabled s = true) (hreg : TxRingSet s)
    (hsee : DeviceSees s (txdAddr s s.dev.tdh.toNat) 16)
    (hmay : touchesSoftware s (txdAddr s s.dev.tdh.toNat) descSize = false)
    (hf : txdAddr s s.dev.tdh.toNat + 16 ≤ addrSpace)
    (h1 : hasBit (txd s s.dev.tdh.toNat).cmd bitTxEop = true)
    (h2 : hasBit (txd s s.dev.tdh.toNat).cmd bitDext = false)
    (h : ¬ DeviceReads s (txd s s.dev.tdh.toNat).addr.toNat (txd s s.dev.tdh.toNat).length.toNat) :
    devTxStepOp s = .error (.ended { s with modelFault := some .ownershipViolation }) := by
  have hreads := mt (devReads_iff s _ _).1 h
  rw [devTxStepOp_read he hreg hsee hmay hf, bind_of_ok (by rw [h1, h2]; rfl), ite_apply, if_neg hreads,
    raiseModelFault_apply]

theorem advanceTdh_eq (p : Params) (d : DevRegs) : advanceTdh p d = { d with
    tdh := BitVec.ofNat 32 ((d.tdh.toNat + 1) % p.nTx)
    txCount := if p.wrapMode = .sendAll then d.txCount - 1 else d.txCount } := by
  unfold advanceTdh
  cases p.wrapMode <;> rfl

/-- All that DEV_TX_STEP changes. -/
theorem txDoneState_eq (frame : List Byte) (s : State) : txDoneState frame s = { s with
    mem := (txDoneState frame s).mem, fenced := (txDoneState frame s).fenced
    dev := { s.dev with
      tdh := BitVec.ofNat 32 ((s.dev.tdh.toNat + 1) % s.cfg.nTx)
      txCount := if s.cfg.wrapMode = .sendAll then s.dev.txCount - 1 else s.dev.txCount }
    events := s.events ++ [.wireTx frame] } := by
  rw [← advanceTdh_eq]
  unfold txDoneState
  split <;> rfl

/-! ### What the device reads (R106, R107, R113) -/

/-- A byte written since the last FENCE is read as the next free value says. -/
theorem dmaReadByte_drawn {c : Nat} {s : State} (h : memGet s.mem c ≠ memGet s.fenced c) (v : BitVec 64)
    (l : List (BitVec 64)) : dmaReadByte c { s with drawAns := v :: l } =
      .ok (if v.setWidth 1 = 1 then byteAt s c else byteAt (atFence s) c,
        { s with drawAns := l, draws := s.draws + 1 }) := by
  rw [dmaReadByte, bind_of_ok (get_apply _), ite_apply, if_neg h]
  rfl

/-- Either reading of a byte comes about, for some free values in front of any others. -/
theorem dmaReadByte_any {c : Nat} {s : State} {b : Byte} (h : b = byteAt s c ∨ b = byteAt (atFence s) c) :
    ∃ vs k, ∀ l, dmaReadByte c { s with drawAns := vs ++ l } = .ok (b, { s with drawAns := l, draws := k }) := by
  by_cases hseen : memGet s.mem c = memGet s.fenced c
  · have hb : b = byteAt s c := h.elim id fun e => e.trans (byteAt_congr hseen.symm rfl)
    exact ⟨[], s.draws, fun l => by rw [hb]; exact dmaReadByte_seen (s := { s with drawAns := l }) hseen⟩
  · rcases h with rfl | rfl
    · exact ⟨[1], s.draws + 1, fun l => dmaReadByte_drawn hseen 1 l⟩
    · exact ⟨[0], s.draws + 1, fun l => dmaReadByte_drawn hseen 0 l⟩

/-- Every mix of bytes as they are and as they stood before comes about, for some free values. -/
theorem dmaReadBytes_any {bs : List Byte} : ∀ {a : Nat} {s : State}, MaySee s a bs →
    ∃ l k, dmaReadBytes bs.length a { s with drawAns := l } = .ok (bs, { s with drawAns := [], draws := k }) := by
  induction bs with
  | nil => exact fun _ => ⟨[], _, rfl⟩
  | cons b bs ih =>
    intro a s h
    have hb : b = byteAt s a ∨ b = byteAt (atFence s) a := by simpa using h 0 (by simp)
    obtain ⟨vs, k, hbyte⟩ := dmaReadByte_any hb
    obtain ⟨l, k', hrest⟩ := ih (a := a + 1) (s := { s with draws := k }) fun j hj => by
      have := h (j + 1) (by simpa using hj)
      rw [List.getElem?_cons_succ, show a + (j + 1) = a + 1 + j by omega] at this
      exact this
    refine ⟨vs ++ l, k', ?_⟩
    rw [List.length_cons, dmaReadBytes, bind_of_ok (hbyte l), bind_of_ok hrest]
    rfl

theorem dmaRead_inside {a n : Nat} (h : a + n ≤ addrSpace) : dmaRead a n = dmaReadBytes n a := if_pos h

theorem dmaRead_of_deviceSees {s : State} {a n : Nat} (hf : a + n ≤ addrSpace) (h : DeviceSees s a n) :
    dmaRead a n s = .ok (bytesAt s a n, s) := by
  rw [dmaRead_seen ((seenByDevice_iff s a n).2 h), memRead_apply, if_pos hf]

/-- Settles O27: DEV_TX_STEP evaluated (`devTxStepOp_ok`), each check it stops at, and what its reads and FENCE do. -/
theorem devTxStep : Obligations.DevTxStep := by
  refine ⟨?_, ?_, ?_, ?_⟩
  · intro s hr he hh hri hreg hmay hsee h1 h2 hreads hb hframe
    have hok := devTxStepOp_ok he hreg hsee ((touchesSoftware_iff _ _).2 hmay) (hri.txdAddr_le hh) h1 h2
      ((devReads_iff _ _ _).2 hreads) hb hframe
    refine ⟨_, by rw [hr.exec_devTxStep, hok, outcomeOf_ok], ?_, fun c hc => ?_, fun a n h => h.txDoneState _,
      txDoneState_eq _ s⟩
    · rw [txd_txDoneState_head]
      rfl
    · exact byteAt_txDoneState_outside _ s (by omega)
  · intro s hr
    rw [hr.exec_devTxStep]
    refine ⟨fun he => ?_, fun he hmay => ?_, fun he hreg hf hmay hsee => ⟨fun hform => ?_, fun h1 h2 hreads => ?_⟩⟩
    · rw [devTxStepOp_disabled he, outcomeOf_refused]
    · rw [devTxStepOp_foreignDescriptor he hmay, outcomeOf_ended]
    · rw [devTxStepOp_form he hreg hsee ((touchesSoftware_iff _ _).2 hmay) hf hform, outcomeOf_refused]
    · rw [devTxStepOp_foreignFrame he hreg hsee ((touchesSoftware_iff _ _).2 hmay) hf h1 h2 hreads, outcomeOf_ended]
  · intro s a n hf
    have hdesc : descRead a n s = .ok (bytesAt (atFence s) a n, s) := by rw [descRead_apply, if_pos hf]
    refine ⟨hdesc, fun h => ⟨by rw [hdesc, h.bytesAt], dmaRead_of_deviceSees hf h⟩, ?_, ?_⟩
    · obtain ⟨bs, l, k, h, hn, hsee⟩ := dmaReadBytes_spec n a s
      exact ⟨bs, l, k, by rw [dmaRead_inside hf, h], hn, fun j hj => hsee j (by omega)⟩
    · rintro bs rfl hsee
      rw [dmaRead_inside hf]
      exact dmaReadBytes_any hsee
  · intro s hs
    exact ⟨(fenceState s).fenced, fence_quiet hs, .of_memKeep (t := fenceState s) (old := s.fenced) rfl fun _ _ => rfl,
      fun a n h => h.fenceState⟩

/-! ### The wrap case (R256, R514) -/

theorem TxDead.notEnabled {s : State} (h : TxDead s) : txStepEnabled s = false := by
  simpa using h.noWork

/-- The tail just behind the head: all slots but one are outstanding. -/
theorem cyclicLen_full {n a b : Nat} (ha : a < n) (hb : b < n) (h : (b + 1) % n = a) : cyclicLen n a b + 1 = n := by
  rw [cyclicLen_eq ha hb]
  rw [succ_mod hb] at h
  split_ifs at h ⊢ <;> omega

/-- The wrap state: the cursors meet with every DD clear, and with SEND_ALL every slot is outstanding. -/
structure TxWrapped (s : State) : Prop where
  empty : s.dev.tdt = s.dev.tdh
  clear : ∀ i < s.cfg.nTx, hasBit (txd s i).status bitDD = false
  all : s.cfg.wrapMode = .sendAll → txOutstanding s = s.cfg.nTx
  slots : 0 < s.cfg.nTx

theorem TxWrapped.dead {s : State} (h : TxWrapped s) (hm : s.cfg.wrapMode = .idle) : TxDead s :=
  ⟨hm, h.empty, h.clear⟩

/-- With SEND_ALL an enabled transmit engine has work in the wrap state. -/
theorem TxWrapped.work {s : State} (h : TxWrapped s) (hm : s.cfg.wrapMode = .sendAll) (he : txEnabled s.dev = true)
    (hp : s.dev.resetPending = false) : txStepEnabled s = true := by
  have hall := h.all hm
  simp only [txOutstanding, hm] at hall
  simp [txStepEnabled, txWork, hm, he, hp, hall, h.slots]

theorem TxWrapped.answered {s : State} (h : TxWrapped s) (r : OpResult) : TxWrapped (answered r s) :=
  ⟨h.empty, h.clear, h.all, h.slots⟩

/-- A submission that fills the last slot. -/
theorem TxRingInv.submitState_wraps {s : State} (h : TxRingInv s) (hn : s.cfg.nTx * 16 < 2 ^ 32)
    (hlast : (s.dev.tdt.toNat + 1) % s.cfg.nTx = s.dev.tdh.toNat) (buf : Addr) (len : Half) :
    TxWrapped (Machine.submitState buf len s) := by
  constructor
  · refine BitVec.eq_of_toNat_eq ?_
    rw [submitState_tail hn h.tail, hlast, submitState_tdh]
  · rw [submitState_cfg]
    intro i hi
    by_cases hit : i = s.dev.tdt.toNat
    · rw [hit, txd_submitState]
      exact submitted_notDone buf len
    · rw [txd_submitState_ne buf len s hit]
      exact (h.done i hi).1 ((cyclicMem_full h.head h.tail hi hlast).2 hit)
  · rw [submitState_cfg]
    intro hm
    have hcount := h.count
    have hfull := cyclicLen_full h.head h.tail hlast
    simp only [txOutstanding, submitState_cfg, submitState_txCount, hm, if_true] at hcount ⊢
    omega
  · rw [submitState_cfg]
    exact Nat.zero_lt_of_lt h.tail

/-- Outside the wrap state the slot at the tail is done. -/
theorem TxRingInv.tail_done {s : State} (h : TxRingInv s) : hasBit (txd s s.dev.tdt.toNat).status bitDD = true := by
  by_contra hc
  have hmem := (h.done _ h.tail).2 (by simpa using hc)
  rw [not_cyclicMem_tail] at hmem
  cases hmem

/-- Settles O29: the submission into the last slot fills the ring (`submitState_wraps`), and every piece of an operation
keeps the dead ring (`exec_keeps_guarded`). -/
theorem txWrap : Obligations.TxWrap := by
  refine ⟨?_, fun i s t hi hs hdead h ht => ?_, fun s hdead => ⟨fun hr => ?_, fun b l hr hri ht ho h1 h2 => ?_⟩⟩
  · intro s t buf len hr hri howners hl hinv hlast h ht
    have hwrap : TxWrapped t := by
      rcases exec_txSubmit_cases hr hri hl hinv.tail hinv.tail_mine h ht with ⟨hdd, -⟩ | ⟨-, rfl⟩
      · rw [hinv.tail_done] at hdd
        cases hdd
      · exact (hinv.submitState_wraps (txRing_bytes_lt hl) hlast buf len).answered _
    exact ⟨hwrap.empty, hwrap.clear, hwrap.dead, fun hm => ⟨hwrap.all hm, hwrap.work hm⟩,
      fun hg => (exec_keeps_guarded (by simp [Instr.opcode]) hg h ht).1⟩
  · obtain ⟨hg, hkept⟩ := exec_keeps_guarded hi hs h ht
    exact ⟨hg, hkept hdead⟩
  · rw [hr.exec_devTxStep, devTxStepOp_disabled hdead.notEnabled, outcomeOf_refused]
  · exact hr.exec_txSubmit_full hri ht ho h1 h2 (hdead.clear _ ht)

end Sys2Proof.Machine

/-! The receive path (spec/42_receive.md R300 to R317): no interrupt is lost (O12), what DEV_RX_FRAME fills, drops and
leaves alone (O30, O31, O32, O34), the receive ring from INIT on (O35), and the drain (O36, O37, O38). -/

namespace Sys2Proof.Machine

/-! ### No interrupt is lost (R301, R314, R315) -/

/-- While the interrupt line is 1 an edge is held: what `NoLostEdge` asks of a running block. -/
def EdgeHeld (s : State) : Prop := irqLine s.dev = true → s.irqHeld = true

theorem EdgeHeld.noLostEdge {s : State} (h : EdgeHeld s) : NoLostEdge s := fun _ _ => h

theorem NoLostEdge.edgeHeld {s : State} (h : NoLostEdge s) (hr : Running s) : EdgeHeld s := h hr.2 hr.1

theorem Failed.noLostEdge {s : State} (h : Failed s) : NoLostEdge s :=
  fun hfault hhalted => absurd h (by simp [Failed, hfault, hhalted])

theorem edgeHeld_of_low {s : State} (h : irqLine s.dev = false) : EdgeHeld s :=
  fun hline => absurd hline (by simp [h])

theorem EdgeHeld.setDev {s : State} (h : EdgeHeld s) (d : DevRegs) : EdgeHeld (setDev d s) := by
  intro hline
  change (s.irqHeld || (!irqLine s.dev && irqLine d)) = true
  have hd : irqLine d = true := hline
  cases hs : irqLine s.dev with
  | true => simp [h hs]
  | false => simp [hd]

/-- Of the updates, the interrupt entry alone takes a held edge away. -/
theorem Micro.edgeHeld {k : Kind} {s t : State} (h : Micro k s t) (hk : k ≠ .irqEntry) (hs : EdgeHeld s) :
    EdgeHeld t := by
  cases h with
  | dev d => exact hs.setDev d
  | irqEntry => exact absurd rfl hk
  | _ => exact hs

theorem Trace.edgeHeld {ks : List Kind} {s t : State} (h : Trace ks s t) (hk : Kind.irqEntry ∉ ks) (hs : EdgeHeld s) :
    EdgeHeld t :=
  h.keeps EdgeHeld (fun _ hmem _ _ hm => hm.edgeHeld fun e => hk (e ▸ hmem)) hs

theorem irqEntry_notMem_kindsOf {i : Instr} (hi : i ≠ .irq) : Kind.irqEntry ∉ kindsOf i := by
  cases i with
  | irq => exact absurd rfl hi
  | _ => simp only [kindsOf]; decide

/-- I1 clears every cause, so that the line is 0 after it (R301). -/
theorem acknowledge_low {s t : State} (h : regWrite .icr 0xFFFFFFFF s = .ok ((), t)) : irqLine t.dev = false := by
  rw [regWrite, regStore, bind_apply] at h
  split at h
  · next u _ =>
    rw [bind_of_ok (get_apply u), regWriteRefusal_interrupt u _ .icr (by decide)] at h
    cases h
    simp [writeReg, irqLine]
  · cases h

/-- I2 and the return. -/
theorem traces_irqRest : Traces drainKinds (do callFrom .irqI2 rxDrainOp; irqReturn) :=
  .bind (.callFrom (by decide) _ traces_rxDrain) fun _ => .update_one (k := .sw) (by decide) fun s => .sw _ s

/-- IRQ takes the edge at its entry, and lowers the line before the drain begins; what rises from then on is held. -/
theorem irqOp_keeps_noLostEdge {s t : State} (h : outcomeOf (irqOp s) = .next t) : NoLostEdge t := by
  rw [irqOp, bind_apply, irqEntry_apply] at h
  simp only at h
  rcases hack : regWrite .icr 0xFFFFFFFF { s with irqHeld := false, sw := .irqI1 } with e | ⟨_, u⟩
  · rw [bind_of_error hack] at h
    rcases outcomeOf_next h with h | h <;> cases h
    exact ((restores_regWrite _ _ _).2 t hack).noLostEdge
  · rw [bind_of_ok hack] at h
    have hlow : EdgeHeld u := edgeHeld_of_low (acknowledge_low hack)
    have htrace : Trace drainKinds u t := by
      rcases outcomeOf_next h with h | h
      · exact (traces_irqRest u).1 () t h
      · exact (traces_irqRest u).2 t h
    exact (htrace.edgeHeld (by decide) hlow).noLostEdge

theorem exec_keeps_noLostEdge {i : Instr} {s t : State} (hs : EdgeHeld s) (h : exec i s = .next t) :
    NoLostEdge t := by
  by_cases hi : i = .irq
  · subst hi
    obtain ⟨hr, hw, -⟩ := exec_next h
    rw [exec_of_body hr hw, bodyOf, fromOutside_apply] at h
    split_ifs at h
    · exact irqOp_keeps_noLostEdge h
    all_goals cases h
  · exact ((exec_trace h).edgeHeld (irqEntry_notMem_kindsOf hi) hs).noLostEdge

/-- Settles O12: every update but the interrupt entry keeps an edge held while the line is 1, and IRQ acknowledges
before it goes on. -/
theorem stepKeepsNoLostEdge : Obligations.StepKeepsNoLostEdge := by
  intro s t hs h
  obtain ⟨hhalted, hfault, hcases⟩ := step_cases h
  have hheld : EdgeHeld s := hs.edgeHeld ⟨hhalted, hfault⟩
  rcases hcases with ⟨-, hresume⟩ | ⟨-, c, rest, i, -, -, hexec⟩ | ⟨-, -, i, -, hexec⟩
  · exact ((resumeInit_trace hresume).edgeHeld (by decide) hheld).noLostEdge
  · exact exec_keeps_noLostEdge (s := { s with inbox := rest, sched := c.during }) hheld hexec
  · exact exec_keeps_noLostEdge (s := { s with sched := [] }) hheld hexec

/-! ### A frame and the free slots (R310, R311, R313, R317) -/

theorem accept_iff (p : Params) (f : List Byte) :
    accept p f = true ↔ f.take 6 = p.localMac.bytes ∨ f.take 6 = Mac.broadcast.bytes := by
  simp [accept]

/-- Settles O32: the filter compares with the two addresses, and stands before the loop over descriptors. -/
theorem receiveFilter : Obligations.ReceiveFilter := by
  refine ⟨accept_iff, fun s f hr hp he h14 h64k hmac hbroad => ?_⟩
  have hdrop : ¬ accept s.cfg f = true := fun ha => ((accept_iff s.cfg f).1 ha).elim hmac hbroad
  rw [exec_devRxFrame hr h14 h64k, devRxFrameOp_apply hp, if_pos he, if_neg hdrop, outcomeOf_ok]

/-- Settles O30: one turn of the loop for each chunk (`devRxFrameOp_fills`). -/
theorem rxFrameFills : Obligations.RxFrameFills := by
  intro s f k hr hsize hring hh ht hp he ha h14 h64k hk hready
  have hchunks : k = f.length ⌈/⌉ s.cfg.rxBufSize := by rw [hk, Nat.ceilDiv_eq_add_pred_div]
  subst hchunks
  obtain ⟨t, hop, hfill⟩ := devRxFrameOp_fills hsize hp he ha h14 hh ht hring.2 hready
  exact ⟨t, by rw [exec_devRxFrame hr h14 h64k, hop, outcomeOf_ok], hfill⟩

/-- The loop at an empty ring drops what is left of the frame (R317). -/
theorem rxLoop_overrun {s : State} (fuel : Nat) (rest : List Byte) (h : s.dev.rdh = s.dev.rdt) :
    rxLoop (fuel + 1) rest s = .ok ((), { setDev { s.dev with icr := s.dev.icr ||| icrRxo, rxRemaining := 0 } s with
      events := s.events ++ [.dropped .rxOverrun] }) := by
  rw [rxLoop, bind_of_ok (get_apply s), ite_apply, if_pos h]
  rfl

/-- Once the free slots are used up, the head has reached the tail. -/
theorem RxFilled.usedUp {s u : State} {f : List Byte} (hh : s.dev.rdh.toNat < s.cfg.nRx)
    (ht : s.dev.rdt.toNat < s.cfg.nRx) (h : RxFilled s f (cyclicLen s.cfg.nRx s.dev.rdh.toNat s.dev.rdt.toNat) u) :
    u.dev.rdh = u.dev.rdt := by
  have hreached : (s.dev.rdh.toNat + cyclicLen s.cfg.nRx s.dev.rdh.toNat s.dev.rdt.toNat) % s.cfg.nRx =
      s.dev.rdt.toNat :=
    (cyclicLen_eq_zero (rxSlot_lt hh _) ht).1 ((cyclicLen_advance hh ht (le_refl _)).trans (Nat.sub_self _))
  have hrdt : u.dev.rdt = s.dev.rdt := by rw [h.state]
  rw [h.rdh, hrdt, hreached]
  simp

/-- Settles O31: the loop's turns fill the free slots, and the next finds the ring empty. -/
theorem rxFrameOverrun : Obligations.RxFrameOverrun := by
  intro s f k hr hsize hring hh ht hp he ha h14 h64k hk hlong hready
  obtain ⟨u, hfill, hloop⟩ := rxLoop_turns (f := f) hsize.rxBuf.2 (by have := hsize.buf; omega) hh ht
    (by have := hsize.rx; omega) hring.2 hready (f.length + s.cfg.nRx + 1) k (le_refl _)
    (by have := cyclicLen_lt (a := s.dev.rdh.toNat) ht; omega)
    fun j hj => lt_of_le_of_lt (Nat.mul_le_mul_right _ (le_of_lt hj)) hlong
  have hempty : u.dev.rdh = u.dev.rdt := RxFilled.usedUp hh ht (hk ▸ hfill)
  have hevents : u.events = s.events := by rw [hfill.state]
  obtain ⟨fuel, hfuel⟩ : ∃ fuel, f.length + s.cfg.nRx + 1 - k = fuel + 1 :=
    ⟨f.length + s.cfg.nRx - k, by have := cyclicLen_lt (a := s.dev.rdh.toNat) ht; omega⟩
  refine ⟨u, hfill, hempty, ?_⟩
  rw [exec_devRxFrame hr h14 h64k, devRxFrameOp_accepted hp he ha, hloop, if_neg (by omega), hfuel,
    rxLoop_overrun _ _ hempty, hevents]
  rfl

/-! ### Where the device writes (R312) -/

/-- The receive engine has its ring: the registers name it, the cursors are on it, the buffers the device may hold are
off it, and the device sees the address fields of its slots. -/
structure RxEngine (s : State) : Prop where
  sizes : SizesOk s.cfg
  offRing : DeviceBufsOffRing s
  ring : RxRingSet s
  head : s.dev.rdh.toNat < s.cfg.nRx
  tail : s.dev.rdt.toNat < s.cfg.nRx
  seen : ∀ i, cyclicMem s.cfg.nRx s.dev.rdh.toNat s.dev.rdt.toNat i = true → DeviceSees s (rxdAddr s i) 8

/-- Nothing of the receive ring, its buffers and its cursors has changed. -/
structure RxQuiet (s t : State) : Prop where
  mem : t.mem = s.mem
  fenced : t.fenced = s.fenced
  bufs : t.bufs = s.bufs
  cfg : t.cfg = s.cfg
  rxRingBase : t.rxRingBase = s.rxRingBase
  rxOwner : t.rxOwner = s.rxOwner
  rdh : t.dev.rdh = s.dev.rdh
  rdt : t.dev.rdt = s.dev.rdt

/-- What a turn of the loop does to the ring: it fills the slot at RDH, which was the device's, and moves on. -/
structure RxTaken (s u : State) : Prop where
  bufs : u.bufs = s.bufs
  cfg : u.cfg = s.cfg
  phase : u.initPhase = s.initPhase
  rxRingBase : u.rxRingBase = s.rxRingBase
  rxOwner : u.rxOwner = s.rxOwner
  ringSet : RxRingSet u
  rdt : u.dev.rdt = s.dev.rdt
  rdh : u.dev.rdh.toNat = (s.dev.rdh.toNat + 1) % s.cfg.nRx
  ne : s.dev.rdh.toNat ≠ s.dev.rdt.toNat
  addr : (rxd u s.dev.rdh.toNat).addr = (rxd s s.dev.rdh.toNat).addr
  done : hasBit (rxd u s.dev.rdh.toNat).status bitDD = true
  others : ∀ i < s.cfg.nRx, i ≠ s.dev.rdh.toNat → rxd u i = rxd s i
  same : ∀ c, byteAt u c ≠ byteAt s c →
    (rxdAddr s s.dev.rdh.toNat + 8 ≤ c ∧ c < rxdAddr s s.dev.rdh.toNat + 16) ∨
      ((rxd s s.dev.rdh.toNat).addr.toNat ≤ c ∧ c < (rxd s s.dev.rdh.toNat).addr.toNat + s.cfg.rxBufSize)
  sees : ∀ a n, DeviceSees s a n → DeviceSees u a n

section

variable {s t u : State}

/-- What the device may write lies off the ring. -/
theorem DeviceBufsOffRing.owned_off (h : DeviceBufsOffRing s) {a n : Nat} (ho : ownsRange s .device a n = true) :
    overlaps a n s.rxRingBase.toNat (s.cfg.nRx * descSize) = false := by
  rw [ownsRange, List.any_eq_true] at ho
  obtain ⟨r, hr, hin⟩ := ho
  simp only [Bool.and_eq_true, decide_eq_true_eq] at hin
  obtain ⟨⟨hnow, hlow⟩, hhigh⟩ := hin
  have howner : r.owner = .rxPath ∨ r.owner = .device := by
    by_cases hrx : r.owner = .rxPath
    · exact .inl hrx
    · exact .inr ((ownerNow_of_ne hrx).symm.trans hnow)
  have hoff := overlaps_false (h r hr howner).2
  rw [overlaps_eq_false]
  omega

theorem RxTurn.taken {chunk : List Byte} {left : Nat} {last : Bool} (h : RxTurn chunk left last s u) (hs : RxEngine s)
    (hlen : chunk.length ≤ s.cfg.rxBufSize) (hne : s.dev.rdh ≠ s.dev.rdt)
    (ho : ownsRange s .device (rxd s s.dev.rdh.toNat).addr.toNat chunk.length = true) : RxTaken s u := by
  have hoff (i : Nat) (hi : i < s.cfg.nRx) :
      overlaps (rxd s s.dev.rdh.toNat).addr.toNat chunk.length (Machine.rxdAddr s i) 16 = false := by
    rw [overlaps_eq_false]
    exact (offRing_slot (hs.offRing.owned_off ho) hi).symm
  obtain ⟨haddr, -, hdd, -⟩ := h.descriptor (hoff _ hs.head)
  constructor
  · exact h.bufs
  · exact h.cfg
  · rw [h.state]; rfl
  · exact h.rxRingBase
  · exact h.rxOwner
  · exact h.ringSet hs.ring
  · exact h.rdt
  · have hrdh : u.dev.rdh = BitVec.ofNat 32 ((s.dev.rdh.toNat + 1) % s.cfg.nRx) := by rw [h.state]; rfl
    have hlt := succ_mod_lt hs.head
    have hn := hs.sizes.rx
    rw [hrdh, BitVec.toNat_ofNat, Nat.mod_eq_of_lt (by omega)]
  · exact fun e => hne (BitVec.eq_of_toNat_eq e)
  · exact haddr
  · exact hdd
  · exact fun i hi hi' => h.rxd_ne hi' (hoff i hi)
  · intro c hc
    by_contra hout
    exact hc (h.byteAt_outside (by omega) (by omega))
  · exact fun _ _ => h.sees

theorem RxTaken.rxdAddr (h : RxTaken s u) (i : Nat) : rxdAddr u i = rxdAddr s i := by
  simp [Machine.rxdAddr, h.rxRingBase]

/-- The slots the device owns after a turn: those of before, but for the one filled. -/
theorem RxTaken.owned_iff (h : RxTaken s u) (hs : RxEngine s) {i : Nat} (hi : i < s.cfg.nRx) :
    cyclicMem u.cfg.nRx u.dev.rdh.toNat u.dev.rdt.toNat i = true ↔
      cyclicMem s.cfg.nRx s.dev.rdh.toNat s.dev.rdt.toNat i = true ∧ i ≠ s.dev.rdh.toNat := by
  rw [h.cfg, h.rdh, h.rdt]
  exact cyclicMem_succ_head hs.head hs.tail hi h.ne

theorem lt_of_cyclicMem {n a b i : Nat} (h : cyclicMem n a b i = true) : i < n := by
  simp only [cyclicMem, Bool.and_eq_true, decide_eq_true_eq] at h
  exact h.1

theorem RxTaken.engine (h : RxTaken s u) (hs : RxEngine s) : RxEngine u where
  sizes := h.cfg ▸ hs.sizes
  offRing := by
    rw [DeviceBufsOffRing, h.bufs, h.cfg, h.phase, h.rxRingBase]
    exact hs.offRing
  ring := h.ringSet
  head := by
    rw [h.rdh, h.cfg]
    exact succ_mod_lt hs.head
  tail := by
    rw [h.rdt, h.cfg]
    exact hs.tail
  seen := by
    intro i hi
    have hlt : i < s.cfg.nRx := h.cfg ▸ lt_of_cyclicMem hi
    rw [h.rxdAddr]
    exact h.sees _ _ (hs.seen i ((h.owned_iff hs hlt).1 hi).1)

theorem RxQuiet.refl (s : State) : RxQuiet s s := ⟨rfl, rfl, rfl, rfl, rfl, rfl, rfl, rfl⟩

theorem RxQuiet.byteAt (h : RxQuiet s t) (c : Nat) : byteAt t c = byteAt s c :=
  byteAt_congr (by rw [h.mem]) (by rw [epochAt, epochAt, bufAt, bufAt, h.bufs, h.cfg])

theorem RxQuiet.rxd (h : RxQuiet s t) (i : Nat) : rxd t i = rxd s i :=
  rxd_congr (by rw [rxdAddr, rxdAddr, h.rxRingBase]) fun c _ _ => h.byteAt c

end

/-- A round of the loop leaves the ring as it was, or it is a turn, after which the loop goes on or is done. -/
theorem rxLoop_round {s t : State} {fuel : Nat} {rest : List Byte} (hs : RxEngine s)
    (h : rxLoop (fuel + 1) rest s = .ok ((), t) ∨ rxLoop (fuel + 1) rest s = .error (.ended t)) :
    RxQuiet s t ∨ ∃ u, RxTaken s u ∧ (t = u ∨ rxLoop fuel (rest.drop s.cfg.rxBufSize) u = .ok ((), t) ∨
      rxLoop fuel (rest.drop s.cfg.rxBufSize) u = .error (.ended t)) := by
  have hbuf := hs.sizes.buf
  have hrxBuf := hs.sizes.rxBuf
  have hsee (hne : s.dev.rdh ≠ s.dev.rdt) : DeviceSees s (rxdAddr s s.dev.rdh.toNat) 8 :=
    hs.seen _ (cyclicMem_head hs.head hs.tail fun e => hne (BitVec.eq_of_toNat_eq e))
  rcases rxLoop_cases (by omega) hs.ring hsee h with ⟨hmem, hbufs, hcfg, hbase, howner, hrdh, hrdt, hfenced⟩ |
    ⟨hne, ho, u, hturn, hend⟩
  · exact .inl ⟨hmem, hfenced, hbufs, hcfg, hbase, howner, hrdh, hrdt⟩
  · exact .inr ⟨u, hturn.taken hs (by simp) hne ho, hend⟩

/-- What holds of a quiet end, and of an end after a turn if it holds from there, holds of every end of the loop. -/
theorem rxLoop_ends {R : State → State → Prop} (hquiet : ∀ s t, RxQuiet s t → R s t)
    (hturn : ∀ s u t, RxEngine s → RxTaken s u → R u t → R s t) {fuel : Nat} :
    ∀ {rest : List Byte} {s t : State}, RxEngine s →
      (rxLoop fuel rest s = .ok ((), t) ∨ rxLoop fuel rest s = .error (.ended t)) → R s t := by
  induction fuel with
  | zero =>
    intro rest s t _ h
    rcases h with h | h <;> cases h
    exact hquiet _ _ ⟨rfl, rfl, rfl, rfl, rfl, rfl, rfl, rfl⟩
  | succ fuel ih =>
    intro rest s t hs h
    rcases rxLoop_round hs h with hq | ⟨u, htaken, rfl | hgo⟩
    · exact hquiet s t hq
    · exact hturn s t t hs htaken (hquiet t t (.refl t))
    · exact hturn s u t hs htaken (ih (htaken.engine hs) hgo)

/-- The same for every end of DEV_RX_FRAME. -/
theorem exec_devRxFrame_ends {R : State → State → Prop} (hquiet : ∀ s t, RxQuiet s t → R s t)
    (hturn : ∀ s u t, RxEngine s → RxTaken s u → R u t → R s t) {f : List Byte} {s t : State} (hs : RxEngine s)
    (h : exec (.devRxFrame f) s = .next t) : R s t := by
  obtain ⟨-, -, h⟩ := exec_next h
  rw [bodyOf] at h
  cases hp : s.dev.resetPending with
  | true =>
    simp only [devRxFrameOp, bind_apply, get_apply, hp, Bool.not_true, require_of_false] at h
    rcases h with h | h <;> cases h
  | false =>
    rw [devRxFrameOp_apply hp] at h
    split_ifs at h
    · exact rxLoop_ends hquiet hturn hs h
    all_goals
      rcases h with h | h <;> cases h
      exact hquiet _ _ ⟨rfl, rfl, rfl, rfl, rfl, rfl, rfl, rfl⟩

/-- The device has written slots of `[RDH, RDT)` alone, their buffers and their write-back fields. -/
structure WroteOwnSlots (s t : State) : Prop where
  bytes : ∀ c, byteAt t c ≠ byteAt s c →
    ∃ i, cyclicMem s.cfg.nRx s.dev.rdh.toNat s.dev.rdt.toNat i = true ∧
      ((rxdAddr s i + 8 ≤ c ∧ c < rxdAddr s i + 16) ∨
        ((rxd s i).addr.toNat ≤ c ∧ c < (rxd s i).addr.toNat + s.cfg.rxBufSize))
  addrs : ∀ i < s.cfg.nRx, (rxd t i).addr = (rxd s i).addr
  others : ∀ i < s.cfg.nRx, cyclicMem s.cfg.nRx s.dev.rdh.toNat s.dev.rdt.toNat i = false → rxd t i = rxd s i

theorem RxQuiet.wroteOwnSlots {s t : State} (h : RxQuiet s t) : WroteOwnSlots s t :=
  ⟨fun c hc => absurd (h.byteAt c) hc, fun i _ => by rw [h.rxd], fun i _ _ => h.rxd i⟩

theorem RxTaken.wroteOwnSlots {s u t : State} (h : RxTaken s u) (hs : RxEngine s) (ht : WroteOwnSlots u t) :
    WroteOwnSlots s t := by
  have hhead := cyclicMem_head hs.head hs.tail h.ne
  have haddr (i : Nat) (hi : i < s.cfg.nRx) : (rxd u i).addr = (rxd s i).addr := by
    by_cases hih : i = s.dev.rdh.toNat
    · rw [hih, h.addr]
    · rw [h.others i hi hih]
  constructor
  · intro c hc
    by_cases hu : byteAt t c = byteAt u c
    · exact ⟨_, hhead, h.same c (hu ▸ hc)⟩
    · obtain ⟨i, hi, hwhere⟩ := ht.bytes c hu
      have hlt : i < s.cfg.nRx := h.cfg ▸ lt_of_cyclicMem hi
      rw [h.rxdAddr, haddr i hlt, h.cfg] at hwhere
      exact ⟨i, ((h.owned_iff hs hlt).1 hi).1, hwhere⟩
  · exact fun i hi => (ht.addrs i (h.cfg ▸ hi)).trans (haddr i hi)
  · intro i hi hout
    have hne : i ≠ s.dev.rdh.toNat := by
      rintro rfl
      rw [hhead] at hout
      cases hout
    have hu : cyclicMem u.cfg.nRx u.dev.rdh.toNat u.dev.rdt.toNat i = false := by
      rw [← Bool.not_eq_true, h.owned_iff hs hi, hout]
      simp
    exact (ht.others i (h.cfg ▸ hi) hu).trans (h.others i hi hne)

/-- An accepted frame stops the run where its first descriptor is not the device's. -/
theorem exec_devRxFrame_foreign {s : State} {f : List Byte} (hr : Running s) (hp : s.dev.resetPending = false)
    (he : rxEnabled s.dev = true) (ha : f.take 6 = s.cfg.localMac.bytes ∨ f.take 6 = Mac.broadcast.bytes)
    (h14 : 14 ≤ f.length) (h64k : f.length ≤ 65535) (hne : s.dev.rdh ≠ s.dev.rdt)
    (hmay : ¬ DeviceMayTouch s (devRxdAddr s.dev s.dev.rdh.toNat) 16) :
    exec (.devRxFrame f) s = .next { s with modelFault := some .ownershipViolation } := by
  have htouch : touchesSoftware s (devRxdAddr s.dev s.dev.rdh.toNat) descSize = true := by
    by_contra hno
    exact hmay ((touchesSoftware_iff _ _).1 (Bool.eq_false_iff.2 hno))
  have hloop : rxLoop (f.length + s.cfg.nRx + 1) f s =
      .error (.ended { s with modelFault := some .ownershipViolation }) := by
    rw [rxLoop, bind_of_ok (get_apply s), ite_apply, if_neg hne]
    exact bind_of_error (by rw [takeDescriptor_apply, if_pos htouch])
  rw [exec_devRxFrame hr h14 h64k, devRxFrameOp_accepted hp he ha, hloop, outcomeOf_ended]

/-- Settles O34: a turn of the loop writes the slot at RDH, which it takes from the device's slots. -/
theorem deviceWritesOnlyItsSlots : Obligations.DeviceWritesOnlyItsSlots := by
  refine ⟨fun s f hr hp he ha h14 h64k hne hmay => exec_devRxFrame_foreign hr hp he ha h14 h64k hne hmay, ?_⟩
  intro s t f hsize hoff hring hh ht hsee h
  obtain ⟨hbytes, haddrs, hothers⟩ := exec_devRxFrame_ends (R := WroteOwnSlots) (fun _ _ hq => hq.wroteOwnSlots)
    (fun _ _ _ hs htaken hrest => htaken.wroteOwnSlots hs hrest) ⟨hsize, hoff, hring, hh, ht, hsee⟩ h
  exact ⟨hbytes, haddrs, hothers⟩

/-! ### The receive ring's invariant under DEV_RX_FRAME (R316) -/

theorem RxQuiet.rxRingInv {s t : State} (h : RxQuiet s t) (hs : RxRingInv s) : RxRingInv t := by
  obtain ⟨hhead, htail, hfree, hfilled, hreserved, hseen⟩ := hs
  constructor <;> simp only [h.cfg, h.rdh, h.rdt, h.rxOwner, h.rxd]
  · exact hhead
  · exact htail
  · exact hfree
  · exact hfilled
  · exact hreserved
  · intro i hi hm
    rw [rxdAddr, h.rxRingBase]
    exact (hseen i hi hm).congr h.mem h.fenced

theorem succ_mod_ne {n a b : Nat} (ha : a < n) (hb : b < n) (h : a ≠ b) : (a + 1) % n ≠ (b + 1) % n := by
  rw [succ_mod ha, succ_mod hb]
  split <;> split <;> omega

/-- The slot filled joins those that wait for the drain; the reserved slot stays as it is. -/
theorem RxTaken.rxRingInv {s u : State} (h : RxTaken s u) (hs : RxEngine s) (hinv : RxRingInv s) : RxRingInv u where
  head := (h.engine hs).head
  tail := (h.engine hs).tail
  free := by
    intro i hi hm
    rw [h.cfg] at hi
    obtain ⟨hmem, hne⟩ := (h.owned_iff hs hi).1 hm
    rw [h.others i hi hne, h.rxOwner]
    exact hinv.free i hi hmem
  filled := by
    intro i hi hm
    rw [h.cfg] at hi
    rw [h.cfg, h.rdh, h.rdt, cyclicMem_succ_tail (succ_mod_lt hs.tail) hs.head hi
      (succ_mod_ne hs.head hs.tail h.ne)] at hm
    by_cases hih : i = s.dev.rdh.toNat
    · rw [hih]
      exact h.done
    · rw [h.others i hi hih]
      exact hinv.filled i hi (hm.resolve_right hih)
  reserved := by
    rw [h.rdt, h.others _ hs.tail h.ne.symm, h.rxOwner]
    exact hinv.reserved
  seen := by
    intro i hi hm
    rw [h.cfg] at hi
    rw [h.rxdAddr]
    refine h.sees _ _ (hinv.seen i hi ?_)
    rcases hm with hm | hm
    · exact .inl ((h.owned_iff hs hi).1 hm).1
    · exact .inr (hm.trans (by rw [h.rdt]))

theorem exec_devRxFrame_keeps_rxRingInv {s t : State} {f : List Byte} (hsize : SizesOk s.cfg)
    (hoff : DeviceBufsOffRing s) (hring : RxRingSet s) (hinv : RxRingInv s) (h : exec (.devRxFrame f) s = .next t) :
    RxRingInv t :=
  exec_devRxFrame_ends (R := fun s t => RxRingInv s → RxRingInv t) (fun _ _ hq => hq.rxRingInv)
    (fun _ _ _ hs htaken hrest hs' => hrest (htaken.rxRingInv hs hs'))
    ⟨hsize, hoff, hring, hinv.head, hinv.tail, fun i hi => hinv.seen i (lt_of_cyclicMem hi) (.inl hi)⟩ h hinv

/-! ### Both rings at INIT's end (R200, R506) -/

/-- INIT has been issued, and each buffer record lies off both rings. -/
def BufsOffRings (s : State) : Prop := s.initPhase ≠ .notIssued ∧ ∀ r ∈ s.bufs, offRings s r.base.toNat

theorem BufsOffRings.offRx {s : State} (h : BufsOffRings s) : BufsOffRx s := fun r hr => ⟨h.1, (h.2 r hr).2⟩

theorem Micro.bufsOffRings {k : Kind} {s t : State} (h : Micro k s t) (hs : BufsOffRings s) : BufsOffRings t := by
  obtain ⟨hphase, hoff⟩ := hs
  obtain ⟨-, htx, hrx⟩ := h.bases_fixed hphase
  have hsame (a : Nat) : offRings t a ↔ offRings s a := by rw [offRings, offRings, h.cfg, htx, hrx]
  refine ⟨(h.rxRing_fixed hphase).1, fun r hr => (hsame _).2 ?_⟩
  rcases h.bufs_cases with e | ⟨b, o, -, e⟩ | ⟨b, who, ha, e⟩ <;> rw [e] at hr
  · exact hoff r hr
  · obtain ⟨q, hq, hbase⟩ := mem_setOwner_bufs hr
    rw [hbase]
    exact hoff q hq
  · rw [allocState_bufs, List.mem_append, List.mem_singleton] at hr
    rcases hr with hold | rfl
    · exact hoff r (List.mem_of_mem_filter hold)
    · exact ⟨ha.offTx, ha.offRx⟩

/-- What every update keeps, INIT keeps from S4 to its end. -/
theorem initFinish_keeps {P : State → Prop} (hP : ∀ k s t, Micro k s t → P s → P t) {s t : State}
    (h : initFinish s = .ok ((), t)) (hs : P s) : P t :=
  ((traces_initFinish s).1 () t h).keeps P (fun _ _ _ _ hm => hP _ _ _ hm) hs

/-- An address in two registers of 32 bits. -/
theorem addr_of_halves (a : Addr) : a.extractLsb' 32 32 ++ a.extractLsb' 0 32 = a := by
  rw [BitVec.extractLsb'_append_extractLsb'_eq_extractLsb' (by rfl)]
  exact BitVec.extractLsb'_eq_self

theorem cyclicMem_empty {n a i : Nat} (ha : a < n) : cyclicMem n a a i = false := by
  simp [cyclicMem, cyclicLen_self ha]

section

variable {s t : State} {rb tb xb : Addr} {bs : List Addr} {rest : List (Option Addr)}

theorem AfterInit.guarded (h : AfterInit s rb tb xb bs rest t) (hsize : SizesOk s.cfg) (hrings : RingsApart s.cfg tb xb)
    (howners : OwnersSized t) (hoff : BufsOffRings t) : RingsGuarded t := by
  obtain ⟨htdbal, htdbah, htdlen, htdh, htdt⟩ := h.registers.txRing
  obtain ⟨hrdbal, hrdbah, hrdlen, hrdh, hrdt⟩ := h.registers.rxRing
  have htx : t.txRingBase = tb := by rw [h.state]
  have hrx : t.rxRingBase = xb := by rw [h.state]
  have hn := hsize.tx
  have hm := hsize.rx
  constructor
  · exact h.cfg ▸ hsize
  · rw [h.cfg, htx, hrx]
    exact hrings
  · exact ⟨by rw [htdbal, htdbah, htx, addr_of_halves], by rw [h.cfg, htdlen]⟩
  · exact ⟨by rw [hrdbal, hrdbah, hrx, addr_of_halves], by rw [h.cfg, hrdlen]⟩
  · rw [htdh, htdt, h.cfg]
    exact ⟨hn.1, hn.1⟩
  · rw [hrdh, hrdt, h.cfg]
    exact ⟨hm.1, by omega⟩
  · exact howners
  · exact hoff.2
  · exact h.registers.hidden.2.1

/-- The transmit ring is empty, with every slot done. -/
theorem AfterInit.txHalf (h : AfterInit s rb tb xb bs rest t) (hn : 1 ≤ s.cfg.nTx) : TxHalf false t := by
  obtain ⟨-, -, -, hhead, htail⟩ := h.registers.txRing
  have hempty (i : Nat) : cyclicMem t.cfg.nTx t.dev.tdh.toNat t.dev.tdt.toNat i = false := by
    rw [hhead, htail]
    exact cyclicMem_empty (by rw [h.cfg]; exact hn)
  constructor
  · have hlen : cyclicLen t.cfg.nTx t.dev.tdh.toNat t.dev.tdt.toNat = 0 := by
      rw [hhead, htail]
      exact cyclicLen_self (by rw [h.cfg]; exact hn)
    rw [txOutstanding]
    split
    · rfl
    · rw [hlen, h.registers.hidden.2.2]
  · intro i _ hi
    rw [hempty i] at hi
    cases hi
  · intro i hi _ _
    rw [(h.txRing i (h.cfg ▸ hi)).1]
    decide

/-- The receive ring is the device's but for its last slot, which is reserved, and none waits for the drain. -/
theorem AfterInit.rxHalf (h : AfterInit s rb tb xb bs rest t) (hv : s.cfg.rxInitView = .written)
    (hrings : RingsApart s.cfg tb xb) (hn : 1 ≤ s.cfg.nRx) (hc : bs.length = s.cfg.nRx) : RxHalf false t := by
  obtain ⟨-, -, -, hhead, htail⟩ := h.registers.rxRing
  have hslot (i : Nat) (hi : i < s.cfg.nRx) : hasBit (rxd t i).status bitDD = false ∧
      t.rxOwner[i]? = some (rxd t i).addr ∧ DeviceSees t (rxdAddr t i) 8 := by
    obtain ⟨hdesc, howner⟩ := h.rxRing i (by omega)
    have haddr : rxdAddr t i = xb.toNat + 16 * i := by rw [rxdAddr, h.state]; rfl
    have hapart := overlaps_false hrings.apart
    rw [hdesc, haddr]
    exact ⟨show hasBit 0 bitDD = false by decide, howner,
      h.sees _ _ (by omega) fun e => absurd (hv.symm.trans e) (by decide)⟩
  have hnext : (t.dev.rdt.toNat + 1) % t.cfg.nRx = t.dev.rdh.toNat := by
    rw [htail, hhead, h.cfg, Nat.sub_add_cancel hn, Nat.mod_self]
    rfl
  constructor
  · exact fun i hi _ => hslot i (h.cfg ▸ hi)
  · intro i _ hi _
    rw [hnext, cyclicMem_empty (by rw [hhead, h.cfg]; exact hn)] at hi
    cases hi
  · exact hslot _ (by rw [htail]; omega)

end

/-! ### Device events at INIT's last writes -/

/-- S16 and S17 write no register of the rings. -/
theorem keepsRings_initLastWrite {n : RegName} (hn : n ∈ [RegName.rdtr, .radv, .ims]) (v : Word) :
    KeepsRings (regWrite n v) := by
  refine .bind keepsRings_point fun _ => .bind .get fun s => ?_
  split
  · exact .refuse _
  · refine .update fun u h => .of_eq h rfl rfl rfl rfl rfl ?_ id rfl (.inl rfl) rfl
    simp only [List.mem_cons, List.not_mem_nil, or_false] at hn
    rcases hn with rfl | rfl | rfl <;> rfl

theorem keepsRings_initLast : KeepsRings initLast :=
  .bind (keepsRings_initLastWrite (by decide) _) fun _ =>
    .bind (keepsRings_initLastWrite (by decide) _) fun _ => keepsRings_initLastWrite (by decide) _

theorem keepsRings_initClose : KeepsRings initClose :=
  .update fun _ h => .of_eq h rfl rfl rfl rfl rfl rfl id rfl (.inl rfl) rfl

theorem restores_initLast : Restores initLast :=
  .bind (restores_regWrite _ _) fun _ => .bind (restores_regWrite _ _) fun _ => restores_regWrite _ _

theorem initClosing_ends {s t : State} (h : (initLast >>= fun _ => initClose) s = .error (.ended t)) : Failed t := by
  rcases hlast : initLast s with e | ⟨u, v⟩
  · rw [bind_of_error hlast] at h
    cases h
    exact (restores_initLast s).2 t hlast
  · rw [bind_of_ok hlast] at h
    cases h

section

variable {s t : State} {bs : List Addr} {rest : List (Option Addr)} {later : List (List DevEvent)}

/-- INIT goes on to its end only with both rings' sizes aligned. -/
theorem InitReady.aligned_of_running (h : InitReady s bs rest) (hc : bs.length = s.cfg.nRx)
    (he : outcomeOf (initFinish s) = .next t) (ht : Running t) :
    s.cfg.nTx * 16 % s.cfg.ringAlign = 0 ∧ s.cfg.nRx * 16 % s.cfg.ringAlign = 0 := by
  have hhalted {c : FatalCause} {u : State} (hu : initFinish s = .error (.ended u)) (hcause : u.halted = some c) :
      False := by
    rw [hu, outcomeOf_ended] at he
    cases he
    exact absurd ht.1 (by simp [hcause])
  by_contra hmis
  by_cases htx : s.cfg.nTx * 16 % s.cfg.ringAlign = 0
  · obtain ⟨u, hu, hcause, -⟩ := initFinish_rxMisaligned h htx hc fun hrx => hmis ⟨htx, hrx⟩
    exact hhalted hu hcause
  · obtain ⟨u, hu, hcause, -⟩ := initFinish_txMisaligned h htx
    exact hhalted hu hcause

/-- INIT from S4 on sets up both rings, whatever falls at the accesses after S15. -/
theorem InitReady.establishes (h : InitReady s bs rest)
    (hlater : later = [] ∨ s.cfg.nTx * 16 % s.cfg.ringAlign = 0 ∧ s.cfg.nRx * 16 % s.cfg.ringAlign = 0 ∧
      ∃ more, later = List.replicate (initAccesses s.cfg) [] ++ more)
    (hoff : ∀ r ∈ s.bufs, offRings s r.base.toNat) (hc : bs.length = s.cfg.nRx)
    (he : outcomeOf (initFinish (onSched later s)) = .next t) (ht : Running t) :
    RingsGuarded t ∧ TxRingInv t ∧
      (s.cfg.rxInitView = .written → RxRingInv t ∧ (later = [] → ∀ k < s.cfg.nRx, RxSlotsReady t k)) := by
  have hal : s.cfg.nTx * 16 % s.cfg.ringAlign = 0 ∧ s.cfg.nRx * 16 % s.cfg.ringAlign = 0 := by
    rcases hlater with rfl | ⟨htx, hrx, -⟩
    · rw [onSched_self h.sched] at he
      exact h.aligned_of_running hc he ht
    · exact ⟨htx, hrx⟩
  obtain ⟨x, w, -, -, -, -, -, hw, hafter, hinit, hlate⟩ := initFinish_late h hal.1 hal.2 hc
  have hbufs : BufsOffRings w :=
    initFinish_keeps (fun _ _ _ hm => hm.bufsOffRings) hinit ⟨by rw [h.phase]; decide, hoff⟩
  have howners : OwnersSized w := initFinish_keeps (fun _ _ _ hm => hm.ownersSized) hinit h.owners
  have hmid : RingsMid true false (decide (s.cfg.rxInitView = .written)) false w :=
    ⟨hafter.guarded h.sizes h.rings howners hbufs, fun _ => hafter.txHalf h.sizes.tx.1,
      fun hv => hafter.rxHalf (of_decide_eq_true hv) h.rings h.sizes.rx.1 hc⟩
  have hend : RingsMid true false (decide (s.cfg.rxInitView = .written)) false t ∧
      (later = [] → t = w) := by
    by_cases hl : later = []
    · rw [hl, onSched_self h.sched, hinit, outcomeOf_ok] at he
      cases he
      exact ⟨hmid, fun _ => rfl⟩
    · obtain ⟨more, rfl⟩ := (hlater.resolve_left hl).2.2
      rw [hlate] at he
      have hok : (initLast >>= fun _ => initClose) (onSched more x) = .ok ((), t) := by
        refine (outcomeOf_next he).resolve_right fun hended => ?_
        rcases initClosing_ends hended with hf | hf
        · exact hf ht.1
        · exact hf ht.2
      have hsame : RingSame w (onSched more x) := by
        subst hw
        exact .of_eq hmid.guard.bufs rfl rfl rfl rfl rfl rfl id rfl (.inl rfl) rfl
      exact ⟨((KeepsRings.bind keepsRings_initLast fun _ => keepsRings_initClose) _ _ _ _ _ () t
        (hsame.mid hmid).1 hok).1, fun e => absurd e hl⟩
  obtain ⟨hmidt, hquiet⟩ := hend
  refine ⟨hmidt.guard, (txRingInv_iff hmidt.guard).2 (hmidt.tx rfl), fun hv =>
    ⟨(rxRingInv_iff hmidt.guard).2 (hmidt.rx (decide_eq_true hv)), fun hl k hk => ?_⟩⟩
  rw [hquiet hl]
  exact hafter.slotsReady hv h.rings h.fresh hc hbufs.offRx hk

end

/-- The receive ring's invariant under every operation that leaves the registers to their owners. -/
theorem exec_keeps_rxRingInv {i : Instr} {s t : State} (hi : i.opcode ∉ [.init, .regWrite, .devReset])
    (hs : RingsGuarded s) (hinv : RxRingInv s) (h : exec i s = .next t) (ht : Running t) :
    RingsGuarded t ∧ RxRingInv t := by
  have hinit : i.opcode ≠ .init := fun e => hi (by simp [e])
  obtain ⟨hmid, -⟩ := bodyOf_rings (a := false) (b := true) hi ⟨hs, nofun, fun _ => (rxRingInv_iff hs).1 hinv⟩ nofun
    (exec_returns hinit h ht)
  exact ⟨hmid.guard, (rxRingInv_iff hmid.guard).2 (hmid.rx rfl)⟩

/-- Settles O35: INIT's end and its last writes (`InitReady.establishes`), the turns of DEV_RX_FRAME
(`RxTaken.rxRingInv`), and what each piece of an operation keeps of the ring (`bodyOf_rings`). -/
theorem rxRingInvKept : Obligations.RxRingInvKept := by
  refine ⟨?_, ?_, fun s t f hsize hoff hring hinv h => exec_devRxFrame_keeps_rxRingInv hsize hoff hring hinv h,
    fun i s t hi hs hinv h ht => exec_keeps_rxRingInv hi hs hinv h ht⟩
  · intro s t rb tb xb bs rest later h hlater hoff hc he ht
    obtain ⟨v, k, l, n, hexec⟩ := h.exec rb
    exact (h.ready rb _ k l n).establishes hlater hoff hc (hexec.symm.trans he) ht
  · intro s t bs rest hr hsw h hoff hc he ht
    rw [step_initReady hr hsw h] at he
    obtain ⟨hguard, htx, hrx⟩ := h.establishes (.inl rfl) hoff hc (by rw [onSched_self h.sched]; exact he) ht
    exact ⟨hguard, htx, fun hv => ⟨(hrx hv).1, (hrx hv).2 rfl⟩⟩

/-! ### The drain alone (R303 to R305) -/

theorem RingsInside.rxdAddr_le {s : State} (h : RingsInside s) {i : Nat} (hi : i < s.cfg.nRx) :
    rxdAddr s i + 16 ≤ addrSpace := by
  obtain ⟨-, hrx⟩ := h
  simp only [rxdAddr, descSize] at *
  omega

/-- Settles O36: RD1 at the slot after the reserved one ends the drain (`rxDrain_empty`). -/
theorem rxDrainEmpty : Obligations.RxDrainEmpty := by
  intro s hr hl hsize hring hdd
  rw [exec_rxDrain hr.running hr.sw, rxDrain_empty hr.sched hl hsize hring hdd, outcomeOf_ok]

/-- The drain's lock taken (RD0). -/
def rxLocked (s : State) : State := { s with locks := .rx :: s.locks }

/-- Alloc's answer depends on what the environment has fixed and on the free values used alone. -/
theorem nextAllocAnswer_congr {s t : State} {r : Option Addr} (h : (nextAllocAnswer s).1 = r)
    (ha : t.allocAns = s.allocAns) (hd : t.draws = s.draws) : (nextAllocAnswer t).1 = r := by
  unfold nextAllocAnswer at *
  rw [ha, hd]
  revert h
  cases s.allocAns <;> exact id

/-- The slot handed over with the tail write of the next one: the one reserved before. -/
theorem cyclicMem_reserved {n a b : Nat} (ha : a < n) (hb : b < n) (hne : (b + 1) % n ≠ b)
    (h : cyclicMem n a b ((b + 1) % n) = false) : cyclicMem n a ((b + 1) % n) b = true := by
  refine (cyclicMem_succ_tail ha hb hb fun e => ?_).2 (.inr rfl)
  rw [e] at h hne
  rw [cyclicMem_head ha hb hne] at h
  cases h

/-- A slot replenished leaves the descriptors of the others as they were. -/
theorem Replenished.rxd_ne {s t : State} {i j : Nat} {nb : Addr} (h : Replenished s i nb t) (hj : j < s.cfg.nRx)
    (hne : j ≠ i) : rxd t j = rxd s j := by
  have hbase : t.rxRingBase = s.rxRingBase := by rw [h.state]
  have hoff := h.offRing
  refine rxd_congr (by rw [rxdAddr, rxdAddr, hbase]) fun c c1 c2 => h.same c ?_ ?_
  all_goals
    simp only [rxdAddr, descSize] at *
    omega

section

variable {s : State} {i : Nat} {b : Addr}

/-- The first turn of the drain, by the status of its slot. -/
theorem drainLoop_first (hs : s.sched = []) (hring : RingsInside s) (hi : i < s.cfg.nRx) :
    drainLoop s.cfg.nRx s.cfg.nRx i 0 (rxLocked s) =
      if hasBit (rxd s i).status bitDD = true then
        if hasBit (rxd s i).status bitRxEop = true then
          (do deliver i 0; replenish i; drainLoop s.cfg.nRx (s.cfg.nRx - 1) ((i + 1) % s.cfg.nRx) 1 : M Nat)
            (rxLocked s)
        else .error (.ended { rxLocked s with
          halted := some .rxMultiDesc, fatalInfo := BitVec.ofNat 32 i, events := s.events ++ [.halt .rxMultiDesc] })
      else .ok (0, rxLocked s) := by
  have h := drainLoop_turn (s := rxLocked s) hs (n := s.cfg.nRx) (left := s.cfg.nRx - 1) (done := 0)
    (hring.rxdAddr_le hi)
  rw [Nat.sub_add_cancel (by omega), Nat.sub_self] at h
  exact h

/-- The first turn at a frame that CLASSIFY does not recognize: RD3, and then RD4 and RD5. -/
theorem drainLoop_first_dropped (hs : s.sched = []) (hring : RingsInside s) (hi : i < s.cfg.nRx)
    (hmine : cyclicMem s.cfg.nRx s.dev.rdh.toNat s.dev.rdt.toNat i = false)
    (hdd : hasBit (rxd s i).status bitDD = true) (heop : hasBit (rxd s i).status bitRxEop = true)
    (hb : s.rxOwner.getD i 0 = b) (hh : Holds s .rxPath b)
    (harp : ¬ (42 ≤ (rxd s i).length.toNat ∧ frameType s b = 0x0806))
    (hip : ¬ (34 ≤ (rxd s i).length.toNat ∧ frameType s b = 0x0800)) :
    drainLoop s.cfg.nRx s.cfg.nRx i 0 (rxLocked s) =
      (do replenish i; drainLoop s.cfg.nRx (s.cfg.nRx - 1) ((i + 1) % s.cfg.nRx) 1 : M Nat)
        (droppedState b (rxLocked s)) := by
  have hdeliver : deliver i 0 (rxLocked s) = .ok ((), droppedState b (rxLocked s)) :=
    deliver_dropped (s := rxLocked s) hs (hring.rxdAddr_le hi) hmine hb ⟨hh.owner, hh.size, hh.inside⟩ (by decide)
      harp hip
  rw [drainLoop_first hs hring hi, if_pos hdd, if_pos heop, bind_of_ok hdeliver]

/-- Settles O38: RD2 stops at the first turn; RD4 stops after the frame was dropped. -/
theorem rxDrainFatal : Obligations.RxDrainFatal := by
  intro s i b hr hl hsize hring hi hdd
  have hlt : i < s.cfg.nRx := hi ▸ Nat.mod_lt _ hsize.rx.1
  have hstop {t : State} (h : drainLoop s.cfg.nRx s.cfg.nRx i 0 (rxLocked s) = .error (.ended t)) :
      exec .rxDrain s = .next t := by
    rw [exec_rxDrain hr.running hr.sw, rxDrain_error hr.sched hl (hi ▸ h), outcomeOf_ended]
  constructor
  · intro heop
    refine hstop ?_
    rw [drainLoop_first hr.sched hring hlt, if_pos hdd, if_neg (by simp [heop])]
    rfl
  · intro heop hmine hb hh harp hip halloc
    have howned : ownerOf s b ≠ .allocator := by rw [hh.owner]; decide
    obtain ⟨n, hrep⟩ := replenish_fails (s := droppedState b (rxLocked s)) hr.sched (i := i)
      (nextAllocAnswer_congr halloc rfl rfl)
    refine ⟨_, hstop ((drainLoop_first_dropped hr.sched hring hlt hmine hdd heop hb hh harp hip).trans
      (bind_of_error hrep)), fun c => byteAt_droppedState b (rxLocked s) c,
      fun x => ownerOf_droppedState (s := rxLocked s) howned x, ?_⟩
    simp [droppedState, rxLocked, setOwner]

/-- The drain loop is done where no turn is left, or the next slot is not filled. -/
theorem drainLoop_done (hs : s.sched = []) (hfit : rxdAddr s i + 16 ≤ addrSpace) {left done : Nat}
    (hnext : left ≠ 0 → hasBit (rxd s i).status bitDD = false) (n : Nat) :
    drainLoop n left i done s = .ok (done, s) := by
  cases left with
  | zero => rfl
  | succ left => rw [drainLoop_turn hs hfit, if_neg (by simp [hnext])]

/-- The drain of one filled slot whose frame CLASSIFY does not recognize. -/
theorem drainLoop_one {nb : Addr} (hs : s.sched = []) (hsize : SizesOk s.cfg) (hring : RingsInside s)
    (hap : BufsApart s) (hlen : s.dev.rdlen.toNat = s.cfg.nRx * 16) (hi : i < s.cfg.nRx)
    (hmine : cyclicMem s.cfg.nRx s.dev.rdh.toNat s.dev.rdt.toNat i = false)
    (hdd : hasBit (rxd s i).status bitDD = true) (heop : hasBit (rxd s i).status bitRxEop = true)
    (hb : s.rxOwner.getD i 0 = b) (hh : Holds s .rxPath b)
    (harp : ¬ (42 ≤ (rxd s i).length.toNat ∧ frameType s b = 0x0806))
    (hip : ¬ (34 ≤ (rxd s i).length.toNat ∧ frameType s b = 0x0800))
    (hnext : 1 < s.cfg.nRx → hasBit (rxd s ((i + 1) % s.cfg.nRx)).status bitDD = false)
    (halloc : (nextAllocAnswer s).1 = some nb) (hok : allocOk (setOwner b .allocator s) nb = true) :
    ∃ v, drainLoop s.cfg.nRx s.cfg.nRx i 0 (rxLocked s) = .ok (1, v) ∧
      Replenished (droppedState b (rxLocked s)) i nb v := by
  have hapart : BufsApart (droppedState b (rxLocked s)) := (hap.setOwner b .allocator).congr rfl rfl
  obtain ⟨v, hrep, hv⟩ := replenish_ok (s := droppedState b (rxLocked s)) hs hapart hsize hring hi hmine hlen
    (nextAllocAnswer_congr halloc rfl rfl) hok
  have hsched : v.sched = [] := by rw [hv.state]; exact hs
  have hcfg : v.cfg = s.cfg := by rw [hv.state]; rfl
  have hinside : RingsInside v := by rw [hv.state]; exact hring
  have hfit := hinside.rxdAddr_le (i := (i + 1) % s.cfg.nRx) (by rw [hcfg]; exact succ_mod_lt hi)
  have hdone : s.cfg.nRx - 1 ≠ 0 → hasBit (rxd v ((i + 1) % s.cfg.nRx)).status bitDD = false := by
    intro hleft
    have hne : (i + 1) % s.cfg.nRx ≠ i := by rw [succ_mod hi]; split <;> omega
    have hsame : rxd v ((i + 1) % s.cfg.nRx) = rxd s ((i + 1) % s.cfg.nRx) :=
      (hv.rxd_ne (succ_mod_lt hi) hne).trans (rxd_droppedState b (rxLocked s) _)
    rw [hsame]
    exact hnext (by omega)
  refine ⟨v, ?_, hv⟩
  rw [drainLoop_first_dropped hs hring hi hmine hdd heop hb hh harp hip, bind_of_ok hrep,
    drainLoop_done hsched hfit hdone]

/-- The slots the device owns once the slot `i` is handed over (RD5). -/
theorem Replenished.owns_iff {nb : Addr} {v : State} (h : Replenished s i nb v) (hsize : SizesOk s.cfg)
    (hi : i < s.cfg.nRx) (j : Nat) :
    devOwnsRx v j = true ↔ cyclicMem s.cfg.nRx s.dev.rdh.toNat i j = true := by
  have hn := hsize.rx
  have hid : (BitVec.ofNat 32 i).toNat = i := by rw [BitVec.toNat_ofNat, Nat.mod_eq_of_lt (by omega)]
  rw [h.state, devOwnsRx, hid]

/-- What RX_DRAIN leaves after the one frame was dropped and its slot replenished (RD6). -/
theorem Replenished.drained {nb : Addr} {v : State} (h : Replenished (droppedState b (rxLocked s)) i nb v) :
    ({ v with locks := s.locks, events := v.events ++ [.diag (.rxProcessed 1)] } : State) = { s with
      mem := v.mem, fenced := v.fenced, bufs := v.bufs, draws := v.draws, allocAns := s.allocAns.tail
      rxOwner := s.rxOwner.set i nb, dev := { s.dev with rdt := BitVec.ofNat 32 i }
      events := s.events ++ [.dropped .unrecognized, .released b, .allocated nb, .diag (.rxProcessed 1)] } := by
  rw [h.state]
  simp [droppedState, rxLocked, setOwner]

/-- RX_DRAIN around a drain loop that returns, which has kept the lock. -/
theorem exec_rxDrain_returns (hr : ReadyAt .irqI2 s) (hl : Lock.rx ∉ s.locks) {c : Nat} {t : State}
    (h : drainLoop s.cfg.nRx s.cfg.nRx ((s.dev.rdt.toNat + 1) % s.cfg.nRx) 0 (rxLocked s) = .ok (c, t)) :
    exec .rxDrain s = .next { t with
      locks := s.locks, events := if 0 < c then t.events ++ [.diag (.rxProcessed c)] else t.events } := by
  obtain ⟨-, hlocks, -, -⟩ := (restores_drainLoop _ _ _ _ _).1 c t h
  rw [exec_rxDrain hr.running hr.sw, rxDrain_ok hr.sched hl h hlocks, outcomeOf_ok]

theorem exec_rxDrain_ends (hr : ReadyAt .irqI2 s) (hl : Lock.rx ∉ s.locks) {t : State}
    (h : drainLoop s.cfg.nRx s.cfg.nRx ((s.dev.rdt.toNat + 1) % s.cfg.nRx) 0 (rxLocked s) = .error (.ended t)) :
    exec .rxDrain s = .next t := by
  rw [exec_rxDrain hr.running hr.sw, rxDrain_error hr.sched hl h, outcomeOf_ended]

/-! ### A turn of the drain, whatever CLASSIFY does -/

/-- CLASSIFY as an operation goes on and the block runs, or it ends and the block does not. -/
theorem exec_classify_next {len : Half} {p k : Nat} {u : State} (hsw : s.sw = .drainRD3 p k)
    (h : exec (.classify b len) s = .next u) :
    (classifyOp b len s = .ok ((), u) ∧ Running u) ∨ (classifyOp b len s = .error (.ended u) ∧ ¬ Running u) := by
  obtain ⟨hr, -, hcases⟩ := exec_next h
  simp only [bodyOf, internally_apply, hsw, if_true] at hcases
  rcases hcases with hok | hended
  · obtain ⟨-, -, hhalted, hfault⟩ := (restores_classify b len s).1 () u hok
    exact .inl ⟨hok, hhalted.trans hr.1, hfault.trans hr.2⟩
  · refine .inr ⟨hended, fun hu => ?_⟩
    rcases (restores_classify b len s).2 u hended with hf | hf
    · exact hf hu.1
    · exact hf hu.2

/-- RD3 where CLASSIFY stops the run. -/
theorem deliver_ends (hs : s.sched = []) {k : Nat} (hf : rxdAddr s i + 16 ≤ addrSpace) (hd : devOwnsRx s i = false)
    (hb : s.rxOwner.getD i 0 = b) {e : Stop}
    (hu : classifyOp b (rxd s i).length { setOwner b .demux s with sw := .drainRD3 i k } = .error e) :
    deliver i k s = .error e := by
  have hlen : BitVec.ofNat 16 (leNat (bytesAt s (rxdAddr s i + offLength) 2)) = (rxd s i).length :=
    (rxd_length s i).symm
  rw [deliver, bind_of_ok (get_apply s), bind_of_ok (rxdRead_quiet hs hd (by simp only [offLength]; omega)),
    bind_of_ok (update_apply _ s), hb, hlen]
  exact callFrom_error hu


/-- A filled slot is delivered, and where CLASSIFY goes on the ring is as it was, the slot still waiting. -/
theorem deliver_waits (hs : s.sched = []) (hguard : RingsGuarded s) (hinv : RxRingInv s)
    (hi : i = (s.dev.rdt.toNat + 1) % s.cfg.nRx) (hdd : hasBit (rxd s i).status bitDD = true)
    (hb : s.rxOwner.getD i 0 = b) {k : Nat} {u : State}
    (hu : classifyOp b (rxd s i).length { setOwner b .demux s with sw := .drainRD3 i k } = .ok ((), u)) :
    deliver i k s = .ok ((), { u with sw := s.sw }) ∧ RingsMid false false true false { u with sw := s.sw } ∧
      RxWaits i { u with sw := s.sw } ∧ u.dev.rdt = s.dev.rdt := by
  have hlt : i < s.cfg.nRx := hi ▸ succ_mod_lt hinv.tail
  have hmid : RingsMid false false true false s := ⟨hguard, nofun, fun _ => (rxRingInv_iff hguard).1 hinv⟩
  have hwaits : RxWaits i s := (hmid.rx rfl).waits hinv.tail hi hdd
  have hring : RingsInside s := ⟨hguard.rings.tx, hguard.rings.rx⟩
  have hdeliver := deliver_ok hs (hring.rxdAddr_le hlt) hwaits.mine hb hu
  obtain ⟨hmidu, hkept, -⟩ := deliver_rings i k false true false s () _ hmid nofun hdeliver
  obtain ⟨-, hrdt, -⟩ := hkept.rx rfl
  exact ⟨hdeliver, hmidu, hwaits.frame hlt hkept rfl, hrdt⟩

/-- A waiting slot is replenished: the ring keeps its invariant, and the slot reserved before is the device's. -/
theorem replenish_waiting (hs : s.sched = []) (hap : BufsApart s) (hmid : RingsMid false false true false s)
    (hwaits : RxWaits i s) {nb : Addr} (halloc : (nextAllocAnswer s).1 = some nb) (hok : allocOk s nb = true) :
    ∃ v, replenish i s = .ok ((), v) ∧ Replenished s i nb v ∧ RingsGuarded v ∧ RxRingInv v ∧
      devOwnsRx v s.dev.rdt.toNat = true := by
  have hguard := hmid.guard
  obtain ⟨hhead, htail⟩ := hguard.rxCursors
  have hlt : i < s.cfg.nRx := hwaits.slot ▸ succ_mod_lt htail
  obtain ⟨v, hv, hrep⟩ := replenish_ok hs hap hguard.sizes ⟨hguard.rings.tx, hguard.rings.rx⟩ hlt hwaits.mine
    hguard.rx.length halloc hok
  obtain ⟨hmidv, -⟩ := replenish_rings hmid hlt (fun _ => hwaits) hv
  refine ⟨v, hv, hrep, hmidv.guard, (rxRingInv_iff hmidv.guard).2 (hmidv.rx rfl), ?_⟩
  refine (hrep.owns_iff hguard.sizes hlt _).2 ?_
  rw [hwaits.slot]
  exact cyclicMem_reserved hhead htail (hwaits.slot ▸ hwaits.ne) (hwaits.slot ▸ hwaits.mine)

/-- A turn of the drain at a filled slot, by how CLASSIFY and Alloc answer. -/
theorem drainLoop_delivers (hs : s.sched = []) (hap : BufsApart s) (hguard : RingsGuarded s)
    (hinv : RxRingInv s) (hi : i = (s.dev.rdt.toNat + 1) % s.cfg.nRx) (hdd : hasBit (rxd s i).status bitDD = true)
    (heop : hasBit (rxd s i).status bitRxEop = true) (hb : s.rxOwner.getD i 0 = b) (left done : Nat) {u : State}
    (hu : exec (.classify b (rxd s i).length)
      { setOwner b .demux s with sw := .drainRD3 i (s.cfg.nRx - (left + 1)) } = .next u) :
    (Running u → ∀ nb, (nextAllocAnswer u).1 = some nb → allocOk u nb = true →
      ∃ v, Replenished { u with sw := s.sw } i nb v ∧ RingsGuarded v ∧ RxRingInv v ∧
        devOwnsRx v s.dev.rdt.toNat = true ∧
        drainLoop s.cfg.nRx (left + 1) i done s = drainLoop s.cfg.nRx left ((i + 1) % s.cfg.nRx) (done + 1) v) ∧
    (Running u → (nextAllocAnswer u).1 = none → ∃ n,
      drainLoop s.cfg.nRx (left + 1) i done s = .error (.ended { u with
        sw := s.sw, allocAns := u.allocAns.tail, draws := n, halted := some .rxReplenishAlloc
        fatalInfo := BitVec.ofNat 32 i, events := u.events ++ [.halt .rxReplenishAlloc] })) ∧
    (¬ Running u → drainLoop s.cfg.nRx (left + 1) i done s = .error (.ended u)) := by
  have hlt : i < s.cfg.nRx := hi ▸ succ_mod_lt hinv.tail
  have hfit : rxdAddr s i + 16 ≤ addrSpace := RingsInside.rxdAddr_le ⟨hguard.rings.tx, hguard.rings.rx⟩ hlt
  have hturn : drainLoop s.cfg.nRx (left + 1) i done s =
      (do deliver i (s.cfg.nRx - (left + 1)); replenish i
          drainLoop s.cfg.nRx left ((i + 1) % s.cfg.nRx) (done + 1) : M Nat) s := by
    rw [drainLoop_turn hs hfit, if_pos hdd, if_pos heop]
  rw [hturn]
  rcases exec_classify_next rfl hu with ⟨hclassify, hr⟩ | ⟨hclassify, hr⟩
  · obtain ⟨hdeliver, hmid, hwaits, hrdt⟩ := deliver_waits hs hguard hinv hi hdd hb hclassify
    have hsched : u.sched = [] := (exec_trace hu).sched hs
    have hapart : BufsApart u :=
      (exec_trace hu).keeps BufsApart (fun _ _ _ _ hm => hm.bufsApart) ((hap.setOwner b .demux).congr rfl rfl)
    rw [bind_of_ok hdeliver]
    refine ⟨fun _ nb halloc hok => ?_, fun _ halloc => ?_, fun hstop => absurd hr hstop⟩
    · obtain ⟨v, hv, hrep, hguardv, hinvv, howned⟩ := replenish_waiting (s := { u with sw := s.sw }) hsched
        (hapart.congr rfl rfl) hmid hwaits (nextAllocAnswer_congr halloc rfl rfl) hok
      exact ⟨v, hrep, hguardv, hinvv, hrdt ▸ howned, bind_of_ok hv⟩
    · obtain ⟨n, hn⟩ := replenish_fails (s := { u with sw := s.sw }) hsched (i := i)
        (nextAllocAnswer_congr halloc rfl rfl)
      exact ⟨n, bind_of_error hn⟩
  · have hwaits : RxWaits i s := ((rxRingInv_iff hguard).1 hinv).waits hinv.tail hi hdd
    refine ⟨fun h => absurd h hr, fun h => absurd h hr, fun _ => ?_⟩
    exact bind_of_error (deliver_ends hs hfit hwaits.mine hb hclassify)

end

/-- Settles O37: the drain of one slot (`drainLoop_one`), the frame of the loop, its ends, and its turn
(`drainLoop_delivers`). -/
theorem rxDrainOne : Obligations.RxDrainOne := by
  refine ⟨?_, fun s hr hl => ⟨fun c t => exec_rxDrain_returns hr hl, fun t => exec_rxDrain_ends hr hl⟩, ?_, ?_⟩
  · intro s i b nb hr hl hsize hring hap hlen hi hmine hdd heop hb hh harp hip hnext halloc hok
    have hlt : i < s.cfg.nRx := hi ▸ Nat.mod_lt _ hsize.rx.1
    obtain ⟨v, hdrain, hv⟩ :=
      drainLoop_one hr.sched hsize hring hap hlen hlt hmine hdd heop hb hh harp hip hnext halloc hok
    have howned : ownerOf s b ≠ .allocator := by rw [hh.owner]; decide
    refine ⟨_, exec_rxDrain_returns hr hl (hi ▸ hdrain), ?_, fun x => ?_, fun c hc hd => ?_,
      fun hn hhead htail => ?_, ?_, ?_⟩
    · exact hv.slot.trans (by rw [rxd_droppedState]; rfl)
    · exact (hv.owners x).trans (by rw [recordedOwner_droppedState (s := rxLocked s) howned]; rfl)
    · exact (hv.same c hc hd).trans (byteAt_droppedState b (rxLocked s) c)
    · have hne : (s.dev.rdt.toNat + 1) % s.cfg.nRx ≠ s.dev.rdt.toNat := by
        rw [succ_mod htail]; split <;> omega
      exact (hv.owns_iff hsize (hi ▸ hlt) _).2 (hi ▸ cyclicMem_reserved hhead htail hne (hi ▸ hmine))
    · exact hv.seen
    · exact hv.drained
  · exact fun s n left i done => ⟨rfl, fun hs hfit hdd => drainLoop_done hs hfit (fun _ => hdd) n⟩
  · intro s left i done b _ hs hap hguard hinv hi hdd heop hb u hu
    exact drainLoop_delivers hs hap hguard hinv hi hdd heop hb left done hu

end Sys2Proof.Machine

/-! The demultiplexer family (spec/43_demux.md): what a hand-off of a buffer leaves (R351), CLASSIFY's three ends (O40,
O41), the one ARP reply and the frames that get none (O42, O43), IP_RX's outcomes (O44) and the consumer's parser
(O45). -/

namespace Sys2Proof.Machine

/-! ### A buffer handed on (R351) -/

/-- The buffer `b` is `o`'s; every byte and every other buffer's owner is as before. -/
structure HandedOn (s : State) (b : Addr) (o : Owner) (t : State) : Prop where
  bytes : SameBytes s t
  owners : ∀ x, ownerOf t x = if x = b then o else ownerOf s x

/-- What `own(b) <- o` makes of the ownership map hands the buffer on, whatever else has changed beside memory, the
device and the receive ring's records. -/
theorem HandedOn.of_setOwner {s t : State} {b : Addr} {o : Owner} (hn : ownerOf s b ≠ .allocator) (ho : o ≠ .rxPath)
    (hbufs : t.bufs = (setOwner b o s).bufs) (hmem : t.mem = s.mem) (hcfg : t.cfg = s.cfg) (hdev : t.dev = s.dev)
    (hrx : t.rxOwner = s.rxOwner) : HandedOn s b o t := by
  have hepoch : ∀ c, epochAt t c = epochAt (setOwner b o s) c := fun c => by
    rw [epochAt, epochAt, bufAt, bufAt, hbufs, hcfg, setOwner_cfg]
  refine ⟨fun c => ?_, fun x => ?_⟩
  · exact byteAt_congr (by rw [hmem]) ((hepoch c).trans (epochAt_setOwner s b o c))
  · rw [← ownerOf_setOwner s b x o (exists_record hn) ho]
    exact ownerOf_congr hbufs hcfg (by rw [hdev]; rfl) (by rw [hdev]; rfl) hrx x

/-- A drop: after some events, the buffer goes back to the allocator. -/
theorem handedOn_release {s : State} {b : Addr} (hn : ownerOf s b ≠ .allocator) (es : List Event) :
    HandedOn s b .allocator (releaseState b { s with events := s.events ++ es }) :=
  .of_setOwner hn (by decide) rfl rfl rfl rfl rfl

/-- All that a drop changes. -/
theorem release_events_eq (s : State) (b : Addr) (es : List Event) :
    releaseState b { s with events := s.events ++ es } =
      { s with bufs := (releaseState b { s with events := s.events ++ es }).bufs
               events := s.events ++ (es ++ [.released b]) } := by
  simp [releaseState, setOwner]

theorem Holds.owned {s : State} {who : Owner} {b : Addr} (h : Holds s who b) (hw : who ≠ .allocator) :
    ownerOf s b ≠ .allocator := by
  rw [h.owner]
  exact hw

/-! ### CLASSIFY (R350) -/

/-- Settles O40: C1 and C2 both fail, and C3 drops the frame (`classify_drop`). -/
theorem classifyDrops : Obligations.ClassifyDrops := by
  intro s i k b len hr hb harp hip
  have hto := handedOn_release (hb.owned (by decide)) [.dropped .unrecognized]
  refine ⟨_, ?_, hto.bytes, hto.owners, release_events_eq s b _⟩
  rw [exec_classify hr, classify_drop hr.sched hb harp hip, outcomeOf_ok]

/-- C1: a frame of the ARP type, and long enough, is ARP_RX's. -/
theorem classify_arp {s : State} (hs : s.sched = []) {b : Addr} (hb : Holds s .demux b) {len : Half}
    (hlen : 42 ≤ len.toNat) (hty : frameType s b = 0x0806) :
    classifyOp b len s = callFrom .classifyC1 (arpRxOp b len) s := by
  have harp : typeIs b len arpFrameMin ethTypeArp s = .ok (true, s) := by
    rw [hb.typeIs hs, decide_eq_true (by exact And.intro hlen hty)]
  rw [classifyOp, bind_of_ok harp, if_pos rfl]

/-- C2: a frame of the IP type, and long enough, is IP_RX's. -/
theorem classify_ip {s : State} (hs : s.sched = []) {b : Addr} (hb : Holds s .demux b) {len : Half}
    (hlen : 34 ≤ len.toNat) (hty : frameType s b = 0x0800) :
    classifyOp b len s = callFrom .classifyC2 (ipRxOp b len) s := by
  have harp : typeIs b len arpFrameMin ethTypeArp s = .ok (false, s) := by
    rw [hb.typeIs hs, decide_eq_false (fun h => absurd (hty.symm.trans h.2) (by decide))]
  have hip : typeIs b len ipFrameMin ethTypeIp s = .ok (true, s) := by
    rw [hb.typeIs hs, decide_eq_true (by exact And.intro hlen hty)]
  rw [classifyOp, bind_of_ok harp, if_neg (by decide), bind_of_ok hip, if_pos rfl]

/-- Settles O41: CLASSIFY is the call of the operation its type test picks, and a call ends as the called operation
does (`outcomeOf_callFrom`). -/
theorem classifyCalls : Obligations.ClassifyCalls := by
  intro s i k b len hr hb
  refine ⟨fun hlen hty => ?_, fun hlen hty => ?_⟩
  · rw [exec_classify hr, classify_arp hr.sched hb hlen hty, outcomeOf_callFrom (restores_arpRx b len) hr.running,
      hr.sw, exec_arpRx (s := { s with sw := .classifyC1 }) hr.running rfl]
  · rw [exec_classify hr, classify_ip hr.sched hb hlen hty, outcomeOf_callFrom (restores_ipRx b len) hr.running,
      hr.sw, exec_ipRx (s := { s with sw := .classifyC2 }) hr.running rfl]

/-! ### ARP_RX (R355) -/

/-- A2: the one query to be answered has been seen. -/
def arpMarked (s : State) : State := { s with arpSeen := true }

theorem SubmitReady.arpMarked {s : State} (h : SubmitReady s) : SubmitReady (arpMarked s) :=
  h.congr rfl rfl rfl rfl rfl rfl rfl

theorem SlotReady.arpMarked {s : State} (h : SlotReady s) : SlotReady (arpMarked s) := ⟨h.slot, h.done, h.old⟩

/-- A1: a later query is dropped. -/
theorem arpRx_suppressed {s : State} (hs : s.sched = []) {b : Addr} (hb : Holds s .demux b) (hseen : s.arpSeen = true)
    (len : Half) :
    arpRxOp b len s = .ok ((), releaseState b { s with events := s.events ++ [.dropped .arpSuppressed] }) := by
  rw [arpRxOp, bind_of_ok (get_apply s), if_pos hseen]
  exact drop_quiet hs hb.owner _

/-- A3 where Alloc fails. -/
theorem arpRx_fails {s : State} (hs : s.sched = []) (hseen : s.arpSeen = false) (ha : (nextAllocAnswer s).1 = none)
    (b : Addr) (len : Half) : ∃ n, arpRxOp b len s = .error (.ended { s with
      allocAns := s.allocAns.tail, draws := n, arpSeen := true
      halted := some .arpReplyAlloc, fatalInfo := 0, events := s.events ++ [.halt .arpReplyAlloc] }) := by
  obtain ⟨n, hn⟩ := alloc_fails (who := .demux) (s := arpMarked s) hs (nextAllocAnswer_congr ha rfl rfl)
  refine ⟨n, ?_⟩
  rw [arpRxOp, bind_of_ok (get_apply s), if_neg (by simp [hseen]), bind_of_ok (t := arpMarked s) rfl,
    bind_of_ok hn]
  rfl

/-- A5 and A6: the reply in `r` is submitted, or dropped, and the query's buffer released. -/
def arpSend (b r : Addr) : M Unit := do
  let res ← txSubmitOp .demux r 42
  whenever (decide (res = .full)) (dropReply r)
  release .demux b

/-- A2 to A4: the first query's reply stands in a fresh buffer, and A5 and A6 go on from there. -/
theorem arpRx_built {s : State} (hr : SubmitReady s) {b r : Addr} (hb : Holds s .demux b) (hseen : s.arpSeen = false)
    (ha : (nextAllocAnswer s).1 = some r) (hok : allocOk s r = true) (len : Half) :
    ∃ v, Fresh r .demux (arpMarked s) v ∧ v.copyAns = s.copyAns ∧
      bytesAt v r.toNat 42 = arpReply s.cfg (bytesAt s (b.toNat + 6) 6) (bytesAt s (b.toNat + 28) 4) ∧
      arpRxOp b len s = arpSend b r v := by
  obtain ⟨u, v, halloc, hbuild, hfresh, hcopy, hbytes⟩ := arp_built hr.arpMarked (hb.congr rfl rfl)
    (nextAllocAnswer_congr ha rfl rfl) hok
  refine ⟨v, hfresh, hcopy, hbytes, ?_⟩
  rw [arpRxOp, bind_of_ok (get_apply s), if_neg (by simp [hseen]), bind_of_ok (t := arpMarked s) rfl,
    bind_of_ok halloc]
  exact bind_of_ok hbuild

section

variable {s v : State} {b r : Addr} (hr : SubmitReady s) (hb : Holds s .demux b)
  (hfresh : Fresh r .demux (arpMarked s) v)
include hr hb hfresh

/-- The query's buffer is not the reply's. -/
theorem query_ne_reply : b ≠ r := by
  have hsize := hr.sizes.buf
  exact hfresh.ok.ne (show 0 < s.cfg.bufSize by omega) (hb.owned (by decide))

/-- A5 and A6 where the slot at TDT is free: the reply is submitted. -/
theorem arpSend_ok (hsl : SlotReady s) :
    arpSend b r v = .ok ((), releaseState b (submitState r 42 v)) ∧
      SubmittedFresh s r 42 [b] (releaseState b (submitState r 42 v)) ∧
      bytesAt (releaseState b (submitState r 42 v)) r.toNat 42 = bytesAt v r.toNat 42 := by
  have hsize := hr.sizes.buf
  have hne := query_ne_reply hr hb hfresh
  have hsub := hfresh.submittedFresh hr.arpMarked hsl.arpMarked (by decide) 42
  obtain ⟨-, -, -, hkept⟩ := hfresh.submitted hr.arpMarked hsl.arpMarked (by decide) 42
  have howner : ownerOf (submitState r 42 v) b = .demux := by
    have hold : ¬ (b ∈ [] ∨ s.txOwner.getD s.dev.tdt.toNat none = some b) := by
      rintro (h | h)
      · cases h
      · exact absurd ((hsl.old b h).1.symm.trans hb.owner) (by decide)
    exact (hsub.owners b).trans ((if_neg hne).trans ((if_neg hold).trans hb.owner))
  have hsent := hsub.release (b := b) (by rw [howner]; decide) hne
  refine ⟨?_, ⟨hsent.slot, hsent.owners, hsent.same, hsent.txOwner, hsent.seen, hsent.dev⟩, ?_⟩
  · rw [arpSend, bind_of_ok (hfresh.submit_ok hr.arpMarked hsl.arpMarked (len := 42) (by decide)
      (show 42 ≤ s.cfg.bufSize by omega))]
    exact release_own_quiet (by rw [hfresh.submitState_state 42]; exact hr.sched) howner
  · rw [bytesAt_congr fun c _ _ => byteAt_releaseState _ b c]
    exact hkept 42 (show 42 ≤ s.cfg.bufSize by omega)

omit hr hb in
/-- All that an answered query changes. -/
theorem arpSend_state (hcopy : v.copyAns = s.copyAns) {t : State} (ht : t = releaseState b (submitState r 42 v)) :
    t = { s with
      mem := t.mem, fenced := t.fenced, bufs := t.bufs, draws := t.draws, allocAns := s.allocAns.tail
      txOwner := t.txOwner, dev := t.dev, arpSeen := true
      events := s.events ++ .allocated r ::
        ((s.txOwner.getD s.dev.tdt.toNat none).toList.map Event.released ++ [.released b]) } := by
  have heq := hfresh.submitState_state 42
  generalize submitState r 42 v = w at *
  have hdraws : w.draws = v.draws := by rw [heq]
  subst ht
  refine (congrArg (releaseState b) heq).trans ?_
  simp [releaseState, setOwner, arpMarked, hcopy, hdraws]

/-- A5 and A6 where the slot at TDT is not free: the reply is dropped, and both buffers go back. -/
theorem arpSend_full (hdd : hasBit (txd s s.dev.tdt.toNat).status bitDD = false) {w : State}
    (hw : w = releaseState r { v with events := v.events ++ [.dropped .arpReplyRingFull] }) :
    arpSend b r v = .ok ((), releaseState b w) ∧ GivenBack s r [b] (releaseState b w) := by
  have hsize := hr.sizes.buf
  have hs : v.sched = [] := hfresh.sched.trans hr.sched
  have hgiven : GivenBack s r [] w := by
    obtain ⟨howners, hsame⟩ := hfresh.givenBack (by decide)
    subst hw
    exact ⟨howners, hsame⟩
  have howner : ownerOf w b = .demux :=
    (hgiven.owners b).trans ((if_neg (by simpa using query_ne_reply hr hb hfresh)).trans hb.owner)
  have hdrop : dropReply r v = .ok ((), w) := by
    rw [dropReply, drop_quiet hs ((hfresh.owners r).trans (if_pos rfl)), hw]
  refine ⟨?_, hgiven.release (by rw [howner]; decide)⟩
  rw [arpSend, bind_of_ok (hfresh.submit_full hr.arpMarked (len := 42) (by decide)
    (show 42 ≤ s.cfg.bufSize by omega) hdd), decide_eq_true rfl, whenever_true, bind_of_ok hdrop]
  exact release_own_quiet (by rw [hw]; exact hs) howner

end

/-- Settles O42: the reply is built in a fresh buffer (`arpRx_built`) and submitted (`arpSend_ok`). -/
theorem arpReplies : Obligations.ArpReplies := by
  intro s b r len hr hsub hb hseen ha hok hsl
  obtain ⟨v, hfresh, hcopy, hbytes, hrest⟩ := arpRx_built hsub hb hseen ha hok len
  obtain ⟨hsend, hsent, hkept⟩ := arpSend_ok hsub hb hfresh hsl
  refine ⟨_, ?_, hsent, hkept.trans hbytes, arpSend_state hfresh hcopy rfl⟩
  rw [exec_arpRx hr.running hr.sw, hrest, hsend, outcomeOf_ok]

/-- Settles O43: A1's drop, A5's and A6's where the ring is full (`arpSend_full`), and A3's fatal cause. -/
theorem arpNotAnswered : Obligations.ArpNotAnswered := by
  intro s b len hr hb
  have hexec : exec (.arpRx b len) s = outcomeOf (arpRxOp b len s) := exec_arpRx hr.running hr.sw
  refine ⟨fun hseen => ?_, fun r hseen hsub ha hok hdd => ?_, fun hseen ha => ?_⟩
  · have hto := handedOn_release (hb.owned (by decide)) [.dropped .arpSuppressed]
    refine ⟨_, ?_, hto.bytes, hto.owners, release_events_eq s b _⟩
    rw [hexec, arpRx_suppressed hr.sched hb hseen, outcomeOf_ok]
  · obtain ⟨v, hfresh, hcopy, -, hrest⟩ := arpRx_built hsub hb hseen ha hok len
    obtain ⟨hsend, hgiven⟩ := arpSend_full hsub hb hfresh hdd rfl
    refine ⟨_, ?_, hgiven, ?_⟩
    · rw [hexec, hrest, hsend, outcomeOf_ok]
    · refine (congrArg (fun v : State => releaseState b (releaseState r
        { v with events := v.events ++ [.dropped .arpReplyRingFull] })) hfresh.state).trans ?_
      simp [releaseState, setOwner, arpMarked, hcopy]
  · obtain ⟨n, hn⟩ := arpRx_fails hr.sched hseen ha b len
    exact ⟨n, by rw [hexec, hn, outcomeOf_ended]⟩

/-! ### The UDP header (R360 P1, R365 U1) -/

/-- The UDP header's offset in the buffer `b`, as the two parsers read it. -/
def udpOff (s : State) (b : Addr) : Nat := udpOffset (byteAt s (b.toNat + 14))

theorem udpAt_eq (s : State) (b : Addr) : udpAt s b = b.toNat + udpOff s b := by
  rw [udpAt, udpOff, udpOffset_eq, Nat.add_assoc]

theorem udpOff_le (s : State) (b : Addr) : udpOff s b ≤ 74 := udpOffset_le _

/-- A read of a held buffer relative to its UDP header. -/
theorem Holds.bufRead_udp {s : State} {who : Owner} {b : Addr} (h : Holds s who b) (hs : s.sched = [])
    (hw : who ≠ .allocator) {k n : Nat} (hn : udpOff s b + k + n ≤ s.cfg.bufSize) :
    Machine.bufRead who b (udpOff s b + k) n s = .ok (bytesAt s (udpAt s b + k) n, s) := by
  rw [h.bufRead hs hw hn, udpAt_eq, Nat.add_assoc]

/-! ### IP_RX (R360) -/

theorem portEnqueue_room {s : State} (hs : s.sched = []) {q : Nat} {e : Queue} (hq : s.portq[q]? = some e)
    (hroom : e.packets.length < s.cfg.maxQueueLen) (pkt : Packet) :
    portEnqueue q pkt s =
      .ok (true, { s with portq := s.portq.set q { e with packets := e.packets ++ [pkt] } }) := by
  rw [portEnqueue, bind_of_ok (point_quiet hs), bind_of_ok (get_apply s), hq]
  simp only [if_pos hroom]
  rfl

theorem portEnqueue_full {s : State} (hs : s.sched = []) {q : Nat} {e : Queue} (hq : s.portq[q]? = some e)
    (hfull : ¬ e.packets.length < s.cfg.maxQueueLen) (pkt : Packet) :
    portEnqueue q pkt s = .ok (false, { s with portq := s.portq.set q { e with drops := e.drops + 1 } }) := by
  rw [portEnqueue, bind_of_ok (point_quiet hs), bind_of_ok (get_apply s), hq]
  simp only [if_neg hfull]
  rfl

theorem portWake_quiet {s : State} (hs : s.sched = []) (q : Nat) :
    portWake q s = .ok ((), { s with events := s.events ++ [.wake q] }) := by
  rw [portWake, bind_of_ok (point_quiet hs), emit_apply]

/-- The end of P5 for a packet the queue took: the buffer is the queue's, and its consumers are woken. -/
theorem packetTaken_quiet {s : State} (hs : s.sched = []) (b : Addr) (q : Nat) (dport : Half) (pkt : Packet) :
    (do
      update (setOwner b (.portq q))
      emit (.enqueue dport pkt)
      portWake q : M Unit) s =
    .ok ((), setOwner b (.portq q) { s with events := s.events ++ [.enqueue dport pkt, .wake q] }) := by
  rw [bind_of_ok (update_apply _ s), bind_of_ok (emit_apply _ _), portWake_quiet (by exact hs)]
  simp [setOwner]

/-- The end of P3 where no queue is bound. -/
theorem noPort_quiet {s : State} (hs : s.sched = []) {b : Addr} (ho : ownerOf s b = .demux) (dport : Half) :
    (do
      emit (.diag (.ipRxNoPort dport))
      emit (.dropped .noPort)
      release .demux b : M Unit) s =
    .ok ((), releaseState b { s with events := s.events ++ [.diag (.ipRxNoPort dport), .dropped .noPort] }) := by
  rw [bind_of_ok (emit_apply _ s), drop_quiet (by exact hs) (by exact ho), List.append_assoc]
  rfl

section

variable {s : State} {b : Addr} {len dport sport : Half} (hs : s.sched = []) (hb : Holds s .demux b)
  (hdport : dport = be16 (bytesAt s (udpAt s b + 2) 2)) (hsport : sport = be16 (bytesAt s (udpAt s b) 2))
include hs hb hdport

/-- P3 where no queue is bound: a diagnostic, and the frame is dropped. -/
theorem ipRx_noPort (hnone : ∀ q e, ¬ BoundTo s dport q e) : ipRxOp b len s = .ok ((), releaseState b
    { s with events := s.events ++ [.diag (.ipRxNoPort dport), .dropped .noPort] }) := by
  have hsize := hb.size
  have hu := udpOff_le s b
  have hihl := hb.bufRead hs (by decide) (off := 14) (n := 1) (by omega)
  have hdp := hb.bufRead_udp hs (by decide) (k := 2) (n := 2) (by omega)
  rw [ipRxOp, bind_of_ok hihl]
  refine (bind_of_ok hdp).trans ?_
  rw [← hdport, bind_of_ok (portLookup_none hs hnone)]
  exact noPort_quiet hs hb.owner dport

include hsport

/-- P3 to P5 where a queue is bound: what becomes of the packet is the queue's answer. -/
theorem ipRx_bound (hsome : ∃ q e, BoundTo s dport q e) : ∃ q e l n, BoundTo s dport q e ∧
    ipRxOp b len s = (portEnqueue q ⟨len, sport, b⟩ >>= fun taken =>
      if taken then do
        update (setOwner b (.portq q))
        emit (.enqueue dport ⟨len, sport, b⟩)
        portWake q
      else do
        emit (.dropped .queueFull)
        release .demux b : M Unit) { s with drawAns := l, draws := n } := by
  have hsize := hb.size
  have hu := udpOff_le s b
  have hihl := hb.bufRead hs (by decide) (off := 14) (n := 1) (by omega)
  have hdp := hb.bufRead_udp hs (by decide) (k := 2) (n := 2) (by omega)
  obtain ⟨q, e, l, n, hbound, hlookup⟩ := portLookup_some hs hsome
  have hsp : bufRead .demux b (udpOff s b) 2 { s with drawAns := l, draws := n } =
      .ok (bytesAt s (udpAt s b) 2, { s with drawAns := l, draws := n }) :=
    Holds.bufRead_udp (s := { s with drawAns := l, draws := n }) (hb.congr rfl rfl) hs (by decide) (k := 0)
      (show udpOff s b + 0 + 2 ≤ s.cfg.bufSize by omega)
  refine ⟨q, e, l, n, hbound, ?_⟩
  rw [ipRxOp, bind_of_ok hihl]
  refine (bind_of_ok hdp).trans ?_
  rw [← hdport, bind_of_ok hlookup]
  refine (bind_of_ok hsp).trans ?_
  rw [← hsport]

end

/-- Settles O44: the lookup finds no queue (`ipRx_noPort`), or the queue it finds has room or not (`ipRx_bound`). -/
theorem ipRxOutcomes : Obligations.IpRxOutcomes := by
  intro s b len dport sport hr hb hdport hsport
  have hs := hr.sched
  have howned := hb.owned (by decide)
  have hexec : exec (.ipRx b len) s = outcomeOf (ipRxOp b len s) := exec_ipRx hr.running hr.sw
  refine ⟨fun hnone => ?_, fun hsome => ?_⟩
  · have hto := handedOn_release howned [.diag (.ipRxNoPort dport), .dropped .noPort]
    refine ⟨_, ?_, hto.bytes, hto.owners, release_events_eq s b _⟩
    rw [hexec, ipRx_noPort hs hb hdport hnone, outcomeOf_ok]
  · obtain ⟨q, e, l, n, hbound, hrest⟩ := ipRx_bound (len := len) hs hb hdport hsport hsome
    have ⟨_, hq, _⟩ := hbound
    by_cases hroom : e.packets.length < s.cfg.maxQueueLen
    · have htaken := packetTaken_quiet (s := { s with
        drawAns := l, draws := n, portq := s.portq.set q { e with packets := e.packets ++ [⟨len, sport, b⟩] } })
        hs b q dport ⟨len, sport, b⟩
      have hto : HandedOn s b (.portq q) (setOwner b (.portq q) { s with
          drawAns := l, draws := n, portq := s.portq.set q { e with packets := e.packets ++ [⟨len, sport, b⟩] }
          events := s.events ++ [.enqueue dport ⟨len, sport, b⟩, .wake q] }) :=
        .of_setOwner howned (by simp) rfl rfl rfl rfl rfl
      refine ⟨q, e, _, hbound, ?_, hto.bytes, ?_⟩
      · rw [hexec, hrest, bind_of_ok (portEnqueue_room (s := { s with drawAns := l, draws := n }) hs hq hroom _),
          if_pos rfl, htaken, outcomeOf_ok]
      · rw [if_pos hroom]
        exact ⟨hto.owners, rfl⟩
    · have hdrop := drop_quiet (s := { s with
        drawAns := l, draws := n, portq := s.portq.set q { e with drops := e.drops + 1 } }) hs hb.owner .queueFull
      have hto : HandedOn s b .allocator (releaseState b { s with
          drawAns := l, draws := n, portq := s.portq.set q { e with drops := e.drops + 1 }
          events := s.events ++ [.dropped .queueFull] }) :=
        .of_setOwner howned (by simp) rfl rfl rfl rfl rfl
      refine ⟨q, e, _, hbound, ?_, hto.bytes, ?_⟩
      · rw [hexec, hrest, bind_of_ok (portEnqueue_full (s := { s with drawAns := l, draws := n }) hs hq hroom _),
          if_neg (by decide), hdrop, outcomeOf_ok]
      · rw [if_neg hroom]
        exact ⟨hto.owners, by simp [releaseState, setOwner]⟩

/-! ### UDP_PAYLOAD (R365) -/

/-- The owner of a dequeued packet's buffer reads it, where it is a consumer or the caller. -/
theorem payloadReader_eq {s : State} {b : Addr} {who : Owner} (ho : ownerOf s b = who)
    (hwho : who = .caller ∨ ∃ q, who = .portq q) : payloadReader s b = who := by
  rw [payloadReader, ho]
  obtain rfl | ⟨q, rfl⟩ := hwho <;> rfl

/-- U1 to U4, each read inside the buffer. -/
theorem udpPayload_quiet {s : State} (hs : s.sched = []) {b : Addr} {who : Owner} (hb : Holds s who b)
    (hwho : who = .caller ∨ ∃ q, who = .portq q) {maxLen : BitVec 64} {count : Nat}
    (hcount : count = min (min maxLen.toNat ((be16 (bytesAt s (udpAt s b + 4) 2)).toNat - 8))
      (b.toNat + s.cfg.bufSize - (udpAt s b + 8))) :
    udpPayloadOp b maxLen s = .ok (.payload (be32 (bytesAt s (b.toNat + 26) 4)) (be16 (bytesAt s (udpAt s b) 2))
      (BitVec.ofNat 64 count) (bytesAt s (udpAt s b + 8) count), s) := by
  have hw : who ≠ .allocator := by
    rintro rfl
    simp at hwho
  have hsize := hb.size
  have hu := udpOff_le s b
  have hcount' : count = min (min maxLen.toNat ((be16 (bytesAt s (udpAt s b + 4) 2)).toNat - 8))
      (s.cfg.bufSize - (udpOff s b + 8)) := by
    have := udpAt_eq s b
    omega
  have hihl := hb.bufRead hs hw (off := 14) (n := 1) (by omega)
  have hip := hb.bufRead hs hw (off := 26) (n := 4) (by omega)
  have hsp := hb.bufRead_udp hs hw (k := 0) (n := 2) (by omega)
  have hulen := hb.bufRead_udp hs hw (k := 4) (n := 2) (by omega)
  have hdata := hb.bufRead_udp hs hw (k := 8) (n := count) (by omega)
  rw [udpPayloadOp, bind_of_ok (get_apply s), payloadReader_eq hb.owner hwho, bind_of_ok hihl, bind_of_ok hip]
  refine (bind_of_ok hsp).trans ((bind_of_ok hulen).trans ?_)
  rw [hcount'] at hdata ⊢
  exact bind_of_ok hdata

/-- Settles O45: the reads of UDP_PAYLOAD (`udpPayload_quiet`), answered to an outside caller. -/
theorem udpPayloadParses : Obligations.UdpPayloadParses := by
  intro s b who len maxLen count hr hb hwho hcount
  rw [exec_of_body hr.running rfl, bodyOf, hr.fromOutside, bind_of_ok (udpPayload_quiet hr.sched hb hwho hcount),
    answer_apply, outcomeOf_ok]

end Sys2Proof.Machine

/-! The UDP framer family (spec/44_udp_framer.md): UDP_TX's frame in its buffer and what its send leaves (O46), its four
failures (O47), and the frame as this block's own parser and CKSUM read it (O48). -/

namespace Sys2Proof.Machine

/-! ### The answer of a submission or a release -/

theorem SubmittedFresh.answered {s t : State} {r : Addr} {len : Half} {freed : List Addr}
    (h : SubmittedFresh s r len freed t) (res : OpResult) : SubmittedFresh s r len freed (answered res t) :=
  ⟨h.slot, h.owners, h.same, h.txOwner, h.seen, h.dev⟩

theorem GivenBack.answered {s t : State} {r : Addr} {freed : List Addr} (h : GivenBack s r freed t) (res : OpResult) :
    GivenBack s r freed (answered res t) := ⟨h.owners, h.same⟩

/-! ### UDP_TX (R400) -/

/-- The frame's 42 bytes of headers (F3 to F5). -/
def udpHeaders (p : Params) (sport : Half) (dstIp : Word) (dport : Half) (plen : Nat) : List Byte :=
  udpHead p plen ++ be16Bytes (cksum (udpIpHeader p dstIp plen [0x00, 0x00])) ++ udpTail p dstIp ++
    udpPorts sport dport plen

theorem udpFrame_eq_headers (p : Params) (sport : Half) (dstIp : Word) (dport : Half) (payload : List Byte) :
    udpFrame p sport dstIp dport payload = udpHeaders p sport dstIp dport payload.length ++ payload :=
  udpFrame_eq p sport dstIp dport payload

/-- F6 and F7: the payload is copied behind the headers in `r`, and the frame submitted. -/
def udpSend (r : Addr) (payload : List Byte) : M ResultCode := do
  let copied ← copyIn r 42 payload
  if copied then do
    let res ← txSubmitOp .framer r (BitVec.ofNat 16 (udpTxHdrs + payload.length))
    if res = .full then
      release .framer r
      pure .full
    else pure .ok
  else do
    release .framer r
    pure .copyFailed

section

variable {s : State} (sport : Half) (dstIp : Word) (dport : Half) {payload : List Byte}

/-- A frame that fits a buffer has a length of 16 bits. -/
theorem frameLength_toNat (hr : SubmitReady s) (hfit : 42 + payload.length ≤ s.cfg.bufSize) :
    (BitVec.ofNat 16 (udpTxHdrs + payload.length)).toNat = 42 + payload.length := by
  have hmax := hr.sizes.buf
  rw [BitVec.toNat_ofNat, udpTxHdrs]
  omega

/-- F1 where the frame is larger than a buffer. -/
theorem udpTx_tooLarge (h : s.cfg.bufSize < 42 + payload.length) :
    udpTxOp sport dstIp dport payload s = .ok (.tooLarge, s) := by
  rw [udpTxOp, bind_of_ok (get_apply s), if_pos (show s.cfg.bufSize < udpTxHdrs + payload.length from h)]
  rfl

/-- F2 where Alloc fails. -/
theorem udpTx_allocFails (hs : s.sched = []) (hfit : 42 + payload.length ≤ s.cfg.bufSize)
    (ha : (nextAllocAnswer s).1 = none) : ∃ n, udpTxOp sport dstIp dport payload s =
      .ok (.allocationFailed, { s with allocAns := s.allocAns.tail, draws := n }) := by
  obtain ⟨n, hn⟩ := alloc_fails (who := .framer) hs ha
  refine ⟨n, ?_⟩
  have hfits : ¬ s.cfg.bufSize < udpTxHdrs + payload.length := Nat.not_lt.2 hfit
  rw [udpTxOp, bind_of_ok (get_apply s), if_neg hfits, bind_of_ok hn]
  rfl

/-- F1 to F5: the headers stand in a fresh buffer, and F6 and F7 go on from there. -/
theorem udpTx_built (hr : SubmitReady s) {r : Addr} (hfit : 42 + payload.length ≤ s.cfg.bufSize)
    (ha : (nextAllocAnswer s).1 = some r) (hok : allocOk s r = true) :
    ∃ x, Fresh r .framer s x ∧ x.copyAns = s.copyAns ∧
      bytesAt x r.toNat 42 = udpHeaders s.cfg sport dstIp dport payload.length ∧
      udpTxOp sport dstIp dport payload s = udpSend r payload x := by
  obtain ⟨u, v, w, x, c, halloc, hfields, hcksum, hput, hports, hfresh, hcopy, hbytes⟩ :=
    udp_headers hr ha hok sport dstIp dport payload.length
  refine ⟨x, hfresh, hcopy, hbytes, ?_⟩
  have hfits : ¬ s.cfg.bufSize < udpTxHdrs + payload.length := Nat.not_lt.2 hfit
  rw [udpTxOp, bind_of_ok (get_apply s), if_neg hfits, bind_of_ok halloc]
  exact (bind_of_ok hfields).trans ((bind_of_ok hcksum).trans ((bind_of_ok hput).trans (bind_of_ok hports)))

end

section

variable {s x : State} {r : Addr} {payload : List Byte} (hr : SubmitReady s) (hfresh : Fresh r .framer s x)

include hr hfresh

/-- F6 and F7 where the copy succeeds and the slot at TDT is free: the whole frame is submitted. -/
theorem udpSend_ok (hsl : SlotReady s) (hfit : 42 + payload.length ≤ s.cfg.bufSize)
    (hc : x.copyAns.head? = some true) :
    ∃ y, udpSend r payload x = .ok (.ok, submitState r (BitVec.ofNat 16 (udpTxHdrs + payload.length)) y) ∧
      Fresh r .framer s y ∧ y.copyAns = x.copyAns.tail ∧
      bytesAt y r.toNat (42 + payload.length) = bytesAt x r.toNat 42 ++ payload := by
  have hlen := frameLength_toNat hr hfit
  obtain ⟨y, hcopied, hwrote, hy, hyc⟩ := copyIn_ok hfresh hr.sched hfit hc
  refine ⟨y, ?_, hy, hyc, ?_⟩
  · rw [udpSend, bind_of_ok hcopied, if_pos rfl, bind_of_ok (hy.submit_ok hr hsl (by omega) (by omega)),
      if_neg (by decide)]
    rfl
  · rw [bytesAt_add, hwrote.bytesAt, hwrote.bytesAt_outside (by omega)]

/-- F7 where the slot at TDT is not free: the buffer goes back. -/
theorem udpSend_full (hfit : 42 + payload.length ≤ s.cfg.bufSize) (hc : x.copyAns.head? = some true)
    (hdd : hasBit (txd s s.dev.tdt.toNat).status bitDD = false) :
    ∃ y, udpSend r payload x = .ok (.full, releaseState r y) ∧ Fresh r .framer s y ∧
      y.copyAns = x.copyAns.tail := by
  have hlen := frameLength_toNat hr hfit
  obtain ⟨y, hcopied, -, hy, hyc⟩ := copyIn_ok hfresh hr.sched hfit hc
  refine ⟨y, ?_, hy, hyc⟩
  have hrel : release .framer r y = .ok ((), releaseState r y) :=
    release_own_quiet (hy.sched.trans hr.sched) ((hy.owners r).trans (if_pos rfl))
  rw [udpSend, bind_of_ok hcopied, if_pos rfl, bind_of_ok (hy.submit_full hr (by omega) (by omega) hdd), if_pos rfl,
    bind_of_ok hrel]
  rfl

/-- F6 where the copy fails: the buffer goes back. -/
theorem udpSend_copyFails (hc : x.copyAns.head? = some false) :
    ∃ y, udpSend r payload x = .ok (.copyFailed, releaseState r y) ∧ Fresh r .framer s y ∧
      y.copyAns = x.copyAns.tail := by
  have hy := hfresh.withCopyAns x.copyAns.tail
  refine ⟨_, ?_, hy, rfl⟩
  have hrel : release .framer r { x with copyAns := x.copyAns.tail } =
      .ok ((), releaseState r { x with copyAns := x.copyAns.tail }) :=
    release_own_quiet (hy.sched.trans hr.sched) ((hy.owners r).trans (if_pos rfl))
  rw [udpSend, bind_of_ok (copyIn_fail hfresh hr.sched hc), if_neg (by decide), bind_of_ok hrel]
  rfl

end

/-- UDP_TX answers what its steps end with. -/
theorem exec_udpTx {s t : State} (hr : Ready s) {sport : Half} {dstIp : Word} {dport : Half} {payload : List Byte}
    {c : ResultCode} (h : udpTxOp sport dstIp dport payload s = .ok (c, t)) :
    exec (.udpTx sport dstIp dport payload) s = .next (answered (.code c) t) :=
  exec_code_ready hr rfl rfl h

section

variable {s y : State} {r : Addr} (hfresh : Fresh r .framer s y) (hcopy : y.copyAns = s.copyAns.tail)
include hfresh hcopy

/-- All that a sent frame changes. -/
theorem udpSent_state {len : Half} {t : State} (ht : t = answered (.code .ok) (submitState r len y)) :
    t = { s with
      mem := t.mem, fenced := t.fenced, bufs := t.bufs, draws := t.draws, allocAns := s.allocAns.tail
      copyAns := s.copyAns.tail, txOwner := t.txOwner, dev := t.dev
      events := s.events ++ .allocated r :: (s.txOwner.getD s.dev.tdt.toNat none).toList.map Event.released
      results := s.results ++ [.code .ok] } := by
  have heq := hfresh.submitState_state len
  generalize submitState r len y = w at *
  have hdraws : w.draws = y.draws := by rw [heq]
  subst ht
  refine (congrArg (answered (.code .ok)) heq).trans ?_
  simp [answered, hcopy, hdraws]

/-- A failure past the allocation gives the buffer back and leaks nothing (R402). -/
theorem exec_udpTx_unsent (hr : Ready s) {sport : Half} {dstIp : Word} {dport : Half} {payload : List Byte}
    {c : ResultCode} (h : udpTxOp sport dstIp dport payload s = .ok (c, releaseState r y)) :
    ∃ t, exec (.udpTx sport dstIp dport payload) s = .next t ∧ GivenBack s r [] t ∧ t = { s with
      mem := t.mem, fenced := t.fenced, bufs := t.bufs, draws := t.draws, allocAns := s.allocAns.tail
      copyAns := s.copyAns.tail
      events := s.events ++ [.allocated r, .released r], results := s.results ++ [.code c] } := by
  refine ⟨_, exec_udpTx hr h, (hfresh.givenBack (by decide)).answered _, ?_⟩
  refine (congrArg (fun v : State => answered (.code c) (releaseState r v)) hfresh.state).trans ?_
  simp [answered, releaseState, setOwner, hcopy]

end

/-- Settles O46: the headers are built in a fresh buffer (`udpTx_built`), the payload is copied behind them and the
frame submitted (`udpSend_ok`). -/
theorem udpTxSends : Obligations.UdpTxSends := by
  intro s r sport dstIp dport payload hr hsub hfit ha hok hc hsl
  obtain ⟨x, hx, hxc, hheaders, hrest⟩ := udpTx_built sport dstIp dport hsub hfit ha hok
  obtain ⟨y, hsend, hy, hyc, hframe⟩ := udpSend_ok hsub hx hsl hfit (hxc ▸ hc)
  obtain ⟨-, -, -, hkept⟩ := hy.submitted hsub hsl (by decide) (BitVec.ofNat 16 (udpTxHdrs + payload.length))
  refine ⟨_, exec_udpTx hr (hrest.trans hsend), (hy.submittedFresh hsub hsl (by decide) _).answered _, ?_,
    udpSent_state hy (hxc ▸ hyc) rfl⟩
  calc bytesAt (submitState r _ y) r.toNat (42 + payload.length)
      = bytesAt y r.toNat (42 + payload.length) := hkept _ hfit
    _ = udpFrame s.cfg sport dstIp dport payload := by rw [hframe, hheaders, udpFrame_eq_headers]

/-- Settles O47: F1's and F2's answers leave no buffer behind, and F6's and F7's failures give theirs back. -/
theorem udpTxFails : Obligations.UdpTxFails := by
  intro s sport dstIp dport payload hr
  refine ⟨fun hlarge => exec_udpTx hr (udpTx_tooLarge sport dstIp dport hlarge), fun hfit => ⟨fun ha => ?_, ?_⟩⟩
  · obtain ⟨n, hn⟩ := udpTx_allocFails sport dstIp dport hr.sched hfit ha
    exact ⟨n, exec_udpTx hr hn⟩
  intro r hsub ha hok
  obtain ⟨x, hx, hxc, -, hrest⟩ := udpTx_built sport dstIp dport hsub hfit ha hok
  refine ⟨fun hc => ?_, fun hc hdd => ?_⟩
  · obtain ⟨y, hsend, hy, hyc⟩ := udpSend_copyFails hsub hx (hxc ▸ hc)
    exact exec_udpTx_unsent hy (hxc ▸ hyc) hr (hrest.trans hsend)
  · obtain ⟨y, hsend, hy, hyc⟩ := udpSend_full hsub hx hfit (hxc ▸ hc) hdd
    exact exec_udpTx_unsent hy (hxc ▸ hyc) hr (hrest.trans hsend)

/-! ### The checksum's verification (R433) -/

/-- A checksum in its field makes up the one's-complement sum of the rest to 65535. -/
theorem onesSum_complement (n : Nat) : onesSum (n + (65535 - onesSum n)) = 65535 := by
  unfold onesSum
  split <;> split <;> omega

/-- The checksum over bytes with their own checksum in a field at an even offset. -/
theorem cksum_verifies {pre post : List Byte} (heven : pre.length % 2 = 0)
    (hlen : pre.length + 2 + post.length ≤ 65535) :
    cksum (pre ++ be16Bytes (cksum (pre ++ [0, 0] ++ post)) ++ post) = 0 := by
  have hsum (field : List Byte) (h2 : field.length = 2) :
      wordSum (pre ++ field ++ post) = wordSum pre + wordSum post + wordSum field := by
    rw [wordSum_append _ _ (by rw [List.length_append]; omega), wordSum_append _ _ heven]
    omega
  have hzero := hsum [0, 0] rfl
  have hfield := hsum (be16Bytes (cksum (pre ++ [0, 0] ++ post))) rfl
  rw [wordSum_be16Bytes, cksum_toNat (by simp; omega), hzero, show wordSum [0, 0] = 0 from rfl, Nat.add_zero] at hfield
  apply BitVec.eq_of_toNat_eq
  rw [cksum_toNat (by simp; omega), hfield, onesSum_complement]
  rfl

/-- CKSUM of memory the caller may read. -/
theorem exec_cksum_mem {s : State} (hr : Running s) (hsw : s.sw = .idle) (hs : s.sched = []) {a : Addr} {n : Half}
    (h : n.toNat = 0 ∨ CallerReads s a.toNat n.toNat) (hfit : a.toNat + n.toNat ≤ addrSpace) :
    exec (.cksum (.mem a n)) s = .next { s with
      results := s.results ++ [.checksum (cksum (bytesAt s a.toNat n.toNat))] } := by
  have hidle : require (decide (s.sw = .idle)) .softwareBusy s = .ok ((), s) := by rw [require_apply, hsw]; rfl
  rw [exec_of_body hr rfl, bodyOf, bind_of_ok (get_apply s), bind_of_ok hidle, bind_of_ok (cksumMem_quiet hs h hfit),
    answer_apply, outcomeOf_ok]

/-! ### The frame as the parser reads it (R403) -/

/-- The frame's IPv4 header carries its own checksum. -/
theorem cksum_udpIpHeader (p : Params) (dstIp : Word) (plen : Nat) :
    cksum (udpIpHeader p dstIp plen (be16Bytes (cksum (udpIpHeader p dstIp plen [0x00, 0x00])))) = 0 := by
  simp only [udpIpHeader_eq]
  exact cksum_verifies (by simp [udpHead_length]) (by simp [udpHead_length, udpTail_length])

/-- The buffer at `b` holds UDP_TX's frame. -/
def HoldsFrame (s : State) (b : Addr) (sport : Half) (dstIp : Word) (dport : Half) (payload : List Byte) : Prop :=
  bytesAt s b.toNat (42 + payload.length) = udpFrame s.cfg sport dstIp dport payload

section

variable {s : State} {b : Addr} {sport dport : Half} {dstIp : Word} {payload : List Byte}
  (hf : HoldsFrame s b sport dstIp dport payload)
include hf

/-- Part of the frame, read from the buffer. -/
theorem HoldsFrame.slice {off n : Nat} (hn : off + n ≤ 42 + payload.length) :
    bytesAt s (b.toNat + off) n = ((udpFrame s.cfg sport dstIp dport payload).drop off).take n := by
  rw [← hf, bytesAt_slice _ _ _ _ _ hn]

theorem HoldsFrame.frameType : frameType s b = 0x0800 := by
  have htype : bytesAt s (b.toNat + 12) 2 = [0x08, 0x00] := hf.slice (by omega)
  rw [Machine.frameType, htype]
  rfl

theorem HoldsFrame.ipHeader : bytesAt s (b.toNat + 14) 20 = udpIpHeader s.cfg dstIp payload.length
    (be16Bytes (cksum (udpIpHeader s.cfg dstIp payload.length [0x00, 0x00]))) :=
  hf.slice (by omega)

theorem HoldsFrame.localIp : bytesAt s (b.toNat + 26) 4 = be32Bytes s.cfg.localIp := hf.slice (by omega)

/-- The version/length byte is 0x45: five words of header. -/
theorem HoldsFrame.udpAt : udpAt s b = b.toNat + 34 := by
  have hihl : [byteAt s (b.toNat + 14)] = [0x45] := hf.slice (n := 1) (by omega)
  rw [Machine.udpAt, List.head_eq_of_cons_eq hihl]
  rfl

theorem HoldsFrame.sportField : bytesAt s (b.toNat + 34) 2 = be16Bytes sport := hf.slice (by omega)

theorem HoldsFrame.dportField : bytesAt s (b.toNat + 36) 2 = be16Bytes dport := hf.slice (by omega)

theorem HoldsFrame.udpLength (hfit : 8 + payload.length ≤ 65535) :
    (be16 (bytesAt s (b.toNat + 38) 2)).toNat = 8 + payload.length := by
  have hfield : bytesAt s (b.toNat + 38) 2 = be16Bytes (BitVec.ofNat 16 (8 + payload.length)) := hf.slice (by omega)
  rw [hfield, be16_be16Bytes, BitVec.toNat_ofNat]
  omega

theorem HoldsFrame.payloadField (n : Nat) :
    bytesAt s (b.toNat + 42) (min n payload.length) = payload.take n :=
  (hf.slice (by omega)).trans List.take_eq_take_min.symm

end

/-- Settles O48: each field the parser reads is the one UDP_TX wrote (the `HoldsFrame` lemmas), the header's checksum
verifies (`cksum_udpIpHeader`), and UDP_PAYLOAD answers as `udpPayloadParses` says. -/
theorem udpFrameParses : Obligations.UdpFrameParses := by
  intro s b who sport dport len dstIp payload maxLen hr hb hwho hfit hmax hframe
  have hf : HoldsFrame s b sport dstIp dport payload := hframe
  have hat := hf.udpAt
  refine ⟨hf.frameType, hat, by rw [hat, hf.dportField, be16_be16Bytes], fun hreads => ?_, ?_⟩
  · have hinside : b.toNat + s.cfg.bufSize ≤ 2 ^ 64 := hb.inside
    have haddr : (b + 14).toNat = b.toNat + 14 := by bv_omega
    have hheader : cksum (bytesAt s (b + 14).toNat (20 : Half).toNat) = 0 := by
      rw [haddr]
      exact (congrArg cksum hf.ipHeader).trans (cksum_udpIpHeader _ _ _)
    rw [exec_cksum_mem hr.running hr.sw hr.sched (.inr (haddr ▸ hreads))
      (show (b + 14).toNat + 20 ≤ 2 ^ 64 by omega), hheader]
  · have hcount : min maxLen.toNat payload.length = min (min maxLen.toNat
        ((be16 (bytesAt s (udpAt s b + 4) 2)).toNat - 8)) (b.toNat + s.cfg.bufSize - (udpAt s b + 8)) := by
      rw [hat, hf.udpLength (by omega)]
      omega
    rw [udpPayloadParses s b who len maxLen _ hr hb hwho hcount, hat, hf.localIp, be32_be32Bytes, hf.sportField,
      be16_be16Bytes, hf.payloadField]

end Sys2Proof.Machine

/-! The checksum family (spec/45_checksum.md): what CKSUM answers and what it may not read (O57), the accumulator that
loses no carry (O58), the two folds (O59), and the verification property (O60). -/

namespace Sys2Proof.Machine

/-! ### CKSUM of memory that is not the caller's (R430, R112) -/

section

variable {s : State} {a : Addr} {n : Half}

/-- A read of memory that stops with a model fault answers nothing. -/
theorem exec_cksum_mem_fault (hr : Running s) (hsw : s.sw = .idle) (hs : s.sched = []) {f : ModelFault}
    (h : callerReadFault s a.toNat n.toNat = some f) :
    exec (.cksum (.mem a n)) s = .next { s with modelFault := some f } := by
  have hidle : require (decide (s.sw = .idle)) .softwareBusy s = .ok ((), s) := by rw [require_apply, hsw]; rfl
  rw [exec_of_body hr rfl, bodyOf, bind_of_ok (get_apply s), bind_of_ok hidle, bind_of_error (cksumMem_fault hs h),
    outcomeOf_ended]

theorem callerReadFault_of_not_callerReads {a n : Nat} (hn : n ≠ 0) (h : ¬ CallerReads s a n) :
    ∃ f, callerReadFault s a n = some f :=
  Option.ne_none_iff_exists'.1 (mt (callerReadFault_none_iff s hn).1 h)

/-- One descriptor the device owns is enough for a region to touch the device's descriptors. -/
theorem touchesDevSlot_of_overlaps {a n : Nat} (hp : s.initPhase ≠ .notIssued)
    (h : ∃ i, (devOwnsTx s i = true ∧ overlaps a n (txdAddr s i) 16 = true) ∨
      (devOwnsRx s i = true ∧ overlaps a n (rxdAddr s i) 16 = true)) : touchesDevSlot s a n = true := by
  by_contra hfree
  obtain ⟨htx, hrx⟩ := (touchesDevSlot_eq_false s a n).1 (Bool.eq_false_iff.2 hfree) hp
  obtain ⟨i, ⟨hown, hover⟩ | ⟨hown, hover⟩⟩ := h
  · exact absurd hover (Bool.eq_false_iff.1 (htx i hown))
  · exact absurd hover (Bool.eq_false_iff.1 (hrx i hown))

end

/-- Settles O57: a byte sequence by `exec_cksum_data`, memory by what `callerReadFault` says of its bytes. -/
theorem checksumAnswers : Obligations.ChecksumAnswers := by
  intro s hr hsw
  refine ⟨fun bytes hb => exec_cksum_data hr hsw hb, fun a n hs hfit => ?_⟩
  have hzero : n = 0 ↔ n.toNat = 0 := BitVec.toNat_inj.symm
  refine ⟨fun h => exec_cksum_mem hr hsw hs (h.imp_left hzero.1) hfit, fun hn h => ?_, fun hn hp h => ?_⟩
  · obtain ⟨f, hf⟩ := callerReadFault_of_not_callerReads (mt hzero.2 hn) h
    exact ⟨f, exec_cksum_mem_fault hr hsw hs hf⟩
  · exact exec_cksum_mem_fault hr hsw hs
      (callerReadFault_slot (mt hzero.2 hn) (touchesDevSlot_of_overlaps hp h))

/-! ### The accumulator (R431) -/

/-- The bound of R431: a full word for every two bytes, and a trailing odd byte as a high byte. -/
theorem wordSum_le (bs : List Byte) : wordSum bs ≤ bs.length / 2 * 65535 + 65280 := by
  have := wordSum_bound bs
  omega

theorem cksumAcc_zero_toNat {bs : List Byte} (h : bs.length ≤ 65535) : (cksumAcc 0 bs).toNat = wordSum bs := by
  have hsum := wordSum_le bs
  have hzero : (0 : Word).toNat = 0 := rfl
  rw [cksumAcc_toNat bs 0 (by omega), hzero, Nat.zero_add]

theorem cksum_eq_not_onesSum {bs : List Byte} (h : bs.length ≤ 65535) :
    cksum bs = ~~~(BitVec.ofNat 16 (onesSum (wordSum bs))) := by
  have hle := onesSum_le (wordSum bs)
  apply BitVec.eq_of_toNat_eq
  rw [cksum_toNat h, BitVec.toNat_not, BitVec.toNat_ofNat, Nat.mod_eq_of_lt (by omega)]

/-- Settles O58: the sum stays below 2^32 (`wordSum_le`), so the accumulator is the unbounded sum. -/
theorem accumulatorBound : Obligations.AccumulatorBound :=
  fun bytes h => ⟨cksumAcc_zero_toNat h, wordSum_le bytes, by omega, cksum_eq_not_onesSum h⟩

/-! ### The folds (R432) -/

/-- The first fold's bound, and the carry it can still have. -/
theorem cksumFold_bound (s : Word) : (cksumFold s).toNat ≤ 0x1FFFE ∧
    (0x10000 ≤ (cksumFold s).toNat → (cksumFold s).toNat % 0x10000 ≤ 0xFFFE ∧ (cksumFold s).toNat / 0x10000 = 1) := by
  have hs := s.isLt
  have hfold := cksumFold_toNat s
  omega

/-- Without a carry there is nothing to fold. -/
theorem cksumFold_of_lt {s : Word} (h : s.toNat < 0x10000) : cksumFold s = s := by
  apply BitVec.eq_of_toNat_eq
  rw [cksumFold_toNat, Nat.mod_eq_of_lt h, Nat.div_eq_of_lt h, Nat.add_zero]

theorem onesSum_eq_zero (n : Nat) : onesSum n = 0 ↔ n = 0 := by
  unfold onesSum
  split <;> omega

theorem cksumFold_twice_eq_zero (s : Word) : cksumFold (cksumFold s) = 0 ↔ s = 0 := by
  rw [← BitVec.toNat_inj, cksumFold_twice, ← BitVec.toNat_inj]
  exact onesSum_eq_zero s.toNat

theorem cksum_eq_ones_iff {bs : List Byte} (h : bs.length ≤ 65535) : cksum bs = 0xFFFF ↔ ∀ b ∈ bs, b = 0 := by
  have hle := onesSum_le (wordSum bs)
  have hones : (0xFFFF : Half).toNat = 65535 := rfl
  calc cksum bs = 0xFFFF ↔ 65535 - onesSum (wordSum bs) = 65535 := by rw [← BitVec.toNat_inj, cksum_toNat h, hones]
    _ ↔ onesSum (wordSum bs) = 0 := by omega
    _ ↔ ∀ b ∈ bs, b = 0 := (onesSum_eq_zero _).trans (wordSum_eq_zero bs)

/-- Settles O59: one fold as numbers gives the bounds, and two are the one's-complement sum (`cksumFold_twice`). -/
theorem foldBound : Obligations.FoldBound := by
  refine ⟨fun s => ?_, fun bytes h => cksum_eq_ones_iff h⟩
  obtain ⟨hbound, hcarry⟩ := cksumFold_bound s
  exact ⟨cksumFold_toNat s, hbound, hcarry, cksumFold_of_lt, cksumFold_twice s ▸ onesSum_le s.toNat,
    cksumFold_twice_eq_zero s⟩

/-! ### The verification property (R433) -/

/-- Behind the one byte 0x01 its checksum 0xFEFF lies across two words, 0x01FE and 0xFF00, which sum to 0x00FF. -/
theorem cksum_odd_append_ne_zero : cksum ([0x01] ++ be16Bytes (cksum [0x01])) ≠ 0 := by decide

/-- Settles O60: `cksum_verifies` at an even offset, and one byte with its checksum behind it at an odd one. -/
theorem checksumVerifies : Obligations.ChecksumVerifies :=
  ⟨fun _ _ hpre _ hlen => cksum_verifies hpre hlen, [0x01], rfl, cksum_odd_append_ne_zero⟩

end Sys2Proof.Machine

/-! The exceptions family (spec/60_exceptions.md): which operation raises which fatal cause (O19), what taking a fatal
cause, a model fault and an interrupt writes (O20), the operands that are refused (O23), and IRQ run whole (O39). -/

namespace Sys2Proof.Machine

/-! ### Fatal causes (R460, R356) -/

/-- The fatal cause an update of this kind raises. -/
def Kind.cause : Kind → Option FatalCause
  | .fatal c => some c
  | _ => none

theorem Micro.halted_eq {k : Kind} {s t : State} (h : Micro k s t) : t.halted = k.cause.or s.halted := by
  cases h <;> rfl

/-- A trace leaves `halted` as it was, or at a cause that one of its kinds raises. -/
theorem Trace.halted_cases {ks : List Kind} {s t : State} (h : Trace ks s t) :
    t.halted = s.halted ∨ ∃ c ∈ ks.filterMap Kind.cause, t.halted = some c := by
  refine h.keeps (fun u => u.halted = s.halted ∨ ∃ c ∈ ks.filterMap Kind.cause, u.halted = some c)
    (fun k hk u v hm hu => ?_) (.inl rfl)
  rw [hm.halted_eq]
  cases hc : k.cause with
  | none => exact hu
  | some c => exact .inr ⟨c, List.mem_filterMap.2 ⟨k, hk, hc⟩, rfl⟩

/-- The causes among the updates an operation is made of are those R460 gives it. -/
theorem kindsOf_causes (i : Instr) : (kindsOf i).filterMap Kind.cause = fatalCauses i := by
  cases i <;> rfl

theorem exec_halted_cases {i : Instr} {s t : State} (h : exec i s = .next t) :
    t.halted = s.halted ∨ ∃ c ∈ fatalCauses i, t.halted = some c :=
  kindsOf_causes i ▸ (exec_trace h).halted_cases

theorem bindExhausted_not_raised : FatalCause.bindExhausted ∉ allKinds.filterMap Kind.cause := by decide

/-- A step starts with the block running, so a cause recorded after it is one that its updates raise. -/
theorem step_halted_mem {s t : State} {c : FatalCause} (h : step s = .next t) (ht : t.halted = some c) :
    c ∈ allKinds.filterMap Kind.cause := by
  obtain ⟨hrun, -, -⟩ := step_cases h
  obtain ⟨ib, sc, htrace⟩ := step_trace h
  rcases htrace.halted_cases with hsame | ⟨c', hmem, hc'⟩
  · rw [hsame.trans hrun] at ht
    cases ht
  · rw [hc', Option.some.injEq] at ht
    exact ht ▸ hmem

/-- Settles O19: only the updates that raise a cause write `halted`, and those an operation is made of raise the causes
of R460's table. -/
theorem fatalCausesByOperation : Obligations.FatalCausesByOperation :=
  ⟨fun _ _ _ h => exec_halted_cases h, fun _ _ h ht => bindExhausted_not_raised (step_halted_mem h ht)⟩

/-! ### A model fault, interrupt entry and interrupt return (R461, R468, R472, R473) -/

theorem exec_runStopped {s : State} {f : ModelFault} (hh : s.halted = none) (hf : s.modelFault = some f) (i : Instr) :
    exec i s = .fault (.runStopped f) := by
  simp only [exec_eq, runOp, hh, hf]

theorem step_runStopped {s : State} {f : ModelFault} (hh : s.halted = none) (hf : s.modelFault = some f) :
    step s = .fault (.runStopped f) := by
  simp only [step, hh, hf]

/-- Settles O20: what each of the exception operations evaluates to; the operations and the step look at `model_fault`
right after `halted`. -/
theorem exceptionEntryAndReturn : Obligations.ExceptionEntryAndReturn :=
  ⟨raiseFatal_apply, raiseModelFault_apply,
    fun _ _ hh hf => ⟨exec_runStopped hh hf, step_runStopped hh hf⟩, irqEntry_apply, irqReturn_apply⟩

/-! ### Operands out of range (R466) -/

section

variable {s : State}

theorem exec_malformed (hr : Running s) {i : Instr} {w : Malformed} (h : malformed s.cfg i = some w) :
    exec i s = .refused (.malformedOperands w) := by
  rw [exec_running hr, h]

/-- TX_SUBMIT looks at the buffer's owner before anything else. -/
theorem txSubmit_notOwned {who : Owner} {b : Addr} (h : ownerOf s b ≠ who) (len : Half) :
    txSubmitOp who b len s = .error (.refused .bufferNotOwned) := by
  simp only [txSubmitOp, bind_apply, get_apply, decide_eq_false h, require_of_false]

theorem exec_txSubmit_notOwned (hr : Running s) {b : Addr} {len : Half} (hmin : 1 ≤ len.toNat)
    (hmax : len.toNat ≤ s.cfg.bufSize) (hsw : s.sw = .idle) (hp : s.initPhase = .done) (ho : ownerOf s b ≠ .caller) :
    exec (.txSubmit b len) s = .refused .bufferNotOwned := by
  have hpass : malformed s.cfg (.txSubmit b len) = none := if_pos ⟨hmin, hmax⟩
  rw [exec_of_body hr hpass, bodyOf, fromOutside_apply, if_pos hsw, if_pos hp,
    bind_of_error (txSubmit_notOwned ho len), outcomeOf_refused]

end

/-- Settles O23: `malformed` names the check that the operands fail, and the owner is TX_SUBMIT's own check, made where
the operands pass. -/
theorem operandRefusals : Obligations.OperandRefusals :=
  fun _ hr => ⟨fun _ _ _ h => exec_malformed hr (if_neg h), fun _ _ h => exec_malformed hr (if_neg h),
    fun _ _ hmin hmax hsw hp ho => exec_txSubmit_notOwned hr hmin hmax hsw hp ho,
    fun _ h => exec_malformed hr (if_neg (Nat.not_le.2 h)), exec_malformed hr rfl,
    fun _ h => exec_malformed hr (if_neg h)⟩

/-! ### IRQ (R300, R301, R464, R472, R473) -/

/-- The state after the interrupt entry and I1, software apart: the held edge cleared and every cause acknowledged. -/
def irqAcknowledged (s : State) : State := { s with irqHeld := false, dev := { s.dev with icr := 0 } }

theorem ready_irqAcknowledged {s : State} (h : Ready s) : Ready (irqAcknowledged s) :=
  ⟨h.halted, h.modelFault, h.initPhase, h.sw, h.locks, h.sched⟩

/-- A ready state, seen from the place where an internal operation is issued. -/
theorem Ready.readyAt {s : State} (h : Ready s) (p : SwSeq) : ReadyAt p { s with sw := p } :=
  ⟨h.halted, h.modelFault, rfl, by rw [h.locks]; exact List.not_mem_nil, h.sched⟩

theorem Ready.backTo_idle {s : State} (h : Ready s) (p : SwSeq) : backTo .idle { s with sw := p } = s := by
  rw [backTo, if_pos ⟨h.halted, h.modelFault⟩, ← h.sw]

section

variable {s : State}

/-- I1 clears every cause, so the line is 0 after it and no new edge is held. -/
theorem ackAll_quiet (hs : s.sched = []) :
    regWrite .icr 0xFFFFFFFF s = .ok ((), { s with dev := { s.dev with icr := 0 } }) := by
  have hclear : writeReg s.cfg .icr 0xFFFFFFFF s.dev = { s.dev with icr := 0 } := by simp [writeReg]
  rw [regWrite_quiet hs (regWriteRefusal_interrupt s _ .icr (by decide)), hclear, setDev_noCause rfl]
  rfl

/-- The interrupt return after a call is a call that comes back to idle software. -/
theorem callFrom_irqReturn (p : SwSeq) (m : M Unit) (s : State) :
    (do callFrom p m; irqReturn : M Unit) s = callFrom p m { s with sw := .idle } := by
  simp only [callFrom, bind_apply, get_apply, update_apply, irqReturn_apply]
  cases m { s with sw := p } <;> rfl

/-- IRQ after the entry and I1 is a call of RX_DRAIN from idle software. -/
theorem irqOp_ready (hr : Ready s) : irqOp s = callFrom .irqI2 rxDrainOp (irqAcknowledged s) := by
  rw [irqOp, bind_of_ok (irqEntry_apply s), bind_of_ok (ackAll_quiet (by exact hr.sched)), callFrom_irqReturn,
    irqAcknowledged, ← hr.sw]

theorem Ready.exec_irq (hr : Ready s) :
    exec .irq s = comeBack .idle (exec .rxDrain { irqAcknowledged s with sw := .irqI2 }) := by
  have hack := ready_irqAcknowledged hr
  rw [exec_of_body hr.running rfl, bodyOf, hr.fromOutside, irqOp_ready hr,
    outcomeOf_callFrom restores_rxDrain hack.running, hack.sw, exec_rxDrain (hack.readyAt .irqI2).running rfl]

end

theorem Micro.results_unchanged {k : Kind} {s t : State} (h : Micro k s t) (hk : k ≠ .result) :
    t.results = s.results := by
  cases h with
  | result => exact absurd rfl hk
  | _ => rfl

/-- IRQ is not made of answers, those of the operations it issues included (log 29). -/
theorem irq_answers_nothing {s t : State} (h : exec .irq s = .next t) : t.results = s.results := by
  have hnot : Kind.result ∉ kindsOf .irq := by decide
  exact exec_unchanged State.results h fun _ hk _ _ hm => hm.results_unchanged fun e => hnot (e ▸ hk)

/-- With no slot filled the drain changes nothing (`rxDrainEmpty`). -/
theorem exec_irq_empty {s : State} (hr : Ready s) (hsize : SizesOk s.cfg) (hring : RingsInside s)
    (hdd : hasBit (rxd s ((s.dev.rdt.toNat + 1) % s.cfg.nRx)).status bitDD = false) :
    exec .irq s = .next { s with irqHeld := false, dev := { s.dev with icr := 0 } } := by
  have hack := ready_irqAcknowledged hr
  have hlock : Lock.rx ∉ s.locks := by rw [hr.locks]; exact List.not_mem_nil
  rw [hr.exec_irq, rxDrainEmpty _ (hack.readyAt .irqI2) hlock hsize hring hdd, comeBack, hack.backTo_idle]
  rfl

/-- Settles O39: IRQ is the entry, the acknowledge and a call of RX_DRAIN that comes back to idle software
(`Ready.exec_irq`). -/
theorem irqRuns : Obligations.IrqRuns :=
  fun _ hr => ⟨hr.exec_irq, fun _ h => irq_answers_nothing h, exec_irq_empty hr⟩

end Sys2Proof.Machine

/-! The reset state (spec/70_reset_and_hazards.md R500, spec/10_state.md R69): it meets every invariant that the steps
keep (O9). No buffer has been handed out, no cause is up, software is idle and holds no lock, memory lists nothing, the
owner records have the rings' lengths, and the parameters their reference values. -/

namespace Sys2Proof

/-- The reference parameters are legal (R8). -/
theorem Params.reference_wf : Params.reference.wf = true := by
  have hoff : Params.reference.regOff.wf = true := RegOff.reference_wf
  rw [Params.wf, hoff]
  decide

end Sys2Proof

namespace Sys2Proof.Machine

/-! ### Where no buffer has been handed out (R21, R105, R505) -/

theorem bufsApart_of_noBufs {s : State} (h : s.bufs = []) : BufsApart s where
  aligned := by simp [h]
  inside := by simp [h]
  apart := by simp [h]

theorem deviceBufsOffRing_of_noBufs {s : State} (h : s.bufs = []) : DeviceBufsOffRing s := by
  simp [DeviceBufsOffRing, h]

/-! ### The device at power-on (R500) -/

theorem irqLine_of_noCause {d : DevRegs} (h : d.icr = 0) : irqLine d = false := by
  simp [irqLine, h]

theorem powerOn_disabled : rxEnabled DevRegs.powerOn = false ∧ txEnabled DevRegs.powerOn = false := by decide

/-! ### The reset state (R69, R500) -/

theorem reset_memoryCanonical : MemoryCanonical State.reset := ⟨reset_memory_wf, reset_memory_wf⟩

/-- With no cause up the interrupt line is low, so no edge is due. -/
theorem reset_noLostEdge : NoLostEdge State.reset := (edgeHeld_of_low (irqLine_of_noCause rfl)).noLostEdge

theorem reset_softwareRests : SoftwareRests State.reset := AtRest.softwareRests ⟨.inl rfl, rfl⟩

theorem reset_ownersSized : OwnersSized State.reset := ⟨List.length_replicate, List.length_replicate⟩

/-- Settles O9: the power-on values are read off the reset state, and each invariant is its lemma above. -/
theorem resetMeetsInvariants : Obligations.ResetMeetsInvariants := by
  obtain ⟨hrx, htx⟩ := powerOn_disabled
  obtain ⟨hmem, hfenced⟩ := reset_memoryCanonical
  exact ⟨⟨rfl, rfl, rfl, rfl, hrx, htx, rfl, rfl, rfl, rfl⟩, hmem, hfenced, bufsApart_of_noBufs rfl,
    deviceBufsOffRing_of_noBufs rfl, reset_noLostEdge, reset_softwareRests, reset_ownersSized, Params.reference_wf⟩

end Sys2Proof.Machine
